-- ==== Sys2Proof/Word.lean ====
section
/-! DEFINITION. Word and number types of the Ludmor 4831. -/

namespace Sys2Proof

/-- A 32-bit word: a sample word, a register word, a bus address, the extended round count. -/
abbrev Word := BitVec 32

/-- A station number, STN[4:0]; 0 marks a listen-only station (R171). -/
abbrev StationNo := BitVec 5

/-- A stream tag; 1 to 255 name a stream (R5, R119). -/
abbrev Tag := BitVec 8

/-- A Data Slot, 0 to 47 in line order (R2). -/
abbrev SlotNo := Fin 48

/-- A stream context, 0 to 7. -/
abbrev StreamNo := Fin 8

/-- A ring index; its arithmetic is modulo 64 (R98). -/
abbrev RingIdx := BitVec 6

/-- A round stamp, the low 16 bits of the extended round count (R69). -/
abbrev Stamp := BitVec 16

/-- An instant of line time, in bit times since the end of hardware reset (log 3). -/
abbrev Instant := Nat

end Sys2Proof
end

