-- ==== Sys2Proof/Syntax.lean ====
section
/-! DEFINITION. The commands of the part: one constructor of `Instr` per row of the table, and the
types of their operands. The rows give no operands; those here are what each row's rule needs. -/

namespace Sys2Proof

/-- The straps as sampled at the end of a hardware reset (R171). -/
structure Straps where
  stn : StationNo
  rate : BitVec 2
  autojoin : Bool
deriving DecidableEq, Repr

/-- The cell kinds, in the order of their KIND codes 0 to 7 (R4). -/
inductive CellKind where
  | mark | data | fill | keep | join | leave | claim | release
deriving DecidableEq, Repr

/-- The kinds a Data Slot carries, with what a DATA cell carries beside its tag (R4, R11). -/
inductive DataKind where
  | data (boundary : Bool) (word : Word)
  | fill
  | keep
deriving DecidableEq, Repr

/-- The two Open Slots of a Round (R2). -/
inductive OpenSlot where
  | a | b
deriving DecidableEq, Repr

/-- The start of an Open Slot as it reaches the Control Cell Queue (R51; log 8). It comes after every
withdrawal made so far, or before some of them: `late` then names the entry that was still the head,
by its place among the heads withdrawn since the last Mark or Open Slot start. -/
inductive SlotStart where
  | onTime (which : OpenSlot)
  | late (which : OpenSlot) (place : Nat)
deriving DecidableEq, Repr

/-- Where on the line a cell is sent or heard: a position of the Round (R2), or outside any
position, as a MARK can be while the Line Unit is UNSYNCED (R8, R16). -/
inductive Position where
  | markField
  | dataSlot (slot : SlotNo)
  | openSlot (which : OpenSlot)
  | outside
deriving DecidableEq, Repr

/-- The fields of a MARK beside its sender (R4). -/
structure MarkFields where
  round : BitVec 8
  takeover : Bool
  cold : Bool
  rank : BitVec 3
  next : StationNo
  bitmap : Word
deriving DecidableEq, Repr

/-- A cell's content, by kind (R4). -/
inductive Cell where
  | mark (sender : StationNo) (fields : MarkFields)
  | inSlot (sender : StationNo) (tag : Tag) (kind : DataKind)
  | join (sender : StationNo)
  | leave (sender : StationNo)
  | claim (sender : StationNo) (tag : Tag) (slot : SlotNo)
  | release (sender : StationNo) (tag : Tag) (slot : SlotNo)
deriving DecidableEq, Repr

/-- The clean MARK that anchors a Round: this station's own with an echo match, or another
station's, whose preamble began at `onset` (R13, R16, R17). -/
inductive MarkHeard where
  | own
  | other (onset : Instant) (sender : StationNo) (fields : MarkFields)
deriving DecidableEq, Repr

/-- The configuration words of a stream context (R167). -/
inductive ConfigWord where
  | config | mask | ringBase
deriving DecidableEq, Repr

/-- Whose flag or enable word is written (R156). -/
inductive EventScope where
  | station
  | stream (k : StreamNo)
deriving DecidableEq, Repr

/-- The commands: one constructor per row of spec/opcode_table.json, in the table's order. -/
inductive Instr where
  /-- RESET# is asserted, or power comes up (R172). -/
  | hardwareReset
  /-- RESET# is released with these levels on the straps (R171). -/
  | resetRelease (straps : Straps)
  /-- A carrier onset at this instant (R15). -/
  | carrierOnset (onset : Instant)
  /-- The Line Unit starts this Data Slot (R7, R24, R145). -/
  | dataSlotStart (slot : SlotNo)
  /-- The grace count of stream `k` runs out at a held slot (R129). -/
  | graceExpiry (k : StreamNo)
  /-- The echo result of the own Data Slot cell; `slotAgentFirst` says which of its two receivers
  takes it first (R7, R12, R124; log 6). -/
  | dataSlotEcho (matched slotAgentFirst : Bool)
  /-- A clean DATA, FILL or KEEP in a Data Slot in which this station did not send (R27). -/
  | cleanDataCell (slot : SlotNo) (sender : StationNo) (tag : Tag) (kind : DataKind)
  /-- A Data Slot reported garbled, or silent (R29). -/
  | garbledOrSilentDataSlot (slot : SlotNo) (garbled : Bool)
  /-- The aging of an entry already silent seven times (R29; log 7). -/
  | aging (slot : SlotNo)
  /-- The Line Unit starts an Open Slot (R7, R50), before or after withdrawals close to it (R51). -/
  | openSlotStart (which : SlotStart)
  /-- The echo result of the own control cell (R53 to R55). -/
  | openSlotEcho (matched : Bool)
  /-- A clean CLAIM in an Open Slot (R30). -/
  | cleanClaim (which : OpenSlot) (sender : StationNo) (slot : SlotNo) (tag : Tag)
  /-- A clean RELEASE in an Open Slot (R31). -/
  | cleanRelease (which : OpenSlot) (sender : StationNo) (slot : SlotNo) (tag : Tag)
  /-- A clean LEAVE in an Open Slot (R32). -/
  | cleanLeave (which : OpenSlot) (sender : StationNo)
  /-- A clean JOIN in an Open Slot (R83). -/
  | cleanJoin (which : OpenSlot) (sender : StationNo)
  /-- A clean cell with this station's own number where it did not send; `ended` is the instant
  the cell ended (R14, R96). -/
  | duplicateAddressSighting (position : Position) (kind : CellKind) (ended : Instant)
  /-- The mark window opens (R17, R71). -/
  | markWindowOpen
  /-- The expected instant; `carrier` says whether carrier is present then (R8, R72; log 4). -/
  | dutyMark (carrier : Bool)
  /-- The takeover instant of the plan's rank (R73). -/
  | takeoverMark (carrier : Bool)
  /-- The expiry instant of the recovery wait (R76). -/
  | recoveryWaitExpiry (carrier : Bool)
  /-- The expiry instant of the cold-start wait (R79). -/
  | coldStartWaitExpiry (carrier : Bool)
  /-- A clean MARK that anchors a Round; `order` numbers the order in which the blocks take it
  (R13, R17; log 6). -/
  | cleanMark (heard : MarkHeard) (order : Fin 24)
  /-- The second clean Mark counted in LISTENING (R88; log 7). -/
  | learnCountDone
  /-- The join timer reaches 0 (R90; log 7). -/
  | joinTimerExpiry
  /-- The backoff of this COLLIDED entry reaches 0 (R33; log 7). -/
  | backoffExpiry (slot : SlotNo)
  /-- The pause timer of stream `k` reaches 0 (R33; log 7). -/
  | pauseTimerExpiry (k : StreamNo)
  /-- The head's wait reaches 0 (R49; log 7). -/
  | headWaitExpiry
  /-- A garbled Mark Field candidate that ended at this instant (R17, R74). -/
  | garbledMarkField (ended : Instant)
  /-- The echo of the own MARK mismatches (R75). -/
  | markEchoMismatch
  /-- The mark window closes without a clean MARK (R18, R77). -/
  | marklessRound
  /-- 153 ST without a clean MARK (R19, R78, R94). -/
  | syncLoss
  /-- A write of the READY word of stream `k` (R101, R168). -/
  | readyWrite (k : StreamNo) (value : Word)
  /-- The initiator grants the next waiting stream, which presents its access (R104, R105). -/
  | accessIssue
  /-- The reply to a descriptor fetch: the words at offsets 0 and 4 (R106). -/
  | descriptorFetchReply (k : StreamNo) (addressWord controlWord : Word)
  /-- The reply to a buffer read (R107). -/
  | bufferReadReply (k : StreamNo) (words : List Word)
  /-- The acknowledgement of a buffer write (R109). -/
  | bufferWriteAck (k : StreamNo)
  /-- The acknowledgement of a record write (R112). -/
  | recordWriteAck (k : StreamNo)
  /-- An error response to the access of stream `k` (R117). -/
  | accessError (k : StreamNo)
  /-- COMMAND written with code 1; the stream index field is ignored (R88, R169). -/
  | join (index : BitVec 4)
  /-- COMMAND written with code 2 (R92, R169). -/
  | leave (index : BitVec 4)
  /-- COMMAND written with code 3 (R122, R123, R142). -/
  | start (k : StreamNo)
  /-- COMMAND written with code 4 (R132, R150). -/
  | stop (k : StreamNo)
  /-- COMMAND written with code 5 (R131, R149). -/
  | pause (k : StreamNo)
  /-- COMMAND written with code 6 (R131, R149). -/
  | resume (k : StreamNo)
  /-- COMMAND written with code 7 (R137, R154). -/
  | resetStream (k : StreamNo)
  /-- COMMAND written with code 8 (R162, R169). -/
  | clearCounters (index : BitVec 4)
  /-- COMMAND written with a code or a stream index that names nothing (R169). -/
  | badCommand (code index : BitVec 4)
  /-- A write to a configuration word of stream `k` (R167). -/
  | configWrite (k : StreamNo) (which : ConfigWord) (value : Word)
  /-- A write to a flag word (R157). -/
  | flagWrite (scope : EventScope) (value : Word)
  /-- A write to an enable word (R158). -/
  | enableWrite (scope : EventScope) (value : Word)
  /-- A write to a read-only or unnamed word; `index` is bits 9:2 of the offset (R165). -/
  | registerWrite (index : BitVec 8) (value : Word)
  /-- A target access, a read (`none`) or a write, while RESET# is asserted (R165). -/
  | targetAccessDuringReset (index : BitVec 8) (written : Option Word)
deriving DecidableEq, Repr

end Sys2Proof
end

