-- ==== Sys2Proof/Decode.lean ====
section
/-! DEFINITION. Words and commands: the table gives no row any bits, so no word spells a command. -/

namespace Sys2Proof

/-- The command a word spells by the table's bits. No row of spec/opcode_table.json has bits
("n_rows_with_fixed": 0, "n_rows_with_fields": 0 in spec/98_reader.md). -/
def decodeTableWord (_nbits _w : Nat) : Option Instr := none

end Sys2Proof
end

