-- ==== Sys2Proof/Config.lean ====
section
/-! DEFINITION. Constants of the line and the part, and the one free value the spec leaves. -/

namespace Sys2Proof.Config

/-- One Slot Time in bit times (R1). -/
def slotTime : Nat := 96

/-- The cell period of a Slot Time in bit times (R1). -/
def cellTime : Nat := 80

/-- The guard of a Slot Time in bit times, and the alignment allowed to a carrier onset (R1, R9). -/
def guardTime : Nat := 16

/-- From an anchor to the expected instant of the next Round: 51 ST (R3). -/
def roundTime : Nat := 51 * slotTime

/-- From the expected instant to the close of the mark window: 8 ST (R17). -/
def markWindow : Nat := 8 * slotTime

/-- Sync loss is delivered 153 ST after its reference (R19). -/
def syncLossTime : Nat := 153 * slotTime

/-- Entries of a staging FIFO (R107, R143). -/
def fifoDepth : Nat := 16

/-- Entries of the Control Cell Queue (R45). -/
def queueDepth : Nat := 8

/-- The hold limit: own Slot Map entries at one time (R22). -/
def holdLimit : Nat := 16

/-- Largest sum of wanted counts over Talk Streams not STOPPED (R122). -/
def commitLimit : Nat := 16

/-- Clean Marks a stream's claims pause after CONTENTION (R37). -/
def claimPause : Nat := 16

/-- Clean Marks a JOIN that went out cleanly is waited for (R90). -/
def joinWait : Nat := 16

/-- Join attempts for one JOIN command or one expulsion (R90). -/
def joinAttempts : Nat := 4

/-- The attempt at which a further mismatch ends a queue entry (R55). -/
def lastAttempt : Nat := 6

/-- DESIGN CHOICE (log 9): the NOTIFY bit an ABORTED record carries when the descriptor at C was
never fetched. The spec says the record carries "C's NOTIFY bit" (R114, R115) and that the abort
"does not wait for C's descriptor to have been fetched", so no value is stated. A free value:
it has no body, and each draw takes a fresh argument. -/
opaque unfetchedNotify : Nat → Bool

end Sys2Proof.Config
end

