-- ==== Sys2Proof/WellFormed.lean ====
section
/-! DEFINITION. Which commands can occur: the value rules a clean cell meets, and the operands
that keep a row apart from the other rows of the same event. -/

namespace Sys2Proof

/-- The kinds a position allows (R11); outside a position only a MARK can be clean (R16). -/
def CellKind.allowedAt : Position → CellKind → Bool
  | .markField, .mark | .outside, .mark => true
  | .dataSlot _, .data | .dataSlot _, .fill | .dataSlot _, .keep => true
  | .openSlot _, .join | .openSlot _, .leave | .openSlot _, .claim | .openSlot _, .release => true
  | _, _ => false

/-- A COMMAND word that names no command, or a stream command with an index above 7 (R169). -/
def commandNamesNothing (code index : BitVec 4) : Bool :=
  code == 0 || 9 ≤ code.toNat || (3 ≤ code.toNat && code.toNat ≤ 7 && 8 ≤ index.toNat)

/-- The words of the window a write can change something in: COMMAND, the flag and enable words,
and the CONFIG, MASK, RING BASE and READY words of each context (R165 and the tables of 10.2). -/
def writableIndex (index : BitVec 8) : Bool :=
  let n := index.toNat
  n == 4 || n == 16 || n == 17 || (24 ≤ n && n < 40) || (64 ≤ n && n < 128 && n % 8 < 4)

/-- The value rules of R5 on a MARK's fields, with bit 0 of the bitmap as it is read. -/
def MarkFields.wf (m : MarkFields) : Bool := m.next != 0 && !m.bitmap.getLsbD 0

/-- The commands that can occur. -/
def Instr.wf : Instr → Bool
  | .cleanDataCell _ sender tag _ => sender != 0 && tag != 0
  | .cleanClaim _ sender _ tag => sender != 0 && tag != 0
  | .cleanRelease _ sender _ tag => sender != 0 && tag != 0
  | .cleanLeave _ sender => sender != 0
  | .cleanJoin _ sender => sender != 0
  | .duplicateAddressSighting position kind _ => kind.allowedAt position
  | .cleanMark (.other _ sender fields) _ => sender != 0 && fields.wf
  | .cleanMark .own _ => true
  | .bufferReadReply _ words => 1 ≤ words.length && words.length ≤ 16
  | .badCommand code index => commandNamesNothing code index
  | .registerWrite index _ => !writableIndex index
  | .hardwareReset | .resetRelease _ | .carrierOnset _ | .dataSlotStart _ | .graceExpiry _
  | .dataSlotEcho _ _ | .garbledOrSilentDataSlot _ _ | .aging _ | .openSlotStart _
  | .openSlotEcho _ | .markWindowOpen | .dutyMark _ | .takeoverMark _ | .recoveryWaitExpiry _
  | .coldStartWaitExpiry _ | .learnCountDone | .joinTimerExpiry | .backoffExpiry _
  | .pauseTimerExpiry _ | .headWaitExpiry | .garbledMarkField _ | .markEchoMismatch
  | .marklessRound | .syncLoss | .readyWrite _ _ | .accessIssue | .descriptorFetchReply _ _ _
  | .bufferWriteAck _ | .recordWriteAck _ | .accessError _ | .join _ | .leave _ | .start _
  | .stop _ | .pause _ | .resume _ | .resetStream _ | .clearCounters _ | .configWrite _ _ _
  | .flagWrite _ _ | .enableWrite _ _ | .targetAccessDuringReset _ _ => true

end Sys2Proof
end

