-- ==== Sys2Proof/Machine/Operands.lean ====
section
/-! DEFINITION. The cell on the line: content layout, check, value rules, and the classification of
what is heard in a position (sections 1.3 and 1.5). -/

namespace Sys2Proof

/-! ### Content (R4) -/

/-- The KIND code of a cell kind (R4). -/
def CellKind.code : CellKind → BitVec 4
  | .mark => 0 | .data => 1 | .fill => 2 | .keep => 3
  | .join => 4 | .leave => 5 | .claim => 6 | .release => 7

/-- The kind of a Data Slot cell. -/
def DataKind.kind : DataKind → CellKind
  | .data _ _ => .data | .fill => .fill | .keep => .keep

/-- The kind of a cell. -/
def Cell.kind : Cell → CellKind
  | .mark _ _ => .mark
  | .inSlot _ _ d => d.kind
  | .join _ => .join
  | .leave _ => .leave
  | .claim _ _ _ => .claim
  | .release _ _ _ => .release

/-- The sender of a cell. -/
def Cell.sender : Cell → StationNo
  | .mark x _ | .inSlot x _ _ | .join x | .leave x | .claim x _ _ | .release x _ _ => x

/-- The six fields side by side: KIND 63:60, SENDER 59:55, FLAGS 54:52, TAG 51:44, AUX 43:32,
PAYLOAD 31:0 (R4). -/
def content (kind : BitVec 4) (sender : StationNo) (boundary takeover cold : Bool) (tag : BitVec 8)
    (aux : BitVec 12) (payload : Word) : BitVec 64 :=
  kind ++ sender ++ BitVec.ofBool boundary ++ BitVec.ofBool takeover ++ BitVec.ofBool cold ++ tag
    ++ aux ++ payload

/-- The AUX field of a CLAIM or RELEASE: the slot number in bits 37:32 (R4, R52). -/
def slotAux (slot : SlotNo) : BitVec 12 := BitVec.ofNat 12 slot.val

/-- The 64 content bits of a cell, 0 in every bit R4 marks "sent as 0" (R4, R7). -/
def Cell.encode : Cell → BitVec 64
  | .mark x m =>
      content 0 x false m.takeover m.cold m.round (m.next ++ m.rank ++ 0#4)
        (m.bitmap &&& 0xFFFFFFFE#32)
  | .inSlot x t (.data b w) => content 1 x b false false t 0 w
  | .inSlot x t .fill => content 2 x false false false t 0 0
  | .inSlot x t .keep => content 3 x false false false t 0 0
  | .join x => content 4 x false false false 0 0 0
  | .leave x => content 5 x false false false 0 0 0
  | .claim x t i => content 6 x false false false t (slotAux i) 0
  | .release x t i => content 7 x false false false t (slotAux i) 0

/-- The slot number of a CLAIM or RELEASE; 48 to 63 breaks the value rules (R5). -/
def slotOf (c : BitVec 64) : Option SlotNo :=
  let n := (c.extractLsb' 32 6).toNat
  if h : n < 48 then some ⟨n, h⟩ else none

/-- The decoded fields of 64 content bits, or none where a value rule of R5 makes the cell garbled.
Fields "sent as 0" are ignored (R4), and flags are read only for the kinds that use them (R5). -/
def Cell.decode (c : BitVec 64) : Option Cell :=
  let sender := c.extractLsb' 55 5
  let tag := c.extractLsb' 44 8
  let payload := c.extractLsb' 0 32
  if sender = 0 then none
  else match (c.extractLsb' 60 4).toNat with
    | 0 =>
        let next := c.extractLsb' 39 5
        if next = 0 then none
        else some (.mark sender
          { round := tag, takeover := c.getLsbD 53, cold := c.getLsbD 52,
            rank := c.extractLsb' 36 3, next := next, bitmap := payload &&& 0xFFFFFFFE#32 })
    | 1 => if tag = 0 then none else some (.inSlot sender tag (.data (c.getLsbD 54) payload))
    | 2 => if tag = 0 then none else some (.inSlot sender tag .fill)
    | 3 => if tag = 0 then none else some (.inSlot sender tag .keep)
    | 4 => some (.join sender)
    | 5 => some (.leave sender)
    | 6 => if tag = 0 then none else (slotOf c).map (.claim sender tag)
    | 7 => if tag = 0 then none else (slotOf c).map (.release sender tag)
    | _ => none

/-- The cells a sender can form: sender, tag and next holder not 0, bit 0 of the bitmap 0 (R4, R5). -/
def Cell.wf : Cell → Bool
  | .mark x m => x != 0 && m.wf
  | .inSlot x t _ => x != 0 && t != 0
  | .join x | .leave x => x != 0
  | .claim x t _ | .release x t _ => x != 0 && t != 0

/-! ### The check (R6) -/

/-- One bit into the CRC-8 with generator x^8 + x^2 + x + 1. -/
def crcStep (crc : BitVec 8) (bit : Bool) : BitVec 8 :=
  if (crc.msb ^^ bit) then (crc <<< 1) ^^^ 0x07#8 else crc <<< 1

/-- The content bits in the order they are sent, bit 63 first. -/
def contentBits (c : BitVec 64) : List Bool := (List.range 64).map fun i => c.getLsbD (63 - i)

/-- The check over the content bits: initial value 00h, no final inversion (R6). -/
def crc8 (c : BitVec 64) : BitVec 8 := (contentBits c).foldl crcStep 0

/-- The preamble (R4). -/
def preamble : BitVec 8 := 0xB2#8

/-- The 80 bits of a cell as sent: preamble, content, check (R4, R7). -/
def frameOf (c : BitVec 64) : BitVec 80 := preamble ++ c ++ crc8 c

/-! ### What is heard (R9 to R12) -/

/-- A cell candidate: its 80 bit times, and whether one of them was a code violation (R4, R10). -/
structure Candidate where
  bits : BitVec 80
  violation : Bool
deriving DecidableEq, Repr

/-- Everything heard in the capture span of a position (R9): quiet throughout; carrier outside the
alignment allowed, with no candidate; or a candidate, with or without a second onset after it. -/
inductive Heard where
  | quiet
  | misplaced
  | candidate (c : Candidate) (secondOnset : Bool)
deriving DecidableEq, Repr

/-- The content bits of a candidate. -/
def Candidate.content (c : Candidate) : BitVec 64 := c.bits.extractLsb' 8 64

/-- The cell of a candidate that meets items 1 to 4 of R10. -/
def Candidate.sound (c : Candidate) : Option Cell :=
  if c.violation || c.bits.extractLsb' 72 8 != preamble || c.bits.extractLsb' 0 8 != crc8 c.content
  then none
  else Cell.decode c.content

/-- The clean cell of a candidate in a position, or none where the candidate is garbled (R10, R11). -/
def Candidate.clean (p : Position) (c : Candidate) : Option Cell :=
  match c.sound with
  | some cell => if cell.kind.allowedAt p then some cell else none
  | none => none

/-- The classification of a position (R9, R10). -/
inductive Classification where
  | silent
  | garbled
  | clean (cell : Cell)
deriving DecidableEq, Repr

/-- How a position is classified from what was heard in it (R9, R10, R11). -/
def classify (p : Position) : Heard → Classification
  | .quiet => .silent
  | .misplaced => .garbled
  | .candidate c secondOnset =>
      if secondOnset then .garbled
      else match c.clean p with
        | some cell => .clean cell
        | none => .garbled

/-- The echo result of the cell sent in a position: a match when the echo is clean there and its 64
content bits equal those sent, a mismatch in every other case (R12). -/
def echoMatches (p : Position) (sent : Cell) : Heard → Bool
  | .candidate c false => (c.clean p).isSome && c.content == sent.encode
  | _ => false

/-- Where an onset falls in the Round of an anchor (R9): the position, and whether the onset lies
within 16 bit times of its start and so opens a candidate. Positions 1 to 48 of the Round are the
Data Slots, 49 and 50 the Open Slots, and from 16 bit times before the expected instant the onset
belongs to the mark window (R17). -/
def onsetPlace (anchor onset : Instant) : Option (Position × Bool) :=
  let d := onset + Config.guardTime - anchor
  let n := d / Config.slotTime
  let aligned := d % Config.slotTime ≤ 2 * Config.guardTime
  if n = 0 then none
  else if h : n - 1 < 48 then some (.dataSlot ⟨n - 1, h⟩, aligned)
  else if n = 49 then some (.openSlot .a, aligned)
  else if n = 50 then some (.openSlot .b, aligned)
  else if onset ≤ anchor + Config.roundTime + Config.markWindow then some (.markField, true)
  else none

end Sys2Proof
end

