-- ==== Sys2Proof/Machine/State.lean ====
section
/-! DEFINITION. The state of the part, as plain data, and its value after hardware reset. -/

namespace Sys2Proof.Machine

/-! ### Line Unit -/

/-- Sync state (R16). -/
inductive Sync where
  | unsynced | synced
deriving DecidableEq, Repr

/-- The own transmit record: the cell sent, kept until its echo result (R7). `stream` is the
engine that supplied a Data Slot cell; none for a MARK, a control cell and the Slot Agent's KEEP. -/
structure TxRecord where
  position : Position
  start : Instant
  cell : Cell
  stream : Option StreamNo
deriving DecidableEq, Repr

/-- A cell candidate under examination: the position it belongs to, and the onset from which its 80
bit times count (R9, R16, R17). -/
structure OpenCandidate where
  position : Position
  onset : Instant
deriving DecidableEq, Repr

/-- State of the Line Unit (R20). The rate class and station number are the straps. `candidates`
holds the candidates of other stations' carrier in the order of their onsets; the candidate of an
own cell is the transmit record (log 20). -/
structure LineUnit where
  sync : Sync
  windowOpen : Bool
  anchor : Option Instant
  expected : Option Instant
  syncRef : Instant
  tx : Option TxRecord
  candidates : List OpenCandidate
  driving : Bool
deriving DecidableEq, Repr

/-! ### Mark Unit -/

/-- The window plan (R63, R71). -/
inductive WindowPlan where
  | none
  | duty
  | takeover (rank : BitVec 3)
deriving DecidableEq, Repr

/-- Own MARK in flight (R63). -/
inductive OwnMark where
  | none | normal | cold
deriving DecidableEq, Repr

/-- State of the Mark Unit (R63); the TAKEOVER counter stands with the station counters. -/
structure MarkUnit where
  count : Word
  adopted : Bool
  lastRound : BitVec 8
  holder : Option StationNo
  plan : WindowPlan
  carrierSeen : Bool
  recoveryWait : Option Instant
  coldWait : Option Instant
  ownMark : OwnMark
deriving DecidableEq, Repr

/-! ### Roster Unit -/

/-- Membership state (R87). -/
inductive Membership where
  | dormant | listening | joining | member | leaving | isolated
deriving DecidableEq, Repr

/-- A roster entry with its miss count (R82). -/
inductive RosterEntry where
  | absent
  | present
  | suspect1
  | suspect2
deriving DecidableEq, Repr

/-- The control intent (R87). -/
inductive ControlIntent where
  | none | join | leave
deriving DecidableEq, Repr

/-- State of the Roster Unit (R87). The roster's place 0 is no station and stays ABSENT (log 27). -/
structure RosterUnit where
  membership : Membership
  roster : Vector RosterEntry 32
  learnCount : Nat
  attempt : Nat
  joinTimer : Option Nat
  intent : ControlIntent
  queued : Bool
deriving DecidableEq, Repr

/-! ### Slot Agent -/

/-- A Slot Map entry with the fields its state has, and only those (R21). The owner of an own
entry is this station, so only HELD stores one. -/
inductive SlotEntry where
  | free
  | held (owner : StationNo) (tag : Tag) (silence : Fin 8)
  | claiming (tag : Tag) (stream : StreamNo) (queued : Bool)
  | mine (tag : Tag) (stream : StreamNo)
  | releasing (tag : Tag) (stream : StreamNo) (queued : Bool)
  | collided (tag : Tag) (stream : StreamNo) (backoff : BitVec 5)
deriving DecidableEq, Repr

/-! ### Control Cell Queue -/

/-- A control cell to be sent (R45); CLAIM and RELEASE name the slot and the stream. -/
inductive QueueCell where
  | join
  | leave
  | claim (slot : SlotNo) (tag : Tag) (stream : StreamNo)
  | release (slot : SlotNo) (stream : StreamNo)
deriving DecidableEq, Repr

/-- The outcome a withdrawal names (R47). -/
inductive Withdrawal where
  | taken | gone
deriving DecidableEq, Repr

/-- A queue entry (R45). `withdrawn` is the withdrawn mark together with the outcome that will be
reported for it at the echo result (R48). -/
structure QueueEntry where
  cell : QueueCell
  attempt : Nat
  wait : Nat
  withdrawn : Option Withdrawal
deriving DecidableEq, Repr

/-- State of the Control Cell Queue (R45, R49, R62). `passedOver` is the model's own: the heads for a
slot that a withdrawal removed since the last Mark or Open Slot start, which the next slot start may
still have met (R51; log 8). -/
structure CellQueue where
  entries : List QueueEntry
  passedOver : List QueueEntry
  turnOpen : Bool
  onLine : Bool
deriving DecidableEq, Repr

/-- The outcome of a control cell (section 3.5). -/
inductive CellOutcome where
  | matched | taken | gone | contention | wiped
deriving DecidableEq, Repr

/-! ### Ring Walker -/

/-- Walk mode (R103). -/
inductive WalkMode where
  | off | walking | held | stopping
deriving DecidableEq, Repr

/-- A descriptor as its fetch returned it (R98). -/
structure Descriptor where
  address : Word
  length : BitVec 16
  notify : Bool
  boundary : Bool
deriving DecidableEq, Repr

/-- Completion status (R98, R99). -/
inductive RecordStatus where
  | done | cut | empty | aborted
deriving DecidableEq, Repr

/-- A completion record in the record list (R111). -/
structure Record where
  index : RingIdx
  status : RecordStatus
  words : BitVec 16
  stamp : Stamp
  tally : BitVec 16
  notify : Bool
  ringEnd : Bool
deriving DecidableEq, Repr

/-- The four kinds of access (R105). -/
inductive AccessKind where
  | fetch | read | write | record
deriving DecidableEq, Repr

/-- The access in flight, as presented on the local bus (R104, R105). `count` is its size in words,
`data` the words a write carries, `stamp` the stamp of the first entry of a buffer write (R109). -/
structure Access where
  kind : AccessKind
  index : RingIdx
  address : Word
  count : Nat
  discard : Bool
  data : List Word
  stamp : Stamp
deriving DecidableEq, Repr

/-- State of the Ring Walker for one stream (R100, R111, R113). -/
structure Walker where
  mode : WalkMode
  cur : RingIdx
  fetch : RingIdx
  ready : RingIdx
  caughtUp : Bool
  remaining : Nat
  inHand : Option Descriptor
  prefetched : Option Descriptor
  done : Nat
  moved : Nat
  ahead : Nat
  firstStamp : Option Stamp
  tally : BitVec 16
  records : List Record
  access : Option Access
  stopCaughtUp : Bool
  abortBuilt : Bool
deriving DecidableEq, Repr

/-! ### Stream contexts -/

/-- Direction of a stream context (R119, R139). -/
inductive Direction where
  | talk | listen
deriving DecidableEq, Repr

/-- The configuration words of a stream context by field (10.2). Filter mode and gap policy keep
every code, since values are not checked at the write (R167). -/
structure StreamConfig where
  direction : Direction
  filterMode : BitVec 2
  gapPolicy : BitVec 2
  loop : Bool
  align : Bool
  tag : Tag
  wanted : BitVec 4
  grace : BitVec 8
  mask : BitVec 8
  ringBase : Word
deriving DecidableEq, Repr

/-- Stream states; a Listen Stream has no ACQUIRING (R120, R141). -/
inductive StreamState where
  | stopped | acquiring | running | paused | drained | stopping | faulted
deriving DecidableEq, Repr

/-- Stop causes (R120, R141). -/
inductive StopCause where
  | none | command | drain | memory | duplicate
deriving DecidableEq, Repr

/-- An entry of a staging FIFO: a Talk entry has a descriptor index (R121), a Listen entry a round
stamp (R109); the part a direction lacks is 0 (log 22). -/
structure FifoEntry where
  word : Word
  boundary : Bool
  index : RingIdx
  stamp : Stamp
deriving DecidableEq, Repr

/-- One stream context: its configuration, its Stream Engine's state in either direction (R120,
R141), its counters (R161), the Slot Agent's state for it (R23, R33, R35), its event flags and
enables (R156, R158) and its walker. -/
structure Stream where
  cfg : StreamConfig
  state : StreamState
  cause : StopCause
  fifo : List FifoEntry
  wordOnLine : Bool
  priming : Bool
  drainStart : Word
  walkerQuiet : Bool
  entriesGone : Bool
  lastWord : Option Word
  expect : Bool
  sources : List (Tag × StationNo)
  multiRaised : Bool
  words : Word
  fills : BitVec 16
  overruns : BitVec 16
  held : Nat
  pauseTimer : Nat
  short : Bool
  flags : BitVec 8
  enables : BitVec 8
  walker : Walker
deriving DecidableEq, Repr

/-! ### Event Unit and Local Port -/

/-- The station events, from bit 0 upward (10.2). -/
inductive StationEvent where
  | joined | expelled | joinFailed | left | isolated | duplicate | roundSlip | markLost | lockedWrite
deriving DecidableEq, Repr

/-- The stream events, from bit 0 upward; the third has two names (R156). -/
inductive StreamEvent where
  | bufferDone | ringEnd | underOverrun | short | claimFailed | multiSource | fault | stopped
deriving DecidableEq, Repr

/-- The station counters (section 9.4). -/
structure StationCounters where
  checkErr : BitVec 16
  collide : BitVec 16
  takeover : BitVec 16
  aged : BitVec 16
  correct : BitVec 16
  contend : BitVec 16
deriving DecidableEq, Repr

/-- Command results, from code 0 upward (section 10.5). -/
inductive CommandResult where
  | ok | badState | badConfig | notMember | overcommit | tagInUse | busy | badStream | badCommand
deriving DecidableEq, Repr

/-- How the part ended the latest target access (R165; log 18). -/
inductive TargetResponse where
  | none | answered | error
deriving DecidableEq, Repr

/-- The whole state of the part, and the queue of commands that are waiting. -/
structure State where
  resetAsserted : Bool
  straps : Straps
  lnu : LineUnit
  mku : MarkUnit
  rsu : RosterUnit
  slotMap : Vector SlotEntry 48
  ccq : CellQueue
  streams : Vector Stream 8
  nextGrant : StreamNo
  stationFlags : BitVec 9
  stationEnables : BitVec 9
  counters : StationCounters
  command : Word
  result : CommandResult
  targetResponse : TargetResponse
  freeDraws : Nat
  pending : List Instr
deriving DecidableEq, Repr

/-- Reasons a step can fault: none. The spec gives every row its effect in every state, so nothing
raises a fault; what it calls a fault of a stream is a state, FAULTED (R117, R134, R135). Safe. -/
inductive Fault where
deriving DecidableEq, Repr

/-- Reasons a step can be refused. -/
inductive Refusal where
  /-- Raised by an arm of `exec` whose command has no meaning yet; no arm is left so. Safe. -/
  | notModelled (mnemonic : String)
deriving DecidableEq, Repr

/-! ### Reset values -/

/-- R20, with instants counted from the end of reset (log 3). -/
def LineUnit.reset : LineUnit where
  sync := .unsynced
  windowOpen := false
  anchor := none
  expected := none
  syncRef := 0
  tx := none
  candidates := []
  driving := false

/-- R81. -/
def MarkUnit.reset : MarkUnit where
  count := 0
  adopted := false
  lastRound := 0
  holder := none
  plan := .none
  carrierSeen := false
  recoveryWait := none
  coldWait := none
  ownMark := .none

/-- R97: the membership state follows the straps. -/
def RosterUnit.reset (straps : Straps) : RosterUnit where
  membership := if straps.stn ≠ 0 ∧ straps.autojoin = true then .listening else .dormant
  roster := Vector.replicate 32 .absent
  learnCount := 0
  attempt := 0
  joinTimer := none
  intent := .none
  queued := false

/-- R62. -/
def CellQueue.reset : CellQueue where
  entries := []
  passedOver := []
  turnOpen := false
  onLine := false

/-- R118. -/
def Walker.reset : Walker where
  mode := .off
  cur := 0
  fetch := 0
  ready := 0
  caughtUp := false
  remaining := 0
  inHand := none
  prefetched := none
  done := 0
  moved := 0
  ahead := 0
  firstStamp := none
  tally := 0
  records := []
  access := none
  stopCaughtUp := false
  abortBuilt := false

/-- R173. On RING BASE the spec disagrees with itself: R118 says that a hardware reset does not change it,
R173 gives it the value 0, and the model's choice is 0 (log 37). -/
def StreamConfig.reset : StreamConfig where
  direction := .talk
  filterMode := 0
  gapPolicy := 0
  loop := false
  align := false
  tag := 0
  wanted := 0
  grace := 0
  mask := 0
  ringBase := 0

/-- R44, R138, R155, R164. -/
def Stream.reset : Stream where
  cfg := .reset
  state := .stopped
  cause := .none
  fifo := []
  wordOnLine := false
  priming := false
  drainStart := 0
  walkerQuiet := true
  entriesGone := false
  lastWord := none
  expect := false
  sources := []
  multiRaised := false
  words := 0
  fills := 0
  overruns := 0
  held := 0
  pauseTimer := 0
  short := false
  flags := 0
  enables := 0
  walker := .reset

/-- R164. -/
def StationCounters.zero : StationCounters where
  checkErr := 0
  collide := 0
  takeover := 0
  aged := 0
  correct := 0
  contend := 0

/-- Every block at its reset values, with the straps as sampled at the release (R171, R172). -/
def State.afterReset (straps : Straps) : State where
  resetAsserted := false
  straps := straps
  lnu := .reset
  mku := .reset
  rsu := .reset straps
  slotMap := Vector.replicate 48 .free
  ccq := .reset
  streams := Vector.replicate 8 .reset
  nextGrant := 0
  stationFlags := 0
  stationEnables := 0
  counters := .zero
  command := 0
  result := .ok
  targetResponse := .none
  freeDraws := 0
  pending := []

/-- The part right after reset. The strap levels are inputs the spec gives no value; here they are
all low (DESIGN CHOICE, log 5), and RESET_RELEASE loads any others. -/
def State.reset : State := State.afterReset ⟨0, 0, false⟩

end Sys2Proof.Machine
end

