-- ==== Sys2Proof/Machine/Ops.lean ====
section
/-! DEFINITION. Named updates of the state and of its vectors, counters, and the two wrappers
every meaning is written with. -/

namespace Sys2Proof.Machine

/-! ### Named updates: one block of the state at a time -/

/-- The state with the Line Unit changed. -/
def State.onLnu (f : LineUnit → LineUnit) (s : State) : State := { s with lnu := f s.lnu }

/-- The state with the Mark Unit changed. -/
def State.onMku (f : MarkUnit → MarkUnit) (s : State) : State := { s with mku := f s.mku }

/-- The state with the Roster Unit changed. -/
def State.onRsu (f : RosterUnit → RosterUnit) (s : State) : State := { s with rsu := f s.rsu }

/-- The state with the Control Cell Queue changed. -/
def State.onCcq (f : CellQueue → CellQueue) (s : State) : State := { s with ccq := f s.ccq }

/-- The state with stream context `k` changed. -/
def State.onStream (k : StreamNo) (f : Stream → Stream) (s : State) : State :=
  { s with streams := s.streams.set k (f s.streams[k]) }

/-- The state with every stream context changed. -/
def State.onStreams (f : StreamNo → Stream → Stream) (s : State) : State :=
  { s with streams := Vector.ofFn fun k : StreamNo => f k s.streams[k] }

/-- The state with one Slot Map entry changed, the stream contexts left as they are. -/
def State.putEntry (i : SlotNo) (e : SlotEntry) (s : State) : State :=
  { s with slotMap := s.slotMap.set i e }

/-- The state with a station counter changed. -/
def State.onCounters (f : StationCounters → StationCounters) (s : State) : State :=
  { s with counters := f s.counters }

/-- The state with the walker of stream context `k` changed inside the context. -/
def Stream.onWalker (f : Walker → Walker) (st : Stream) : Stream :=
  { st with walker := f st.walker }

/-- A round stamp of the count as it stands (R69). -/
def MarkUnit.stamp (m : MarkUnit) : Stamp := m.count.setWidth 16

/-- The Data Slots in line order. -/
def allSlots : List SlotNo := List.finRange 48

/-- The stream contexts in index order. -/
def allStreams : List StreamNo := List.finRange 8

/-! ### Counters -/

/-- An addition that stops at the maximum (R161). -/
def satAdd {w : Nat} (c : BitVec w) (n : Nat) : BitVec w :=
  BitVec.ofNat w (min (2 ^ w - 1) (c.toNat + n))

/-- CHECKERR + 1 (R29). -/
def StationCounters.addCheckErr (c : StationCounters) : StationCounters :=
  { c with checkErr := satAdd c.checkErr 1 }

/-- COLLIDE + 1 (R26). -/
def StationCounters.addCollide (c : StationCounters) : StationCounters :=
  { c with collide := satAdd c.collide 1 }

/-- TAKEOVER + 1 (R73). -/
def StationCounters.addTakeover (c : StationCounters) : StationCounters :=
  { c with takeover := satAdd c.takeover 1 }

/-- AGED + 1 (R29). -/
def StationCounters.addAged (c : StationCounters) : StationCounters :=
  { c with aged := satAdd c.aged 1 }

/-- CORRECT + 1 (R27). -/
def StationCounters.addCorrect (c : StationCounters) : StationCounters :=
  { c with correct := satAdd c.correct 1 }

/-- CONTEND + 1 (R48, R54). -/
def StationCounters.addContend (c : StationCounters) : StationCounters :=
  { c with contend := satAdd c.contend 1 }

/-! ### The shape of a meaning -/

/-- What a machine of this kind answers: never a fault, never a refusal. -/
abbrev Answer := Host.Outcome State Fault Refusal

/-- A delivery of the line or the local bus, or an expiry: while reset lasts the part delivers
nothing to any block (R20, R118, R164), so the event changes nothing (log 10). -/
def event (f : State → State) (s : State) : Answer :=
  .next (if s.resetAsserted then s else f s)

/-- A write to the register window: answered after hardware reset, and ended with an error response
that reaches no block while RESET# is asserted (R165). -/
def targetWrite (f : State → State) (s : State) : Answer :=
  .next (if s.resetAsserted then { s with targetResponse := .error }
    else { f s with targetResponse := .answered })

end Sys2Proof.Machine
end

