-- ==== Sys2Proof/Machine/LineUnit.lean ====
section
/-! DEFINITION. The Line Unit: the own transmit record, the anchor, the mark window and the sync state
(chapter 1). -/

namespace Sys2Proof.Machine

/-- The instant at which a Data Slot starts, from the anchor (R2). -/
def slotStart (anchor : Instant) (slot : SlotNo) : Instant := anchor + (1 + slot.val) * Config.slotTime

/-- The instant at which an Open Slot starts, from the anchor (R2). -/
def openSlotStart (anchor : Instant) : OpenSlot → Instant
  | .a => anchor + 49 * Config.slotTime
  | .b => anchor + 50 * Config.slotTime

/-- Twice the station number in Slot Times: the stagger of the Mark waits (R74, R79). -/
def stagger (stn : StationNo) : Nat := 2 * stn.toNat * Config.slotTime

/-- A cell goes on the line and its transmit record is kept (R7, R8). -/
def LineUnit.send (record : TxRecord) (l : LineUnit) : LineUnit :=
  { l with tx := some record, driving := true }

/-- Position `p` is reported: no candidate of it is under examination any more (R9). -/
def LineUnit.reported (p : Position) (l : LineUnit) : LineUnit :=
  { l with candidates := l.candidates.filter fun c => c.position ≠ p }

/-- The echo result is reported: the record is dropped, the driver is released and the position has
its report (R7, R12). -/
def LineUnit.endTx (l : LineUnit) : LineUnit :=
  { l with
    tx := none
    driving := false
    candidates := match l.tx with
      | some record => (l.reported record.position).candidates
      | none => l.candidates }

/-- The candidates that have ended by `now` are examined no more: each lasts 80 bit times (R9). -/
def LineUnit.dropEnded (now : Instant) (l : LineUnit) : LineUnit :=
  { l with candidates := l.candidates.filter fun c => now < c.onset + Config.cellTime }

/-- SYNCED, so that positions exist (R16). -/
def LineUnit.isSynced (l : LineUnit) : Bool := l.sync == .synced

/-- SYNCED and inside a Round, before the mark window (the table of 1.6). -/
def LineUnit.inRound (l : LineUnit) : Bool := l.isSynced && !l.windowOpen

/-- A clean MARK that began at `onset` anchors a Round (R3, R16, R17, R19). -/
def LineUnit.anchorAt (onset : Instant) (l : LineUnit) : LineUnit :=
  { l with
    sync := .synced
    windowOpen := false
    anchor := some onset
    expected := some (onset + Config.roundTime)
    syncRef := onset + Config.roundTime
    candidates := [] }

/-- The mark window opens (R17). -/
def LineUnit.openWindow (l : LineUnit) : LineUnit := { l with windowOpen := true }

/-- The mark window closes without an anchor (R18). -/
def LineUnit.loseSync (l : LineUnit) : LineUnit := { l with sync := .unsynced, windowOpen := false }

/-- Sync loss moves its reference to its own instant (R19). -/
def LineUnit.syncLost (l : LineUnit) : LineUnit := { l with syncRef := l.syncRef + Config.syncLossTime }

/-- The onset lies inside the mark window of the expected instant: from 16 bit times before it to 8 ST
after it (R17). -/
def LineUnit.inMarkWindow (onset : Instant) (l : LineUnit) : Bool :=
  l.expected.any fun e =>
    e ≤ onset + Config.guardTime && onset ≤ e + Config.markWindow

/-- A candidate with this onset belongs to the mark window: the onset lies inside it, and the window is
open, or has closed without an anchor while the candidate was examined (R17, R18). -/
def LineUnit.ofMarkWindow (onset : Instant) (l : LineUnit) : Bool :=
  (l.windowOpen || !l.isSynced) && l.inMarkWindow onset

/-- A clean MARK with this onset anchors a Round: any while UNSYNCED (R16), and while SYNCED one that
began inside the open mark window (R17). -/
def LineUnit.anchors (onset : Instant) (l : LineUnit) : Bool :=
  !l.isSynced || (l.windowOpen && l.inMarkWindow onset)

/-- The position for which an onset opens a candidate: each does while UNSYNCED (R16); while SYNCED
one in the mark window does, and one aligned with a Data Slot or an Open Slot (R9, R17). -/
def LineUnit.opens (onset : Instant) (l : LineUnit) : Option Position :=
  if !l.isSynced then some .outside
  else match l.anchor with
    | none => none
    | some anchor => ((onsetPlace anchor onset).filter Prod.snd).map Prod.fst

/-- A carrier onset at the Line Unit: candidates that have ended leave, and the onset opens one where
R9, R16 or R17 has it do so. -/
def LineUnit.hearOnset (onset : Instant) (l : LineUnit) : LineUnit :=
  match l.opens onset with
  | some p => { l.dropEnded onset with
      candidates := (l.dropEnded onset).candidates ++ [⟨p, onset⟩] }
  | none => l.dropEnded onset

/-- A MARK request is taken on a quiet line while UNSYNCED or in the mark window, and refused as
withheld otherwise (R8). -/
def LineUnit.takesMark (carrier : Bool) (l : LineUnit) : Bool :=
  !carrier && l.tx.isNone && (!l.isSynced || l.windowOpen)

/-- Where a MARK sent now stands (R7, R8). -/
def LineUnit.markPosition (l : LineUnit) : Position := if l.windowOpen then .markField else .outside

/-- The own MARK on the line: when it started, and its fields. -/
def LineUnit.ownMark? (l : LineUnit) : Option (Instant × MarkFields) :=
  match l.tx with
  | some ⟨_, start, .mark _ fields, _⟩ => some (start, fields)
  | _ => none

/-- The own Data Slot cell on the line. -/
def LineUnit.ownSlotCell? (l : LineUnit) : Option (SlotNo × Tag × DataKind × Option StreamNo) :=
  match l.tx with
  | some ⟨.dataSlot slot, _, .inSlot _ tag kind, stream⟩ => some (slot, tag, kind, stream)
  | _ => none

/-- The own control cell is on the line. -/
def LineUnit.ownControlCell (l : LineUnit) : Bool :=
  match l.tx with
  | some ⟨.openSlot _, _, _, _⟩ => true
  | _ => false

end Sys2Proof.Machine
end

