-- ==== Sys2Proof/Machine/Flags.lean ====
section
/-! DEFINITION. Event flags, enables, the summary and LINT# (chapter 9). -/

namespace Sys2Proof.Machine

/-- Bit position of a station flag in its word (10.2). -/
def StationEvent.bit : StationEvent → Nat
  | .joined => 0 | .expelled => 1 | .joinFailed => 2 | .left => 3 | .isolated => 4
  | .duplicate => 5 | .roundSlip => 6 | .markLost => 7 | .lockedWrite => 8

/-- Bit position of a stream flag in its word (10.2). -/
def StreamEvent.bit : StreamEvent → Nat
  | .bufferDone => 0 | .ringEnd => 1 | .underOverrun => 2 | .short => 3 | .claimFailed => 4
  | .multiSource => 5 | .fault => 6 | .stopped => 7

/-- Raising a station event Sets its flag, whatever its enable (R156). -/
def State.raise (e : StationEvent) (s : State) : State :=
  { s with stationFlags := s.stationFlags ||| (1#9 <<< e.bit) }

/-- Raising a stream event Sets its flag, whatever its enable (R156). -/
def Stream.raise (e : StreamEvent) (st : Stream) : Stream :=
  { st with flags := st.flags ||| (1#8 <<< e.bit) }

/-- A write to a flag word Clears each flag written as 1 (R157). -/
def State.clearFlags (scope : EventScope) (value : Word) (s : State) : State :=
  match scope with
  | .station => { s with stationFlags := s.stationFlags &&& ~~~(value.setWidth 9) }
  | .stream k => s.onStream k fun st => { st with flags := st.flags &&& ~~~(value.setWidth 8) }

/-- A write to an enable word sets the enables it names (R158). -/
def State.writeEnables (scope : EventScope) (value : Word) (s : State) : State :=
  match scope with
  | .station => { s with stationEnables := value.setWidth 9 }
  | .stream k => s.onStream k fun st => { st with enables := value.setWidth 8 }

/-- The summary bit of a stream: some flag both Set and enabled (R159). -/
def Stream.summaryBit (st : Stream) : Bool := st.flags &&& st.enables != 0

/-- The station's summary bit (R159). -/
def State.stationSummaryBit (s : State) : Bool := s.stationFlags &&& s.stationEnables != 0

/-- The summary: bit k for stream k, bit 8 for the station (R159). -/
def State.summary (s : State) : BitVec 9 :=
  allStreams.foldl (fun acc k => if s.streams[k].summaryBit then acc ||| (1#9 <<< k.val) else acc)
    (if s.stationSummaryBit then 0x100#9 else 0)

/-- LINT# is asserted while any summary bit is Set, and released during hardware reset (R159, R172). -/
def State.lintAsserted (s : State) : Bool := !s.resetAsserted && s.summary != 0

end Sys2Proof.Machine
end

