-- ==== Sys2Proof/Machine/Engine.lean ====
section
/-! DEFINITION. What a Stream Engine makes of the reports of the Slot Agent and the Ring Walker
(sections 7.5, 7.8, 8.6, 8.7). `count` is the extended round count as it stands. -/

namespace Sys2Proof.Machine

/-- The direction field names TALK. -/
def Stream.isTalk (st : Stream) : Bool := st.cfg.direction == .talk

/-- An access that brings words into the FIFO is marked for discard (R107, R121). -/
def Access.discardRead (a : Access) : Access :=
  if a.kind = .read then { a with discard := true } else a

/-- Emptying the FIFO: every entry dropped, the word-on-the-line mark Cleared, a buffer read in
flight marked for discard (R121). -/
def Stream.emptyFifo (st : Stream) : Stream :=
  { st with
    fifo := []
    wordOnLine := false
    walker := { st.walker with access := st.walker.access.map Access.discardRead } }

/-- Entry into RUNNING or DRAINED by the caught-up flag; DRAINED sets drain start (R127, R131). -/
def Stream.runOrDrain (count : Word) (st : Stream) : Stream :=
  if st.walker.caughtUp then { st with state := .drained, drainStart := count }
  else { st with state := .running }

/-- The Slot Agent's report that the held count is now `n`: the count itself, SHORT Cleared when it
equals the wanted count (R35), and the engine's change of state (R127). Listen engines get no
report (R40). -/
def Stream.onHeld (count : Word) (n : Nat) (st : Stream) : Stream :=
  let st' := { st with held := n, short := st.short && n != st.cfg.wanted.toNat }
  if !st.isTalk then st'
  else if st.held = 0 ∧ n ≠ 0 ∧ st.state = .acquiring then st'.runOrDrain count
  else if st.held ≠ 0 ∧ n = 0 ∧ (st.state = .running ∨ st.state = .drained) then
    { st' with state := .acquiring }
  else st'

/-- A STOPPING Talk Stream whose walker is quiet and whose own entries are gone becomes STOPPED and
raises STOPPED (R133). -/
def Stream.finishStop (st : Stream) : Stream :=
  if st.walkerQuiet ∧ st.entriesGone then ({ st with state := .stopped }).raise .stopped else st

/-- The Slot Agent's report that no own entries of the stream remain; taken only in STOPPING
(R127, R133). -/
def Stream.onNoneRemain (st : Stream) : Stream :=
  if st.isTalk ∧ st.state = .stopping then ({ st with entriesGone := true }).finishStop else st

/-- The walker's stop done (R133, R135, R151). -/
def Stream.onStopDone (st : Stream) : Stream :=
  if st.isTalk then
    match st.state with
    | .stopping => ({ st with walkerQuiet := true }).finishStop
    | .faulted => { st with walkerQuiet := true }
    | _ => st
  else if st.state = .stopping then ({ st with state := .stopped }).raise .stopped
  else st

/-- The walker's "caught up" (R128, R148). -/
def Stream.onCaughtUp (count : Word) (st : Stream) : Stream :=
  if st.state = .running then
    if st.isTalk then { st with state := .drained, drainStart := count }
    else { st with state := .drained }
  else st

/-- Priming as a RESUME or a resumed report leaves it: Set when the FIFO is empty (R126). -/
def Stream.primeIfEmpty (st : Stream) : Stream := { st with priming := st.fifo.isEmpty }

/-- The walker's "resumed" (R128, R148). -/
def Stream.onResumed (st : Stream) : Stream :=
  if st.isTalk then
    match st.state with
    | .drained => { st with state := .running, priming := true }
    | .acquiring | .running | .paused => st.primeIfEmpty
    | _ => st
  else if st.state = .drained then { st with state := .running }
  else st

/-- The walker's report of discarded entries at a stop of a Listen Stream: the FIFO is empty after
it, OVERRUNS rises by their number, and OVERRUN is raised when it is above 0 (R151). -/
def Stream.discardEntries (st : Stream) : Stream :=
  if st.fifo = [] then st
  else ({ st with fifo := [], overruns := satAdd st.overruns st.fifo.length }).raise .underOverrun

end Sys2Proof.Machine
end

