-- ==== Sys2Proof/Machine/Walker.lean ====
section
/-! DEFINITION. The Ring Walker of one stream: indices, completions, accesses, stop and fault
(chapter 6). -/

namespace Sys2Proof.Machine

/-! ### Ring layout (R98) -/

/-- The address of descriptor `i` (R98, R105). -/
def Stream.descriptorAddress (st : Stream) (i : RingIdx) : Word :=
  st.cfg.ringBase + 16#32 * i.setWidth 32

/-- The descriptor whose words at offsets 0 and 4 are these (R98). -/
def Descriptor.ofWords (addressWord controlWord : Word) : Descriptor where
  address := addressWord &&& 0xFFFFFFFC#32
  length := controlWord.extractLsb' 0 16
  notify := controlWord.getLsbD 16
  boundary := controlWord.getLsbD 17

/-- Length of a descriptor in words. -/
def Descriptor.len (d : Descriptor) : Nat := d.length.toNat

/-- Status codes as written: 1 DONE, 2 CUT, 3 EMPTY, 4 ABORTED (R98). -/
def RecordStatus.code : RecordStatus → BitVec 16
  | .done => 1 | .cut => 2 | .empty => 3 | .aborted => 4

/-- The two words of a completion record, at offsets 8 and 12 (R98). -/
def Record.data (r : Record) : List Word := [r.words ++ r.status.code, r.tally ++ r.stamp]

/-! ### Completion (R102) -/

/-- The completion record of the descriptor at C (R99, R102, R111). -/
def Walker.recordOf (w : Walker) (status : RecordStatus) (words : Nat) (notify ringEnd : Bool) :
    Record where
  index := w.cur
  status := status
  words := BitVec.ofNat 16 words
  stamp := w.firstStamp.getD 0
  tally := w.tally
  notify := notify
  ringEnd := ringEnd

/-- C's NOTIFY bit, Cleared where C's descriptor is not in hand. -/
def Walker.notifyInHand (w : Walker) : Bool := (w.inHand.map Descriptor.notify).getD false

/-- A fetch or read in flight for `i` is marked for discard (R102, R113). -/
def Access.discardFor (i : RingIdx) (a : Access) : Access :=
  if (a.kind = .fetch ∨ a.kind = .read) ∧ a.index = i then { a with discard := true } else a

/-- C moves to C + 1 with its progress started afresh, nothing in hand and F at the new C (R100,
R102). -/
def Walker.advance (w : Walker) : Walker :=
  { w with
    cur := w.cur + 1, fetch := w.cur + 1, remaining := 0, inHand := none, prefetched := none
    done := 0, moved := 0, ahead := 0, firstStamp := none, tally := 0 }

/-- One completion of the descriptor at C: its record is appended and C is compared with L (R102). -/
def Stream.completeOnce (count : Word) (status : RecordStatus) (words : Nat) (st : Stream) : Stream :=
  let w := st.walker
  let next := w.cur + 1
  if w.cur = w.ready then
    ({ st with
      fifo := if st.isTalk then st.fifo.filter fun e => e.index != next else st.fifo
      walker := { w.advance with
        records := w.records ++ [w.recordOf status words w.notifyInHand true]
        caughtUp := true
        access := w.access.map (Access.discardFor next) } }).onCaughtUp count
  else
    let w' := { w.advance with
      records := w.records ++ [w.recordOf status words w.notifyInHand false] }
    { st with walker := match w.prefetched with
        | some d => { w' with inHand := some d, remaining := d.len, moved := w.ahead }
        | none => w' }

/-- A completion, and the further completion of a descriptor that becomes current with length 0
(R102, R106). At most one follows, since only one descriptor is held as prefetched. -/
def Stream.complete (count : Word) (status : RecordStatus) (words : Nat) (st : Stream) : Stream :=
  let st' := st.completeOnce count status words
  match st'.walker.inHand with
  | some d => if d.len = 0 then st'.completeOnce count .empty 0 else st'
  | none => st'

/-- A word of a Talk Stream departed in a slot of this count: stamp, counts, and completion DONE at
the last word (R108). -/
def Stream.departure (count : Word) (st : Stream) : Stream :=
  let w := st.walker
  let st' := st.onWalker fun w => { w with
    firstStamp := some (w.firstStamp.getD (count.setWidth 16))
    done := w.done + 1
    remaining := w.remaining - 1 }
  if w.remaining = 1 then st'.complete count .done (w.done + 1) else st'

/-- A FILL or a gap adds 1 to the tally of C while caught-up is Cleared (R108, R109). -/
def Walker.addTally (w : Walker) : Walker :=
  if w.caughtUp then w else { w with tally := satAdd w.tally 1 }

/-- A boundary-marked FIFO head completes C with CUT when the buffer holds a word, no write is in
flight and the walker is not STOPPING (R110). -/
def Stream.cutCheck (count : Word) (st : Stream) : Stream :=
  let w := st.walker
  if !st.isTalk ∧ w.mode ≠ .stopping ∧ w.moved ≠ 0
      ∧ (w.access.all fun a => a.kind != .write)
      ∧ (st.fifo.head?.any FifoEntry.boundary) then
    st.complete count .cut w.done
  else st

/-! ### Requests from the engine (R103, R113) -/

/-- Walk: OFF and HELD go to WALKING (R103). -/
def Walker.walk (w : Walker) : Walker :=
  if w.mode = .off ∨ w.mode = .held then { w with mode := .walking } else w

/-- Hold: WALKING goes to HELD (R103). -/
def Walker.hold (w : Walker) : Walker :=
  if w.mode = .walking then { w with mode := .held } else w

/-- In STOPPING with nothing in flight and no record owed: stop done once the abort is written or was
not required, after any entries left in a Listen FIFO are counted as discarded; and those entries
are counted as soon as the flush has filled buffer C (R115, R116). -/
def Stream.settle (st : Stream) : Stream :=
  let w := st.walker
  if w.mode = .stopping ∧ w.access = none ∧ w.records = [] then
    if w.stopCaughtUp ∨ w.abortBuilt then
      let st' := if st.isTalk then st else st.discardEntries
      (st'.onWalker fun w => { w with
        mode := .off, stopCaughtUp := false, abortBuilt := false }).onStopDone
    else if !st.isTalk ∧ (w.inHand.any fun d => d.len ≤ w.moved) then st.discardEntries
    else st
  else st

/-- What the stop request makes of the access in flight (the table of R113). -/
def Access.onStop (talk : Bool) (cur : RingIdx) (a : Access) : Access :=
  match a.kind with
  | .fetch => if talk ∨ a.index ≠ cur then { a with discard := true } else a
  | .read => { a with discard := true }
  | .write | .record => a

/-- Stop: OFF answers stop done at once; WALKING and HELD go to STOPPING, noting caught-up (R103,
R113). -/
def Stream.stopRequest (st : Stream) : Stream :=
  match st.walker.mode with
  | .off => st.onStopDone
  | .stopping => st
  | .walking | .held =>
      (st.onWalker fun w => { w with
        mode := .stopping
        stopCaughtUp := w.caughtUp
        abortBuilt := false
        access := w.access.map (Access.onStop st.isTalk w.cur)
        prefetched := none
        ahead := 0
        fetch := w.cur }).settle

/-! ### Ready writes (R101) -/

/-- A write of the Ready field with value `v` (R101). -/
def Stream.readyWrite (v : RingIdx) (st : Stream) : Stream :=
  let w := st.walker
  if !w.caughtUp then st.onWalker fun w => { w with ready := v }
  else if v = w.cur - 1 then st
  else (st.onWalker fun w => { w with ready := v, caughtUp := false }).onResumed

/-! ### Choosing and presenting an access (R104, R105, R114, R115) -/

/-- The accesses a stream can choose: the six of R104, with the flush of R115 under the same names,
and the building and writing of the abort record (R114, R115). -/
inductive Choice where
  | record
  | fetchCur
  | readCur (n : Nat)
  | writeCur (n : Nat)
  | prefetch
  | readNext (n : Nat)
  | abort
deriving DecidableEq, Repr

/-- Places free in the FIFO; with no access in flight none is reserved (R107). -/
def Stream.room (st : Stream) : Nat := Config.fifoDepth - st.fifo.length

/-- Words of C's descriptor not yet read or placed. -/
def Walker.unmoved (w : Walker) : Nat := (w.inHand.map Descriptor.len).getD 0 - w.moved

/-- Words of F's descriptor not yet read. -/
def Walker.unreadNext (w : Walker) : Nat := (w.prefetched.map Descriptor.len).getD 0 - w.ahead

/-- How many entries the next buffer write takes: none of them boundary-marked but the first, and
that one only when the buffer holds no word (R109). -/
def Stream.placeable (st : Stream) : Nat :=
  match st.fifo.take (min Config.fifoDepth st.walker.unmoved) with
  | [] => 0
  | e :: es => if e.boundary ∧ st.walker.moved ≠ 0 then 0
      else 1 + (es.takeWhile fun e => !e.boundary).length

/-- The first of the choices of R104 that applies in WALKING. -/
def Stream.chooseWalking (st : Stream) : Option Choice :=
  let w := st.walker
  let readCur := min w.unmoved st.room
  let readNext := min w.unreadNext st.room
  if w.records ≠ [] then some .record
  else if !w.caughtUp ∧ w.inHand = none then some .fetchCur
  else if st.isTalk ∧ readCur ≠ 0 then some (.readCur readCur)
  else if !st.isTalk ∧ st.placeable ≠ 0 then some (.writeCur st.placeable)
  else if w.fetch = w.cur ∧ w.inHand ≠ none ∧ w.cur ≠ w.ready then some .prefetch
  else if st.isTalk ∧ w.unmoved = 0 ∧ readNext ≠ 0 then some (.readNext readNext)
  else none

/-- The choice in STOPPING: the records owed, then for a Listen Stream the fetch and writes of the
flush, then the abort (R114, R115). -/
def Stream.chooseStopping (st : Stream) : Option Choice :=
  let w := st.walker
  let flush := min (min Config.fifoDepth w.unmoved) st.fifo.length
  if w.records ≠ [] then some .record
  else if w.stopCaughtUp ∨ w.abortBuilt then none
  else if !st.isTalk ∧ w.inHand = none ∧ st.fifo ≠ [] then some .fetchCur
  else if !st.isTalk ∧ flush ≠ 0 then some (.writeCur flush)
  else some .abort

/-- The access a stream would present now; none while one is in flight (R103, R104). -/
def Stream.choose (st : Stream) : Option Choice :=
  if st.walker.access ≠ none then none
  else match st.walker.mode with
    | .off => none
    | .held => if st.walker.records ≠ [] then some .record else none
    | .walking => st.chooseWalking
    | .stopping => st.chooseStopping

/-- An access of a kind, presented. -/
def Access.present (kind : AccessKind) (index : RingIdx) (address : Word) (count : Nat) : Access where
  kind := kind
  index := index
  address := address
  count := count
  discard := false
  data := []
  stamp := 0

/-- The write of the oldest record: two words at descriptor address + 8 (R105). -/
def Stream.presentRecord (st : Stream) : Stream :=
  match st.walker.records with
  | [] => st
  | r :: _ => st.onWalker fun w => { w with
      access := some { Access.present .record r.index (st.descriptorAddress r.index + 8) 2 with
        data := r.data } }

/-- The abort record of C is built, C moves past it and is compared with L (R114, R115). `notify` is
the free value for a descriptor that was never fetched (log 9). -/
def Stream.buildAbort (notify : Bool) (st : Stream) : Stream :=
  st.onWalker fun w => { w.advance with
    records := w.records ++
      [w.recordOf .aborted w.done ((w.inHand.map Descriptor.notify).getD notify) false]
    caughtUp := w.cur == w.ready
    abortBuilt := true }

/-- The address of word `n` of a buffer; past FFFFFFFCh it continues from 0 (R98, R105). -/
def Descriptor.wordAddress (d : Descriptor) (n : Nat) : Word := d.address + BitVec.ofNat 32 (4 * n)

/-- The chosen access, presented on the local bus (R104, R105, R107, R109). -/
def Stream.present (notify : Bool) (c : Choice) (st : Stream) : Stream :=
  let w := st.walker
  match c with
  | .record => st.presentRecord
  | .fetchCur => st.onWalker fun w => { w with
      access := some (Access.present .fetch w.cur (st.descriptorAddress w.cur) 2) }
  | .prefetch => st.onWalker fun w => { w with
      fetch := w.cur + 1
      access := some (Access.present .fetch (w.cur + 1) (st.descriptorAddress (w.cur + 1)) 2) }
  | .readCur n => st.onWalker fun w => { w with
      access := w.inHand.map fun d => Access.present .read w.cur (d.wordAddress w.moved) n }
  | .readNext n => st.onWalker fun w => { w with
      access := w.prefetched.map fun d => Access.present .read w.fetch (d.wordAddress w.ahead) n }
  | .writeCur n =>
      { st with
        fifo := st.fifo.drop n
        walker := { w with
          moved := w.moved + n
          remaining := w.unmoved - n
          access := w.inHand.map fun d =>
            { Access.present .write w.cur (d.wordAddress w.moved) n with
              data := (st.fifo.take n).map FifoEntry.word
              stamp := (st.fifo.head?.map FifoEntry.stamp).getD 0 } } }
  | .abort => (st.buildAbort notify).presentRecord

/-! ### Replies (R106, R107, R109, R112) -/

/-- The access in flight if it is of this kind. -/
def Stream.inFlight (kind : AccessKind) (st : Stream) : Option Access :=
  st.walker.access.filter fun a => a.kind == kind

/-- The reply ends the access (R105). -/
def Stream.endAccess (st : Stream) : Stream := st.onWalker fun w => { w with access := none }

/-- A fetch reply with OK status (R106). -/
def Stream.fetchReply (count : Word) (d : Descriptor) (st : Stream) : Stream :=
  match st.inFlight .fetch with
  | none => st
  | some a =>
      let st := st.endAccess
      let st :=
        if a.discard then st
        else if a.index = st.walker.cur then
          let st := st.onWalker fun w => { w with inHand := some d, remaining := d.len }
          if d.len = 0 ∧ st.walker.mode ≠ .stopping then st.complete count .empty 0 else st
        else st.onWalker fun w => { w with prefetched := some d }
      st.settle

/-- The FIFO entries of a buffer read: each bears the descriptor's index, and the one that holds the
buffer's first word is marked when the descriptor has BOUNDARY Set (R107). -/
def talkEntries (index : RingIdx) (boundary : Bool) : List Word → List FifoEntry
  | [] => []
  | w :: ws => ⟨w, boundary, index, 0⟩ :: talkEntries index false ws

/-- A buffer read reply with OK status. Words that are not the `n` asked for are no reply to this
access (log 19). -/
def Stream.readReply (words : List Word) (st : Stream) : Stream :=
  match st.inFlight .read with
  | none => st
  | some a =>
      if words.length ≠ a.count then st
      else
        let st := st.endAccess
        let w := st.walker
        let st :=
          if a.discard then st
          else
            let atCur := a.index = w.cur
            let before := if atCur then w.moved else w.ahead
            let d := if atCur then w.inHand else w.prefetched
            let first := before == 0 && (d.map Descriptor.boundary).getD false
            { st with
              fifo := st.fifo ++ talkEntries a.index first words
              priming := st.priming && words.isEmpty
              walker := if atCur then { w with moved := w.moved + words.length }
                else { w with ahead := w.ahead + words.length } }
        st.settle

/-- A buffer write acknowledged: its words count as written, the first stamp is kept, a full buffer
completes DONE, and a marked head may then cut the next (R109, R110). -/
def Stream.writeAck (count : Word) (st : Stream) : Stream :=
  match st.inFlight .write with
  | none => st
  | some a =>
      let st := st.endAccess.onWalker fun w => { w with
        done := w.done + a.count
        firstStamp := some (w.firstStamp.getD a.stamp) }
      let full := st.walker.inHand.any fun d => d.len ≤ st.walker.done
      let st := if full ∧ st.walker.mode ≠ .stopping then
          st.complete count .done st.walker.done else st
      (st.cutCheck count).settle

/-- A record write acknowledged: its entry leaves the record list and raises BUFFER_DONE and RING_END
as marked (R111, R112). -/
def Stream.recordAck (st : Stream) : Stream :=
  match st.inFlight .record, st.walker.records with
  | some _, r :: rs =>
      let st := st.onWalker fun w => { w with access := none, records := rs }
      let st := if r.notify then st.raise .bufferDone else st
      let st := if r.ringEnd then st.raise .ringEnd else st
      st.settle
  | _, _ => st

/-! ### Memory faults (R117) -/

/-- The walker's part of an error response (R117): the record list is dropped, C goes back to the
oldest descriptor without an acknowledged record, its progress and descriptors are dropped, the walk
mode becomes OFF and FAULT is raised. -/
def Stream.walkerFault (st : Stream) : Stream :=
  (st.onWalker fun w =>
    let cur := (w.records.head?.map Record.index).getD w.cur
    { w with
      mode := .off, cur := cur, fetch := cur, remaining := 0, inHand := none, prefetched := none
      caughtUp := w.caughtUp && w.records.isEmpty
      done := 0, moved := 0, ahead := 0, firstStamp := none, tally := 0
      records := [], access := none, stopCaughtUp := false, abortBuilt := false }).raise .fault

end Sys2Proof.Machine
end

