-- ==== Sys2Proof/Machine/Listen.lean ====
section
/-! DEFINITION. The Stream Engine of a Listen Stream: filter, words taken, sources, gaps, start, stop
and faults (chapter 8). -/

namespace Sys2Proof.Machine

/-- Whether a tag passes the filter: 0 EXACT, 1 MASKED, 2 ALL (R140). Code 3 names no mode; no
started stream has it (R142), and it passes nothing. -/
def StreamConfig.passes (c : StreamConfig) (t : Tag) : Bool :=
  match c.filterMode.toNat with
  | 0 => t == c.tag
  | 1 => t &&& c.mask == c.tag &&& c.mask
  | 2 => true
  | _ => false

/-- A Listen Stream that takes cells and judges gaps: RUNNING or DRAINED (the table of 8.2). -/
def Stream.hears (st : Stream) : Bool :=
  !st.isTalk && (st.state == .running || st.state == .drained)

/-- The conditions of R143 on a cell, apart from its kind and the FIFO's room (R143, R144). -/
def Stream.accepts (own : Bool) (tag : Tag) (st : Stream) : Bool :=
  st.hears && st.cfg.passes tag && (!own || st.cfg.loop)

/-- A FIFO entry is made at the tail, or the word is lost: OVERRUNS and OVERRUN (R143, R147).
The flag says which. -/
def Stream.pushEntry (word : Word) (boundary : Bool) (stamp : Stamp) (st : Stream) : Bool × Stream :=
  if st.fifo.length < Config.fifoDepth then
    (true, { st with fifo := st.fifo ++ [⟨word, boundary, 0, stamp⟩] })
  else (false, ({ st with overruns := satAdd st.overruns 1 }).raise .underOverrun)

/-- A passing DATA cell is taken (R143). -/
def Stream.takeWord (count : Word) (boundary : Bool) (word : Word) (st : Stream) : Stream :=
  match st.pushEntry word (boundary && st.cfg.align) (count.setWidth 16) with
  | (true, st') => { st' with lastWord := some word, words := satAdd st'.words 1 }
  | (false, st') => st'

/-- The check of a passing cell against the round sources list (R144). -/
def Stream.checkSource (tag : Tag) (sender : StationNo) (st : Stream) : Stream :=
  match st.sources.find? fun p => p.1 == tag with
  | none => { st with sources := st.sources ++ [(tag, sender)] }
  | some p =>
      if p.2 ≠ sender ∧ !st.multiRaised then ({ st with multiRaised := true }).raise .multiSource
      else st

/-- A gap: GAPS, the tally of C, and the gap policy 0 SKIP, 1 ZERO, 2 REPEAT (R146, R147). -/
def Stream.gap (count : Word) (st : Stream) : Stream :=
  let st := ({ st with fills := satAdd st.fills 1 }).onWalker Walker.addTally
  match st.cfg.gapPolicy.toNat with
  | 1 => (st.pushEntry 0 false (count.setWidth 16)).2
  | 2 => (st.pushEntry (st.lastWord.getD 0) false (count.setWidth 16)).2
  | _ => st

/-- The report of a Data Slot consumes the expectation; `lost` says the report was silent, garbled or
a clean FILL (R146). -/
def Stream.judgeSlot (count : Word) (lost : Bool) (st : Stream) : Stream :=
  let st' := { st with expect := false }
  if st.expect ∧ lost ∧ st.hears then st'.gap count else st'

/-- A clean DATA, FILL or KEEP of a Data Slot at a Listen engine (R143, R144, R146), and the CUT its
entry may bring (R110). A Talk context takes nothing. -/
def Stream.hearCell (count : Word) (own : Bool) (tag : Tag) (sender : StationNo) (kind : DataKind)
    (st : Stream) : Stream :=
  if st.isTalk then st
  else
    let st1 := if st.accepts own tag then st.checkSource tag sender else st
    let st2 := match kind with
      | .data b w => if st1.accepts own tag then st1.takeWord count b w else st1
      | .fill | .keep => st1
    (st2.judgeSlot count (kind == .fill)).cutCheck count

/-- A garbled or silent Data Slot at a Listen engine (R146). -/
def Stream.hearNothing (count : Word) (st : Stream) : Stream :=
  if st.isTalk then st else (st.judgeSlot count true).cutCheck count

/-- The slot expectation from the map entry as it stands at the slot start (R145). -/
def Stream.setExpect (e : SlotEntry) (st : Stream) : Stream :=
  if st.isTalk then st
  else { st with expect := match e with
    | .held _ t _ => st.cfg.passes t
    | _ => false }

/-- A clean MARK empties the round sources and Clears multi-source raised (R144). -/
def Stream.newRound (st : Stream) : Stream :=
  if st.isTalk then st else { st with sources := [], multiRaised := false }

/-- RUNNING or DRAINED by the caught-up flag (R142, R149). -/
def Stream.listenState (st : Stream) : StreamState :=
  if st.walker.caughtUp then .drained else .running

/-- A START of a Listen Stream that passed its checks (R142). -/
def Stream.startListen (st : Stream) : Stream :=
  ({ st with
    state := st.listenState, lastWord := none, sources := [], multiRaised := false
    expect := false }).onWalker Walker.walk

/-- An accepted RESUME of a Listen Stream (R149). -/
def Stream.resumeListen (st : Stream) : Stream :=
  { st with state := st.listenState, sources := [], multiRaised := false }

/-- An accepted STOP of a Listen Stream: the FIFO stays for the flush (R150). -/
def Stream.stopListen (st : Stream) : Stream :=
  ({ st with state := .stopping, cause := .command }).stopRequest

/-- The engine's part of a walker fault in a Listen Stream (R152). -/
def Stream.memoryFaultListen (st : Stream) : Stream :=
  match st.state with
  | .running | .drained | .paused | .stopping =>
      { st.emptyFifo with state := .faulted, cause := .memory }
  | .acquiring | .faulted | .stopped => st

end Sys2Proof.Machine
end

