-- ==== Sys2Proof/Machine/Queue.lean ====
section
/-! DEFINITION. The Control Cell Queue: offers, withdrawals, the turn, and what an echo makes of the
head (chapter 3). -/

namespace Sys2Proof.Machine

/-- The Data Slot a CLAIM or RELEASE names (R45). -/
def QueueCell.slot? : QueueCell → Option SlotNo
  | .claim i _ _ | .release i _ => some i
  | .join | .leave => none

/-- Whether an entry of the queue keeps an offer out: one entry per slot, and one JOIN or LEAVE in
all (R46). -/
def QueueCell.conflicts (offer entry : QueueCell) : Bool := offer.slot? == entry.slot?

/-- An offer: the queue with the new tail, or none where it is refused (R46). -/
def CellQueue.offer (c : QueueCell) (q : CellQueue) : Option CellQueue :=
  if q.entries.length < Config.queueDepth ∧ !(q.entries.any fun e => c.conflicts e.cell) then
    some { q with entries := q.entries ++ [⟨c, 0, 0, none⟩] }
  else none

/-- A withdrawal of the entry for `which`: removed at once, or marked withdrawn while its cell is on
the line; nothing when there is no such entry (R47, R48). Which entry is meant is told by its slot,
and by having none for the JOIN. A head removed for its slot is noted as passed over (R51; log 8). -/
def CellQueue.withdraw (which : Option SlotNo) (why : Withdrawal) (q : CellQueue) : CellQueue :=
  match q.entries with
  | [] => q
  | e :: es =>
      if e.cell.slot? = which then
        if q.onLine then
          { q with entries := { e with withdrawn := some (e.withdrawn.getD why) } :: es }
        else { q with
          entries := es
          passedOver := if which.isSome then q.passedOver ++ [e] else q.passedOver }
      else { q with entries := e :: es.eraseP fun e => e.cell.slot? == which }

/-- The heads passed over so far are of no more account: a Mark or an Open Slot start came after their
withdrawals (R51; log 8). -/
def CellQueue.forgetPassed (q : CellQueue) : CellQueue := { q with passedOver := [] }

/-- A clean MARK at the queue: the turn opens, or the head's wait counts down and it sits out (R49). -/
def CellQueue.onMark (q : CellQueue) : CellQueue :=
  match q.entries with
  | [] => { q.forgetPassed with turnOpen := true }
  | e :: es =>
      if e.wait = 0 then { q.forgetPassed with turnOpen := true }
      else { q.forgetPassed with entries := { e with wait := e.wait - 1 } :: es, turnOpen := false }

/-- A purge: every entry removed and the turn CLOSED (R57, R58). The WIPED outcomes it reports change
nothing at the Slot Agent, which takes them with its own wipe as one change (R41). -/
def CellQueue.purge (_q : CellQueue) : CellQueue where
  entries := []
  passedOver := []
  turnOpen := false
  onLine := false

/-- The chosen Open Slot of a head: A when station number plus attempt is even (R50). -/
def chosenSlot (stn : StationNo) (attempt : Nat) : OpenSlot :=
  if (stn.toNat + attempt) % 2 = 0 then .a else .b

/-- Conditions 1 to 3 of R50 on a head at the start of an Open Slot. -/
def CellQueue.ready (stn : StationNo) (which : OpenSlot) (e : QueueEntry) (q : CellQueue) : Bool :=
  q.turnOpen && e.wait == 0 && !q.onLine && chosenSlot stn e.attempt == which

/-- The head, where it meets conditions 1 to 3 of R50. -/
def CellQueue.contender (stn : StationNo) (which : OpenSlot) (q : CellQueue) : Option QueueEntry :=
  match q.entries with
  | [] => none
  | e :: _ => if q.ready stn which e then some e else none

/-- The Open Slot that starts. -/
def openSlotOf : SlotStart → OpenSlot
  | .onTime w | .late w _ => w

/-- The withdrawn entry that was still the head at a late start; none on time, and none where the start
names no such entry (R51; log 8). -/
def CellQueue.passedHead (start : SlotStart) (q : CellQueue) : Option QueueEntry :=
  match start with
  | .onTime _ => none
  | .late _ place => q.passedOver[place]?

/-- An Open Slot start that reached the queue while `e`, withdrawn since, was its head: where `e` met
conditions 1 to 3 it failed the withdrawal check, so that the turn is CLOSED; nothing is sent either
way (R50, R51; log 8). The outcome the check reports finds the map entry changed already, and the
withdrawal finds no entry, so neither leaves a trace (R37, R38, R47). -/
def CellQueue.metPassed (stn : StationNo) (which : OpenSlot) (e : QueueEntry) (q : CellQueue) :
    CellQueue :=
  { q.forgetPassed with turnOpen := q.turnOpen && !q.ready stn which e }

/-- The head's cell goes on the line and the turn closes (R49, R50). -/
def CellQueue.hand (q : CellQueue) : CellQueue := { q with turnOpen := false, onLine := true }

/-- The head fails the withdrawal check: removed, and the turn CLOSED (R51). -/
def CellQueue.dropHead (q : CellQueue) : CellQueue :=
  { q with entries := q.entries.tail, turnOpen := false }

/-- The head leaves the queue at an echo result; the turn is as it was (R49, R53, R55). -/
def CellQueue.removeHead (q : CellQueue) : CellQueue :=
  { q with entries := q.entries.tail, onLine := false }

/-- The outcome a withdrawal reports (R47). -/
def Withdrawal.outcome : Withdrawal → CellOutcome
  | .taken => .taken
  | .gone => .gone

/-- The wait after a mismatch that leaves the head at this attempt: the station number modulo 2 to
the attempt (R54). -/
def backoffWait (stn : StationNo) (attempt : Nat) : Nat := stn.toNat % 2 ^ attempt

/-- What an echo result makes of the head: the queue, and the outcome reported for a removed entry
(R48, R53, R54, R55). -/
def CellQueue.onEcho (stn : StationNo) (matched : Bool) (q : CellQueue) :
    CellQueue × Option (QueueCell × CellOutcome) :=
  match q.entries with
  | [] => (q, none)
  | e :: es =>
      match e.withdrawn with
      | some why => (q.removeHead, some (e.cell, why.outcome))
      | none =>
          if matched then (q.removeHead, some (e.cell, .matched))
          else if e.attempt < Config.lastAttempt then
            ({ q with
              onLine := false
              entries := { e with
                attempt := e.attempt + 1, wait := backoffWait stn (e.attempt + 1) } :: es }, none)
          else (q.removeHead, some (e.cell, .contention))

end Sys2Proof.Machine
end

