-- ==== Sys2Proof/Machine/Talk.lean ====
section
/-! DEFINITION. The Stream Engine of a Talk Stream: the cell for a held slot, grace, pause, stop and
faults (chapter 7). What reaches the Slot Agent stands in SlotAgent.lean. -/

namespace Sys2Proof.Machine

/-- The engine's answer for a MINE slot (the table of R124), with the effects of the answer: the
word-on-the-line mark for DATA; FILLS, the tally of C and UNDERRUN for FILL (R125). -/
def Stream.answer (st : Stream) : DataKind × Stream :=
  if st.state = .running ∨ st.state = .acquiring then
    if st.priming then (.keep, st)
    else match st.fifo with
      | e :: _ => (.data e.boundary e.word, { st with wordOnLine := true })
      | [] =>
          if st.walker.caughtUp then (.keep, st)
          else (.fill, (({ st with fills := satAdd st.fills 1 }).onWalker Walker.addTally).raise
            .underOverrun)
  else (.keep, st)

/-- The grace test of a DRAINED stream (R129). -/
def Stream.graceExpired (count : Word) (st : Stream) : Bool :=
  st.isTalk && st.state == .drained && st.cfg.grace != 255
    && st.cfg.grace.toNat ≤ count.toNat - st.drainStart.toNat

/-- The echo result of a DATA cell at the engine: the head departs while the mark stands, and nothing
happens when the FIFO was emptied in the meantime (R124). -/
def Stream.dataEcho (count : Word) (st : Stream) : Stream :=
  if st.wordOnLine then
    ({ st with
      fifo := st.fifo.tail, wordOnLine := false, words := satAdd st.words 1 }).departure count
  else st

/-- The engine's part of a START that passed its checks: ACQUIRING, priming, Walk, and the pause
timer at 0 (R40, R123). -/
def Stream.startTalk (st : Stream) : Stream :=
  ({ st with
    state := .acquiring, priming := true, walkerQuiet := false, pauseTimer := 0 }).onWalker
    Walker.walk

/-- An accepted PAUSE of a Talk Stream (R131). -/
def Stream.pauseTalk (st : Stream) : Stream :=
  ({ st with state := .paused }).onWalker Walker.hold

/-- An accepted RESUME of a Talk Stream (R131). -/
def Stream.resumeTalk (count : Word) (st : Stream) : Stream :=
  let st := (st.onWalker Walker.walk).primeIfEmpty
  if st.held = 0 then { st with state := .acquiring } else st.runOrDrain count

/-- The engine's part of a STOP or a grace expiry (R129, R132): STOPPING with its cause, the FIFO
emptied, priming and the two stop marks Cleared, and the Stop request. -/
def Stream.beginStop (cause : StopCause) (st : Stream) : Stream :=
  ({ st.emptyFifo with
    state := .stopping, cause := cause, priming := false, entriesGone := false
    walkerQuiet := false }).stopRequest

/-- The engine's part of a walker fault in a Talk Stream (R134). -/
def Stream.memoryFaultTalk (st : Stream) : Stream :=
  match st.state with
  | .acquiring | .running | .paused | .drained | .stopping =>
      { st.emptyFifo with state := .faulted, cause := .memory, priming := false, walkerQuiet := true }
  | .faulted => { st with walkerQuiet := true }
  | .stopped => st

/-- The engine's part of a duplicate notice (R135): a started stream faults and stops its walker; a
stopping one faults and its walker goes on stopping. -/
def Stream.duplicateFault (st : Stream) : Stream :=
  if !st.isTalk then st
  else match st.state with
  | .acquiring | .running | .paused | .drained =>
      (({ st.emptyFifo with
        state := .faulted, cause := .duplicate, priming := false
        walkerQuiet := false }).raise .fault).stopRequest
  | .stopping => ({ st with state := .faulted, cause := .duplicate }).raise .fault
  | .faulted | .stopped => st

end Sys2Proof.Machine
end

