-- ==== Sys2Proof/Machine/SlotAgent.lean ====
section
/-! DEFINITION. The Slot Agent: the Slot Map, learning, aging, collisions, heard control cells, the
work at a Mark, outcomes, releases and wipes (chapter 2). -/

namespace Sys2Proof.Machine

/-! ### Entries -/

/-- The stream of an own entry; none for FREE and HELD (R21, R22). -/
def SlotEntry.stream? : SlotEntry → Option StreamNo
  | .claiming _ k _ | .mine _ k | .releasing _ k _ | .collided _ k _ => some k
  | .free | .held _ _ _ => none

/-- An entry in one of this station's own states (R22). -/
def SlotEntry.isOwn (e : SlotEntry) : Bool := e.stream?.isSome

/-- An entry that is MINE for stream `k`. -/
def SlotEntry.isMineFor (k : StreamNo) : SlotEntry → Bool
  | .mine _ j => j == k
  | _ => false

/-- An entry that is CLAIMING for stream `k`. -/
def SlotEntry.isClaimingFor (k : StreamNo) : SlotEntry → Bool
  | .claiming _ j _ => j == k
  | _ => false

/-- The number of entries of the map that satisfy a test. -/
def countEntries (p : SlotEntry → Bool) (m : Vector SlotEntry 48) : Nat := m.toList.countP p

/-- Entries MINE for stream `k` (R23). -/
def mineCount (m : Vector SlotEntry 48) (k : StreamNo) : Nat := countEntries (·.isMineFor k) m

/-- Own entries that name stream `k`, in all four own states (R40). -/
def ownCount (m : Vector SlotEntry 48) (k : StreamNo) : Nat :=
  countEntries (fun e => e.stream? == some k) m

/-- Own entries of the station (R22). -/
def ownTotal (m : Vector SlotEntry 48) : Nat := countEntries SlotEntry.isOwn m

/-! ### Changing the map (R23, R40) -/

/-- What the Slot Agent reports to stream `k` when the map changes from `m` to `m'`: the held count
where it changed, and that no own entries remain where the last one went (R40). -/
def reportMap (count : Word) (m m' : Vector SlotEntry 48) (k : StreamNo) (st : Stream) : Stream :=
  let st := if mineCount m' k = st.held then st else st.onHeld count (mineCount m' k)
  if ownCount m k ≠ 0 ∧ ownCount m' k = 0 then st.onNoneRemain else st

/-- The map changes, with the held counts and the reports of R40 in the same change (R23). -/
def State.installMap (m' : Vector SlotEntry 48) (s : State) : State :=
  { s with
    slotMap := m'
    streams := Vector.ofFn fun k : StreamNo =>
      reportMap s.mku.count s.slotMap m' k s.streams[k] }

/-- One entry changes, with the reports of R40. -/
def State.setEntry (i : SlotNo) (e : SlotEntry) (s : State) : State :=
  s.installMap (s.slotMap.set i e)

/-- Every entry changes, with the reports of R40. -/
def State.mapEntries (f : SlotEntry → SlotEntry) (s : State) : State :=
  s.installMap (Vector.ofFn fun i : SlotNo => f s.slotMap[i])

/-- Whether an entry has its queued mark Set (R28). -/
def SlotEntry.isQueued : SlotEntry → Bool
  | .claiming _ _ q | .releasing _ _ q => q
  | _ => false

/-- The queue entry of slot `i` is withdrawn when its queued mark was Set (R28). -/
def State.withdrawIfQueued (i : SlotNo) (why : Withdrawal) (s : State) : State :=
  if s.slotMap[i].isQueued then s.onCcq (CellQueue.withdraw (some i) why) else s

/-! ### What is heard (sections 2.3 to 2.5) -/

/-- An echo mismatch in Data Slot `i` (R26). -/
def State.collide (i : SlotNo) (s : State) : State :=
  let s := s.onCounters StationCounters.addCollide
  match s.slotMap[i] with
  | .mine t k => s.setEntry i (.collided t k s.straps.stn)
  | .releasing _ _ _ => (s.withdrawIfQueued i .gone).setEntry i .free
  | .free | .held _ _ _ | .claiming _ _ _ | .collided _ _ _ => s

/-- A clean DATA, FILL or KEEP from station `x` with tag `t` in Data Slot `i` (R27). MINE and
RELEASING cannot meet it; they stay as they are (log 12). -/
def State.learn (i : SlotNo) (x : StationNo) (t : Tag) (s : State) : State :=
  match s.slotMap[i] with
  | .free => s.setEntry i (.held x t 0)
  | .held y u _ =>
      let s := s.setEntry i (.held x t 0)
      if y = x ∧ u = t then s else s.onCounters StationCounters.addCorrect
  | .claiming _ _ _ => (s.withdrawIfQueued i .taken).setEntry i (.held x t 0)
  | .collided _ _ _ => s.setEntry i (.held x t 0)
  | .mine _ _ | .releasing _ _ _ => s

/-- The last silence of a HELD entry: it becomes FREE and AGED counts it (R29). -/
def State.ageOut (i : SlotNo) (s : State) : State :=
  match s.slotMap[i] with
  | .held _ _ n => if n = 7 then (s.setEntry i .free).onCounters StationCounters.addAged else s
  | _ => s

/-- A garbled or silent Data Slot (R29). -/
def State.missSlot (i : SlotNo) (garbled : Bool) (s : State) : State :=
  let s := if garbled then s.onCounters StationCounters.addCheckErr else s
  match s.slotMap[i] with
  | .held x t n => if n = 7 then s.ageOut i else s.setEntry i (.held x t (n + 1))
  | _ => s

/-- A clean CLAIM from station `x` (R30). -/
def State.hearClaim (i : SlotNo) (x : StationNo) (t : Tag) (s : State) : State :=
  match s.slotMap[i] with
  | .free => s.setEntry i (.held x t 0)
  | .claiming _ _ _ => (s.withdrawIfQueued i .taken).setEntry i (.held x t 0)
  | .held _ _ _ | .mine _ _ | .releasing _ _ _ | .collided _ _ _ => s

/-- A clean RELEASE from station `x` frees the entry this map believes it holds (R31). -/
def State.hearRelease (i : SlotNo) (x : StationNo) (s : State) : State :=
  match s.slotMap[i] with
  | .held y _ _ => if y = x then s.setEntry i .free else s
  | _ => s

/-- An entry held by station `x` is freed by its LEAVE (R32). -/
def SlotEntry.leave (x : StationNo) : SlotEntry → SlotEntry
  | .held y t n => if y = x then .free else .held y t n
  | e => e

/-! ### Work at a clean Mark (section 2.6) -/

/-- The backoff of a COLLIDED entry at a clean Mark (R33, step 1). -/
def SlotEntry.tickBackoff : SlotEntry → SlotEntry
  | .collided t k b => if b.toNat ≤ 1 then .free else .collided t k (b - 1)
  | e => e

/-- The lowest-numbered FREE entry (R34). -/
def firstFree (m : Vector SlotEntry 48) : Option SlotNo :=
  allSlots.find? fun i => m[i] == .free

/-- Conditions 1 to 5 of auto-claim for stream `k` (R34). -/
def State.mayClaim (k : StreamNo) (s : State) : Bool :=
  let st := s.streams[k]
  st.isTalk
    && (st.state == .acquiring || st.state == .running || st.state == .drained || st.state == .paused)
    && s.rsu.membership == .member
    && st.held + countEntries (·.isClaimingFor k) s.slotMap < st.cfg.wanted.toNat
    && st.pauseTimer == 0
    && ownTotal s.slotMap < Config.holdLimit

/-- SHORT becomes Set, and its event is raised when it was Cleared (R35). -/
def Stream.setShort (st : Stream) : Stream :=
  if st.short then st else ({ st with short := true }).raise .short

/-- Auto-claim for stream `k` (R33, step 3; R34). -/
def State.autoClaim (s : State) (k : StreamNo) : State :=
  if s.mayClaim k then
    match firstFree s.slotMap with
    | some i => s.putEntry i (.claiming s.streams[k].cfg.tag k false)
    | none => s.onStream k Stream.setShort
  else s

/-- The offer an entry makes: a CLAIM or RELEASE whose queued mark is Cleared (R36). -/
def SlotEntry.offer (i : SlotNo) : SlotEntry → Option QueueCell
  | .claiming t k false => some (.claim i t k)
  | .releasing _ k false => some (.release i k)
  | _ => none

/-- An entry with its queued mark Set (R28). -/
def SlotEntry.setQueued : SlotEntry → SlotEntry
  | .claiming t k _ => .claiming t k true
  | .releasing t k _ => .releasing t k true
  | e => e

/-- Offers of the unqueued entries of these slots, one at a time, until the first refusal (R36, R39,
R46). -/
def offerSlots : List SlotNo → Vector SlotEntry 48 × CellQueue → Vector SlotEntry 48 × CellQueue
  | [], x => x
  | i :: is, (m, q) =>
      match m[i].offer i with
      | none => offerSlots is (m, q)
      | some c =>
          match q.offer c with
          | some q' => offerSlots is (m.set i m[i].setQueued, q')
          | none => (m, q)

/-- The offers of these slots made to the queue. -/
def State.offerAll (is : List SlotNo) (s : State) : State :=
  let x := offerSlots is (s.slotMap, s.ccq)
  { s with slotMap := x.1, ccq := x.2 }

/-- A pause timer at a clean Mark (R33, step 2). -/
def Stream.tickPause (st : Stream) : Stream := { st with pauseTimer := st.pauseTimer - 1 }

/-- The Slot Agent's work at a clean Mark: backoff, pause timers, auto-claim for streams 0 to 7,
deferred queuing, in this order (R33). -/
def State.slotAgentMark (s : State) : State :=
  let s := s.mapEntries SlotEntry.tickBackoff
  let s := s.onStreams fun _ => Stream.tickPause
  let s := allStreams.foldl State.autoClaim s
  s.offerAll allSlots

/-! ### Outcomes of own control cells (section 2.7) -/

/-- A CLAIM outcome for Data Slot `i` (R37). -/
def State.claimOutcome (i : SlotNo) (o : CellOutcome) (s : State) : State :=
  match o, s.slotMap[i] with
  | .matched, .claiming t k _ => s.setEntry i (.mine t k)
  | .contention, .claiming _ k _ =>
      (s.setEntry i .free).onStream k fun st =>
        ({ st with pauseTimer := Config.claimPause }).raise .claimFailed
  | _, _ => s

/-- A RELEASE outcome for Data Slot `i` (R38). -/
def State.releaseOutcome (i : SlotNo) (o : CellOutcome) (s : State) : State :=
  match o, s.slotMap[i] with
  | .matched, .releasing _ _ _ | .contention, .releasing _ _ _ => s.setEntry i .free
  | _, _ => s

/-! ### Releases and wipes (sections 2.8 and 2.9) -/

/-- What a release trigger of stream `k` makes of an entry (the table of R39). -/
def SlotEntry.trigger (k : StreamNo) : SlotEntry → SlotEntry
  | .mine t j => if j = k then .releasing t j false else .mine t j
  | .claiming t j q => if j = k then .free else .claiming t j q
  | .collided t j b => if j = k then .free else .collided t j b
  | e => e

/-- A release trigger of Talk Stream `k`: the entries, the withdrawal of queued CLAIMs, SHORT, the
offers of the new RELEASING entries, and the report that none remain (R39, R40). R39 orders the offers
only: that the withdrawals reach the queue in increasing slot number too is the model's choice
(log 38). -/
def State.releaseTrigger (k : StreamNo) (s : State) : State :=
  let mine := allSlots.filter fun i => s.slotMap[i].isMineFor k
  let claims := allSlots.filter fun i => s.slotMap[i].isClaimingFor k
  let hadNone := ownCount s.slotMap k == 0
  let s := claims.foldl (fun s i => s.withdrawIfQueued i .gone) s
  let s := s.mapEntries (SlotEntry.trigger k)
  let s := s.onStream k fun st => { st with short := false }
  let s := s.offerAll mine
  if hadNone then s.onStream k Stream.onNoneRemain else s

/-- A grace expiry or a STOP of Talk Stream `k`: the engine's part and the release trigger (R129,
R132). -/
def State.stopTalk (k : StreamNo) (cause : StopCause) (s : State) : State :=
  (s.onStream k (Stream.beginStop cause)).releaseTrigger k

/-- The wipe and purge on isolation, as one change (R41, R42, R57). -/
def State.wipeAll (s : State) : State :=
  (s.mapEntries fun _ => .free).onCcq CellQueue.purge

/-- An own entry is freed by the wipe on a duplicate address (R43). -/
def SlotEntry.freeOwn (e : SlotEntry) : SlotEntry := if e.isOwn then .free else e

/-- The wipe and purge on a duplicate address, as one change (R41, R43, R58). -/
def State.wipeOwn (s : State) : State :=
  (s.mapEntries SlotEntry.freeOwn).onCcq CellQueue.purge

end Sys2Proof.Machine
end

