-- ==== Sys2Proof/Machine/Roster.lean ====
section
/-! DEFINITION. The Roster Unit: the roster, membership, joining, leaving, isolation and the duplicate
address (chapter 5). -/

namespace Sys2Proof.Machine

/-! ### The roster (sections 5.1 and 5.2) -/

/-- The entry of station `n`. -/
def RosterUnit.entry (u : RosterUnit) (n : StationNo) : RosterEntry := u.roster[n.toFin]

/-- The entry of station `n` set to `e`. -/
def RosterUnit.putEntry (n : StationNo) (e : RosterEntry) (u : RosterUnit) : RosterUnit :=
  { u with roster := u.roster.set n.toFin e }

/-- The stations whose own entry is PRESENT: MEMBER or LEAVING (R82, R64). -/
def Membership.onLine : Membership → Bool
  | .member | .leaving => true
  | .dormant | .listening | .joining | .isolated => false

/-- The membership state and, in the same change, the own entry it decides (R82). Station number 0
has no entry. -/
def RosterUnit.setMembership (stn : StationNo) (m : Membership) (u : RosterUnit) : RosterUnit :=
  let u := { u with membership := m }
  if stn = 0 then u else u.putEntry stn (if m.onLine then .present else .absent)

/-- Evidence on the entry of station `n`; the own entry is passed over, and 0 is no entry (R82). -/
def RosterUnit.onOther (stn n : StationNo) (f : RosterEntry → RosterEntry) (u : RosterUnit) :
    RosterUnit :=
  if n = 0 ∨ n = stn then u else u.putEntry n (f (u.entry n))

/-- A clean cell from station `x`, other than a LEAVE (R83). -/
def RosterUnit.heard (stn x : StationNo) (u : RosterUnit) : RosterUnit :=
  u.onOther stn x fun _ => .present

/-- A clean LEAVE from station `x` (R83). -/
def RosterUnit.heardLeave (stn x : StationNo) (u : RosterUnit) : RosterUnit :=
  u.onOther stn x fun _ => .absent

/-- What a miss makes of an entry (R84). -/
def RosterEntry.miss : RosterEntry → RosterEntry
  | .present => .suspect1
  | .suspect1 => .suspect2
  | .suspect2 | .absent => .absent

/-- A missed holder reported against station `y` (R84). -/
def RosterUnit.missed (stn y : StationNo) (u : RosterUnit) : RosterUnit :=
  u.onOther stn y RosterEntry.miss

/-- What a bitmap bit makes of an entry (the table of R85). -/
def RosterEntry.adopt (bit : Bool) (e : RosterEntry) : RosterEntry :=
  if bit then
    match e with
    | .absent | .present => .present
    | .suspect1 => .suspect1
    | .suspect2 => .suspect2
  else .absent

/-- The bitmap of another station's MARK, for every station but this one (R85). -/
def RosterUnit.adoptBitmap (stn : StationNo) (bitmap : Word) (u : RosterUnit) : RosterUnit :=
  { u with roster := Vector.ofFn fun n : Fin 32 =>
      if n.val = 0 ∨ n = stn.toFin then u.roster[n] else u.roster[n].adopt (bitmap.getLsbD n) }

/-- The roster as the station area shows it: bit n Set while entry n is PRESENT or SUSPECT (R82). -/
def RosterUnit.bitmap (u : RosterUnit) : Word :=
  (List.finRange 32).foldl (fun acc n =>
    if n.val ≠ 0 ∧ u.roster[n] ≠ .absent then acc ||| (1#32 <<< n.val) else acc) 0

/-! ### Joining (section 5.4) -/

/-- A JOIN or LEAVE is offered: the intent names it, and the queued mark tells whether the queue took
it (R89, R92). -/
def State.offerControl (intent : ControlIntent) (cell : QueueCell) (s : State) : State :=
  match s.ccq.offer cell with
  | some q => { s with ccq := q, rsu := { s.rsu with intent := intent, queued := true } }
  | none => s.onRsu fun u => { u with intent := intent, queued := false }

/-- A JOIN is offered (R89). -/
def State.offerJoin (s : State) : State := s.offerControl .join .join

/-- A LEAVE is offered (R92). -/
def State.offerLeave (s : State) : State := s.offerControl .leave .leave

/-- A JOIN or LEAVE that was refused is offered again at a clean MARK (R89, R92). -/
def State.reoffer (s : State) : State :=
  if s.rsu.queued then s
  else match s.rsu.intent with
    | .none => s
    | .join => s.offerJoin
    | .leave => s.offerLeave

/-- The JOIN in the queue is withdrawn with GONE, and the intent becomes none (R89). Where the station
leaves JOINING while the offer of its JOIN stands refused, no JOIN is withdrawn and the rules name no
value of the intent: that it becomes none then too is the model's choice (log 35). -/
def State.withdrawJoin (s : State) : State :=
  let s := if s.rsu.queued then s.onCcq (CellQueue.withdraw none .gone) else s
  s.onRsu fun u => { u with intent := .none, queued := false }

/-- The membership state of the station changes. -/
def State.setMembership (m : Membership) (s : State) : State :=
  s.onRsu (RosterUnit.setMembership s.straps.stn m)

/-- A join attempt ends: another while fewer than four were made, else DORMANT and JOIN_FAILED
(R90). -/
def State.attemptEnds (s : State) : State :=
  if s.rsu.attempt < Config.joinAttempts then
    (s.onRsu fun u => { u with attempt := u.attempt + 1 }).offerJoin
  else ((s.onRsu fun u => { u with attempt := 0 }).setMembership .dormant).raise .joinFailed

/-- The learn count reaches 2: JOINING, attempt 1, and a JOIN offered (R88). -/
def State.learnDone (s : State) : State :=
  ((s.onRsu fun u => { u with learnCount := 2, attempt := 1 }).setMembership .joining).offerJoin

/-- A clean MARK counted in LISTENING (R88). -/
def State.learnMark (s : State) : State :=
  if s.rsu.learnCount = 0 then s.onRsu fun u => { u with learnCount := 1 } else s.learnDone

/-- JOINING to MEMBER at a MARK that carries the own bit (R90). -/
def State.joined (s : State) : State :=
  (((s.onRsu fun u => { u with joinTimer := none, attempt := 0 }).withdrawJoin).setMembership
    .member).raise .joined

/-- The join timer runs out: it becomes idle and the attempt ends (R90). -/
def State.joinTimerDone (s : State) : State :=
  (s.onRsu fun u => { u with joinTimer := none }).attemptEnds

/-- A MARK without the own bit in JOINING (R90). -/
def State.joinWait (s : State) : State :=
  match s.rsu.joinTimer with
  | none => s.reoffer
  | some t =>
      if t ≤ 1 then s.joinTimerDone
      else s.onRsu fun u => { u with joinTimer := some (t - 1) }

/-- MEMBER to JOINING at a MARK without the own bit (R91). -/
def State.expelled (s : State) : State :=
  (((s.onRsu fun u => { u with attempt := 1 }).setMembership .joining).offerJoin).raise .expelled

/-! ### A clean MARK at the Roster Unit -/

/-- What another station's MARK does to the membership state, by its own bit (R88, R90, R91, R93,
R95). -/
def State.membershipMark (ownBit : Bool) (s : State) : State :=
  match s.rsu.membership with
  | .dormant => s
  | .listening => s.learnMark
  | .joining => if ownBit then s.joined else s.joinWait
  | .member => if ownBit then s else s.expelled
  | .leaving => s.reoffer
  | .isolated =>
      if ownBit then (s.setMembership .member).raise .joined
      else (s.onRsu fun u => { u with learnCount := 0 }).setMembership .listening

/-- A clean MARK from another station: the sender's refresh, the bitmap, the membership (R83, R85). -/
def State.rosterMark (sender : StationNo) (bitmap : Word) (s : State) : State :=
  let stn := s.straps.stn
  (s.onRsu fun u => (u.heard stn sender).adoptBitmap stn bitmap).membershipMark
    (bitmap.getLsbD stn.toNat)

/-- The own MARK delivered back: it refreshes and adopts nothing (R85, R95; log 31). -/
def State.rosterOwnMark (s : State) : State :=
  match s.rsu.membership with
  | .dormant | .member => s
  | .listening => s.learnMark
  | .joining | .leaving => s.reoffer
  | .isolated => (s.setMembership .member).raise .joined

/-! ### Outcomes of JOIN and LEAVE -/

/-- The entry has left the queue: the intent is none. -/
def RosterUnit.dropIntent (u : RosterUnit) : RosterUnit := { u with intent := .none, queued := false }

/-- A JOIN outcome (R90). -/
def State.joinOutcome (o : CellOutcome) (s : State) : State :=
  match o, s.rsu.membership with
  | .matched, .joining =>
      s.onRsu fun u => { u.dropIntent with joinTimer := some Config.joinWait }
  | .contention, .joining => (s.onRsu RosterUnit.dropIntent).attemptEnds
  | _, _ => s

/-- A LEAVE outcome (R93). -/
def State.leaveOutcome (o : CellOutcome) (s : State) : State :=
  match o, s.rsu.membership with
  | .matched, .leaving | .contention, .leaving =>
      ((s.onRsu RosterUnit.dropIntent).setMembership .dormant).raise .left
  | _, _ => s

/-! ### Isolation and the duplicate address (sections 5.7 and 5.8) -/

/-- The counts, timer and intent at rest. -/
def RosterUnit.rest (u : RosterUnit) : RosterUnit :=
  { u with learnCount := 0, attempt := 0, joinTimer := none, intent := .none, queued := false }

/-- Every entry ABSENT (R94). -/
def RosterUnit.forget (u : RosterUnit) : RosterUnit :=
  { u with roster := Vector.replicate 32 .absent }

/-- A change of R94: the roster forgotten, the counts at rest, the map wiped and the queue purged. -/
def State.isolate (m : Membership) (e : StationEvent) (s : State) : State :=
  (((s.onRsu fun u => u.forget.rest).setMembership m).raise e).wipeAll

/-- Sync loss at the Roster Unit (R94). -/
def State.rosterSyncLoss (s : State) : State :=
  match s.rsu.membership with
  | .listening | .joining | .member => s.isolate .isolated .isolated
  | .leaving => s.isolate .dormant .left
  | .dormant | .isolated => s

/-- The release trigger of a Talk Stream that the duplicate notice faults: its own entries are gone
already, so only SHORT and the reports are left of it (R39, R135). -/
def State.faultDuplicate (s : State) (k : StreamNo) : State :=
  let st := s.streams[k]
  if st.isTalk ∧ st.state ≠ .stopped ∧ st.state ≠ .faulted then
    (s.onStream k Stream.duplicateFault).releaseTrigger k
  else s

/-- A duplicate-address sighting at the Roster Unit, with what it asks of the Slot Agent, the queue
and the Stream Engines (R96). A STOPPING Talk Stream whose walker is quiet and which held entries until
this wipe gets the report that none remain (STOPPED, R133) and the notice (FAULTED, R135); no rule says
which its engine takes first, and the model's choice is the report (log 36). -/
def State.duplicateSeen (s : State) : State :=
  let s := (((s.onRsu RosterUnit.rest).setMembership .dormant).raise .duplicate).wipeOwn
  allStreams.foldl State.faultDuplicate s

/-! ### The JOIN and LEAVE commands -/

/-- A command's effect and its result. -/
abbrev Commanded := State × CommandResult

/-- JOIN (R88). -/
def State.commandJoin (s : State) : Commanded :=
  if s.straps.stn = 0 then (s, .badConfig)
  else match s.rsu.membership with
    | .dormant =>
        ((s.onRsu fun u => { u with learnCount := 0, attempt := 0 }).setMembership .listening, .ok)
    | .listening | .joining | .member | .leaving | .isolated => (s, .badState)

/-- Some Talk Stream is not STOPPED (R92). -/
def State.talkStarted (s : State) : Bool :=
  allStreams.any fun k => s.streams[k].isTalk && s.streams[k].state != .stopped

/-- LEAVE (R92). -/
def State.commandLeave (s : State) : Commanded :=
  match s.rsu.membership with
  | .dormant | .leaving => (s, .badState)
  | m =>
      if s.talkStarted then (s, .busy)
      else match m with
        | .member => ((s.setMembership .leaving).offerLeave, .ok)
        | .joining =>
            (((s.withdrawJoin.onRsu fun u => { u with joinTimer := none, attempt := 0 }).setMembership
              .dormant).raise .left, .ok)
        | .listening =>
            (((s.onRsu fun u => { u with learnCount := 0 }).setMembership .dormant).raise .left, .ok)
        | .isolated => ((s.setMembership .dormant).raise .left, .ok)
        | .dormant | .leaving => (s, .badState)

end Sys2Proof.Machine
end

