-- ==== Sys2Proof/Machine/Mark.lean ====
section
/-! DEFINITION. The Mark Unit: the round count, the window plan, own MARKs, recovery and cold start
(chapter 4), and a clean MARK at every block that takes it. -/

namespace Sys2Proof.Machine

/-! ### The round count (section 4.3) -/

/-- Where the count stops (R67). -/
def countMax : Nat := 2 ^ 32 - 1

/-- How far a MARK with round number `r` moves the count: to the next value with these low 8 bits,
1 to 256 further on (R67). -/
def countStep (count : Word) (r : BitVec 8) : Nat :=
  let d := (r.toNat + 256 - count.toNat % 256) % 256
  if d = 0 then 256 else d

/-- The count after a clean MARK with round number `r` (R67). -/
def adoptCount (count : Word) (r : BitVec 8) : Word :=
  BitVec.ofNat 32 (min countMax (count.toNat + countStep count r))

/-- A slip: the count was adopted and not stopped, and it moved by other than 1 (R68). -/
def MarkUnit.slips (r : BitVec 8) (m : MarkUnit) : Bool :=
  m.adopted && m.count.toNat < countMax && (adoptCount m.count r).toNat != m.count.toNat + 1

/-- A clean MARK at the Mark Unit's own state (R67, R68). -/
def MarkUnit.takeMark (fields : MarkFields) (m : MarkUnit) : MarkUnit :=
  { m with
    count := adoptCount m.count fields.round
    adopted := true
    lastRound := fields.round
    holder := some fields.next
    plan := .none
    carrierSeen := false
    recoveryWait := none
    coldWait := none }

/-- The station against which a clean MARK shows a miss (R70). -/
def MarkUnit.missedBy (stn sender : StationNo) (takeover : Bool) (m : MarkUnit) : Option StationNo :=
  m.holder.filter fun y => y != stn && (takeover || sender != y)

/-! ### The MARK this station sends (section 4.2) -/

/-- The other stations in cyclic order after station `h` (R66, R71). -/
def stationsAfter (h : StationNo) : List StationNo :=
  (List.range 30).map fun i => BitVec.ofNat 5 ((h.toNat + i) % 31 + 1)

/-- The next holder: the first PRESENT station after this one, or this one (R66). -/
def RosterUnit.nextHolder (stn : StationNo) (u : RosterUnit) : StationNo :=
  ((stationsAfter stn).find? fun n => u.entry n == .present).getD stn

/-- The bitmap as sent: the PRESENT stations, with the own bit Set and bit 0 as 0 (R65). -/
def RosterUnit.sentBitmap (stn : StationNo) (u : RosterUnit) : Word :=
  (List.finRange 32).foldl (fun acc n =>
    if n.val ≠ 0 ∧ (u.roster[n] = .present ∨ n = stn.toFin) then acc ||| (1#32 <<< n.val) else acc) 0

/-- The own bit alone (R65). -/
def ownBitOnly (stn : StationNo) : Word := (1#32 <<< stn.toNat) &&& 0xFFFFFFFE#32

/-- The four kinds of own MARK (R65). -/
inductive MarkKind where
  | duty
  | takeover (rank : BitVec 3)
  | recovery
  | cold
deriving DecidableEq, Repr

/-- The round number of an own MARK (R65). -/
def MarkUnit.nextRound (m : MarkUnit) : BitVec 8 :=
  if m.count.toNat = countMax then m.lastRound + 1 else m.count.setWidth 8 + 1

/-- The content of an own MARK (the table of R65). -/
def State.markFields (k : MarkKind) (s : State) : MarkFields :=
  let stn := s.straps.stn
  match k with
  | .duty => ⟨s.mku.nextRound, false, false, 0, s.rsu.nextHolder stn, s.rsu.sentBitmap stn⟩
  | .takeover rank => ⟨s.mku.nextRound, true, false, rank, s.rsu.nextHolder stn, s.rsu.sentBitmap stn⟩
  | .recovery => ⟨s.mku.nextRound, true, false, 0, s.rsu.nextHolder stn, s.rsu.sentBitmap stn⟩
  | .cold => ⟨s.mku.nextRound, false, true, 0, stn, ownBitOnly stn⟩

/-- The membership state permits this MARK (R64). -/
def MarkKind.permitted (m : Membership) : MarkKind → Bool
  | .duty | .takeover _ | .recovery => m.onLine
  | .cold => m == .isolated

/-- What the own MARK in flight becomes when a request is taken (R72, R73, R76, R79). -/
def MarkKind.inFlight : MarkKind → OwnMark
  | .duty | .takeover _ | .recovery => .normal
  | .cold => .cold

/-- A MARK with the TAKEOVER flag is counted in TAKEOVER (R73, R76). -/
def MarkKind.counted : MarkKind → Bool
  | .takeover _ | .recovery => true
  | .duty | .cold => false

/-- The Line Unit takes a MARK request: the MARK starts at `start` (R8, R72, R73, R76, R79). -/
def State.sendMark (k : MarkKind) (start : Instant) (s : State) : State :=
  let record : TxRecord :=
    ⟨s.lnu.markPosition, start, .mark s.straps.stn (s.markFields k), none⟩
  let s := (s.onLnu (LineUnit.send record)).onMku fun m => { m with ownMark := k.inFlight }
  if k.counted then s.onCounters StationCounters.addTakeover else s

/-- A MARK request: dropped where the membership state does not permit it, refused as withheld where
the Line Unit cannot take it (R8, R64). -/
def State.requestMark (k : MarkKind) (start : Instant) (carrier : Bool) (s : State) : State :=
  if k.permitted s.rsu.membership && s.lnu.takesMark carrier then s.sendMark k start else s

/-! ### The mark window (section 4.4) -/

/-- The stations that rank after holder `h`: PRESENT or SUSPECT (R71). -/
def RosterUnit.ranked (h : StationNo) (u : RosterUnit) : List StationNo :=
  (stationsAfter h).filter fun n => u.entry n != .absent

/-- The plan of a window (the table of R71). -/
def State.windowPlan (s : State) : WindowPlan :=
  match s.mku.holder with
  | none => .none
  | some h =>
      if !s.rsu.membership.onLine then .none
      else if h = s.straps.stn then .duty
      else match (s.rsu.ranked h).idxOf? s.straps.stn with
        | none => .none
        | some i => if i + 1 ≤ 7 then .takeover (BitVec.ofNat 3 (i + 1)) else .none

/-- The mark window opens (R17, R71). -/
def State.openWindow (s : State) : State :=
  let plan := s.windowPlan
  (s.onLnu LineUnit.openWindow).onMku fun m => { m with plan := plan, carrierSeen := false }

/-- The plan ends. -/
def MarkUnit.endPlan (m : MarkUnit) : MarkUnit := { m with plan := .none }

/-- The expected instant of a DUTY plan (R72; log 13). -/
def State.dutyMark (carrier : Bool) (s : State) : State :=
  match s.mku.plan, s.lnu.expected with
  | .duty, some e => (s.requestMark .duty e carrier).onMku MarkUnit.endPlan
  | _, _ => s

/-- The takeover instant of a TAKEOVER plan (R73; log 13). -/
def State.takeoverMark (carrier : Bool) (s : State) : State :=
  match s.mku.plan, s.lnu.expected with
  | .takeover rank, some e =>
      let s := if s.mku.carrierSeen then s
        else s.requestMark (.takeover rank) (e + rank.toNat * Config.slotTime) carrier
      s.onMku MarkUnit.endPlan
  | _, _ => s

/-- A carrier onset at the Mark Unit (R73, R76, R79). -/
def MarkUnit.onset (stn : StationNo) (windowOpen : Bool) (at' : Instant) (m : MarkUnit) : MarkUnit :=
  { m with
    carrierSeen := m.carrierSeen || windowOpen
    plan := match m.plan with
      | .takeover rank => if windowOpen then .none else .takeover rank
      | p => p
    recoveryWait := none
    coldWait := m.coldWait.map fun _ => at' + Config.cellTime + stagger stn }

/-- A carrier onset that is reported, since this station is not transmitting (R15, R9). -/
def State.carrierOnset (onset : Instant) (s : State) : State :=
  if s.lnu.tx.isSome then s
  else (s.onMku (MarkUnit.onset s.straps.stn s.lnu.windowOpen onset)).onLnu
    (LineUnit.hearOnset onset)

/-! ### Garbled Marks, recovery, cold start (sections 4.5 and 4.6) -/

/-- A garbled Mark Field candidate that ended at `ended`: the recovery wait starts afresh, and a plan
still pending ends (R74). Whether it belonged to the mark window is judged by its own onset, also
when the window has closed since (R17, R18); one outside is dropped without delivery (R16). -/
def State.garbledMark (ended : Instant) (s : State) : State :=
  if s.lnu.ofMarkWindow (ended - Config.cellTime) then
    (s.onMku fun m => { m with
      recoveryWait := some (ended + stagger s.straps.stn), plan := .none }).onLnu
        (LineUnit.dropEnded ended)
  else s.onLnu (LineUnit.dropEnded ended)

/-- The echo of the own MARK mismatches (R75, R79). -/
def State.markMismatch (s : State) : State :=
  match s.lnu.ownMark? with
  | none => s
  | some (start, _) =>
      let expiry := some (start + Config.cellTime + stagger s.straps.stn)
      ((s.onMku fun m => match m.ownMark with
        | .normal => { m with ownMark := .none, recoveryWait := expiry }
        | .cold => { m with ownMark := .none, coldWait := expiry }
        | .none => m).onLnu LineUnit.endTx).raise .markLost

/-- The expiry of the recovery wait (R76). -/
def State.recoveryExpiry (carrier : Bool) (s : State) : State :=
  match s.mku.recoveryWait with
  | none => s
  | some t => (s.requestMark .recovery t carrier).onMku fun m => { m with recoveryWait := none }

/-- The expiry of the cold-start wait: dropped unless ISOLATED, and restarted where the request is
withheld (R64, R79; log 14). -/
def State.coldExpiry (carrier : Bool) (s : State) : State :=
  match s.mku.coldWait with
  | none => s
  | some t =>
      let restart := s.rsu.membership = .isolated ∧ !s.lnu.takesMark carrier
      (s.requestMark .cold t carrier).onMku fun m => { m with
        coldWait := if restart then some (t + Config.cellTime + stagger s.straps.stn) else none }

/-- A markless Round (R18, R77). -/
def State.markless (s : State) : State :=
  if s.lnu.windowOpen then
    (s.onLnu LineUnit.loseSync).onMku fun m => { m with plan := .none, carrierSeen := false }
  else s

/-- Sync loss at the Line Unit and the Mark Unit (R19, R78). -/
def State.markSyncLoss (s : State) : State :=
  let s := s.onLnu LineUnit.syncLost
  s.onMku fun m => { m with
    holder := none, plan := .none, recoveryWait := none
    coldWait := some (s.lnu.syncRef + stagger s.straps.stn) }

/-! ### A clean MARK (R13, R17) -/

/-- What takes a clean MARK in an order the part does not fix: the missed holder and the MARK at the
Roster Unit (R86), the Slot Agent (R33) and the Control Cell Queue (R49). -/
inductive MarkTask where
  | miss | roster | slotAgent | queue
deriving DecidableEq, Repr

/-- The 24 orders of the four (log 6). -/
def markOrder (o : Fin 24) : List MarkTask :=
  (((([.queue] : List MarkTask).insertIdx (o.val % 2) .slotAgent).insertIdx (o.val / 2 % 3)
    .roster).insertIdx (o.val / 6) .miss)

/-- The clean MARK at one of the four. `missed` is the holder reported missed, if any. -/
def State.markTask (own : Bool) (sender : StationNo) (bitmap : Word) (missed : Option StationNo)
    (s : State) : MarkTask → State
  | .miss => match missed with
      | some y => s.onRsu (RosterUnit.missed s.straps.stn y)
      | none => s
  | .roster => if own then s.rosterOwnMark else s.rosterMark sender bitmap
  | .slotAgent => s.slotAgentMark
  | .queue => s.onCcq CellQueue.onMark

/-- The clean MARK at the Mark Unit: the count, a slip, the holder and the waits (R67, R68). -/
def State.countMark (fields : MarkFields) (s : State) : State :=
  let slips := s.mku.slips fields.round
  let s := s.onMku (MarkUnit.takeMark fields)
  if slips then s.raise .roundSlip else s

/-- A clean MARK anchors a Round and reaches every block that takes it (R13, R17). -/
def State.anchorMark (own : Bool) (onset : Instant) (sender : StationNo) (fields : MarkFields)
    (order : Fin 24) (s : State) : State :=
  let missed := s.mku.missedBy s.straps.stn sender fields.takeover
  let s := (s.onLnu (LineUnit.anchorAt onset)).countMark fields
  let s := (markOrder order).foldl (State.markTask own sender fields.bitmap missed) s
  s.onStreams fun _ => Stream.newRound

/-- The own MARK with an echo match (R12, R16, R17, R80). -/
def State.ownMarkHeard (order : Fin 24) (s : State) : State :=
  match s.lnu.ownMark? with
  | none => s
  | some (start, fields) =>
      let t := (s.onLnu LineUnit.endTx).onMku fun m => { m with ownMark := .none }
      if s.lnu.anchors start then t.anchorMark true start s.straps.stn fields order else t

end Sys2Proof.Machine
end

