-- ==== Sys2Proof/Machine/ExecDataSlot.lean ====
section
/-! DEFINITION. Meanings of the rows of a Data Slot (sections 2.2 to 2.4, 7.4, 8.4, 8.5), and what a
duplicate-address sighting does wherever it is heard. -/

namespace Sys2Proof.Machine

/-! ### Sending -/

/-- A cell of Data Slot `slot` goes on the line (R7). -/
def State.sendSlotCell (slot : SlotNo) (anchor : Instant) (tag : Tag) (kind : DataKind)
    (stream : Option StreamNo) (s : State) : State :=
  s.onLnu (LineUnit.send
    ⟨.dataSlot slot, slotStart anchor slot, .inSlot s.straps.stn tag kind, stream⟩)

/-- The ask for a MINE slot: the grace test, and the engine's answer with its effects (R124, R129). -/
def State.askEngine (slot : SlotNo) (anchor : Instant) (tag : Tag) (k : StreamNo) (s : State) : State :=
  let st := s.streams[k]
  if st.graceExpired s.mku.count then
    (s.sendSlotCell slot anchor tag .keep (some k)).stopTalk k .drain
  else
    (s.sendSlotCell slot anchor tag st.answer.1 (some k)).onStream k fun st => st.answer.2

/-- What the Slot Agent hands for a Data Slot (the table of R24). -/
def State.handSlotCell (slot : SlotNo) (anchor : Instant) (s : State) : State :=
  match s.slotMap[slot] with
  | .mine t k => s.askEngine slot anchor t k
  | .releasing t _ _ => s.sendSlotCell slot anchor t .keep none
  | .free | .held _ _ _ | .claiming _ _ _ | .collided _ _ _ => s

/-- The start of a Data Slot, which the part runs only in a Round (R2, R24, R145). -/
def State.dataSlotStart (slot : SlotNo) (s : State) : State :=
  match s.lnu.inRound, s.lnu.anchor with
  | true, some anchor =>
      (s.handSlotCell slot anchor).onStreams fun _ => Stream.setExpect s.slotMap[slot]
  | _, _ => s

/-! ### Echoes -/

/-- The echo result of a Data Slot cell at the engine that supplied it: only DATA departs (R124). -/
def State.engineEcho (kind : DataKind) (stream : Option StreamNo) (s : State) : State :=
  match kind, stream with
  | .data _ _, some k => s.onStream k (Stream.dataEcho s.mku.count)
  | _, _ => s

/-- The echo result of a Data Slot cell at the Slot Agent (R25, R26). -/
def State.slotEcho (matched : Bool) (slot : SlotNo) (s : State) : State :=
  if matched then s else s.collide slot

/-- Every Listen Stream Engine hears a clean Data Slot cell (R143, R144, R146). -/
def State.listenersHear (own : Bool) (tag : Tag) (sender : StationNo) (kind : DataKind) (s : State) :
    State :=
  s.onStreams fun _ => Stream.hearCell s.mku.count own tag sender kind

/-- The echo result of the own Data Slot cell, at its two receivers in either order; on a match the
listeners hear the own cell (R7, R12, R13; log 6). -/
def State.dataSlotEcho (matched slotAgentFirst : Bool) (s : State) : State :=
  match s.lnu.ownSlotCell? with
  | none => s
  | some (slot, tag, kind, stream) =>
      let s := s.onLnu LineUnit.endTx
      let s := if slotAgentFirst then (s.slotEcho matched slot).engineEcho kind stream
        else (s.engineEcho kind stream).slotEcho matched slot
      if matched then s.listenersHear true tag s.straps.stn kind else s

/-! ### What is heard -/

/-- A Data Slot reported garbled or silent, at the Slot Agent and the listeners (R13, R29, R146). -/
def State.missedSlot (slot : SlotNo) (garbled : Bool) (s : State) : State :=
  ((s.missSlot slot garbled).onStreams fun _ => Stream.hearNothing s.mku.count).onLnu
    (LineUnit.reported (.dataSlot slot))

/-- A duplicate-address sighting: `garble` is what the garbled position does (R14, R96). A station
with number 0 makes none, and none is made while this station transmits. That a MARK with the own number
is a sighting again later in the mark window, after the own MARK there has mismatched, is the model's
choice between R14 and R17 (log 43). -/
def State.sighting (garble : State → State) (s : State) : State :=
  if s.straps.stn = 0 ∨ s.lnu.tx.isSome then s else (garble s).duplicateSeen

/-- A clean cell of a Data Slot from another station (R13, R27, R83). -/
def State.heardSlotCell (slot : SlotNo) (sender : StationNo) (tag : Tag) (kind : DataKind)
    (s : State) : State :=
  (((s.learn slot sender tag).onRsu (RosterUnit.heard s.straps.stn sender)).listenersHear false tag
    sender kind).onLnu (LineUnit.reported (.dataSlot slot))

/-- A clean Data Slot cell: garbled where a value rule fails, a sighting where it bears the own number
(R5, R14, R16; logs 10, 11). -/
def State.cleanSlotCell (slot : SlotNo) (sender : StationNo) (tag : Tag) (kind : DataKind)
    (s : State) : State :=
  if !s.lnu.isSynced then s
  else if sender = 0 ∨ tag = 0 then s.missedSlot slot true
  else if sender = s.straps.stn then s.sighting (State.missedSlot slot true)
  else s.heardSlotCell slot sender tag kind

/-! ### Meanings -/

/-- DATA_SLOT_START (R24). -/
def execDataSlotStart (slot : SlotNo) (s : State) : Answer := event (State.dataSlotStart slot) s

/-- GRACE_EXPIRY: it acts exactly when the grace test expires (R129; log 7). -/
def execGraceExpiry (k : StreamNo) (s : State) : Answer :=
  event (fun s => if s.streams[k].graceExpired s.mku.count then s.stopTalk k .drain else s) s

/-- DATA_SLOT_ECHO (R124). -/
def execDataSlotEcho (matched slotAgentFirst : Bool) (s : State) : Answer :=
  event (State.dataSlotEcho matched slotAgentFirst) s

/-- CLEAN_DATA_CELL (R27). -/
def execCleanDataCell (slot : SlotNo) (sender : StationNo) (tag : Tag) (kind : DataKind) (s : State) :
    Answer :=
  event (State.cleanSlotCell slot sender tag kind) s

/-- GARBLED_OR_SILENT_DATA_SLOT (R29). -/
def execGarbledOrSilentDataSlot (slot : SlotNo) (garbled : Bool) (s : State) : Answer :=
  event (fun s => if s.lnu.isSynced then s.missedSlot slot garbled else s) s

/-- AGING: the eighth silence of a HELD entry (R29; log 7). -/
def execAging (slot : SlotNo) (s : State) : Answer := event (State.ageOut slot) s

end Sys2Proof.Machine
end

