-- ==== Sys2Proof/Machine/ExecMark.lean ====
section
/-! DEFINITION. Meanings of the rows of the mark window and of a clean MARK (chapters 1, 4 and 5). -/

namespace Sys2Proof.Machine

/-- Another station's clean MARK: nothing where it cannot anchor, since SYNCED outside the mark window
no MARK is clean (R11, R17); else garbled where a value rule fails, a sighting where it bears the own
number, and an anchor otherwise (R5, R14, R16, R17; log 11). -/
def State.otherMarkHeard (onset : Instant) (sender : StationNo) (fields : MarkFields) (order : Fin 24)
    (s : State) : State :=
  let ended := onset + Config.cellTime
  if !s.lnu.anchors onset then s
  else if sender = 0 ∨ fields.next = 0 then s.garbledMark ended
  else if sender = s.straps.stn then s.sighting (State.garbledMark ended)
  else s.anchorMark false onset sender fields order

/-- A clean MARK (R13, R17). -/
def State.cleanMark (heard : MarkHeard) (order : Fin 24) (s : State) : State :=
  match heard with
  | .own => s.ownMarkHeard order
  | .other onset sender fields => s.otherMarkHeard onset sender fields order

/-- Sync loss at every block it is delivered to; it comes only while UNSYNCED (R19, R78, R94;
log 25). -/
def State.syncLoss (s : State) : State :=
  if s.lnu.isSynced then s else s.markSyncLoss.rosterSyncLoss

/-- CARRIER_ONSET (R15). -/
def execCarrierOnset (onset : Instant) (s : State) : Answer := event (State.carrierOnset onset) s

/-- MARK_WINDOW_OPEN (R17, R71). -/
def execMarkWindowOpen (s : State) : Answer :=
  event (fun s => if s.lnu.inRound then s.openWindow else s) s

/-- DUTY_MARK (R72). -/
def execDutyMark (carrier : Bool) (s : State) : Answer := event (State.dutyMark carrier) s

/-- TAKEOVER_MARK (R73). -/
def execTakeoverMark (carrier : Bool) (s : State) : Answer := event (State.takeoverMark carrier) s

/-- RECOVERY_WAIT_EXPIRY (R76). -/
def execRecoveryWaitExpiry (carrier : Bool) (s : State) : Answer :=
  event (State.recoveryExpiry carrier) s

/-- COLD_START_WAIT_EXPIRY (R79). -/
def execColdStartWaitExpiry (carrier : Bool) (s : State) : Answer := event (State.coldExpiry carrier) s

/-- CLEAN_MARK (R17). -/
def execCleanMark (heard : MarkHeard) (order : Fin 24) (s : State) : Answer :=
  event (State.cleanMark heard order) s

/-- LEARN_COUNT_DONE: the second clean Mark of a LISTENING station (R88; log 7). -/
def execLearnCountDone (s : State) : Answer :=
  event (fun s => if s.rsu.membership = .listening ∧ s.rsu.learnCount = 1 then s.learnDone else s) s

/-- JOIN_TIMER_EXPIRY: the last Mark of a running join timer (R90; log 7). -/
def execJoinTimerExpiry (s : State) : Answer :=
  event (fun s => if s.rsu.membership = .joining ∧ s.rsu.joinTimer = some 1 then s.joinTimerDone
    else s) s

/-- BACKOFF_EXPIRY: the last Mark of a COLLIDED entry (R33; log 7). -/
def execBackoffExpiry (slot : SlotNo) (s : State) : Answer :=
  event (fun s => match s.slotMap[slot] with
    | .collided _ _ b => if b.toNat ≤ 1 then s.setEntry slot .free else s
    | _ => s) s

/-- PAUSE_TIMER_EXPIRY: the last Mark of a pause timer (R33; log 7). -/
def execPauseTimerExpiry (k : StreamNo) (s : State) : Answer :=
  event (fun s => if s.streams[k].pauseTimer = 1 then s.onStream k Stream.tickPause else s) s

/-- GARBLED_MARK_FIELD (R74). -/
def execGarbledMarkField (ended : Instant) (s : State) : Answer := event (State.garbledMark ended) s

/-- MARK_ECHO_MISMATCH (R75). -/
def execMarkEchoMismatch (s : State) : Answer := event State.markMismatch s

/-- MARKLESS_ROUND (R18, R77). -/
def execMarklessRound (s : State) : Answer := event State.markless s

/-- SYNC_LOSS (R19). -/
def execSyncLoss (s : State) : Answer := event State.syncLoss s

end Sys2Proof.Machine
end

