-- ==== Sys2Proof/Machine/ExecOpenSlot.lean ====
section
/-! DEFINITION. Meanings of the rows of an Open Slot, and of a duplicate-address sighting (sections 1.5,
2.5, 3.3, 3.4). -/

namespace Sys2Proof.Machine

/-! ### Sending -/

/-- The head's cell goes on the line (R50, R52). -/
def State.sendControl (which : OpenSlot) (anchor : Instant) (c : Cell) (s : State) : State :=
  (s.onLnu (LineUnit.send ⟨.openSlot which, openSlotStart anchor which, c, none⟩)).onCcq
    CellQueue.hand

/-- The outcome of a CLAIM head that fails the withdrawal check (R51). -/
def SlotEntry.failedClaim : SlotEntry → CellOutcome
  | .held _ _ _ => .taken
  | .free | .claiming _ _ _ | .mine _ _ | .releasing _ _ _ | .collided _ _ _ => .gone

/-- The withdrawal check, and the head handed or dropped (R50 to R52). -/
def State.handHead (which : OpenSlot) (anchor : Instant) (c : QueueCell) (s : State) : State :=
  let stn := s.straps.stn
  match c with
  | .join => s.sendControl which anchor (.join stn)
  | .leave => s.sendControl which anchor (.leave stn)
  | .claim i t k =>
      if s.slotMap[i].isClaimingFor k then s.sendControl which anchor (.claim stn t i)
      else (s.onCcq CellQueue.dropHead).claimOutcome i s.slotMap[i].failedClaim
  | .release i k =>
      match s.slotMap[i] with
      | .releasing t j _ =>
          if j = k then s.sendControl which anchor (.release stn t i)
          else (s.onCcq CellQueue.dropHead).releaseOutcome i .gone
      | _ => (s.onCcq CellQueue.dropHead).releaseOutcome i .gone

/-- The start of an Open Slot at the head as it stands (R50). -/
def State.contend (which : OpenSlot) (anchor : Instant) (s : State) : State :=
  match s.ccq.contender s.straps.stn which with
  | some e => s.handHead which anchor e.cell
  | none => s

/-- The start of an Open Slot, which the part runs only in a Round (R2, R50), before or after the
withdrawals that came close to it (R51). -/
def State.openSlotStart (start : SlotStart) (s : State) : State :=
  match s.lnu.inRound, s.lnu.anchor with
  | true, some anchor =>
      match s.ccq.passedHead start with
      | some e => s.onCcq (CellQueue.metPassed s.straps.stn (openSlotOf start) e)
      | none => (s.onCcq CellQueue.forgetPassed).contend (openSlotOf start) anchor
  | _, _ => s

/-- An outcome at the block that offered the cell (R56). -/
def State.takeOutcome (c : QueueCell) (o : CellOutcome) (s : State) : State :=
  match c with
  | .join => s.joinOutcome o
  | .leave => s.leaveOutcome o
  | .claim i _ _ => s.claimOutcome i o
  | .release i _ => s.releaseOutcome i o

/-- The echo result of the own control cell (R53 to R55). -/
def State.openSlotEcho (matched : Bool) (s : State) : State :=
  if s.lnu.ownControlCell && s.ccq.onLine then
    let s := s.onLnu LineUnit.endTx
    let s := if matched then s else s.onCounters StationCounters.addContend
    let x := s.ccq.onEcho s.straps.stn matched
    let s := s.onCcq fun _ => x.1
    match x.2 with
    | some (c, o) => s.takeOutcome c o
    | none => s
  else s

/-! ### What is heard -/

/-- A clean control cell from `sender`: dropped while UNSYNCED or with a number 0, a sighting where it
bears the own number (R5, R13, R14, R16; logs 10, 11). -/
def State.cleanControl (which : OpenSlot) (sender : StationNo) (f : State → State) (s : State) :
    State :=
  if !s.lnu.isSynced then s
  else if sender = 0 then s.onLnu (LineUnit.reported (.openSlot which))
  else if sender = s.straps.stn then s.sighting (State.onLnu (LineUnit.reported (.openSlot which)))
  else (f s).onLnu (LineUnit.reported (.openSlot which))

/-- A clean cell at the roster (R83). -/
def State.rosterHeard (x : StationNo) (s : State) : State :=
  s.onRsu (RosterUnit.heard s.straps.stn x)

/-- What the garbled position of a sighting does (R14). -/
def State.garbledAt (ended : Instant) (s : State) : Position → State
  | .dataSlot slot => s.missedSlot slot true
  | .markField => s.garbledMark ended
  | .openSlot which => s.onLnu (LineUnit.reported (.openSlot which))
  | .outside => s.onLnu (LineUnit.dropEnded ended)

/-- A clean cell that ended at `ended` can have been heard in this position: in a Data Slot or an Open
Slot only while SYNCED (R2, R16), and a MARK only where one that began then would anchor (R11, R17). -/
def LineUnit.hasPosition (ended : Instant) (l : LineUnit) : Position → Bool
  | .dataSlot _ | .openSlot _ => l.isSynced
  | .markField | .outside => l.anchors (ended - Config.cellTime)

/-- A duplicate-address sighting in a position (R14, R96; logs 10, 11). R16 drops every candidate but an
anchoring MARK while UNSYNCED, R14 speaks of a sighting there: that a MARK with the own number heard
while UNSYNCED is delivered as a sighting is the model's choice (log 40). -/
def State.sightingAt (p : Position) (kind : CellKind) (ended : Instant) (s : State) : State :=
  if !s.lnu.hasPosition ended p then s
  else if kind.allowedAt p then s.sighting fun s => s.garbledAt ended p
  else s.garbledAt ended p

/-! ### Meanings -/

/-- OPEN_SLOT_START (R50, R51). -/
def execOpenSlotStart (which : SlotStart) (s : State) : Answer := event (State.openSlotStart which) s

/-- OPEN_SLOT_ECHO (R53). -/
def execOpenSlotEcho (matched : Bool) (s : State) : Answer := event (State.openSlotEcho matched) s

/-- CLEAN_CLAIM (R30, R83). A tag of 0 makes the cell garbled, which reaches no block here (R5, R13). -/
def execCleanClaim (which : OpenSlot) (sender : StationNo) (slot : SlotNo) (tag : Tag) (s : State) :
    Answer :=
  event (fun s => if tag = 0 then s.onLnu (LineUnit.reported (.openSlot which))
    else s.cleanControl which sender fun s => (s.hearClaim slot sender tag).rosterHeard sender) s

/-- CLEAN_RELEASE (R31, R83). -/
def execCleanRelease (which : OpenSlot) (sender : StationNo) (slot : SlotNo) (tag : Tag) (s : State) :
    Answer :=
  event (fun s => if tag = 0 then s.onLnu (LineUnit.reported (.openSlot which))
    else s.cleanControl which sender fun s => (s.hearRelease slot sender).rosterHeard sender) s

/-- CLEAN_LEAVE (R32, R83). -/
def execCleanLeave (which : OpenSlot) (sender : StationNo) (s : State) : Answer :=
  event (State.cleanControl which sender fun s =>
    (s.mapEntries (SlotEntry.leave sender)).onRsu (RosterUnit.heardLeave s.straps.stn sender)) s

/-- CLEAN_JOIN (R83). -/
def execCleanJoin (which : OpenSlot) (sender : StationNo) (s : State) : Answer :=
  event (State.cleanControl which sender (State.rosterHeard sender)) s

/-- DUPLICATE_ADDRESS_SIGHTING (R14, R96). -/
def execDuplicateAddressSighting (p : Position) (kind : CellKind) (ended : Instant) (s : State) :
    Answer :=
  event (State.sightingAt p kind ended) s

/-- HEAD_WAIT_EXPIRY: the head's last wait is counted down at a clean Mark (R49; log 7). -/
def execHeadWaitExpiry (s : State) : Answer :=
  event (fun s => if s.ccq.entries.head?.any (fun e => e.wait == 1) then s.onCcq CellQueue.onMark
    else s) s

end Sys2Proof.Machine
end

