-- ==== Sys2Proof/Machine/LocalPort.lean ====
section
/-! DEFINITION. The Local Port: commands and their checks, the configuration lock, and the words of the
register window (chapter 10). -/

namespace Sys2Proof.Machine

/-! ### Codes (sections 10.2 and 10.5) -/

/-- Result codes. -/
def CommandResult.code : CommandResult → BitVec 4
  | .ok => 0 | .badState => 1 | .badConfig => 2 | .notMember => 3 | .overcommit => 4
  | .tagInUse => 5 | .busy => 6 | .badStream => 7 | .badCommand => 8

/-- Membership state codes. -/
def Membership.code : Membership → BitVec 3
  | .dormant => 0 | .listening => 1 | .joining => 2 | .member => 3 | .leaving => 4 | .isolated => 5

/-- Stream state codes. -/
def StreamState.code : StreamState → BitVec 3
  | .stopped => 0 | .acquiring => 1 | .running => 2 | .paused => 3 | .drained => 4
  | .stopping => 5 | .faulted => 6

/-- Stop cause codes. -/
def StopCause.code : StopCause → BitVec 3
  | .none => 0 | .command => 1 | .drain => 2 | .memory => 3 | .duplicate => 4

/-- The command a code names, if any. -/
inductive CommandCode where
  | join | leave | start | stop | pause | resume | resetStream | clearCounters
deriving DecidableEq, Repr

/-- Command codes. -/
def CommandCode.code : CommandCode → BitVec 4
  | .join => 1 | .leave => 2 | .start => 3 | .stop => 4 | .pause => 5 | .resume => 6
  | .resetStream => 7 | .clearCounters => 8

/-- The command of a code; 0 and 9 to 15 name none (R169). -/
def CommandCode.ofCode (c : BitVec 4) : Option CommandCode :=
  match c.toNat with
  | 1 => some .join | 2 => some .leave | 3 => some .start | 4 => some .stop
  | 5 => some .pause | 6 => some .resume | 7 => some .resetStream | 8 => some .clearCounters
  | _ => none

/-- The COMMAND word of a code and a stream index. -/
def commandWord (code index : BitVec 4) : Word := (0#20 ++ index) ++ (0#4 ++ code)

/-- A stream number as the index field carries it. -/
def streamIndex (k : StreamNo) : BitVec 4 := BitVec.ofNat 4 k.val

/-! ### START -/

/-- The ring base is a multiple of 1024 (R98). -/
def StreamConfig.ringAligned (c : StreamConfig) : Bool := c.ringBase.extractLsb' 0 10 == 0

/-- Check 2 of R122. -/
def StreamConfig.talkOk (c : StreamConfig) : Bool :=
  c.tag != 0 && 1 ≤ c.wanted.toNat && c.wanted.toNat ≤ 8 && c.ringAligned

/-- The configuration checks of R142. -/
def StreamConfig.listenOk (c : StreamConfig) : Bool :=
  c.ringAligned && !(c.filterMode == 0 && c.tag == 0) && c.filterMode.toNat ≤ 2
    && c.gapPolicy.toNat ≤ 2

/-- The other Talk Streams that are not STOPPED (R122, checks 4 and 5). -/
def State.otherTalks (k : StreamNo) (s : State) : List StreamNo :=
  allStreams.filter fun j => j != k && s.streams[j].isTalk && s.streams[j].state != .stopped

/-- The sum of check 5 (R122). -/
def State.committed (k : StreamNo) (s : State) : Nat :=
  ((s.otherTalks k).map fun j => s.streams[j].cfg.wanted.toNat).sum + s.streams[k].cfg.wanted.toNat

/-- The result of START of a Talk Stream: the checks in their order (R122). -/
def State.startTalkCheck (k : StreamNo) (s : State) : CommandResult :=
  let st := s.streams[k]
  if st.state ≠ .stopped then .badState
  else if !st.cfg.talkOk then .badConfig
  else if s.rsu.membership ≠ .member then .notMember
  else if (s.otherTalks k).any fun j => s.streams[j].cfg.tag == st.cfg.tag then .tagInUse
  else if Config.commitLimit < s.committed k then .overcommit
  else .ok

/-- The result of START of a Listen Stream (R142). -/
def Stream.startListenCheck (st : Stream) : CommandResult :=
  if st.state ≠ .stopped then .badState
  else if !st.cfg.listenOk then .badConfig
  else .ok

/-- START (R122, R123, R142). -/
def State.commandStart (k : StreamNo) (s : State) : Commanded :=
  if s.streams[k].isTalk then
    let r := s.startTalkCheck k
    (if r = .ok then s.onStream k Stream.startTalk else s, r)
  else
    let r := s.streams[k].startListenCheck
    (if r = .ok then s.onStream k Stream.startListen else s, r)

/-! ### STOP, PAUSE, RESUME -/

/-- STOP (R132, R150). -/
def State.commandStop (k : StreamNo) (s : State) : Commanded :=
  let st := s.streams[k]
  match st.state with
  | .stopped | .faulted => (s, .badState)
  | .stopping => (s, .ok)
  | .acquiring | .running | .paused | .drained =>
      (if st.isTalk then s.stopTalk k .command else s.onStream k Stream.stopListen, .ok)

/-- PAUSE (R131, R149). -/
def State.commandPause (k : StreamNo) (s : State) : Commanded :=
  let st := s.streams[k]
  match st.state with
  | .acquiring | .running | .drained =>
      (s.onStream k fun st => if st.isTalk then st.pauseTalk else { st with state := .paused }, .ok)
  | .stopped | .paused | .stopping | .faulted => (s, .badState)

/-- RESUME (R131, R149). -/
def State.commandResume (k : StreamNo) (s : State) : Commanded :=
  let st := s.streams[k]
  match st.state with
  | .paused =>
      (s.onStream k fun st =>
        if st.isTalk then st.resumeTalk s.mku.count else st.resumeListen, .ok)
  | .stopped | .acquiring | .running | .drained | .stopping | .faulted => (s, .badState)

/-! ### RESET_STREAM and CLEAR_COUNTERS -/

/-- RESET_STREAM is taken: STOPPED, or FAULTED and, for a Talk Stream, with the walker quiet and no own
entries (R137, R154). -/
def State.resetReady (k : StreamNo) (s : State) : Bool :=
  let st := s.streams[k]
  match st.state with
  | .stopped => true
  | .faulted => !st.isTalk || (st.walkerQuiet && ownCount s.slotMap k == 0)
  | .acquiring | .running | .paused | .drained | .stopping => false

/-- What RESET_STREAM leaves of the state of either role (R44, R118, R137, R154, R163). -/
def Stream.resetCommon (st : Stream) : Stream :=
  { st with
    state := .stopped, cause := .none, fifo := []
    words := 0, fills := 0, overruns := 0, flags := 0
    pauseTimer := 0, short := false, walker := .reset }

/-- An accepted RESET_STREAM (R137, R154; log 24). -/
def Stream.resetStream (st : Stream) : Stream :=
  if st.isTalk then
    { st.resetCommon with
      priming := false, wordOnLine := false, drainStart := 0, walkerQuiet := true
      entriesGone := false }
  else
    { st.resetCommon with lastWord := none, sources := [], multiRaised := false, expect := false }

/-- RESET_STREAM (R137, R154). -/
def State.commandResetStream (k : StreamNo) (s : State) : Commanded :=
  if s.resetReady k then (s.onStream k Stream.resetStream, .ok) else (s, .busy)

/-- The counters of a stream at 0 (R162). -/
def Stream.clearCounters (st : Stream) : Stream := { st with words := 0, fills := 0, overruns := 0 }

/-- CLEAR_COUNTERS (R162). -/
def State.commandClearCounters (s : State) : Commanded :=
  ((s.onCounters fun _ => .zero).onStreams fun _ => Stream.clearCounters, .ok)

/-! ### A write to the COMMAND word (R169) -/

/-- A command that reached its block: the word is stored and the answer posted (R169). -/
def State.post (code index : BitVec 4) (run : State → Commanded) (s : State) : State :=
  let r := run s
  { r.1 with command := commandWord code index, result := r.2 }

/-- A stream command, with the index checked (R169, step 2). -/
def State.streamCommand (index : BitVec 4) (run : StreamNo → State → Commanded) (s : State) :
    Commanded :=
  if h : index.toNat < 8 then run ⟨index.toNat, h⟩ s else (s, .badStream)

/-- What a code and an index ask for (R169). -/
def State.decodeCommand (code index : BitVec 4) (s : State) : Commanded :=
  match CommandCode.ofCode code with
  | none => (s, .badCommand)
  | some .join => s.commandJoin
  | some .leave => s.commandLeave
  | some .start => s.streamCommand index State.commandStart
  | some .stop => s.streamCommand index State.commandStop
  | some .pause => s.streamCommand index State.commandPause
  | some .resume => s.streamCommand index State.commandResume
  | some .resetStream => s.streamCommand index State.commandResetStream
  | some .clearCounters => s.commandClearCounters

/-- Any write to the COMMAND word (R169). -/
def State.writeCommand (code index : BitVec 4) (s : State) : State :=
  s.post code index (State.decodeCommand code index)

/-! ### Configuration words (R167) -/

/-- The CONFIG word into its fields (10.2). -/
def StreamConfig.writeConfig (w : Word) (c : StreamConfig) : StreamConfig :=
  { c with
    direction := if w.getLsbD 0 then .listen else .talk
    filterMode := w.extractLsb' 1 2
    gapPolicy := w.extractLsb' 3 2
    loop := w.getLsbD 5
    align := w.getLsbD 6
    tag := w.extractLsb' 8 8
    wanted := w.extractLsb' 16 4
    grace := w.extractLsb' 24 8 }

/-- The CONFIG word as it reads (10.2). -/
def StreamConfig.readConfig (c : StreamConfig) : Word :=
  c.grace ++ 0#4 ++ c.wanted ++ c.tag ++ 0#1 ++ BitVec.ofBool c.align ++ BitVec.ofBool c.loop
    ++ c.gapPolicy ++ c.filterMode ++ BitVec.ofBool (c.direction == .listen)

/-- A configuration word written (10.2). -/
def StreamConfig.write (which : ConfigWord) (w : Word) (c : StreamConfig) : StreamConfig :=
  match which with
  | .config => c.writeConfig w
  | .mask => { c with mask := w.setWidth 8 }
  | .ringBase => { c with ringBase := w }

/-- A write to a configuration word, under the lock (R167). -/
def State.writeConfig (k : StreamNo) (which : ConfigWord) (w : Word) (s : State) : State :=
  if s.streams[k].state = .stopped then
    s.onStream k fun st => { st with cfg := st.cfg.write which w }
  else s.raise .lockedWrite

/-- A write to a READY word (R168). -/
def State.writeReady (k : StreamNo) (w : Word) (s : State) : State :=
  s.onStream k (Stream.readyWrite (w.setWidth 6))

/-! ### The window (R165) -/

/-- The stream context of a word index in 100h to 1FFh. -/
def contextOf (n : Nat) : StreamNo := ⟨(n - 64) / 8 % 8, Nat.mod_lt _ (by decide)⟩

/-- The stream of a word index in the stream flags or enables. -/
def flagStreamOf (n : Nat) : StreamNo := ⟨n % 8, Nat.mod_lt _ (by decide)⟩

/-- A write to the word at this index of the window (R165); log 16. -/
def State.writeWord (index : BitVec 8) (w : Word) (s : State) : State :=
  let n := index.toNat
  if n = 4 then s.writeCommand (w.extractLsb' 0 4) (w.extractLsb' 8 4)
  else if n = 16 then s.clearFlags .station w
  else if n = 17 then s.writeEnables .station w
  else if 24 ≤ n ∧ n < 32 then s.clearFlags (.stream (flagStreamOf n)) w
  else if 32 ≤ n ∧ n < 40 then s.writeEnables (.stream (flagStreamOf n)) w
  else if 64 ≤ n ∧ n < 128 then
    match n % 8 with
    | 0 => s.writeConfig (contextOf n) .config w
    | 1 => s.writeConfig (contextOf n) .mask w
    | 2 => s.writeConfig (contextOf n) .ringBase w
    | 3 => s.writeReady (contextOf n) w
    | _ => s
  else s

/-- The map view word of an entry: state, owner, tag, silence or backoff, stream (R21, R166). -/
def SlotEntry.view (stn : StationNo) : SlotEntry → Word
  | .free => 0
  | .held x t n => 0#3 ++ BitVec.ofNat 5 n.val ++ t ++ 0#3 ++ x ++ 0#5 ++ 1#3
  | .claiming t k _ => BitVec.ofNat 3 k.val ++ 0#5 ++ t ++ 0#3 ++ stn ++ 0#5 ++ 2#3
  | .mine t k => BitVec.ofNat 3 k.val ++ 0#5 ++ t ++ 0#3 ++ stn ++ 0#5 ++ 3#3
  | .releasing t k _ => BitVec.ofNat 3 k.val ++ 0#5 ++ t ++ 0#3 ++ stn ++ 0#5 ++ 4#3
  | .collided t k b => BitVec.ofNat 3 k.val ++ b ++ t ++ 0#3 ++ stn ++ 0#5 ++ 5#3

/-- The roster view word of an entry: state and miss count (R82, R166). -/
def RosterEntry.view : RosterEntry → Word
  | .absent => 0
  | .present => 1
  | .suspect1 => 0x12
  | .suspect2 => 0x22

/-- The STATUS word of a stream context; the held count and SHORT read 0 in a Listen context (R166). -/
def Stream.status (st : Stream) : Word :=
  let held := if st.isTalk then st.held else 0
  0#7 ++ BitVec.ofBool (st.isTalk && st.short) ++ BitVec.ofNat 4 held ++ 0#1 ++ st.cause.code
    ++ 0#1 ++ st.state.code ++ 0#3 ++ BitVec.ofBool st.walker.caughtUp ++ 0#2 ++ st.walker.cur

/-- Word `n` of a stream context (10.2). -/
def Stream.readWord (st : Stream) (n : Nat) : Word :=
  match n with
  | 0 => st.cfg.readConfig
  | 1 => st.cfg.mask.setWidth 32
  | 2 => st.cfg.ringBase
  | 3 => st.walker.ready.setWidth 32
  | 4 => st.status
  | 5 => st.words
  | 6 => st.overruns ++ st.fills
  | _ => 0

/-- A word of the station area (10.2). -/
def State.readStation (s : State) (n : Nat) : Word :=
  match n with
  | 0 => 0#19 ++ BitVec.ofBool s.straps.autojoin ++ 0#2 ++ s.straps.rate ++ 0#3 ++ s.straps.stn
  | 1 => 0#23 ++ BitVec.ofBool (s.lnu.sync == .synced) ++ 0#5 ++ s.rsu.membership.code
  | 2 => s.mku.count
  | 3 => s.rsu.bitmap
  | 4 => s.command &&& 0x00000F0F#32
  | 5 => s.result.code.setWidth 32
  | _ => 0

/-- A word of the event area (10.2). -/
def State.readEvents (s : State) (n : Nat) : Word :=
  if n = 16 then s.stationFlags.setWidth 32
  else if n = 17 then s.stationEnables.setWidth 32
  else if n = 18 then s.summary.setWidth 32
  else if n = 20 then s.counters.collide ++ s.counters.checkErr
  else if n = 21 then s.counters.aged ++ s.counters.takeover
  else if n = 22 then s.counters.contend ++ s.counters.correct
  else if 24 ≤ n ∧ n < 32 then s.streams[flagStreamOf n].flags.setWidth 32
  else if 32 ≤ n ∧ n < 40 then s.streams[flagStreamOf n].enables.setWidth 32
  else 0

/-- What a read of the word at this index returns; it changes nothing (R165; log 23). -/
def State.readWord (s : State) (index : BitVec 8) : Word :=
  let n := index.toNat
  if n < 16 then s.readStation n
  else if n < 64 then s.readEvents n
  else if n < 128 then s.streams[contextOf n].readWord (n % 8)
  else if h : n - 128 < 48 then (s.slotMap[n - 128]).view s.straps.stn
  else if n = 176 then 0
  else if h : n - 176 < 32 then (s.rsu.roster[n - 176]).view
  else 0

end Sys2Proof.Machine
end

