-- ==== Sys2Proof/Machine/ExecPort.lean ====
section
/-! DEFINITION. Meanings of the writes of the register window (chapter 10). -/

namespace Sys2Proof.Machine

/-- READY_WRITE (R101, R168). -/
def execReadyWrite (k : StreamNo) (value : Word) (s : State) : Answer :=
  targetWrite (State.writeReady k value) s

/-- JOIN (R88). -/
def execJoin (index : BitVec 4) (s : State) : Answer :=
  targetWrite (State.post CommandCode.join.code index State.commandJoin) s

/-- LEAVE (R92). -/
def execLeave (index : BitVec 4) (s : State) : Answer :=
  targetWrite (State.post CommandCode.leave.code index State.commandLeave) s

/-- START (R122, R123, R142). -/
def execStart (k : StreamNo) (s : State) : Answer :=
  targetWrite (State.post CommandCode.start.code (streamIndex k) (State.commandStart k)) s

/-- STOP (R132, R150). -/
def execStop (k : StreamNo) (s : State) : Answer :=
  targetWrite (State.post CommandCode.stop.code (streamIndex k) (State.commandStop k)) s

/-- PAUSE (R131, R149). -/
def execPause (k : StreamNo) (s : State) : Answer :=
  targetWrite (State.post CommandCode.pause.code (streamIndex k) (State.commandPause k)) s

/-- RESUME (R131, R149). -/
def execResume (k : StreamNo) (s : State) : Answer :=
  targetWrite (State.post CommandCode.resume.code (streamIndex k) (State.commandResume k)) s

/-- RESET_STREAM (R137, R154). -/
def execResetStream (k : StreamNo) (s : State) : Answer :=
  targetWrite (State.post CommandCode.resetStream.code (streamIndex k) (State.commandResetStream k)) s

/-- CLEAR_COUNTERS (R162). -/
def execClearCounters (index : BitVec 4) (s : State) : Answer :=
  targetWrite (State.post CommandCode.clearCounters.code index State.commandClearCounters) s

/-- BAD_COMMAND: a COMMAND word decoded as any other; a code that names nothing gives BAD_COMMAND and
an index above 7 BAD_STREAM (R169; log 16). -/
def execBadCommand (code index : BitVec 4) (s : State) : Answer :=
  targetWrite (State.writeCommand code index) s

/-- CONFIG_WRITE (R167). -/
def execConfigWrite (k : StreamNo) (which : ConfigWord) (value : Word) (s : State) : Answer :=
  targetWrite (State.writeConfig k which value) s

/-- FLAG_WRITE (R157). -/
def execFlagWrite (scope : EventScope) (value : Word) (s : State) : Answer :=
  targetWrite (State.clearFlags scope value) s

/-- ENABLE_WRITE (R158). -/
def execEnableWrite (scope : EventScope) (value : Word) (s : State) : Answer :=
  targetWrite (State.writeEnables scope value) s

/-- REGISTER_WRITE: a word the tables name read-only, or do not name, is not changed (R165; log 16). -/
def execRegisterWrite (index : BitVec 8) (value : Word) (s : State) : Answer :=
  targetWrite (State.writeWord index value) s

/-- TARGET_ACCESS_DURING_RESET: an error response that reaches no block (R165; log 26). -/
def execTargetAccessDuringReset (_index : BitVec 8) (_written : Option Word) (s : State) : Answer :=
  .next (if s.resetAsserted then { s with targetResponse := .error } else s)

end Sys2Proof.Machine
end

