-- ==== Sys2Proof/Machine/ExecReset.lean ====
section
/-! DEFINITION. Meanings of HARDWARE_RESET and RESET_RELEASE (section 10.6). -/

namespace Sys2Proof.Machine

/-- HARDWARE_RESET: every block at its reset values, and reset lasts (R172; logs 17, 26). -/
def execHardwareReset (s : State) : Answer :=
  .next { State.afterReset s.straps with
    resetAsserted := true, pending := s.pending, freeDraws := s.freeDraws }

/-- RESET_RELEASE: the straps are sampled and every block starts from its reset values (R171, R172). -/
def execResetRelease (straps : Straps) (s : State) : Answer :=
  .next (if s.resetAsserted then
    { State.afterReset straps with
      pending := s.pending, freeDraws := s.freeDraws, targetResponse := s.targetResponse }
  else s)

end Sys2Proof.Machine
end

