-- ==== Sys2Proof/Machine/ExecRing.lean ====
section
/-! DEFINITION. Meanings of the rows of the local bus as initiator (chapter 6). -/

namespace Sys2Proof.Machine

/-- The streams in the order of the next grant (R105). -/
def grantOrder (first : StreamNo) : List StreamNo :=
  (List.finRange 8).map fun i => first + i

/-- The stream that is granted next: the first that waits for an access (R104, R105). -/
def State.granted (s : State) : Option StreamNo :=
  (grantOrder s.nextGrant).find? fun k => s.streams[k].choose.isSome

/-- Whether presenting this choice draws a free value: an abort of a descriptor never fetched
(R114, R115; log 9). -/
def Stream.drawsNotify (st : Stream) (c : Choice) : Bool := c == .abort && st.walker.inHand.isNone

/-- The granted stream presents its access, and the grant moves on (R105; logs 9, 28). -/
def State.accessIssue (s : State) : State :=
  match s.granted with
  | none => s
  | some k =>
      match s.streams[k].choose with
      | none => s
      | some c =>
          let draws := s.streams[k].drawsNotify c
          let s := s.onStream k (Stream.present (Config.unfetchedNotify s.freeDraws) c)
          { s with
            nextGrant := k + 1
            freeDraws := if draws then s.freeDraws + 1 else s.freeDraws }

/-- A stream in one of these states sends the release trigger at a memory fault (R134). -/
def Stream.faultTriggers (st : Stream) : Bool :=
  st.isTalk && st.state != .faulted && st.state != .stopped

/-- An error response to the access of stream `k` (R117, R134, R152). -/
def State.accessError (k : StreamNo) (s : State) : State :=
  let st := s.streams[k]
  if st.walker.access.isNone then s
  else
    let s := s.onStream k fun st =>
      if st.isTalk then st.walkerFault.memoryFaultTalk else st.walkerFault.memoryFaultListen
    if st.faultTriggers then s.releaseTrigger k else s

/-- ACCESS_ISSUE (R104). -/
def execAccessIssue (s : State) : Answer := event State.accessIssue s

/-- DESCRIPTOR_FETCH_REPLY (R106). -/
def execDescriptorFetchReply (k : StreamNo) (addressWord controlWord : Word) (s : State) : Answer :=
  event (fun s => s.onStream k
    (Stream.fetchReply s.mku.count (Descriptor.ofWords addressWord controlWord))) s

/-- BUFFER_READ_REPLY (R107). -/
def execBufferReadReply (k : StreamNo) (words : List Word) (s : State) : Answer :=
  event (fun s => s.onStream k (Stream.readReply words)) s

/-- BUFFER_WRITE_ACK (R109). -/
def execBufferWriteAck (k : StreamNo) (s : State) : Answer :=
  event (fun s => s.onStream k (Stream.writeAck s.mku.count)) s

/-- RECORD_WRITE_ACK (R112). -/
def execRecordWriteAck (k : StreamNo) (s : State) : Answer :=
  event (fun s => s.onStream k Stream.recordAck) s

/-- ACCESS_ERROR (R117). -/
def execAccessError (k : StreamNo) (s : State) : Answer := event (State.accessError k) s

end Sys2Proof.Machine
end

