-- ==== Sys2Proof/Machine/Dispatch.lean ====
section
/-! DEFINITION. The meaning of each command: one arm per row of the table. -/

namespace Sys2Proof.Machine

/-- The effect of a command on everything but the queue. -/
def exec (i : Instr) (s : State) : Host.Outcome State Fault Refusal :=
  match i with
  | .hardwareReset => Sys2Proof.Machine.execHardwareReset s
  | .resetRelease straps => Sys2Proof.Machine.execResetRelease straps s
  | .carrierOnset onset => Sys2Proof.Machine.execCarrierOnset onset s
  | .dataSlotStart slot => Sys2Proof.Machine.execDataSlotStart slot s
  | .graceExpiry k => Sys2Proof.Machine.execGraceExpiry k s
  | .dataSlotEcho matched slotAgentFirst => Sys2Proof.Machine.execDataSlotEcho matched slotAgentFirst s
  | .cleanDataCell slot sender tag kind => Sys2Proof.Machine.execCleanDataCell slot sender tag kind s
  | .garbledOrSilentDataSlot slot garbled => Sys2Proof.Machine.execGarbledOrSilentDataSlot slot garbled s
  | .aging slot => Sys2Proof.Machine.execAging slot s
  | .openSlotStart which => Sys2Proof.Machine.execOpenSlotStart which s
  | .openSlotEcho matched => Sys2Proof.Machine.execOpenSlotEcho matched s
  | .cleanClaim which sender slot tag => Sys2Proof.Machine.execCleanClaim which sender slot tag s
  | .cleanRelease which sender slot tag => Sys2Proof.Machine.execCleanRelease which sender slot tag s
  | .cleanLeave which sender => Sys2Proof.Machine.execCleanLeave which sender s
  | .cleanJoin which sender => Sys2Proof.Machine.execCleanJoin which sender s
  | .duplicateAddressSighting position kind ended => Sys2Proof.Machine.execDuplicateAddressSighting position kind ended s
  | .markWindowOpen => Sys2Proof.Machine.execMarkWindowOpen s
  | .dutyMark carrier => Sys2Proof.Machine.execDutyMark carrier s
  | .takeoverMark carrier => Sys2Proof.Machine.execTakeoverMark carrier s
  | .recoveryWaitExpiry carrier => Sys2Proof.Machine.execRecoveryWaitExpiry carrier s
  | .coldStartWaitExpiry carrier => Sys2Proof.Machine.execColdStartWaitExpiry carrier s
  | .cleanMark heard order => Sys2Proof.Machine.execCleanMark heard order s
  | .learnCountDone => Sys2Proof.Machine.execLearnCountDone s
  | .joinTimerExpiry => Sys2Proof.Machine.execJoinTimerExpiry s
  | .backoffExpiry slot => Sys2Proof.Machine.execBackoffExpiry slot s
  | .pauseTimerExpiry k => Sys2Proof.Machine.execPauseTimerExpiry k s
  | .headWaitExpiry => Sys2Proof.Machine.execHeadWaitExpiry s
  | .garbledMarkField ended => Sys2Proof.Machine.execGarbledMarkField ended s
  | .markEchoMismatch => Sys2Proof.Machine.execMarkEchoMismatch s
  | .marklessRound => Sys2Proof.Machine.execMarklessRound s
  | .syncLoss => Sys2Proof.Machine.execSyncLoss s
  | .readyWrite k value => Sys2Proof.Machine.execReadyWrite k value s
  | .accessIssue => Sys2Proof.Machine.execAccessIssue s
  | .descriptorFetchReply k addressWord controlWord => Sys2Proof.Machine.execDescriptorFetchReply k addressWord controlWord s
  | .bufferReadReply k words => Sys2Proof.Machine.execBufferReadReply k words s
  | .bufferWriteAck k => Sys2Proof.Machine.execBufferWriteAck k s
  | .recordWriteAck k => Sys2Proof.Machine.execRecordWriteAck k s
  | .accessError k => Sys2Proof.Machine.execAccessError k s
  | .join index => Sys2Proof.Machine.execJoin index s
  | .leave index => Sys2Proof.Machine.execLeave index s
  | .start k => Sys2Proof.Machine.execStart k s
  | .stop k => Sys2Proof.Machine.execStop k s
  | .pause k => Sys2Proof.Machine.execPause k s
  | .resume k => Sys2Proof.Machine.execResume k s
  | .resetStream k => Sys2Proof.Machine.execResetStream k s
  | .clearCounters index => Sys2Proof.Machine.execClearCounters index s
  | .badCommand code index => Sys2Proof.Machine.execBadCommand code index s
  | .configWrite k which value => Sys2Proof.Machine.execConfigWrite k which value s
  | .flagWrite scope value => Sys2Proof.Machine.execFlagWrite scope value s
  | .enableWrite scope value => Sys2Proof.Machine.execEnableWrite scope value s
  | .registerWrite index value => Sys2Proof.Machine.execRegisterWrite index value s
  | .targetAccessDuringReset index written => Sys2Proof.Machine.execTargetAccessDuringReset index written s

end Sys2Proof.Machine
end

