-- ==== Sys2Proof/Machine/Signal.lean ====
section
/-! DEFINITION. The pair as levels in time: the coding of bits, code violations, quiet, carrier and its
onsets, and what the capture span of a position holds (R4, R9). Instants here are counted in half bit
times, two to the bit time of `Instant` (log 34). -/

namespace Sys2Proof

/-! ### Levels (R4) -/

/-- A stretch of the line: its levels, high as `true`, in consecutive half bit times from `start` on. -/
structure Waveform where
  start : Nat
  levels : List Bool
deriving DecidableEq, Repr

/-- The level of the half bit time `h`. A line that no station drives rests high (log 34). -/
def Waveform.level (w : Waveform) (h : Nat) : Bool :=
  if h < w.start then true else w.levels.getD (h - w.start) true

/-- The two halves of a bit time: low and high for a 1, high and low for a 0 (R4). -/
def bitLevels (bit : Bool) : List Bool := [!bit, bit]

/-- The levels that a frame is sent as, its most significant bit first (R4). -/
def frameLevels (frame : BitVec 80) : List Bool :=
  (List.range 80).flatMap fun i => bitLevels (frame.getMsbD i)

/-- The line while this cell is sent from `start` on and nothing else drives it (R4, R7). -/
def Cell.waveform (c : Cell) (start : Instant) : Waveform :=
  ⟨2 * start, frameLevels (frameOf c.encode)⟩

/-- A level change at the beginning of the half bit time `h`. -/
def Waveform.change (w : Waveform) (h : Nat) : Bool :=
  w.level h != (if h = 0 then true else w.level (h - 1))

/-- Quiet: no level change for 2 bit times, up to and with instant `h` (R4). A change exactly 2 bit times
before `h` is outside them (log 44). -/
def Waveform.quiet (w : Waveform) (h : Nat) : Bool :=
  (List.range 4).all fun j => h < j || !w.change (h - j)

/-- Carrier is present while the line is not quiet (R4). -/
def Waveform.carrier (w : Waveform) (h : Nat) : Bool := !w.quiet h

/-- Carrier onset: the first level change after a quiet line (R4). R4 does not say whether a change exactly
2 bit times after the last one follows a quiet line: that it does not, and so is no onset, is the model's
choice (log 44). -/
def Waveform.onset (w : Waveform) (h : Nat) : Bool :=
  w.change h && (h == 0 || w.quiet (h - 1))

/-- The onsets from instant `lo` to before instant `hi`, in their order. -/
def Waveform.onsets (w : Waveform) (lo hi : Nat) : List Nat :=
  (List.range' lo (hi - lo)).filter fun h => w.onset h

/-- The candidate whose 80 bit times begin at `h`: each bit is the level of its second half, and a bit
time without a change at its middle is a code violation (R4, R9, R10). -/
def Waveform.candidate (w : Waveform) (h : Nat) : Candidate where
  bits := BitVec.ofFnBE fun i : Fin 80 => w.level (h + 2 * i.val + 1)
  violation := (List.range 80).any fun i => w.level (h + 2 * i) == w.level (h + 2 * i + 1)

/-! ### What a position hears (R9) -/

/-- The candidate of an onset at `h`, with whether another onset came after it had ended and before its
report at `reported` (R9). -/
def Waveform.heardFrom (w : Waveform) (h reported : Nat) : Heard :=
  .candidate (w.candidate h) (w.onsets (h + 2 * Config.cellTime) reported != [])

/-- The opening of the capture span of a position that starts at `start` (R9). -/
def spanOpens (start : Instant) : Nat := 2 * (start - Config.guardTime)

/-- The end of that span, where the span of the next position opens (R9). -/
def spanEnds (start : Instant) : Nat := 2 * (start + Config.cellTime)

/-- Carrier is present already when the span opens (R9). -/
def Waveform.runsIn (w : Waveform) (start : Instant) : Bool :=
  w.carrier (spanOpens start) && w.carrier (spanOpens start - 1)

/-- That carrier is the candidate of the previous position: its onset lay within 16 bit times of the
start of that position (R9). -/
def Waveform.runsFromPrevious (w : Waveform) (start : Instant) : Bool :=
  let previous := start - Config.slotTime
  (w.onsets (spanOpens previous) (spanOpens start)).getLast?.any fun h =>
    h ≤ 2 * (previous + Config.guardTime)

/-- What the capture span of a Data Slot or an Open Slot that starts at `start` holds, reported at
`reported` (R9). -/
def Waveform.heardIn (w : Waveform) (start reported : Instant) : Heard :=
  if w.runsIn start && !w.runsFromPrevious start then .misplaced
  else match w.onsets (spanOpens start) (spanEnds start) with
    | [] => .quiet
    | h :: _ =>
        if h ≤ 2 * (start + Config.guardTime) then
          w.heardFrom h (min (spanEnds start) (2 * reported))
        else .misplaced

end Sys2Proof
end

