-- ==== Sys2Proof/Machine/Report.lean ====
section
/-! DEFINITION. Which command the Line Unit's report of an onset, a position or a candidate is: what the
line held there, judged against its own transmit record (sections 1.5 and 1.6). The sender of commands
works by it. -/

namespace Sys2Proof.Machine

/-- The report of a position in which this station sent: the echo result (R12). -/
def TxRecord.report (tx : TxRecord) (h : Heard) (slotAgentFirst : Bool) (order : Fin 24) : Instr :=
  let matched := echoMatches tx.position tx.cell h
  match tx.position with
  | .dataSlot _ => .dataSlotEcho matched slotAgentFirst
  | .openSlot _ => .openSlotEcho matched
  | .markField | .outside => if matched then .cleanMark .own order else .markEchoMismatch

/-- The report of a clean cell from another station (R13). -/
def cleanReport (p : Position) (onset : Instant) (order : Fin 24) : Cell → Option Instr
  | .mark x m => some (.cleanMark (.other onset x m) order)
  | .inSlot x t d =>
      match p with
      | .dataSlot i => some (.cleanDataCell i x t d)
      | _ => none
  | .join x =>
      match p with
      | .openSlot w => some (.cleanJoin w x)
      | _ => none
  | .leave x =>
      match p with
      | .openSlot w => some (.cleanLeave w x)
      | _ => none
  | .claim x t i =>
      match p with
      | .openSlot w => some (.cleanClaim w x i t)
      | _ => none
  | .release x t i =>
      match p with
      | .openSlot w => some (.cleanRelease w x i t)
      | _ => none

/-- The report of a position in which nothing clean was heard: a garbled or silent Data Slot and a
garbled mark-window candidate are delivered, an Open Slot and a candidate outside a position are not
(R13, R16). -/
def unclean (p : Position) (garbled : Bool) (ended : Instant) : Option Instr :=
  match p with
  | .dataSlot i => some (.garbledOrSilentDataSlot i garbled)
  | .markField => if garbled then some (.garbledMarkField ended) else none
  | .openSlot _ | .outside => none

/-- The own cell on the line that a candidate of position `p` with this onset can be the echo of: in a Data
Slot or an Open Slot any (R12). In the mark window and outside any position each candidate is judged by
itself (R16, R17), and one that began before the own MARK is no echo of it: that R17 and not the last
sentences of R12 settles its report is the model's choice (log 42). -/
def LineUnit.echoed (p : Position) (onset : Instant) (l : LineUnit) : Option TxRecord :=
  match p with
  | .dataSlot _ | .openSlot _ => l.tx
  | .markField | .outside => l.tx.filter fun tx => decide (tx.start ≤ onset)

/-- The report of position `p`, in which `h` was heard with its onset at `onset` (R9 to R14, R16, R17;
log 42). -/
def LineUnit.report (stn : StationNo) (p : Position) (onset : Instant) (h : Heard)
    (slotAgentFirst : Bool) (order : Fin 24) (l : LineUnit) : Option Instr :=
  let ended := onset + Config.cellTime
  match l.echoed p onset with
  | some tx => if tx.position = p then some (tx.report h slotAgentFirst order) else none
  | none =>
      match classify p h with
      | .silent => unclean p false ended
      | .garbled => unclean p true ended
      | .clean cell =>
          if cell.sender = stn then some (.duplicateAddressSighting p cell.kind ended)
          else cleanReport p onset order cell

/-! ### From the levels of the line -/

/-- The line while the own cell is sent and no other station drives it (R4, R7). -/
def TxRecord.waveform (tx : TxRecord) : Waveform := tx.cell.waveform tx.start

/-- The start of a Data Slot or an Open Slot of this Round; the Mark Field has no start of its own (R2). -/
def LineUnit.startOf (l : LineUnit) : Position → Option Instant
  | .dataSlot i => l.anchor.map fun t => slotStart t i
  | .openSlot w => l.anchor.map fun t => openSlotStart t w
  | .markField | .outside => none

/-- The report of an onset at half bit time `h`: made while this station is not transmitting (R15). That
an onset in the middle of a bit time is reported at the beginning of that bit time is the model's choice
(log 41). -/
def LineUnit.reportOnset (w : Waveform) (h : Nat) (l : LineUnit) : Option Instr :=
  if w.onset h && l.tx.isNone then some (.carrierOnset (h / 2)) else none

/-- The report, at `reported`, of the Data Slot or Open Slot `p` of the Round that the Line Unit runs:
none where it runs no positions (R2, R9, R16). Its onset is counted at the beginning of its bit time
(log 41), and what was heard by half bit times. -/
def LineUnit.reportSlot (stn : StationNo) (p : Position) (reported : Instant) (w : Waveform)
    (slotAgentFirst : Bool) (l : LineUnit) : Option Instr :=
  match l.isSynced, l.startOf p with
  | true, some start =>
      let onset := ((w.onsets (spanOpens start) (spanEnds start)).headD (2 * start)) / 2
      l.report stn p onset (w.heardIn start reported) slotAgentFirst 0
  | _, _ => none

/-- The report, at `reported`, of the candidate that an onset at half bit time `h` opened in the mark
window or outside any position; in both each onset opens one (R16, R17). Onsets before `h` are not
looked at: that an earlier onset in the same mark window does not spoil the echo of an own MARK is the
model's choice between R12 and R17 (log 39). The onset is counted at the beginning of its bit time
(log 41). -/
def LineUnit.reportMark (stn : StationNo) (p : Position) (h : Nat) (reported : Instant) (w : Waveform)
    (order : Fin 24) (l : LineUnit) : Option Instr :=
  l.report stn p (h / 2) (w.heardFrom h (2 * reported)) false order

end Sys2Proof.Machine
end

