-- ==== Sys2Proof/Safety.lean ====
section
/-! DEFINITION. What statements about the part are phrased with: the parts of the state, what a change
leaves alone, and the invariants that every step keeps. -/

namespace Sys2Proof

/-- The commands that are accesses to the register window (R165). -/
def Instr.isTargetAccess : Instr → Bool
  | .readyWrite _ _ | .join _ | .leave _ | .start _ | .stop _ | .pause _ | .resume _ | .resetStream _
  | .clearCounters _ | .badCommand _ _ | .configWrite _ _ _ | .flagWrite _ _ | .enableWrite _ _
  | .registerWrite _ _ | .targetAccessDuringReset _ _ => true
  | _ => false

/-- The commands that begin and end a hardware reset (R171, R172). -/
def Instr.isReset : Instr → Bool
  | .hardwareReset | .resetRelease _ => true
  | _ => false

end Sys2Proof

namespace Sys2Proof.Machine

/-! ### Frames -/

/-- The fields of the state. -/
inductive StatePart where
  | resetAsserted | straps | lnu | mku | rsu | slotMap | ccq | streams | nextGrant
  | stationFlags | stationEnables | counters | command | result | targetResponse | freeDraws
  | pending
deriving DecidableEq, Repr

/-- Two states have the same value in this field. -/
def StatePart.same (s t : State) : StatePart → Prop
  | .resetAsserted => t.resetAsserted = s.resetAsserted
  | .straps => t.straps = s.straps
  | .lnu => t.lnu = s.lnu
  | .mku => t.mku = s.mku
  | .rsu => t.rsu = s.rsu
  | .slotMap => t.slotMap = s.slotMap
  | .ccq => t.ccq = s.ccq
  | .streams => t.streams = s.streams
  | .nextGrant => t.nextGrant = s.nextGrant
  | .stationFlags => t.stationFlags = s.stationFlags
  | .stationEnables => t.stationEnables = s.stationEnables
  | .counters => t.counters = s.counters
  | .command => t.command = s.command
  | .result => t.result = s.result
  | .targetResponse => t.targetResponse = s.targetResponse
  | .freeDraws => t.freeDraws = s.freeDraws
  | .pending => t.pending = s.pending

/-- Every field but these has the same value in both states. -/
def State.changesOnly (ps : List StatePart) (s t : State) : Prop := ∀ p, p ∉ ps → StatePart.same s t p

/-- Every stream context but `k` is the same in both states. -/
def State.otherStreamsSame (k : StreamNo) (s t : State) : Prop :=
  ∀ j : StreamNo, j ≠ k → t.streams[j] = s.streams[j]

/-- Every Slot Map entry but `i` is the same in both states. -/
def State.otherEntriesSame (i : SlotNo) (s t : State) : Prop :=
  ∀ j : SlotNo, j ≠ i → t.slotMap[j] = s.slotMap[j]

/-! ### Tables of the spec that several statements use -/

/-- A 16-bit counter that counts one more (R161). -/
abbrev countsOne (before after : BitVec 16) : Prop := after.toNat = min 65535 (before.toNat + 1)

/-- The stations that hold MARK duties: MEMBER or LEAVING (R64). -/
abbrev State.onDuty (s : State) : Prop := s.rsu.membership = .member ∨ s.rsu.membership = .leaving

/-- The Line Unit cannot take a MARK request: carrier, an own cell on the line, or SYNCED outside the
mark window (R8). -/
abbrev State.markBlocked (carrier : Bool) (s : State) : Prop :=
  carrier = true ∨ s.lnu.tx ≠ none ∨ (s.lnu.sync = .synced ∧ s.lnu.windowOpen = false)

/-- An instant inside the mark window of the expected instant (R17). -/
abbrev State.inMarkWindow (s : State) (onset : Instant) : Prop :=
  ∃ e, s.lnu.expected = some e ∧ e ≤ onset + 16 ∧ onset ≤ e + 8 * 96

/-- A clean MARK that began at `onset` anchors a Round: while UNSYNCED any does (R16), while SYNCED one
that began inside the open mark window (R17). -/
abbrev State.canAnchor (s : State) (onset : Instant) : Prop :=
  s.lnu.sync = .unsynced ∨ (s.lnu.windowOpen = true ∧ s.inMarkWindow onset)

/-- A garbled candidate that began at `onset` is delivered to the Mark Unit: the onset lies inside the
mark window, which is open, or has closed without an anchor (R17, R18). -/
abbrev State.deliversGarble (s : State) (onset : Instant) : Prop :=
  (s.lnu.windowOpen = true ∨ s.lnu.sync = .unsynced) ∧ s.inMarkWindow onset

/-- An onset opens a candidate for this position (R9, R16, R17): 16 bit times at most from the start of a
Data Slot or Open Slot, inside the mark window, or at any instant while UNSYNCED. -/
def State.opensCandidate (s : State) (onset : Instant) : Position → Prop
  | .outside => s.lnu.sync = .unsynced
  | .dataSlot i => s.lnu.sync = .synced ∧ ∃ a, s.lnu.anchor = some a
      ∧ a + (1 + i.val) * 96 ≤ onset + 16 ∧ onset ≤ a + (1 + i.val) * 96 + 16
  | .openSlot w => s.lnu.sync = .synced ∧ ∃ a, s.lnu.anchor = some a
      ∧ a + (if w = .a then 49 else 50) * 96 ≤ onset + 16
      ∧ onset ≤ a + (if w = .a then 49 else 50) * 96 + 16
  | .markField => s.lnu.sync = .synced ∧ ∃ a, s.lnu.anchor = some a
      ∧ a + 51 * 96 ≤ onset + 16 ∧ onset ≤ a + 51 * 96 + 8 * 96

/-- The candidates that a report of position `p` leaves under examination (R9). -/
abbrev State.candidatesBut (s : State) (p : Position) : List OpenCandidate :=
  s.lnu.candidates.filter fun c => c.position ≠ p

/-- The candidates that have not ended by `now` (R9). -/
abbrev State.candidatesAt (s : State) (now : Instant) : List OpenCandidate :=
  s.lnu.candidates.filter fun c => now < c.onset + 80

/-- A clean MARK that anchors a Round in this state: this station's own, or another's (R13, R16, R17). -/
def State.hearsAnchor (s : State) : MarkHeard → Prop
  | .own => ∃ p start x f k, s.lnu.tx = some ⟨p, start, .mark x f, k⟩ ∧ s.canAnchor start
  | .other onset x f => x ≠ 0 ∧ x ≠ s.straps.stn ∧ f.next ≠ 0 ∧ s.canAnchor onset

/-- The control cell that an entry offers while its queued mark is Cleared (R36). -/
def unqueuedTable (i : SlotNo) : SlotEntry → Option QueueCell
  | .claiming g k false => some (.claim i g k)
  | .releasing _ k false => some (.release i k)
  | _ => none

/-- An entry with its queued mark Set (R28). -/
def queuedTable : SlotEntry → SlotEntry
  | .claiming g k _ => .claiming g k true
  | .releasing g k _ => .releasing g k true
  | e => e

/-- A COLLIDED entry at a clean Mark (R33, step 1). -/
def backoffTable : SlotEntry → SlotEntry
  | .collided g k b => if b.toNat ≤ 1 then .free else .collided g k (b - 1)
  | e => e

/-- The round number of a MARK sent now (R65). -/
abbrev State.roundSent (s : State) (r : BitVec 8) : Prop :=
  (s.mku.count.toNat = 2 ^ 32 - 1 → r = s.mku.lastRound + 1) ∧
    (s.mku.count.toNat ≠ 2 ^ 32 - 1 → r.toNat = (s.mku.count.toNat + 1) % 256)

/-- How many stations on from `a` station `b` stands, going up through 31 and on from 1 (R66, R71). -/
def stationsOn (a b : StationNo) : Nat := (b.toNat + 31 - a.toNat) % 31

/-- A miss against an entry (R84). -/
def missTable : RosterEntry → RosterEntry
  | .present => .suspect1
  | .suspect1 => .suspect2
  | .suspect2 => .absent
  | .absent => .absent

/-- The bitmap bit on an entry, after the sender's own refresh (R83, R85). -/
def bitmapTable (isSender bit : Bool) (e : RosterEntry) : RosterEntry :=
  if !bit then .absent
  else if isSender ∨ e = .absent then .present
  else e

/-- The membership state after another station's clean MARK (R88, R90, R91, R93, R95). -/
def membershipTable (u : RosterUnit) (ownBit : Bool) : Membership :=
  match u.membership with
  | .dormant => .dormant
  | .leaving => .leaving
  | .listening => if u.learnCount = 0 then .listening else .joining
  | .member => if ownBit then .member else .joining
  | .isolated => if ownBit then .member else .listening
  | .joining =>
      if ownBit then .member
      else if (∃ t, u.joinTimer = some t ∧ t ≤ 1) ∧ 4 ≤ u.attempt then .dormant
      else .joining

/-- The cell kind a MINE slot carries for a Talk Stream whose grace has not run out (R124). -/
def slotKindTable (st : Stream) : DataKind :=
  if (st.state = .running ∨ st.state = .acquiring) ∧ st.priming = false then
    match st.fifo with
    | e :: _ => .data e.boundary e.word
    | [] => if st.walker.caughtUp then .keep else .fill
  else .keep

/-- The grace of a DRAINED Talk Stream has run out (R129). -/
abbrev State.graceOut (s : State) (k : StreamNo) : Prop :=
  s.streams[k].isTalk = true ∧ s.streams[k].state = .drained ∧ s.streams[k].cfg.grace ≠ 255 ∧
    s.streams[k].cfg.grace.toNat ≤ s.mku.count.toNat - s.streams[k].drainStart.toNat

/-- What a release trigger of stream `k` leaves of the map and of the stream (R39). -/
def State.releasedFor (k : StreamNo) (s t : State) : Prop :=
  (∀ i : SlotNo, match s.slotMap[i] with
    | .mine g j => if j = k then ∃ q, t.slotMap[i] = .releasing g k q else t.slotMap[i] = .mine g j
    | .claiming g j q => t.slotMap[i] = if j = k then .free else .claiming g j q
    | .collided g j b => t.slotMap[i] = if j = k then .free else .collided g j b
    | e => t.slotMap[i] = e) ∧
    t.streams[k].held = 0 ∧ t.streams[k].short = false

/-! ### Reports of the Slot Agent -/

/-- The report that the held count is now `n` (R35, R127): SHORT is Cleared where it reaches the wanted
count; the first slot makes an ACQUIRING Talk Stream RUNNING, or DRAINED from this count on where it is
caught up; the last one gone makes a RUNNING or DRAINED one ACQUIRING. -/
def Stream.heldTable (count : Word) (n : Nat) (st : Stream) : Stream :=
  let st' : Stream := { st with
    held := n, short := st.short && (n == st.held || n != st.cfg.wanted.toNat) }
  if st.isTalk = true ∧ st.state = .acquiring ∧ st.held = 0 ∧ n ≠ 0 then
    if st.walker.caughtUp then { st' with state := .drained, drainStart := count }
    else { st' with state := .running }
  else if st.isTalk = true ∧ (st.state = .running ∨ st.state = .drained) ∧ st.held ≠ 0 ∧ n = 0 then
    { st' with state := .acquiring }
  else st'

/-- The report that no own entries remain (R133): in STOPPING entries gone is Set, and the stream is
STOPPED where its walker is quiet. -/
def Stream.noneRemainTable (st : Stream) : Stream :=
  if st.isTalk = true ∧ st.state = .stopping then
    if st.walkerQuiet then
      { st with entriesGone := true, state := .stopped, flags := st.flags ||| 0x80#8 }
    else { st with entriesGone := true }
  else st

/-- What a change of the map from `m` to `m'` reports to stream `k` (R23, R40). -/
def Stream.mapReported (count : Word) (m m' : Vector SlotEntry 48) (k : StreamNo) (st : Stream) : Stream :=
  let st' := st.heldTable count (mineCount m' k)
  if (∃ i : SlotNo, m[i].stream? = some k) ∧ (∀ i : SlotNo, m'[i].stream? ≠ some k) then
    st'.noneRemainTable
  else st'

/-- A Talk Stream after its stop began (R129, R132, R133): its walker is quiet exactly where it is OFF,
entries gone is Set exactly where no own entry names the stream, and it is STOPPED, with its event, where
both hold, and STOPPING otherwise. -/
def Stream.stopBegun (k : StreamNo) (old new : Stream) (m : Vector SlotEntry 48) : Prop :=
  let gone := ∀ i : SlotNo, m[i].stream? ≠ some k
  (new.walkerQuiet = true ↔ new.walker.mode = .off) ∧ (new.entriesGone = true ↔ gone) ∧
  (new.walker.mode = .off ∧ gone → new.state = .stopped ∧ new.flags = old.flags ||| 0x80#8) ∧
  (¬ (new.walker.mode = .off ∧ gone) → new.state = .stopping ∧ new.flags = old.flags)

/-! ### A clean MARK -/

/-- The round count after a clean MARK with round number `r` (R67): the smallest greater value whose low 8
bits are `r`, or FFFFFFFFh where there is none. -/
def roundCounted (r : BitVec 8) (before after : Word) : Prop :=
  (∀ v : Nat, before.toNat < v → v ≤ 2 ^ 32 - 1 → v % 256 = r.toNat →
    (∀ v' : Nat, before.toNat < v' → v' < v → v' % 256 ≠ r.toNat) → after.toNat = v) ∧
  ((∀ v : Nat, before.toNat < v → v ≤ 2 ^ 32 - 1 → v % 256 ≠ r.toNat) → after.toNat = 2 ^ 32 - 1)

/-- The count slipped: it was adopted and had not stopped, and it moved by other than 1 (R68). -/
abbrev roundSlipped (m : MarkUnit) (after : Word) : Prop :=
  m.adopted = true ∧ m.count.toNat < 2 ^ 32 - 1 ∧ after.toNat ≠ m.count.toNat + 1

/-- Learn count, attempt, join timer and intent after another station's clean MARK (R88 to R91, R95). -/
def countsTable (u : RosterUnit) (ownBit : Bool) : RosterUnit :=
  match u.membership, ownBit with
  | .listening, _ =>
      if u.learnCount = 0 then { u with learnCount := 1 }
      else { u with learnCount := 2, attempt := 1, intent := .join }
  | .joining, true => { u with attempt := 0, joinTimer := none, intent := .none }
  | .joining, false =>
      match u.joinTimer with
      | none => u
      | some t =>
          if 2 ≤ t then { u with joinTimer := some (t - 1) }
          else if u.attempt < 4 then
            { u with joinTimer := none, attempt := u.attempt + 1, intent := .join }
          else { u with joinTimer := none, attempt := 0 }
  | .member, false => { u with attempt := 1, intent := .join }
  | .isolated, false => { u with learnCount := 0 }
  | _, _ => u

/-- The same four fields in two states of the Roster Unit. -/
abbrev sameCounts (u v : RosterUnit) : Prop :=
  v.learnCount = u.learnCount ∧ v.attempt = u.attempt ∧ v.joinTimer = u.joinTimer
    ∧ v.intent = u.intent

/-! ### The Ring Walker -/

/-- The two words of a completion record, at offsets 8 and 12 (R98). -/
def recordWords (r : Record) : List Word :=
  let status := match r.status with
    | .done => 1
    | .cut => 2
    | .empty => 3
    | .aborted => 4
  [BitVec.ofNat 32 (r.words.toNat * 65536 + status),
    BitVec.ofNat 32 (r.tally.toNat * 65536 + r.stamp.toNat)]

/-- The address of descriptor `i` (R98, R105). -/
abbrev Stream.descriptorAt (st : Stream) (i : RingIdx) : Word :=
  st.cfg.ringBase + BitVec.ofNat 32 (16 * i.toNat)

/-- The fetch of descriptor `i` (R105). -/
def Stream.fetchOf (st : Stream) (i : RingIdx) : Access :=
  ⟨.fetch, i, st.descriptorAt i, 2, false, [], 0⟩

/-- The write of record `r` (R98, R105). -/
def Stream.recordWriteOf (st : Stream) (r : Record) : Access :=
  ⟨.record, r.index, st.descriptorAt r.index + 8, 2, false, recordWords r, 0⟩

/-- The read of `n` words of the buffer of descriptor `i`, the first `before` of them read already (R105). -/
def readOf (i : RingIdx) (d : Descriptor) (before n : Nat) : Access :=
  ⟨.read, i, d.address + BitVec.ofNat 32 (4 * before), n, false, [], 0⟩

/-- The write of the first `n` FIFO entries into the buffer of C, with the stamp of the first (R105,
R109). -/
def Stream.writeOf (st : Stream) (d : Descriptor) (n : Nat) : Access :=
  ⟨.write, st.walker.cur, d.address + BitVec.ofNat 32 (4 * st.walker.moved), n, false,
    (st.fifo.take n).map FifoEntry.word, (st.fifo.head?.map FifoEntry.stamp).getD 0⟩

/-- How many entries may be placed in buffer C: none of them marked, but the first when the buffer has no
word yet (R109). -/
def Stream.placeableTable (st : Stream) (d : Descriptor) : Nat :=
  ((st.fifo.take (min 16 (d.length.toNat - st.walker.moved))).zipIdx.takeWhile fun e =>
    !e.1.boundary || (e.2 == 0 && st.walker.moved == 0)).length

/-- Words of the buffer of C that are not read or placed yet. -/
abbrev Walker.left (w : Walker) : Nat := ((w.inHand.map fun d => d.length.toNat).getD 0) - w.moved

/-- The abort record of C (R114, R115). `notify` is the bit of a descriptor that was never fetched
(log 9). -/
def Walker.abortRecord (w : Walker) (notify : Bool) : Record :=
  ⟨w.cur, .aborted, BitVec.ofNat 16 w.done, w.firstStamp.getD 0, w.tally,
    (w.inHand.map Descriptor.notify).getD notify, false⟩

/-- The access that a WALKING stream chooses: the first of the five that applies (R104). -/
def Stream.walkingTable (st : Stream) : Option Access :=
  let w := st.walker
  let room := 16 - st.fifo.length
  match w.records, w.inHand with
  | r :: _, _ => some (st.recordWriteOf r)
  | [], none =>
      if w.caughtUp = false then some (st.fetchOf w.cur)
      else match st.isTalk, w.prefetched with
        | true, some f =>
            if f.length.toNat ≤ w.ahead ∨ room = 0 then none
            else some (readOf w.fetch f w.ahead (min (f.length.toNat - w.ahead) room))
        | _, _ => none
  | [], some d =>
      if st.isTalk = true ∧ w.left ≠ 0 ∧ room ≠ 0 then
        some (readOf w.cur d w.moved (min w.left room))
      else if st.isTalk = false ∧ st.placeableTable d ≠ 0 then
        some (st.writeOf d (st.placeableTable d))
      else if w.fetch = w.cur ∧ w.cur ≠ w.ready then some (st.fetchOf (w.cur + 1))
      else match st.isTalk, w.prefetched with
        | true, some f =>
            if w.left ≠ 0 ∨ f.length.toNat ≤ w.ahead ∨ room = 0 then none
            else some (readOf w.fetch f w.ahead (min (f.length.toNat - w.ahead) room))
        | _, _ => none

/-- The access that a STOPPING stream chooses: the records owed; then, unless the ring was caught up at
the stop, the fetch and the writes of a Listen Stream's flush, and the abort record (R114, R115). -/
def Stream.stoppingTable (st : Stream) : Option Access :=
  let w := st.walker
  match w.records with
  | r :: _ => some (st.recordWriteOf r)
  | [] =>
      if w.stopCaughtUp = true ∨ w.abortBuilt = true then none
      else if st.isTalk = true ∨ st.fifo = [] then some (st.recordWriteOf (w.abortRecord false))
      else match w.inHand with
        | none => some (st.fetchOf w.cur)
        | some d =>
            if w.left = 0 then some (st.recordWriteOf (w.abortRecord false))
            else some (st.writeOf d (min (min 16 w.left) st.fifo.length))

/-- The access that a stream chooses, by its walk mode; none while one is in flight (R103, R104). -/
def Stream.accessTable (st : Stream) : Option Access :=
  match st.walker.access, st.walker.mode with
  | some _, _ => none
  | none, .off => none
  | none, .held => st.walker.records.head?.map st.recordWriteOf
  | none, .walking => st.walkingTable
  | none, .stopping => st.stoppingTable

/-- What presenting the access `a` changes in its stream (R104, R109, R114, R115). A fetch of C + 1 moves
F; a write takes its entries out of the FIFO; an abort record is built, and C moves past it. -/
def Stream.presentedTable (st : Stream) (notify : Bool) (a : Access) : Stream :=
  let w := st.walker
  match a.kind with
  | .fetch => { st with walker := { w with
      access := some a, fetch := if a.index = w.cur then w.fetch else a.index } }
  | .read => { st with walker := { w with access := some a } }
  | .write => { st with
      fifo := st.fifo.drop a.count
      walker := { w with access := some a, moved := w.moved + a.count, remaining := w.left - a.count } }
  | .record =>
      if w.records ≠ [] then { st with walker := { w with access := some a } }
      else { st with walker := { w with
        access := some a, records := [w.abortRecord notify], abortBuilt := true
        cur := w.cur + 1, fetch := w.cur + 1, caughtUp := w.cur == w.ready
        remaining := 0, inHand := none, prefetched := none, done := 0, moved := 0, ahead := 0
        firstStamp := none, tally := 0 } }

/-- One completion of C with a status and a count (R102): its record, C and F on the next descriptor, and
that one in hand where it was prefetched. When C is the last ready descriptor the record marks the ring's
end, caught-up is Set, the prefetch is discarded with its FIFO entries and its access, and a RUNNING
stream is DRAINED (R128, R148). -/
def Stream.completedOnce (count : Word) (status : RecordStatus) (words : Nat) (st : Stream) : Stream :=
  let w := st.walker
  let last := w.cur == w.ready
  let next := if last then none else w.prefetched
  { st with
    fifo := if last && st.isTalk then st.fifo.filter fun e => e.index != w.cur + 1 else st.fifo
    state := if last && st.state == .running then .drained else st.state
    drainStart := if last && st.isTalk && st.state == .running then count else st.drainStart
    walker := { w with
      cur := w.cur + 1, fetch := w.cur + 1, done := 0, tally := 0, firstStamp := none
      caughtUp := w.caughtUp || last
      inHand := next, prefetched := none, ahead := 0
      remaining := (next.map fun d => d.length.toNat).getD 0
      moved := if next.isSome then w.ahead else 0
      access := w.access.map fun a =>
        if last ∧ (a.kind = .fetch ∨ a.kind = .read) ∧ a.index = w.cur + 1 then
          { a with discard := true }
        else a
      records := w.records ++ [⟨w.cur, status, BitVec.ofNat 16 words, w.firstStamp.getD 0, w.tally,
        (w.inHand.map Descriptor.notify).getD false, last⟩] } }

/-- A completion, and at once the EMPTY completion of a prefetched descriptor of length 0 that becomes
current by it (R102, R106). -/
def Stream.completedTable (count : Word) (status : RecordStatus) (words : Nat) (st : Stream) : Stream :=
  let st' := st.completedOnce count status words
  if ∃ d ∈ st'.walker.inHand, d.length = 0 then st'.completedOnce count .empty 0 else st'

/-- The echo result of a DATA cell at its engine (R108, R124): while the word-on-the-line mark is Set the
head departs, and the word that brings remaining to 0 completes C; a Cleared mark changes nothing. -/
def Stream.departTable (count : Word) (st : Stream) : Stream :=
  let w := st.walker
  let gone : Stream := { st with
    fifo := st.fifo.tail, wordOnLine := false
    words := BitVec.ofNat 32 (min (2 ^ 32 - 1) (st.words.toNat + 1))
    walker := { w with
      firstStamp := some (w.firstStamp.getD (count.setWidth 16))
      done := w.done + 1, remaining := w.remaining - 1 } }
  if st.wordOnLine = false then st
  else if w.remaining = 1 then gone.completedTable count .done (w.done + 1)
  else gone

/-- The echo result of an own Data Slot cell at the engine of stream `j`, where stream `k` supplied the
cell: only DATA departs (R124). -/
def Stream.echoTable (count : Word) (d : DataKind) (k : Option StreamNo) (j : StreamNo) (st : Stream) :
    Stream :=
  match d with
  | .data _ _ => if k = some j then st.departTable count else st
  | .fill | .keep => st

/-- The FIFO's entries discarded: counted in OVERRUNS, with OVERRUN when there are any (R151). -/
def Stream.discardTable (st : Stream) : Stream :=
  if st.fifo = [] then st
  else { st with
    fifo := []
    overruns := BitVec.ofNat 16 (min 65535 (st.overruns.toNat + st.fifo.length))
    flags := st.flags ||| 0x04#8 }

/-- The end of a stop at the engine: a Talk Stream is quiet, and STOPPED where its entries are gone; a
Listen Stream is STOPPED (R133, R135, R151). -/
def Stream.stopDoneTable (st : Stream) : Stream :=
  match st.isTalk, st.state with
  | true, .stopping =>
      if st.entriesGone then
        { st with walkerQuiet := true, state := .stopped, flags := st.flags ||| 0x80#8 }
      else { st with walkerQuiet := true }
  | true, .faulted => { st with walkerQuiet := true }
  | false, .stopping => { st with state := .stopped, flags := st.flags ||| 0x80#8 }
  | _, _ => st

/-- What a stop makes of a stream in STOPPING between two accesses: with no access in flight and no record
owed it ends once the abort record is written or was not required, after the entries left in a Listen
FIFO are discarded; they are discarded too once the flush has filled buffer C (R115, R116). -/
def Stream.stopTable (st : Stream) : Stream :=
  let w := st.walker
  if w.access ≠ none ∨ w.records ≠ [] then st
  else if w.stopCaughtUp = true ∨ w.abortBuilt = true then
    let st' := if st.isTalk then st else st.discardTable
    ({ st' with walker := { w with
      mode := .off, stopCaughtUp := false, abortBuilt := false } } : Stream).stopDoneTable
  else if st.isTalk = false ∧ ∃ d ∈ w.inHand, d.length.toNat ≤ w.moved then st.discardTable
  else st

/-- What the stop request makes of the walker: STOPPING with caught-up noted, no prefetch, and an access
in flight discarded where the table of R113 says so. -/
def Walker.stopNoted (talk : Bool) (w : Walker) : Walker :=
  { w with
    mode := .stopping, stopCaughtUp := w.caughtUp, abortBuilt := false
    prefetched := none, ahead := 0, fetch := w.cur
    access := w.access.map fun a =>
      if a.kind = .read ∨ (a.kind = .fetch ∧ (talk = true ∨ a.index ≠ w.cur)) then
        { a with discard := true }
      else a }

/-! ### The Listen Stream Engine -/

/-- A marked entry at the head of this FIFO cuts buffer C (R110). -/
abbrev Stream.cuts (st : Stream) (fifo : List FifoEntry) : Prop :=
  st.walker.mode ≠ .stopping ∧ st.walker.moved ≠ 0
    ∧ (∀ a, st.walker.access = some a → a.kind ≠ .write)
    ∧ ∃ e, fifo.head? = some e ∧ e.boundary = true

/-- What a clean cell with tag `g` from station `x` makes of a Listen Stream, where `takes` says that the
conditions of R143 apart from kind and room hold (R143, R144). -/
def hearTable (count : Word) (g : Tag) (x : StationNo) (d : DataKind) (takes : Prop)
    (old new : Stream) : Prop :=
  (∀ b w, d = .data b w → takes → old.fifo.length < 16 →
    new.fifo = old.fifo ++ [⟨w, b && old.cfg.align, 0, count.setWidth 16⟩]
    ∧ new.lastWord = some w ∧ new.words.toNat = min (2 ^ 32 - 1) (old.words.toNat + 1)
    ∧ new.overruns = old.overruns) ∧
  (∀ b w, d = .data b w → takes → 16 ≤ old.fifo.length →
    new.fifo = old.fifo ∧ new.lastWord = old.lastWord ∧ new.words = old.words
    ∧ countsOne old.overruns new.overruns ∧ new.flags.getLsbD 2 = true) ∧
  (takes → (∀ p ∈ old.sources, p.1 ≠ g) →
    new.sources = old.sources ++ [(g, x)] ∧ new.multiRaised = old.multiRaised
    ∧ new.flags.getLsbD 5 = old.flags.getLsbD 5) ∧
  (∀ y, takes → old.sources.find? (fun p => p.1 == g) = some (g, y) →
    new.sources = old.sources
    ∧ (y = x → new.multiRaised = old.multiRaised
        ∧ new.flags.getLsbD 5 = old.flags.getLsbD 5)
    ∧ (y ≠ x → new.multiRaised = true
        ∧ new.flags.getLsbD 5 = (old.flags.getLsbD 5 || !old.multiRaised))) ∧
  (¬ takes → new.sources = old.sources ∧ new.multiRaised = old.multiRaised) ∧
  (∀ b w, d = .data b w → ¬ takes →
    new.fifo = old.fifo ∧ new.lastWord = old.lastWord ∧ new.words = old.words
    ∧ new.overruns = old.overruns ∧ new.flags = old.flags)

/-- What the report of an expected slot that carried no word makes of a Listen Stream (R146, R147). -/
def gapTable (count : Word) (old new : Stream) : Prop :=
  let gap := old.expect = true ∧ (old.state = .running ∨ old.state = .drained)
  let fill : Word := if old.cfg.gapPolicy = 2 then old.lastWord.getD 0 else 0
  let fills := old.cfg.gapPolicy = 1 ∨ old.cfg.gapPolicy = 2
  new.expect = false ∧ new.words = old.words ∧ new.lastWord = old.lastWord ∧
  (¬ gap → new.fills = old.fills ∧ new.fifo = old.fifo ∧ new.overruns = old.overruns) ∧
  (gap → countsOne old.fills new.fills) ∧
  (gap → ¬ fills → new.fifo = old.fifo ∧ new.overruns = old.overruns) ∧
  (gap → fills → old.fifo.length < 16 →
    new.fifo = old.fifo ++ [⟨fill, false, 0, count.setWidth 16⟩] ∧ new.overruns = old.overruns) ∧
  (gap → fills → 16 ≤ old.fifo.length →
    new.fifo = old.fifo ∧ countsOne old.overruns new.overruns ∧ new.flags.getLsbD 2 = true) ∧
  (gap → (∀ e, old.fifo.head? = some e → e.boundary = false) →
    (old.walker.caughtUp = false → countsOne old.walker.tally new.walker.tally) ∧
    (old.walker.caughtUp = true → new.walker.tally = old.walker.tally))

/-! ### Invariants -/

/-- The wanted counts of the Talk Streams that are not STOPPED come to at most 16 (R122). -/
abbrev CommitWithinLimit (s : State) : Prop :=
  (((List.finRange 8).filter fun k => s.streams[k].isTalk && s.streams[k].state != .stopped).map
    fun k => s.streams[k].cfg.wanted.toNat).sum ≤ 16

/-- FIFO places reserved: the words of a buffer read in flight that is not marked for discard (R107). -/
def Walker.reserved (w : Walker) : Nat :=
  match w.access with
  | some a => if a.kind = .read ∧ a.discard = false then a.count else 0
  | none => 0

/-- The FIFO's entries and the places reserved are at most 16 (R100, R107, R121), with what keeps them so:
a Listen Stream reads nothing and an OFF walker has nothing in flight (R103); a STOPPED stream's walker
is OFF, and so is that of a Talk Stream that is quiet, which stands only in STOPPED, STOPPING or FAULTED
(R120, R123); words are read ahead only by a Talk Stream that walks or is held, and a read in flight
during a stop is marked for discard (R113). -/
structure Stream.Bounded (st : Stream) : Prop where
  room : st.fifo.length + st.walker.reserved ≤ 16
  listenReads : st.isTalk = false → ∀ a, st.walker.access = some a → a.kind ≠ .read
  offIdle : st.walker.mode = .off → st.walker.access = none
  stoppedOff : st.state = .stopped → st.walker.mode = .off
  quietOff : st.isTalk = true → st.walkerQuiet = true → st.walker.mode = .off ∧
    (st.state = .stopped ∨ st.state = .stopping ∨ st.state = .faulted)
  aheadWalking : st.isTalk = false ∨ st.walker.mode = .off ∨ st.walker.mode = .stopping →
    st.walker.ahead = 0
  stopDiscards : st.walker.mode = .stopping → ∀ a, st.walker.access = some a → a.kind = .read →
    a.discard = true

/-- Every stream context is within its bounds. -/
abbrev FifosWithinLimit (s : State) : Prop := ∀ k : StreamNo, s.streams[k].Bounded

/-- The held count of every stream is the number of entries MINE for it (R23). -/
abbrev HeldCountsMatch (s : State) : Prop := ∀ k : StreamNo, s.streams[k].held = mineCount s.slotMap k

/-- The station holds at most 16 own entries (R22). -/
abbrev OwnWithinLimit (s : State) : Prop := ownTotal s.slotMap ≤ 16

/-- A HELD entry is owned by another station 1 to 31 and has a tag 1 to 255 (R21). -/
def HeldEntriesForeign (s : State) : Prop :=
  ∀ (i : SlotNo) (x : StationNo) (t : Tag) (n : Fin 8),
    s.slotMap[i] = .held x t n → x ≠ 0 ∧ x ≠ s.straps.stn ∧ t ≠ 0

/-- The own roster entry is PRESENT in MEMBER and LEAVING and ABSENT in every other state, and there is
no entry 0 (R82). -/
abbrev OwnEntryFollows (s : State) : Prop :=
  s.rsu.roster[0] = .absent ∧
    (s.straps.stn ≠ 0 → s.rsu.entry s.straps.stn =
      if s.rsu.membership = .member ∨ s.rsu.membership = .leaving then .present else .absent)

/-- The queue holds at most 8 entries, one for a slot and one JOIN or LEAVE in all (R45, R46). -/
abbrev QueueSound (s : State) : Prop :=
  s.ccq.entries.length ≤ 8 ∧ (s.ccq.entries.map fun e => e.cell.slot?).Nodup

/-- The fetch index is the current index or the one after it (R100). -/
abbrev FetchNearCurrent (s : State) : Prop :=
  ∀ k : StreamNo, s.streams[k].walker.fetch = s.streams[k].walker.cur ∨
    s.streams[k].walker.fetch = s.streams[k].walker.cur + 1

/-- A station strapped with number 0 is DORMANT, holds no own entry, queues nothing and drives
nothing (R97, R171). -/
abbrev ListenOnlySilent (s : State) : Prop :=
  s.straps.stn = 0 →
    s.rsu.membership = .dormant ∧ (∀ i : SlotNo, s.slotMap[i].isOwn = false)
      ∧ s.ccq.entries = [] ∧ s.lnu.tx = none ∧ s.lnu.driving = false

/-- A queue entry that is not withdrawn names an entry of the map that is CLAIMING or RELEASING with its
queued mark Set, and every queued mark has such a queue entry (R28). -/
def MapQueueAgree (s : State) : Prop :=
  (∀ e ∈ s.ccq.entries, e.withdrawn = none →
    match e.cell with
    | .claim i t k => s.slotMap[i] = .claiming t k true
    | .release i k => ∃ t, s.slotMap[i] = .releasing t k true
    | .join | .leave => True) ∧
  (∀ i : SlotNo, s.slotMap[i].isQueued = true →
    ∃ e ∈ s.ccq.entries, e.withdrawn = none ∧ e.cell.slot? = some i) ∧
  (∀ e ∈ s.ccq.entries.tail, e.withdrawn = none) ∧
  (s.ccq.onLine = false → ∀ e ∈ s.ccq.entries, e.withdrawn = none)

end Sys2Proof.Machine
end

