-- ==== Sys2Proof/Certificates/Slice0/Obligations.lean ====
section
/-! DEFINITION. The statements about the part, for the provers. -/

open Sys2Proof Sys2Proof.Machine

/-! ### The queue and hardware reset -/

/-- A step is the front command on the state with the queue's rest; on an empty queue the part idles
(the model's choice, log 2). -/
def Obligations.StepTakesFrontCommand : Prop :=
  (∀ (c : Instr) (cs : List Instr) (s : State), s.pending = c :: cs →
    step s = exec c { s with pending := cs }) ∧
  ∀ s : State, s.pending = [] → step s = .next s

/-- Every command answers a next state, whatever its operands and the state, and leaves the queue of
waiting commands alone; every command but RESET_RELEASE leaves the sampled straps as they are (R171).
That the queue stays, through HARDWARE_RESET too (log 17), and that a command out of place is taken and
changes nothing (logs 11, 26) are the model's choices. -/
def Obligations.EveryCommandAnswersNext : Prop :=
  ∀ (c : Instr) (s : State), ∃ t, exec c s = .next t ∧ t.pending = s.pending ∧
    ((∀ x, c ≠ .resetRelease x) → t.straps = s.straps)

/-- The reset tables (R20, R44, R62, R81, R97, R118, R138, R155, R164, R173), for any straps.
RING BASE is 0 by R173, where R118 says that it is not changed: the model's choice (log 37).
The sync-loss reference is 0 because instants count from the end of reset (log 3). The fields
`windowOpen`, `candidates`, `driving`, `passedOver`, `ahead`, `stopCaughtUp` and `abortBuilt` are the
model's form (logs 8, 20, 32, 33). -/
def Obligations.ResetValuesFollowTables : Prop :=
  ∀ x : Straps, let s := State.afterReset x
    s.straps = x ∧ s.resetAsserted = false ∧
    (s.lnu.sync = .unsynced ∧ s.lnu.windowOpen = false ∧ s.lnu.anchor = none ∧ s.lnu.expected = none ∧ s.lnu.syncRef = 0
      ∧ s.lnu.tx = none ∧ s.lnu.candidates = [] ∧ s.lnu.driving = false) ∧
    (s.mku.count = 0 ∧ s.mku.adopted = false ∧ s.mku.lastRound = 0 ∧ s.mku.holder = none
      ∧ s.mku.plan = .none ∧ s.mku.carrierSeen = false ∧ s.mku.recoveryWait = none
      ∧ s.mku.coldWait = none ∧ s.mku.ownMark = .none) ∧
    (s.rsu.membership = (if x.stn ≠ 0 ∧ x.autojoin = true then .listening else .dormant)
      ∧ (∀ n : StationNo, s.rsu.entry n = .absent) ∧ s.rsu.learnCount = 0 ∧ s.rsu.attempt = 0
      ∧ s.rsu.joinTimer = none ∧ s.rsu.intent = .none ∧ s.rsu.queued = false) ∧
    (∀ i : SlotNo, s.slotMap[i] = .free) ∧
    (s.ccq.entries = [] ∧ s.ccq.passedOver = [] ∧ s.ccq.turnOpen = false ∧ s.ccq.onLine = false) ∧
    (∀ k : StreamNo, let st := s.streams[k]
      st.state = .stopped ∧ st.cause = .none ∧ st.fifo = [] ∧ st.wordOnLine = false
        ∧ st.priming = false ∧ st.drainStart = 0 ∧ st.walkerQuiet = true ∧ st.entriesGone = false
        ∧ st.lastWord = none ∧ st.expect = false ∧ st.sources = [] ∧ st.multiRaised = false
        ∧ st.words = 0 ∧ st.fills = 0 ∧ st.overruns = 0 ∧ st.held = 0 ∧ st.pauseTimer = 0
        ∧ st.short = false ∧ st.flags = 0 ∧ st.enables = 0 ∧ st.cfg.readConfig = 0
        ∧ st.cfg.mask = 0 ∧ st.cfg.ringBase = 0 ∧ st.walker.mode = .off ∧ st.walker.cur = 0
        ∧ st.walker.fetch = 0 ∧ st.walker.ready = 0 ∧ st.walker.caughtUp = false
        ∧ st.walker.remaining = 0 ∧ st.walker.inHand = none ∧ st.walker.prefetched = none
        ∧ st.walker.done = 0 ∧ st.walker.moved = 0 ∧ st.walker.ahead = 0
        ∧ st.walker.stopCaughtUp = false ∧ st.walker.abortBuilt = false
        ∧ st.walker.firstStamp = none ∧ st.walker.tally = 0 ∧ st.walker.records = []
        ∧ st.walker.access = none) ∧
    s.nextGrant = 0 ∧ s.stationFlags = 0 ∧ s.stationEnables = 0 ∧ s.summary = 0
      ∧ s.lintAsserted = false ∧ s.counters = ⟨0, 0, 0, 0, 0, 0⟩ ∧ s.command = 0 ∧ s.result = .ok

/-- HARDWARE_RESET cuts the cell on the line, abandons the access in flight, releases LINT# and puts every
block at its reset values; RESET_RELEASE samples the straps and starts from those values; and while
RESET# is asserted no delivery, reply or expiry changes any block, and an access to the window ends with
an error response (R20, R118, R165, R171, R172): TARGET_ACCESS_DURING_RESET, and any other access, which
the model takes in the same way (logs 10, 18, 26).
That the straps and the queue stay through the reset, and that a release without a reset changes
nothing, is the model's choice (logs 17, 26). -/
def Obligations.HardwareResetAndRelease : Prop :=
  (∀ s : State,
    (∃ t, exec .hardwareReset s = .next t ∧ t.resetAsserted = true ∧ t.lintAsserted = false
      ∧ t.lnu.driving = false ∧ t.lnu.tx = none
      ∧ (∀ k : StreamNo, t.streams[k].walker.access = none)
      ∧ (State.afterReset s.straps).changesOnly [.resetAsserted, .freeDraws, .pending] t) ∧
    ∀ x : Straps,
      (s.resetAsserted = true → ∃ t, exec (.resetRelease x) s = .next t ∧ t.straps = x
        ∧ t.resetAsserted = false
        ∧ (State.afterReset x).changesOnly [.targetResponse, .freeDraws, .pending] t) ∧
      (s.resetAsserted = false → exec (.resetRelease x) s = .next s)) ∧
  (∀ (index : BitVec 8) (written : Option Word) (s : State), s.resetAsserted = true →
    exec (.targetAccessDuringReset index written) s = .next { s with targetResponse := .error }) ∧
  ∀ (c : Instr) (s : State), s.resetAsserted = true → c.isReset = false →
    exec c s = .next (if c.isTargetAccess then { s with targetResponse := .error } else s)

/-! ### Marks -/

/-- A carrier onset opens a candidate exactly where R9, R16 or R17 has it do so, Sets carrier seen in an
open window and ends a TAKEOVER plan there, cancels the recovery wait and restarts the cold-start wait;
while the part transmits none is reported (R9, R15, R16, R17, R73, R76, R79).
Instants and the list of open candidates are the model's form (logs 3, 20). -/
def Obligations.CarrierOnsetCancelsAndRestarts : Prop :=
  ∀ (onset : Instant) (s : State), s.resetAsserted = false →
    (s.lnu.tx ≠ none → exec (.carrierOnset onset) s = .next s) ∧
    (s.lnu.tx = none → ∃ t, exec (.carrierOnset onset) s = .next t
      ∧ (∃ opened : List OpenCandidate, opened.length ≤ 1
          ∧ (∀ c, c ∈ opened ↔ c.onset = onset ∧ s.opensCandidate onset c.position)
          ∧ t.lnu = { s.lnu with candidates := s.candidatesAt onset ++ opened })
      ∧ t.mku.recoveryWait = none
      ∧ t.mku.carrierSeen = (s.mku.carrierSeen || s.lnu.windowOpen)
      ∧ (s.mku.coldWait = none → t.mku.coldWait = none)
      ∧ (s.mku.coldWait ≠ none →
          t.mku.coldWait = some (onset + 80 + 2 * s.straps.stn.toNat * 96))
      ∧ (∀ r, s.mku.plan = .takeover r → s.lnu.windowOpen = true → t.mku.plan = .none)
      ∧ (s.lnu.windowOpen = false ∨ s.mku.plan = .duty → t.mku.plan = s.mku.plan)
      ∧ t.mku = { s.mku with
          carrierSeen := t.mku.carrierSeen, plan := t.mku.plan
          recoveryWait := t.mku.recoveryWait, coldWait := t.mku.coldWait }
      ∧ s.changesOnly [.lnu, .mku] t)

/-- At the opening of a mark window carrier seen is Cleared and the plan is DUTY, TAKEOVER with the own
rank, or none (R71). The rank is counted here as 1 and the stations not ABSENT that stand between the
holder and this station.
The field `windowOpen` is the model's (log 32). -/
def Obligations.WindowOpeningPlansByRank : Prop :=
  ∀ s : State, s.resetAsserted = false → s.lnu.sync = .synced → s.lnu.windowOpen = false →
    ∃ t, exec .markWindowOpen s = .next t
      ∧ t.lnu = { s.lnu with windowOpen := true }
      ∧ t.mku = { s.mku with plan := t.mku.plan, carrierSeen := false }
      ∧ s.changesOnly [.lnu, .mku] t
      ∧ (s.mku.holder = none ∨ ¬ s.onDuty → t.mku.plan = .none)
      ∧ (s.onDuty → s.mku.holder = some s.straps.stn → t.mku.plan = .duty)
      ∧ ∀ h : StationNo, s.onDuty → s.mku.holder = some h → h ≠ 0 → h ≠ s.straps.stn →
          s.straps.stn ≠ 0 → s.rsu.entry s.straps.stn = .present →
          let rank := 1 + ((List.range 32).filter fun n =>
            n ≠ 0 ∧ s.rsu.entry (BitVec.ofNat 5 n) ≠ .absent
              ∧ 0 < stationsOn h (BitVec.ofNat 5 n)
              ∧ stationsOn h (BitVec.ofNat 5 n) < stationsOn h s.straps.stn).length
          (rank ≤ 7 → t.mku.plan = .takeover (BitVec.ofNat 3 rank))
            ∧ (7 < rank → t.mku.plan = .none)

/-- A MARK request goes on a quiet line, outside any position or inside the mark window, with the content
of R65: a duty or takeover MARK of a station on duty ends the plan (the model's reading, log 13), a
recovery MARK ends its wait, and the cold MARK of an ISOLATED station names itself alone; takeover and
recovery MARKs are counted in TAKEOVER (R64, R65, R72, R73, R76, R79). -/
def Obligations.OwnMarksGoOut : Prop :=
  ∀ (s : State) (e : Instant), s.resetAsserted = false → ¬ s.markBlocked false →
    let sent (start : Instant) (f : MarkFields) : LineUnit := { s.lnu with
      tx := some ⟨if s.lnu.windowOpen then .markField else .outside, start,
        .mark s.straps.stn f, none⟩
      driving := true }
    let next := s.rsu.nextHolder s.straps.stn
    let bitmap := s.rsu.sentBitmap s.straps.stn
    (s.onDuty → s.lnu.expected = some e → s.mku.plan = .duty →
      ∃ t r, exec (.dutyMark false) s = .next t ∧ s.roundSent r
        ∧ t.lnu = sent e ⟨r, false, false, 0, next, bitmap⟩
        ∧ t.mku = { s.mku with plan := .none, ownMark := .normal }
        ∧ s.changesOnly [.lnu, .mku] t) ∧
    (∀ k, s.onDuty → s.lnu.expected = some e → s.mku.plan = .takeover k →
      s.mku.carrierSeen = false →
      ∃ t r, exec (.takeoverMark false) s = .next t ∧ s.roundSent r
        ∧ t.lnu = sent (e + k.toNat * 96) ⟨r, true, false, k, next, bitmap⟩
        ∧ t.mku = { s.mku with plan := .none, ownMark := .normal }
        ∧ countsOne s.counters.takeover t.counters.takeover
        ∧ t.counters = { s.counters with takeover := t.counters.takeover }
        ∧ s.changesOnly [.lnu, .mku, .counters] t) ∧
    (s.onDuty → s.mku.recoveryWait = some e →
      ∃ t r, exec (.recoveryWaitExpiry false) s = .next t ∧ s.roundSent r
        ∧ t.lnu = sent e ⟨r, true, false, 0, next, bitmap⟩
        ∧ t.mku = { s.mku with recoveryWait := none, ownMark := .normal }
        ∧ countsOne s.counters.takeover t.counters.takeover
        ∧ t.counters = { s.counters with takeover := t.counters.takeover }
        ∧ s.changesOnly [.lnu, .mku, .counters] t) ∧
    (s.rsu.membership = .isolated → s.straps.stn ≠ 0 → s.mku.coldWait = some e →
      ∃ t r, exec (.coldStartWaitExpiry false) s = .next t ∧ s.roundSent r
        ∧ t.lnu = sent e ⟨r, false, true, 0, s.straps.stn,
            BitVec.ofNat 32 (2 ^ s.straps.stn.toNat)⟩
        ∧ t.mku = { s.mku with coldWait := none, ownMark := .cold }
        ∧ s.changesOnly [.lnu, .mku] t)

/-- A MARK request that the membership state does not permit is dropped, and one that the Line Unit cannot
take is withheld: nothing is sent or counted, and only the plan or wait ends; the cold-start wait of an
ISOLATED station starts again (from the refused instant: the model's reading, log 14) (R8, R64, R72,
R73, R76, R79). -/
def Obligations.MarkRequestsWithheld : Prop :=
  ∀ (s : State) (carrier : Bool) (e : Instant), s.resetAsserted = false →
    (s.mku.plan = .duty → s.lnu.expected = some e → (s.markBlocked carrier ∨ ¬ s.onDuty) →
      exec (.dutyMark carrier) s = .next { s with mku := { s.mku with plan := .none } }) ∧
    (∀ k, s.mku.plan = .takeover k → s.lnu.expected = some e →
      (s.markBlocked carrier ∨ ¬ s.onDuty ∨ s.mku.carrierSeen = true) →
      exec (.takeoverMark carrier) s = .next { s with mku := { s.mku with plan := .none } }) ∧
    (s.mku.recoveryWait = some e → (s.markBlocked carrier ∨ ¬ s.onDuty) →
      exec (.recoveryWaitExpiry carrier) s =
        .next { s with mku := { s.mku with recoveryWait := none } }) ∧
    (s.mku.coldWait = some e → s.rsu.membership ≠ .isolated →
      exec (.coldStartWaitExpiry carrier) s =
        .next { s with mku := { s.mku with coldWait := none } }) ∧
    (s.mku.coldWait = some e → s.rsu.membership = .isolated → s.markBlocked carrier →
      exec (.coldStartWaitExpiry carrier) s = .next { s with
        mku := { s.mku with coldWait := some (e + 80 + 2 * s.straps.stn.toNat * 96) } })

/-- The bitmap of an own MARK is the PRESENT stations and the own bit, and its next holder is the first
other station PRESENT, going up from this one and round, or this one when there is none (R65, R66). -/
def Obligations.OwnMarkNamesPresentStations : Prop :=
  ∀ (u : RosterUnit) (stn : StationNo), stn ≠ 0 →
    (∀ n : StationNo, (u.sentBitmap stn).getLsbD n.toNat = true ↔
      n ≠ 0 ∧ (u.entry n = .present ∨ n = stn)) ∧
    ((∀ n : StationNo, n ≠ 0 → n ≠ stn → u.entry n ≠ .present) → u.nextHolder stn = stn) ∧
    (∀ n : StationNo, n ≠ 0 → n ≠ stn → u.entry n = .present →
      (∀ m : StationNo, m ≠ 0 → 0 < stationsOn stn m → stationsOn stn m < stationsOn stn n →
        u.entry m ≠ .present) → u.nextHolder stn = n)

/-- Another station's clean MARK, with round number r, that begins inside the open mark window or is heard
while UNSYNCED anchors a Round at its onset. It ends every plan and wait, names the next holder and
empties the round sources of every Listen Stream; it moves the count to the smallest greater value whose
low 8 bits are r, or to FFFFFFFFh where there is none, and raises ROUND_SLIP when an adopted count that
had not stopped moved by other than 1; all this in whatever order the other blocks take it (log 6) (R3,
R16, R17, R19, R67, R68, R144). That a MARK which may not anchor, whose position is garbled by R11 and
R13, changes nothing as this command is the model's choice (log 11). -/
def Obligations.CleanMarkAnchorsRound : Prop :=
  ∀ (onset : Instant) (x : StationNo) (f : MarkFields) (o : Fin 24) (s : State),
    s.resetAsserted = false → x ≠ 0 → x ≠ s.straps.stn → f.next ≠ 0 →
    (¬ s.canAnchor onset → exec (.cleanMark (.other onset x f) o) s = .next s) ∧
    (s.canAnchor onset → ∃ t, exec (.cleanMark (.other onset x f) o) s = .next t
      ∧ t.lnu = { s.lnu with
          sync := .synced, windowOpen := false, anchor := some onset
          expected := some (onset + 51 * 96), syncRef := onset + 51 * 96, candidates := [] }
      ∧ t.mku = { s.mku with
          count := t.mku.count, adopted := true, lastRound := f.round, holder := some f.next
          plan := .none, carrierSeen := false, recoveryWait := none, coldWait := none }
      ∧ roundCounted f.round s.mku.count t.mku.count
      ∧ (t.stationFlags.getLsbD 6 = true ↔
          s.stationFlags.getLsbD 6 = true ∨ roundSlipped s.mku t.mku.count)
      ∧ (∀ k : StreamNo, s.streams[k].isTalk = false →
          t.streams[k].sources = [] ∧ t.streams[k].multiRaised = false)
      ∧ s.changesOnly [.lnu, .mku, .rsu, .slotMap, .ccq, .streams, .stationFlags] t)

/-- The own MARK heard back clean ends its transmit record and, where it began inside the open mark window
or the part is UNSYNCED, anchors a Round at its start; otherwise nothing else changes. It moves the round
count as any MARK does, raising ROUND_SLIP where it slips, and ends plan, waits and carrier seen. It
refreshes no entry and adopts no bitmap, gives only the miss, and makes an ISOLATED station MEMBER with
JOINED; in LISTENING it counts as a clean Mark (R12, R16, R17, R67, R68, R70, R80, R85, R88, R95). The
order operand (log 6), and what the own MARK does in LISTENING, JOINING and LEAVING (log 31), are the
model's. -/
def Obligations.OwnMarkAnchorsRound : Prop :=
  ∀ (p : Position) (start : Instant) (x : StationNo) (f : MarkFields) (k : Option StreamNo)
    (o : Fin 24) (s : State), s.resetAsserted = false →
    s.lnu.tx = some ⟨p, start, .mark x f, k⟩ →
    (¬ s.canAnchor start → ∃ t, exec (.cleanMark .own o) s = .next t
      ∧ t.lnu = { s.lnu with tx := none, driving := false, candidates := s.candidatesBut p }
      ∧ t.mku = { s.mku with ownMark := .none } ∧ s.changesOnly [.lnu, .mku] t) ∧
    (s.canAnchor start → ∃ t, exec (.cleanMark .own o) s = .next t
      ∧ t.lnu = { s.lnu with
          sync := .synced, windowOpen := false, anchor := some start
          expected := some (start + 51 * 96), syncRef := start + 51 * 96, candidates := []
          tx := none, driving := false }
      ∧ t.mku = { s.mku with
          count := t.mku.count, adopted := true, lastRound := f.round, holder := some f.next
          plan := .none, carrierSeen := false, recoveryWait := none, coldWait := none
          ownMark := .none }
      ∧ roundCounted f.round s.mku.count t.mku.count
      ∧ (t.stationFlags.getLsbD 6 = true ↔
          s.stationFlags.getLsbD 6 = true ∨ roundSlipped s.mku t.mku.count)
      ∧ (∀ n : StationNo, n ≠ 0 → n ≠ s.straps.stn →
          t.rsu.entry n =
            if s.mku.holder = some n then missTable (s.rsu.entry n) else s.rsu.entry n)
      ∧ (s.rsu.membership = .isolated →
          t.rsu.membership = .member ∧ t.stationFlags.getLsbD 0 = true)
      ∧ (s.rsu.membership = .listening → sameCounts (countsTable s.rsu true) t.rsu
          ∧ t.rsu.membership = (if s.rsu.learnCount = 0 then .listening else .joining))
      ∧ (s.rsu.membership ≠ .listening → sameCounts s.rsu t.rsu)
      ∧ (s.onDuty ∨ s.rsu.membership = .dormant ∨ s.rsu.membership = .joining →
          t.rsu.membership = s.rsu.membership)
      ∧ s.changesOnly [.lnu, .mku, .rsu, .slotMap, .ccq, .streams, .stationFlags] t)

/-- What another station's MARK that anchors leaves of the Roster Unit. The entry of every station but this
one takes the sender's refresh and the bitmap, and for the missed holder also the miss, in the order in
which the Roster Unit takes the two, which is the model's order operand (log 6); the membership state and
its events, the learn count, the join timer, the attempt and the control intent follow the own bit, and
the JOIN in the queue is withdrawn when the station is admitted (R70, R83, R84, R85, R86, R88, R89, R90,
R91, R93, R95).
That the intent of a JOIN that was never queued becomes none with the admission is the model's choice
(log 35), and that the learn count stays at 2 is its reading (log 31). -/
def Obligations.RosterUnitFollowsMark : Prop :=
  ∀ (onset : Instant) (x : StationNo) (f : MarkFields) (o : Fin 24) (s : State),
    s.resetAsserted = false → x ≠ 0 → x ≠ s.straps.stn → f.next ≠ 0 → s.canAnchor onset →
    ∃ t, exec (.cleanMark (.other onset x f) o) s = .next t ∧
      let ownBit := f.bitmap.getLsbD s.straps.stn.toNat
      (∀ n : StationNo, n ≠ 0 → n ≠ s.straps.stn →
        let mark := bitmapTable (n = x) (f.bitmap.getLsbD n.toNat)
        let missed := s.mku.holder = some n ∧ (f.takeover = true ∨ x ≠ n)
        (¬ missed → t.rsu.entry n = mark (s.rsu.entry n)) ∧
        (missed → t.rsu.entry n =
          if (markOrder o).idxOf .miss < (markOrder o).idxOf .roster
          then mark (missTable (s.rsu.entry n)) else missTable (mark (s.rsu.entry n))))
      ∧ t.rsu.membership = membershipTable s.rsu ownBit
      ∧ sameCounts (countsTable s.rsu ownBit) t.rsu
      ∧ (s.rsu.membership = .joining → ownBit = true → t.rsu.queued = false
          ∧ (s.rsu.queued = true → s.ccq.onLine = false → QueueSound s →
              ∀ e ∈ t.ccq.entries, e.cell.slot? ≠ none))
      ∧ (t.stationFlags.getLsbD 0 = true ↔ s.stationFlags.getLsbD 0 = true ∨
          (ownBit = true ∧ (s.rsu.membership = .joining ∨ s.rsu.membership = .isolated)))
      ∧ (t.stationFlags.getLsbD 1 = true ↔ s.stationFlags.getLsbD 1 = true ∨
          (ownBit = false ∧ s.rsu.membership = .member))
      ∧ (t.stationFlags.getLsbD 2 = true ↔ s.stationFlags.getLsbD 2 = true ∨
          (s.rsu.membership = .joining ∧ t.rsu.membership = .dormant))
      ∧ (∀ b, 2 < b → b ≠ 6 → t.stationFlags.getLsbD b = s.stationFlags.getLsbD b)

/-- Auto-claim for stream k makes the lowest FREE entry CLAIMING for it, or Sets SHORT when none is FREE,
exactly when the five conditions hold (R34, R35). -/
def Obligations.AutoClaimTakesLowestFree : Prop :=
  ∀ (k : StreamNo) (s : State),
    let st := s.streams[k]
    let may := st.isTalk = true
      ∧ (st.state = .acquiring ∨ st.state = .running ∨ st.state = .drained ∨ st.state = .paused)
      ∧ s.rsu.membership = .member
      ∧ st.held + countEntries (·.isClaimingFor k) s.slotMap < st.cfg.wanted.toNat
      ∧ st.pauseTimer = 0 ∧ ownTotal s.slotMap < 16
    (¬ may → s.autoClaim k = s) ∧
    (may → ∀ i : SlotNo, s.slotMap[i] = .free → (∀ j : SlotNo, j < i → s.slotMap[j] ≠ .free) →
      (s.autoClaim k).slotMap[i] = .claiming st.cfg.tag k false
        ∧ s.otherEntriesSame i (s.autoClaim k) ∧ s.changesOnly [.slotMap] (s.autoClaim k)) ∧
    (may → (∀ i : SlotNo, s.slotMap[i] ≠ .free) →
      (s.autoClaim k).streams[k] = { st with
          short := true
          flags := if st.short then st.flags else st.flags ||| 0x08#8 }
        ∧ s.otherStreamsSame k (s.autoClaim k) ∧ s.changesOnly [.streams] (s.autoClaim k))

/-- At a clean MARK that anchors, this station's own or another's, the Slot Agent counts every backoff and
pause timer down, then lets streams 0 to 7 claim in this order, each the lowest FREE entry where its five
conditions hold, with SHORT Set where no entry is FREE, and then offers its unqueued entries in slot
order up to the first refusal (R33, R34, R35, R36). The queue opens its turn, or counts the wait of its
head down and closes it (R49).
Which membership state a claim meets, and which queue an offer, follows the model's order operand
(log 6); that the held counts are those of the map is an invariant (StepKeepsSlotMapSound). -/
def Obligations.CleanMarkDrivesSlotAgentAndQueue : Prop :=
  ∀ (heard : MarkHeard) (o : Fin 24) (s : State), s.resetAsserted = false → s.hearsAnchor heard →
    HeldCountsMatch s →
    ∃ (t : State) (m : Nat → Vector SlotEntry 48) (n : Nat),
      let agentFirst := (markOrder o).idxOf .slotAgent < (markOrder o).idxOf .roster
      let member := (if agentFirst then s.rsu.membership else t.rsu.membership) = .member
      let unqueued := (List.finRange 48).filter fun i : SlotNo => (unqueuedTable i (m 8)[i]).isSome
      exec (.cleanMark heard o) s = .next t
      ∧ (∀ k : StreamNo, t.streams[k].pauseTimer = s.streams[k].pauseTimer - 1)
      -- backoff, then the claims: `m k` is the map before the claim of stream `k`
      ∧ (∀ i : SlotNo, (m 0)[i] = backoffTable s.slotMap[i])
      ∧ (∀ k : StreamNo,
          let st := s.streams[k]
          let may := st.isTalk = true
            ∧ (st.state = .acquiring ∨ st.state = .running ∨ st.state = .drained ∨ st.state = .paused)
            ∧ member ∧ st.pauseTimer ≤ 1
            ∧ st.held + countEntries (·.isClaimingFor k) (m k.val) < st.cfg.wanted.toNat
            ∧ ownTotal (m k.val) < 16
          let full := ∀ i : SlotNo, (m k.val)[i] ≠ .free
          (may → ∀ i : SlotNo, (m k.val)[i] = .free → (∀ j : SlotNo, j < i → (m k.val)[j] ≠ .free) →
            m (k.val + 1) = (m k.val).set i (.claiming st.cfg.tag k false)) ∧
          (¬ may ∨ full → m (k.val + 1) = m k.val) ∧
          (t.streams[k].short = true ↔ st.short = true ∨ (may ∧ full)))
      -- deferred queuing: the first `n` of the unqueued entries are offered and taken
      ∧ n ≤ unqueued.length
      ∧ (∀ i : SlotNo, t.slotMap[i] =
          if i ∈ unqueued.take n then queuedTable (m 8)[i] else (m 8)[i])
      ∧ ((unqueued.take n).filterMap fun i : SlotNo => unqueuedTable i (m 8)[i]).Sublist
          (t.ccq.entries.map QueueEntry.cell)
      ∧ (∀ i : SlotNo, unqueued[n]? = some i →
          let q := if agentFirst then s.ccq.entries else t.ccq.entries
          8 ≤ (if agentFirst then q.length + n else q.length) ∨ ∃ e ∈ q, e.cell.slot? = some i)
      -- the queue: its turn and its head's wait
      ∧ (s.ccq.entries = [] → t.ccq.turnOpen = true)
      ∧ (∀ e es, s.ccq.entries = e :: es → e.cell.slot? ≠ none ∨ s.rsu.membership ≠ .joining →
          t.ccq.entries.head? = some { e with wait := e.wait - 1 }
          ∧ (t.ccq.turnOpen = true ↔ e.wait = 0)
          ∧ ∀ x ∈ es, x.cell.slot? ≠ none → x ∈ t.ccq.entries)
      ∧ t.ccq.onLine = s.ccq.onLine

/-- A garbled candidate that began inside the mark window starts the recovery wait at its end and ends the
plan, also when the window closed while it was examined; any other is dropped. An own MARK whose echo
mismatches raises MARK_LOST and restarts the recovery wait, or for a cold MARK the cold-start wait, at
the end of its cell (R16, R17, R18, R74, R75, R79).
Instants and the fields `candidates` and `driving` are the model's form (logs 3, 20). -/
def Obligations.GarbledMarksStartWaits : Prop :=
  ∀ s : State, s.resetAsserted = false →
    (∀ onset : Instant, ∃ t, exec (.garbledMarkField (onset + 80)) s = .next t
      ∧ t.lnu = { s.lnu with candidates := s.candidatesAt (onset + 80) }
      ∧ (s.deliversGarble onset → t.mku = { s.mku with
          recoveryWait := some (onset + 80 + 2 * s.straps.stn.toNat * 96), plan := .none })
      ∧ (¬ s.deliversGarble onset → t.mku = s.mku)
      ∧ s.changesOnly [.lnu, .mku] t) ∧
    (∀ (p : Position) (start : Instant) (x : StationNo) (f : MarkFields) (k : Option StreamNo),
      s.lnu.tx = some ⟨p, start, .mark x f, k⟩ →
      ∃ t, exec .markEchoMismatch s = .next t
        ∧ t.lnu = { s.lnu with tx := none, driving := false, candidates := s.candidatesBut p }
        ∧ t.stationFlags = s.stationFlags ||| 0x80#9
        ∧ (s.mku.ownMark = .normal → t.mku = { s.mku with
            ownMark := .none
            recoveryWait := some (start + 80 + 2 * s.straps.stn.toNat * 96) })
        ∧ (s.mku.ownMark = .cold → t.mku = { s.mku with
            ownMark := .none
            coldWait := some (start + 80 + 2 * s.straps.stn.toNat * 96) })
        ∧ s.changesOnly [.lnu, .mku, .stationFlags] t)

/-- A mark window that closes without a clean MARK makes the Line Unit UNSYNCED, with its expected instant
kept, and ends the plan. Sync loss moves its reference on by 153 ST and starts the cold-start wait
there; it isolates a LISTENING, JOINING or MEMBER station and makes a LEAVING one DORMANT, forgetting the
roster, wiping the map with its reports to the streams, and purging the queue (R18, R19, R40, R42, R57,
R77, R78, R94, R127, R133).
That SYNC_LOSS acts only while UNSYNCED is the model's reading (log 25). -/
def Obligations.MarklessRoundAndSyncLoss : Prop :=
  ∀ s : State, s.resetAsserted = false →
    (s.lnu.windowOpen = true → ∃ t, exec .marklessRound s = .next t
      ∧ t.lnu = { s.lnu with sync := .unsynced, windowOpen := false }
      ∧ t.mku = { s.mku with plan := .none, carrierSeen := false }
      ∧ s.changesOnly [.lnu, .mku] t) ∧
    (s.lnu.sync = .unsynced → ∃ t, exec .syncLoss s = .next t
      ∧ t.lnu = { s.lnu with syncRef := s.lnu.syncRef + 153 * 96 }
      ∧ t.mku = { s.mku with
          holder := none, plan := .none, recoveryWait := none
          coldWait := some (s.lnu.syncRef + 153 * 96 + 2 * s.straps.stn.toNat * 96) }
      ∧ (s.rsu.membership = .dormant ∨ s.rsu.membership = .isolated →
          s.changesOnly [.lnu, .mku] t)
      ∧ (s.rsu.membership ≠ .dormant → s.rsu.membership ≠ .isolated →
          t.rsu.membership = (if s.rsu.membership = .leaving then .dormant else .isolated)
          ∧ t.stationFlags = s.stationFlags |||
              (if s.rsu.membership = .leaving then 0x08#9 else 0x10#9)
          ∧ (∀ n : StationNo, t.rsu.entry n = .absent)
          ∧ t.rsu.learnCount = 0 ∧ t.rsu.attempt = 0 ∧ t.rsu.joinTimer = none
          ∧ t.rsu.intent = .none
          ∧ (∀ i : SlotNo, t.slotMap[i] = .free)
          ∧ (∀ k : StreamNo, t.streams[k].held = 0 ∧
              t.streams[k] = s.streams[k].mapReported s.mku.count s.slotMap t.slotMap k)
          ∧ t.ccq.entries = [] ∧ t.ccq.turnOpen = false
          ∧ s.changesOnly [.lnu, .mku, .rsu, .slotMap, .ccq, .streams, .stationFlags] t))

/-- The expiries that a clean Mark brings: the second Mark counted in LISTENING offers a JOIN, the join
timer ends the attempt, a backoff frees its entry, and a pause timer and the head's wait reach 0
(R33, R49, R88, R89, R90).
That an expiry row acts when its count is at its last step is the model's reading (log 7), and `passedOver`
is its own field (log 8). -/
def Obligations.MarkExpiriesTakeEffect : Prop :=
  ∀ s : State, s.resetAsserted = false →
    (s.rsu.membership = .listening → s.rsu.learnCount = 1 →
      ∃ t, exec .learnCountDone s = .next t ∧ t.rsu.membership = .joining ∧ t.rsu.attempt = 1
        ∧ t.rsu.intent = .join
        ∧ (s.ccq.entries.length < 8 → (∀ e ∈ s.ccq.entries, e.cell.slot? ≠ none) →
            t.rsu.queued = true ∧ t.ccq.entries = s.ccq.entries ++ [⟨.join, 0, 0, none⟩])
        ∧ s.changesOnly [.rsu, .ccq] t) ∧
    (s.rsu.membership = .joining → s.rsu.joinTimer = some 1 →
      ∃ t, exec .joinTimerExpiry s = .next t ∧ t.rsu.joinTimer = none
        ∧ (s.rsu.attempt < 4 → t.rsu.membership = .joining ∧ t.rsu.attempt = s.rsu.attempt + 1
            ∧ t.rsu.intent = .join ∧ t.stationFlags = s.stationFlags)
        ∧ (4 ≤ s.rsu.attempt → t.rsu.membership = .dormant ∧ t.rsu.attempt = 0
            ∧ t.stationFlags = s.stationFlags ||| 0x04#9 ∧ t.ccq = s.ccq)
        ∧ s.changesOnly [.rsu, .ccq, .stationFlags] t) ∧
    (∀ (i : SlotNo) (g : Tag) (k : StreamNo) (b : BitVec 5),
      s.slotMap[i] = .collided g k b → b.toNat ≤ 1 →
      ∃ t, exec (.backoffExpiry i) s = .next t ∧ t.slotMap[i] = .free ∧ s.otherEntriesSame i t
        ∧ s.changesOnly [.slotMap, .streams] t) ∧
    (∀ k : StreamNo, s.streams[k].pauseTimer = 1 →
      ∃ t, exec (.pauseTimerExpiry k) s = .next t
        ∧ t.streams[k] = { s.streams[k] with pauseTimer := 0 } ∧ s.otherStreamsSame k t
        ∧ s.changesOnly [.streams] t) ∧
    (∀ (e : QueueEntry) (es : List QueueEntry), s.ccq.entries = e :: es → e.wait = 1 →
      exec .headWaitExpiry s = .next { s with
        ccq := { s.ccq with entries := { e with wait := 0 } :: es, passedOver := [], turnOpen := false } })

/-! ### Data Slots -/

/-- At the start of a Data Slot the part sends exactly one cell for a MINE or RELEASING entry, with the
entry's tag, and nothing for any other: KEEP for RELEASING, and for MINE what the engine answers. The
answer DATA Sets the word-on-the-line mark, FILL is an underrun counted in FILLS and in the tally of C,
and KEEP changes nothing; a DRAINED stream whose grace has run out sends KEEP and is STOPPING, or STOPPED,
with its slots released. Every Listen Stream sets its expectation from the map entry: Set exactly when
the entry is HELD with a tag that passes its filter (R2, R24, R39, R124, R125, R129, R133, R145). -/
def Obligations.DataSlotStartSendsAndExpects : Prop :=
  ∀ (i : SlotNo) (a : Instant) (s : State), s.resetAsserted = false → s.lnu.sync = .synced →
    s.lnu.windowOpen = false → s.lnu.anchor = some a →
    ∃ t, exec (.dataSlotStart i) s = .next t ∧
      let sent (g : Tag) (d : DataKind) (k : Option StreamNo) : LineUnit := { s.lnu with
        tx := some ⟨.dataSlot i, a + (1 + i.val) * 96, .inSlot s.straps.stn g d, k⟩
        driving := true }
      ((∀ g k, s.slotMap[i] ≠ .mine g k) → (∀ g k q, s.slotMap[i] ≠ .releasing g k q) →
        s.changesOnly [.streams] t) ∧
      (∀ g k q, s.slotMap[i] = .releasing g k q →
        t.lnu = sent g .keep none ∧ s.changesOnly [.lnu, .streams] t) ∧
      (∀ g k, s.slotMap[i] = .mine g k →
        t.lnu = sent g (slotKindTable s.streams[k]) (some k)
        ∧ (¬ s.graceOut k → s.changesOnly [.lnu, .streams] t)
        ∧ (¬ s.graceOut k → s.streams[k].isTalk = true →
            match slotKindTable s.streams[k] with
            | .data _ _ => t.streams[k] = { s.streams[k] with wordOnLine := true }
            | .keep => t.streams[k] = s.streams[k]
            | .fill => countsOne s.streams[k].fills t.streams[k].fills
                ∧ countsOne s.streams[k].walker.tally t.streams[k].walker.tally
                ∧ t.streams[k] = { s.streams[k] with
                    fills := t.streams[k].fills
                    flags := s.streams[k].flags ||| 0x04#8
                    walker := { s.streams[k].walker with
                      tally := t.streams[k].walker.tally } })
        ∧ (s.graceOut k → t.streams[k].cause = .drain
            ∧ s.streams[k].stopBegun k t.streams[k] t.slotMap
            ∧ t.streams[k].fifo = [] ∧ t.streams[k].priming = false
            ∧ s.releasedFor k t ∧ s.changesOnly [.lnu, .slotMap, .ccq, .streams] t)) ∧
      ∀ j : StreamNo, s.streams[j].isTalk = false →
        (t.streams[j].expect = true ↔
          ∃ x g n, s.slotMap[i] = .held x g n ∧ s.streams[j].cfg.passes g = true)
        ∧ ((∀ g k, s.slotMap[i] ≠ .mine g k) →
            t.streams[j] = { s.streams[j] with expect := t.streams[j].expect })

/-- A tag passes the filter of a Listen Stream by its mode; no clean cell of a Data Slot carries tag 0, and
START refuses an EXACT filter for tag 0 (R140). -/
def Obligations.FilterPassesByMode : Prop :=
  (∀ (content : BitVec 64) (x : StationNo) (d : DataKind),
    Cell.decode content ≠ some (.inSlot x 0 d)) ∧
  (∀ (k : StreamNo) (s : State), s.resetAsserted = false → s.streams[k].isTalk = false →
    s.streams[k].state = .stopped → s.streams[k].cfg.filterMode = 0 → s.streams[k].cfg.tag = 0 →
    ∃ t, exec (.start k) s = .next t ∧ t.result = .badConfig) ∧
  ∀ (c : StreamConfig) (t : Tag), t ≠ 0 →
    (c.filterMode = 0 → (c.passes t = true ↔ t = c.tag)) ∧
    (c.filterMode = 1 → (c.passes t = true ↔ ∀ b : Fin 8,
      (t.getLsbD b && c.mask.getLsbD b) = (c.tag.getLsbD b && c.mask.getLsbD b))) ∧
    (c.filterMode = 2 → c.passes t = true) ∧
    (c.filterMode = 1 → c.mask = 0xFF → (c.passes t = true ↔ t = c.tag)) ∧
    (c.filterMode = 1 → c.mask = 0 → c.passes t = true) ∧
    (c.filterMode = 1 → c.tag = 0x28 → c.mask = 0xF0 →
      (c.passes t = true ↔ 0x20 ≤ t.toNat ∧ t.toNat ≤ 0x2F)) ∧
    (c.filterMode = 0 → c.tag = 0 → c.passes t = false)

/-- The grace of a DRAINED Talk Stream that has run out makes the stream STOPPING with cause DRAIN, or
STOPPED where its walker is quiet and no own entry is left, and releases its slots; before that nothing
happens (R39, R40, R129, R133).
That the row acts only when due is the model's reading (log 7). -/
def Obligations.GraceExpiryStopsStream : Prop :=
  ∀ (k : StreamNo) (s : State), s.resetAsserted = false →
    (s.graceOut k → ∃ t, exec (.graceExpiry k) s = .next t
      ∧ t.streams[k].cause = .drain
      ∧ s.streams[k].stopBegun k t.streams[k] t.slotMap
      ∧ t.streams[k].fifo = [] ∧ t.streams[k].priming = false
      ∧ s.releasedFor k t
      ∧ s.changesOnly [.slotMap, .ccq, .streams] t) ∧
    (¬ s.graceOut k → exec (.graceExpiry k) s = .next s)

/-- An echo mismatch in a Data Slot is counted in COLLIDE and makes a MINE entry COLLIDED with backoff the
station number and a RELEASING entry FREE, withdrawing its queued RELEASE; the held count of the stream
of a MINE entry falls by 1; no other entry changes (R26). The streams take the reports of the change
(R35, R40, R127, R133) and the supplier of a DATA cell its echo result (R124), in the order of the
operand, which is the model's (log 6). -/
def Obligations.CollisionStandsBack : Prop :=
  ∀ (i : SlotNo) (st : Instant) (x : StationNo) (g : Tag) (d : DataKind) (k : Option StreamNo)
    (first : Bool) (s : State), s.resetAsserted = false →
    s.lnu.tx = some ⟨.dataSlot i, st, .inSlot x g d, k⟩ →
    ∃ t, exec (.dataSlotEcho false first) s = .next t
      ∧ t.lnu = { s.lnu with tx := none, driving := false, candidates := s.candidatesBut (.dataSlot i) }
      ∧ countsOne s.counters.collide t.counters.collide
      ∧ t.counters = { s.counters with collide := t.counters.collide }
      ∧ (t.slotMap[i] = match s.slotMap[i] with
          | .mine g' j => .collided g' j s.straps.stn
          | .releasing _ _ _ => .free
          | e => e)
      ∧ s.otherEntriesSame i t
      ∧ (∀ g' j, s.slotMap[i] = .mine g' j →
          t.streams[j].held = mineCount t.slotMap j
          ∧ mineCount t.slotMap j + 1 = mineCount s.slotMap j)
      ∧ (∀ g' j, s.slotMap[i] = .releasing g' j true → t.ccq = s.ccq.withdraw (some i) .gone)
      ∧ ((∀ g' j, s.slotMap[i] ≠ .releasing g' j true) → t.ccq = s.ccq)
      ∧ (∀ j : StreamNo,
          let report (st : Stream) : Stream :=
            match s.slotMap[i] with
            | .mine _ _ | .releasing _ _ _ => st.mapReported s.mku.count s.slotMap t.slotMap j
            | _ => st
          let echo := Stream.echoTable s.mku.count d k j
          t.streams[j] = if first then echo (report s.streams[j]) else report (echo s.streams[j]))
      ∧ s.changesOnly [.lnu, .slotMap, .ccq, .streams, .counters] t

/-- At the echo result of a DATA cell, match or mismatch, the head departs: WORDS counts it, the first one
of a buffer leaves its stamp, and the one that brings remaining to 0 completes the descriptor at C with
a DONE record (R108, R124). On a match of any own cell of a Data Slot the map, the queue and the counters
stay (R25), and every Talk Stream is as it was but the supplier of a DATA cell, whose head departs while
its mark stands; its completion at the end of the ring makes it DRAINED and removes what was read of
C + 1, and an empty descriptor that becomes current completes at once (R102, R106, R124, R128).
The order operand is the model's (log 6). -/
def Obligations.DataWordDeparts : Prop :=
  (∀ (i : SlotNo) (st : Instant) (x : StationNo) (g : Tag) (b : Bool) (w : Word) (k : StreamNo)
    (matched first : Bool) (s : State), s.resetAsserted = false →
    s.lnu.tx = some ⟨.dataSlot i, st, .inSlot x g (.data b w), some k⟩ →
    s.streams[k].isTalk = true → s.streams[k].wordOnLine = true →
    ∃ t, exec (.dataSlotEcho matched first) s = .next t ∧
      let before := s.streams[k].walker
      let after := t.streams[k].walker
      let stamp : Stamp := before.firstStamp.getD (s.mku.count.setWidth 16)
      t.streams[k].words.toNat = min (2 ^ 32 - 1) (s.streams[k].words.toNat + 1)
      ∧ t.streams[k].wordOnLine = false
      ∧ (2 ≤ before.remaining → t.streams[k].fifo = s.streams[k].fifo.tail
          ∧ after = { before with
              firstStamp := some stamp, done := before.done + 1
              remaining := before.remaining - 1 })
      ∧ (before.remaining = 1 → (∀ d, before.prefetched = some d → d.length ≠ 0) →
          after.cur = before.cur + 1 ∧ after.fetch = before.cur + 1
          ∧ (after.caughtUp = true ↔ before.cur = before.ready ∨ before.caughtUp = true)
          ∧ after.records = before.records ++ [⟨before.cur, .done,
              BitVec.ofNat 16 (before.done + 1), stamp, before.tally,
              (before.inHand.map Descriptor.notify).getD false, before.cur == before.ready⟩])) ∧
  ∀ (i : SlotNo) (st : Instant) (x : StationNo) (g : Tag) (d : DataKind) (k : Option StreamNo)
    (first : Bool) (s : State), s.resetAsserted = false →
    s.lnu.tx = some ⟨.dataSlot i, st, .inSlot x g d, k⟩ →
    ∃ t, exec (.dataSlotEcho true first) s = .next t
      ∧ t.lnu = { s.lnu with tx := none, driving := false, candidates := s.candidatesBut (.dataSlot i) }
      ∧ (∀ j : StreamNo, s.streams[j].isTalk = true →
          t.streams[j] = s.streams[j].echoTable s.mku.count d k j)
      ∧ s.changesOnly [.lnu, .streams] t

/-- A clean DATA, FILL or KEEP from another station makes the entry HELD for it with silence 0, counts a
change of a HELD entry's owner or tag in CORRECT, withdraws a queued CLAIM with TAKEN, and makes the
sender PRESENT (R27, R28, R83).
What a clean cell does to a MINE or RELEASING entry is left out here (log 12). -/
def Obligations.CleanDataCellTeachesMap : Prop :=
  ∀ (i : SlotNo) (x : StationNo) (g : Tag) (d : DataKind) (s : State), s.resetAsserted = false →
    s.lnu.sync = .synced → x ≠ 0 → g ≠ 0 → x ≠ s.straps.stn →
    (∀ g' k, s.slotMap[i] ≠ .mine g' k) → (∀ g' k q, s.slotMap[i] ≠ .releasing g' k q) →
    ∃ t, exec (.cleanDataCell i x g d) s = .next t
      ∧ t.slotMap[i] = .held x g 0 ∧ s.otherEntriesSame i t
      ∧ ((∃ y u n, s.slotMap[i] = .held y u n ∧ (y ≠ x ∨ u ≠ g)) →
          countsOne s.counters.correct t.counters.correct
          ∧ t.counters = { s.counters with correct := t.counters.correct })
      ∧ ((∀ y u n, s.slotMap[i] = .held y u n → y = x ∧ u = g) → t.counters = s.counters)
      ∧ t.ccq = (if s.slotMap[i].isQueued then s.ccq.withdraw (some i) .taken else s.ccq)
      ∧ t.rsu.entry x = .present ∧ (∀ n : StationNo, n ≠ x → t.rsu.entry n = s.rsu.entry n)
      ∧ t.rsu = { s.rsu with roster := t.rsu.roster }
      ∧ t.lnu = { s.lnu with candidates := s.candidatesBut (.dataSlot i) }
      ∧ s.changesOnly [.lnu, .rsu, .slotMap, .ccq, .streams, .counters] t

/-- A Listen Stream in RUNNING or DRAINED takes a passing DATA word of another station, and of this station
itself where LOOP is Set, with its stamp and, under ALIGN, its boundary mark; a word that finds 16
entries is lost and counted in OVERRUNS. The first sender of a passing tag in a Round is added to the
round sources, and a second one raises MULTI_SOURCE once. In every other state, or where the tag does not
pass, nothing is taken (R143, R144). A marked entry that stands at the head then cuts a buffer that holds
a word; the completion at the end of the ring makes a RUNNING stream DRAINED (R102, R106, R110, R148).
An own cell's order operand is the model's (log 6). -/
def Obligations.ListenStreamTakesPassingCells : Prop :=
  ∀ (i : SlotNo) (x : StationNo) (g : Tag) (d : DataKind) (k : StreamNo) (s : State),
    s.resetAsserted = false → s.streams[k].isTalk = false →
    let old := s.streams[k]
    let takes := (old.state = .running ∨ old.state = .drained) ∧ old.cfg.passes g = true
    let cutTable (new : Stream) : Prop :=
      let cut := ({ old with fifo := new.fifo } : Stream).completedTable s.mku.count .cut old.walker.done
      (old.cuts new.fifo → new.walker = cut.walker ∧ new.state = cut.state) ∧
      (¬ old.cuts new.fifo → new.walker = old.walker ∧ new.state = old.state)
    (s.lnu.sync = .synced → x ≠ 0 → g ≠ 0 → x ≠ s.straps.stn →
      ∃ t, exec (.cleanDataCell i x g d) s = .next t
        ∧ hearTable s.mku.count g x d takes old t.streams[k]
        ∧ (d ≠ .fill ∨ old.expect = false → cutTable t.streams[k])) ∧
    (∀ (st : Instant) (j : Option StreamNo) (first : Bool), j ≠ some k →
      s.lnu.tx = some ⟨.dataSlot i, st, .inSlot x g d, j⟩ →
      ∃ t, exec (.dataSlotEcho true first) s = .next t
        ∧ hearTable s.mku.count g s.straps.stn d (takes ∧ old.cfg.loop = true) old t.streams[k]
        ∧ (d ≠ .fill ∨ old.expect = false → cutTable t.streams[k]))

/-- An expected Data Slot that is silent or garbled, or that carries a clean FILL of another station, is a
gap: counted in GAPS and, while caught-up is Cleared, in the tally of C, and filled by the gap policy; a
clean DATA or KEEP is none; the expectation is consumed (R146, R147). -/
def Obligations.GapFollowsPolicy : Prop :=
  ∀ (i : SlotNo) (k : StreamNo) (s : State), s.resetAsserted = false →
    s.lnu.sync = .synced → s.streams[k].isTalk = false →
    (∀ garbled : Bool, ∃ t, exec (.garbledOrSilentDataSlot i garbled) s = .next t
      ∧ gapTable s.mku.count s.streams[k] t.streams[k]) ∧
    ∀ (x : StationNo) (g : Tag), x ≠ 0 → g ≠ 0 → x ≠ s.straps.stn →
      (∃ t, exec (.cleanDataCell i x g .fill) s = .next t
        ∧ gapTable s.mku.count s.streams[k] t.streams[k]) ∧
      ∀ d : DataKind, d ≠ .fill → ∃ t, exec (.cleanDataCell i x g d) s = .next t
        ∧ t.streams[k].expect = false ∧ t.streams[k].fills = s.streams[k].fills

/-- A garbled or silent Data Slot counts a garble in CHECKERR and ages a HELD entry, which becomes FREE
and is counted in AGED at its eighth; AGING is that last step (R29).
That AGING by itself is taken as the eighth silence is the model's reading (log 7). -/
def Obligations.SilenceAgesHeldEntries : Prop :=
  ∀ (i : SlotNo) (s : State), s.resetAsserted = false →
    (∀ garbled : Bool, s.lnu.sync = .synced →
      ∃ t, exec (.garbledOrSilentDataSlot i garbled) s = .next t
        ∧ (t.slotMap[i] = match s.slotMap[i] with
            | .held x g n => if n = 7 then .free else .held x g (n + 1)
            | e => e)
        ∧ s.otherEntriesSame i t
        ∧ (garbled = true → countsOne s.counters.checkErr t.counters.checkErr)
        ∧ (garbled = false → t.counters.checkErr = s.counters.checkErr)
        ∧ ((∃ x g, s.slotMap[i] = .held x g 7) → countsOne s.counters.aged t.counters.aged)
        ∧ ((∀ x g, s.slotMap[i] ≠ .held x g 7) → t.counters.aged = s.counters.aged)
        ∧ t.counters = { s.counters with
            checkErr := t.counters.checkErr, aged := t.counters.aged }
        ∧ s.changesOnly [.lnu, .slotMap, .streams, .counters] t) ∧
    (∀ x g, s.slotMap[i] = .held x g 7 → ∃ t, exec (.aging i) s = .next t
      ∧ t.slotMap[i] = .free ∧ s.otherEntriesSame i t
      ∧ countsOne s.counters.aged t.counters.aged
      ∧ t.counters = { s.counters with aged := t.counters.aged }
      ∧ s.changesOnly [.slotMap, .streams, .counters] t)

/-! ### Open Slots -/

/-- At the start of an Open Slot the head's cell goes out when the turn is OPEN, its wait is 0, this is its
chosen slot and the map still stands behind it; a head that fails the check leaves the queue unsent, and
the turn closes in both cases. A slot start that reached the queue before the withdrawal of a head that
was to contend closes the turn and sends nothing (R50, R51, R52).
That the heads withdrawn are kept for such a start, until the next Mark or Open Slot start, is the
model's form (log 8). -/
def Obligations.OpenSlotSendsQueueHead : Prop :=
  ∀ (which : OpenSlot) (a : Instant) (s : State),
    s.resetAsserted = false → s.lnu.sync = .synced → s.lnu.windowOpen = false →
    s.lnu.anchor = some a →
    let stn := s.straps.stn
    let chosen (e : QueueEntry) : OpenSlot := if (stn.toNat + e.attempt) % 2 = 0 then .a else .b
    let fits (e : QueueEntry) : Prop :=
      s.ccq.turnOpen = true ∧ e.wait = 0 ∧ s.ccq.onLine = false ∧ which = chosen e
    let passed : State := { s with ccq := { s.ccq with passedOver := [] } }
    (s.ccq.entries = [] → exec (.openSlotStart (.onTime which)) s = .next passed) ∧
    (∀ (e : QueueEntry) (es : List QueueEntry), s.ccq.entries = e :: es →
      let start := a + (if which = .a then 49 else 50) * 96
      let sent (c : Cell) : State := { s with
        lnu := { s.lnu with tx := some ⟨.openSlot which, start, c, none⟩, driving := true }
        ccq := { s.ccq with passedOver := [], turnOpen := false, onLine := true } }
      let dropped : State := { s with
        ccq := { s.ccq with entries := es, passedOver := [], turnOpen := false } }
      (¬ fits e → exec (.openSlotStart (.onTime which)) s = .next passed) ∧
      (fits e → match e.cell with
        | .join => exec (.openSlotStart (.onTime which)) s = .next (sent (.join stn))
        | .leave => exec (.openSlotStart (.onTime which)) s = .next (sent (.leave stn))
        | .claim i g k =>
            ((∃ g' q, s.slotMap[i] = .claiming g' k q) →
              exec (.openSlotStart (.onTime which)) s = .next (sent (.claim stn g i))) ∧
            ((∀ g' q, s.slotMap[i] ≠ .claiming g' k q) →
              exec (.openSlotStart (.onTime which)) s = .next dropped)
        | .release i k =>
            (∀ g q, s.slotMap[i] = .releasing g k q →
              exec (.openSlotStart (.onTime which)) s = .next (sent (.release stn g i))) ∧
            ((∀ g q, s.slotMap[i] ≠ .releasing g k q) →
              exec (.openSlotStart (.onTime which)) s = .next dropped))) ∧
    ∀ (place : Nat) (e : QueueEntry), s.ccq.passedOver[place]? = some e →
      (fits e → exec (.openSlotStart (.late which place)) s = .next { s with
        ccq := { s.ccq with passedOver := [], turnOpen := false } }) ∧
      (¬ fits e → exec (.openSlotStart (.late which place)) s = .next passed)

/-- An echo match of the own control cell removes the head and makes its CLAIMING entry MINE, its
RELEASING entry FREE, starts the join timer at 16, or ends LEAVING with LEFT; a head withdrawn while its
cell was on the line is removed with the outcome of its withdrawal, which changes nothing more. The
streams take the reports of the change of the map: the first slot makes an ACQUIRING one RUNNING or
DRAINED, and SHORT is Cleared where the wanted count is reached (R35, R37, R38, R40, R48, R53, R90, R93,
R127, R133). -/
def Obligations.ControlEchoMatchSettles : Prop :=
  ∀ (w : OpenSlot) (st : Instant) (c : Cell) (k : Option StreamNo) (e : QueueEntry)
    (es : List QueueEntry) (s : State), s.resetAsserted = false →
    s.lnu.tx = some ⟨.openSlot w, st, c, k⟩ → s.ccq.onLine = true → s.ccq.entries = e :: es →
    (e.withdrawn ≠ none → ∃ t, exec (.openSlotEcho true) s = .next t
      ∧ t.lnu = { s.lnu with tx := none, driving := false, candidates := s.candidatesBut (.openSlot w) }
      ∧ t.ccq = { s.ccq with entries := es, onLine := false } ∧ s.changesOnly [.lnu, .ccq] t) ∧
    (e.withdrawn = none → ∃ t, exec (.openSlotEcho true) s = .next t
      ∧ t.lnu = { s.lnu with tx := none, driving := false, candidates := s.candidatesBut (.openSlot w) }
      ∧ t.ccq = { s.ccq with entries := es, onLine := false }
      ∧ t.counters = s.counters
      ∧ s.changesOnly [.lnu, .ccq, .slotMap, .streams, .rsu, .stationFlags] t
      ∧ let reported := ∀ j : StreamNo,
          t.streams[j] = s.streams[j].mapReported s.mku.count s.slotMap t.slotMap j
        match e.cell with
        | .claim i _ _ => s.otherEntriesSame i t ∧ t.rsu = s.rsu
            ∧ (∀ g j q, s.slotMap[i] = .claiming g j q → t.slotMap[i] = .mine g j
                ∧ t.streams[j].held = mineCount t.slotMap j ∧ reported)
            ∧ ((∀ g j q, s.slotMap[i] ≠ .claiming g j q) →
                t.slotMap = s.slotMap ∧ t.streams = s.streams)
        | .release i _ => s.otherEntriesSame i t ∧ t.rsu = s.rsu
            ∧ (∀ g j q, s.slotMap[i] = .releasing g j q → t.slotMap[i] = .free ∧ reported)
            ∧ ((∀ g j q, s.slotMap[i] ≠ .releasing g j q) →
                t.slotMap = s.slotMap ∧ t.streams = s.streams)
        | .join => t.slotMap = s.slotMap ∧ t.streams = s.streams
            ∧ (s.rsu.membership = .joining →
                t.rsu = { s.rsu with joinTimer := some 16, intent := .none, queued := false })
            ∧ (s.rsu.membership ≠ .joining → t.rsu = s.rsu)
        | .leave => t.slotMap = s.slotMap ∧ t.streams = s.streams
            ∧ (s.rsu.membership = .leaving → t.rsu.membership = .dormant
                ∧ t.rsu.intent = .none ∧ t.stationFlags = s.stationFlags ||| 0x08#9)
            ∧ (s.rsu.membership ≠ .leaving → t.rsu = s.rsu ∧ t.stationFlags = s.stationFlags))

/-- An echo mismatch of the own control cell is counted in CONTEND; below attempt 6 the head tries again
after a wait of the station number modulo 2 to the new attempt, and at attempt 6 it is removed with
CONTENTION, which frees its entry, pauses its stream's claims for 16 Marks, ends the join attempt or
ends LEAVING; a head withdrawn while its cell was on the line is removed with the outcome of its
withdrawal, which changes nothing more than the CONTEND count (R37, R38, R48, R54, R55, R90, R93). -/
def Obligations.ControlEchoMismatchBacksOff : Prop :=
  ∀ (w : OpenSlot) (st : Instant) (c : Cell) (k : Option StreamNo) (e : QueueEntry)
    (es : List QueueEntry) (s : State), s.resetAsserted = false →
    s.lnu.tx = some ⟨.openSlot w, st, c, k⟩ → s.ccq.onLine = true → s.ccq.entries = e :: es →
    (e.withdrawn ≠ none → ∃ t, exec (.openSlotEcho false) s = .next t
      ∧ t.lnu = { s.lnu with tx := none, driving := false, candidates := s.candidatesBut (.openSlot w) }
      ∧ t.ccq = { s.ccq with entries := es, onLine := false }
      ∧ countsOne s.counters.contend t.counters.contend
      ∧ t.counters = { s.counters with contend := t.counters.contend }
      ∧ s.changesOnly [.lnu, .ccq, .counters] t) ∧
    (e.withdrawn = none → ∃ t, exec (.openSlotEcho false) s = .next t
      ∧ t.lnu = { s.lnu with tx := none, driving := false, candidates := s.candidatesBut (.openSlot w) }
      ∧ countsOne s.counters.contend t.counters.contend
      ∧ t.counters = { s.counters with contend := t.counters.contend }
      ∧ (e.attempt < 6 → t.ccq = { s.ccq with
            entries := { e with
              attempt := e.attempt + 1
              wait := s.straps.stn.toNat % 2 ^ (e.attempt + 1) } :: es
            onLine := false }
          ∧ s.changesOnly [.lnu, .ccq, .counters] t)
      ∧ (6 ≤ e.attempt → match e.cell with
        | .claim i _ _ => t.ccq.entries = es ∧ s.otherEntriesSame i t
            ∧ (∀ g j q, s.slotMap[i] = .claiming g j q → t.slotMap[i] = .free
                ∧ t.streams[j].pauseTimer = 16 ∧ t.streams[j].flags.getLsbD 4 = true
                ∧ ∀ j' : StreamNo, j' ≠ j → t.streams[j'] =
                    s.streams[j'].mapReported s.mku.count s.slotMap t.slotMap j')
        | .release i _ => t.ccq.entries = es ∧ s.otherEntriesSame i t
            ∧ (∀ g j q, s.slotMap[i] = .releasing g j q → t.slotMap[i] = .free ∧ ∀ j' : StreamNo,
                t.streams[j'] = s.streams[j'].mapReported s.mku.count s.slotMap t.slotMap j')
        | .join => s.rsu.membership = .joining →
            (s.rsu.attempt < 4 → t.rsu.membership = .joining
              ∧ t.rsu.attempt = s.rsu.attempt + 1 ∧ t.rsu.intent = .join) ∧
            (4 ≤ s.rsu.attempt → t.rsu.membership = .dormant
              ∧ t.stationFlags = s.stationFlags ||| 0x04#9)
        | .leave => t.ccq.entries = es ∧ (s.rsu.membership = .leaving →
            t.rsu.membership = .dormant ∧ t.stationFlags = s.stationFlags ||| 0x08#9)))

/-- A clean CLAIM from another station makes a FREE or CLAIMING entry HELD by it, withdrawing an own queued
CLAIM with TAKEN, changes no other entry and sends nothing in answer; the sender is PRESENT (R30, R83). -/
def Obligations.HeardClaimTakesFreeSlot : Prop :=
  ∀ (w : OpenSlot) (x : StationNo) (i : SlotNo) (g : Tag) (s : State), s.resetAsserted = false →
    s.lnu.sync = .synced → x ≠ 0 → g ≠ 0 → x ≠ s.straps.stn →
    ∃ t, exec (.cleanClaim w x i g) s = .next t
      ∧ (t.slotMap[i] = match s.slotMap[i] with
          | .free => .held x g 0
          | .claiming _ _ _ => .held x g 0
          | e => e)
      ∧ s.otherEntriesSame i t
      ∧ (∀ g' k, s.slotMap[i] = .claiming g' k true → t.ccq = s.ccq.withdraw (some i) .taken)
      ∧ ((∀ g' k, s.slotMap[i] ≠ .claiming g' k true) → t.ccq = s.ccq)
      ∧ t.rsu.entry x = .present ∧ (∀ n : StationNo, n ≠ x → t.rsu.entry n = s.rsu.entry n)
      ∧ t.rsu = { s.rsu with roster := t.rsu.roster }
      ∧ t.lnu = { s.lnu with candidates := s.candidatesBut (.openSlot w) }
      ∧ s.changesOnly [.lnu, .rsu, .slotMap, .ccq, .streams] t

/-- A clean RELEASE from station x frees the entry HELD with owner x, whatever its tag, and no other, and
does not increment AGED (R31). -/
def Obligations.HeardReleaseFreesOwnersSlot : Prop :=
  ∀ (w : OpenSlot) (x : StationNo) (i : SlotNo) (g : Tag) (s : State), s.resetAsserted = false →
    s.lnu.sync = .synced → x ≠ 0 → g ≠ 0 → x ≠ s.straps.stn →
    ∃ t, exec (.cleanRelease w x i g) s = .next t
      ∧ (∀ g' n, s.slotMap[i] = .held x g' n → t.slotMap[i] = .free)
      ∧ ((∀ g' n, s.slotMap[i] ≠ .held x g' n) → t.slotMap[i] = s.slotMap[i])
      ∧ s.otherEntriesSame i t ∧ t.counters = s.counters
      ∧ t.rsu.entry x = .present ∧ (∀ n : StationNo, n ≠ x → t.rsu.entry n = s.rsu.entry n)
      ∧ t.rsu = { s.rsu with roster := t.rsu.roster }
      ∧ t.lnu = { s.lnu with candidates := s.candidatesBut (.openSlot w) }
      ∧ s.changesOnly [.lnu, .rsu, .slotMap, .streams] t

/-- A clean LEAVE from station x frees every entry HELD with owner x, in one change, and no other, makes
x ABSENT, and does not increment AGED; a clean JOIN makes its sender PRESENT; beside the roster
and the slot's report neither changes the Roster Unit or the Line Unit (R32, R83). -/
def Obligations.HeardLeaveAndJoin : Prop :=
  ∀ (w : OpenSlot) (x : StationNo) (s : State), s.resetAsserted = false →
    s.lnu.sync = .synced → x ≠ 0 → x ≠ s.straps.stn →
    (∃ t, exec (.cleanLeave w x) s = .next t
      ∧ (∀ (i : SlotNo) (g : Tag) (n : Fin 8),
          s.slotMap[i] = .held x g n → t.slotMap[i] = .free)
      ∧ (∀ i : SlotNo, (∀ g n, s.slotMap[i] ≠ .held x g n) → t.slotMap[i] = s.slotMap[i])
      ∧ t.rsu.entry x = .absent ∧ (∀ n : StationNo, n ≠ x → t.rsu.entry n = s.rsu.entry n)
      ∧ t.rsu = { s.rsu with roster := t.rsu.roster }
      ∧ t.lnu = { s.lnu with candidates := s.candidatesBut (.openSlot w) }
      ∧ s.changesOnly [.lnu, .rsu, .slotMap, .streams] t) ∧
    ∃ t, exec (.cleanJoin w x) s = .next t
      ∧ t.rsu.entry x = .present ∧ (∀ n : StationNo, n ≠ x → t.rsu.entry n = s.rsu.entry n)
      ∧ t.rsu = { s.rsu with roster := t.rsu.roster }
      ∧ t.lnu = { s.lnu with candidates := s.candidatesBut (.openSlot w) }
      ∧ s.changesOnly [.lnu, .rsu] t

/-- A duplicate-address sighting makes the station DORMANT and raises DUPLICATE, frees every own entry,
empties the queue, and faults every Talk Stream that was started, or is stopping with its walker still at
work, with cause DUPLICATE; the roster of other stations stays. A MARK is sighted only where it could
anchor (R14, R17, R43, R58, R96, R135). That a MARK sighted while UNSYNCED is delivered, where R16 drops
what does not anchor (log 40), and that a MARK is sighted in a mark window in which the own MARK went out
before (log 43), are the model's choices. -/
def Obligations.DuplicateSilencesStation : Prop :=
  ∀ (p : Position) (kind : CellKind) (ended : Instant) (s : State), s.resetAsserted = false →
    s.straps.stn ≠ 0 → s.lnu.tx = none → kind.allowedAt p = true →
    ((∃ i, p = .dataSlot i) ∨ (∃ w, p = .openSlot w) → s.lnu.sync = .synced) →
    (p = .markField ∨ p = .outside → ∃ onset, ended = onset + 80 ∧ s.canAnchor onset) →
    ∃ t, exec (.duplicateAddressSighting p kind ended) s = .next t
      ∧ t.rsu.membership = .dormant ∧ t.rsu.entry s.straps.stn = .absent
      ∧ (∀ n : StationNo, n ≠ s.straps.stn → t.rsu.entry n = s.rsu.entry n)
      ∧ t.rsu.learnCount = 0 ∧ t.rsu.attempt = 0 ∧ t.rsu.joinTimer = none ∧ t.rsu.intent = .none
      ∧ t.stationFlags = s.stationFlags ||| 0x20#9
      ∧ (∀ i : SlotNo, s.slotMap[i].isOwn = true → t.slotMap[i] = .free)
      ∧ (∀ i : SlotNo, s.slotMap[i].isOwn = false → p ≠ .dataSlot i →
          t.slotMap[i] = s.slotMap[i])
      ∧ (∀ k : StreamNo, t.streams[k].held = 0)
      ∧ t.ccq.entries = [] ∧ t.ccq.turnOpen = false
      ∧ (∀ k : StreamNo, s.streams[k].isTalk = true →
          (s.streams[k].state = .acquiring ∨ s.streams[k].state = .running
            ∨ s.streams[k].state = .paused ∨ s.streams[k].state = .drained) →
          t.streams[k].state = .faulted ∧ t.streams[k].cause = .duplicate
            ∧ t.streams[k].flags.getLsbD 6 = true ∧ t.streams[k].fifo = [])
      ∧ (∀ k : StreamNo, s.streams[k].isTalk = true → s.streams[k].state = .stopping →
          s.streams[k].walkerQuiet = false →
          t.streams[k].state = .faulted ∧ t.streams[k].cause = .duplicate
            ∧ t.streams[k].flags.getLsbD 6 = true)
      ∧ (∀ k : StreamNo, s.streams[k].isTalk = true →
          (s.streams[k].state = .faulted ∨ s.streams[k].state = .stopped) →
          t.streams[k].state = s.streams[k].state ∧ t.streams[k].cause = s.streams[k].cause)
      ∧ t.lnu.tx = none

/-! ### The local bus -/

/-- A Ready write moves L; on a caught-up ring it also Clears caught-up and makes a DRAINED stream RUNNING,
unless it writes C - 1, which does nothing. Priming of a Talk Stream is then Set in DRAINED, set by the
FIFO in ACQUIRING, RUNNING and PAUSED, and kept in every other state (R101, R126, R128, R148, R168).
The field `targetResponse` is the model's (log 18). -/
def Obligations.ReadyWriteHandsDescriptors : Prop :=
  ∀ (k : StreamNo) (value : Word) (s : State), s.resetAsserted = false →
    ∃ t, exec (.readyWrite k value) s = .next t ∧ t.targetResponse = .answered
      ∧ s.otherStreamsSame k t ∧ s.changesOnly [.streams, .targetResponse] t ∧
      let old := s.streams[k]
      let new := t.streams[k]
      let v : RingIdx := value.setWidth 6
      (old.walker.caughtUp = false → new = { old with walker := { old.walker with ready := v } }) ∧
      (old.walker.caughtUp = true → v = old.walker.cur - 1 → new = old) ∧
      (old.walker.caughtUp = true → v ≠ old.walker.cur - 1 →
        new.walker = { old.walker with ready := v, caughtUp := false }
        ∧ new.state = (if old.state = .drained then .running else old.state)
        ∧ { new with walker := old.walker, state := old.state, priming := old.priming } = old
        ∧ (old.isTalk = false → new.priming = old.priming)
        ∧ (old.isTalk = true → old.state = .drained → new.priming = true)
        ∧ (old.isTalk = true →
            old.state = .acquiring ∨ old.state = .running ∨ old.state = .paused →
            (new.priming = true ↔ old.fifo = []))
        ∧ (old.state = .stopping ∨ old.state = .faulted ∨ old.state = .stopped →
            new.priming = old.priming))

/-- The initiator grants the first waiting stream from the one after the last granted, round to it again,
and presents the one access that its stream chooses: the first of R104 that applies, in STOPPING the
records, the flush and the abort record of R114 and R115, with the index, the address, the size and the
words of R98, R105, R107 and R109. With none waiting nothing happens.
That the choice and the presentation are one command is the model's reading (logs 21, 28), and the NOTIFY
bit of a descriptor never fetched is a free value (log 9). -/
def Obligations.GrantsGoRoundRobin : Prop :=
  ∀ s : State, s.resetAsserted = false →
    ((∀ k : StreamNo, s.streams[k].accessTable = none) → exec .accessIssue s = .next s) ∧
    ∀ (k : StreamNo) (a : Access), s.streams[k].accessTable = some a →
      (∀ j : StreamNo, (j - s.nextGrant).val < (k - s.nextGrant).val →
        s.streams[j].accessTable = none) →
      ∃ (t : State) (notify : Bool), exec .accessIssue s = .next t ∧ t.nextGrant = k + 1
        ∧ t.streams[k] = s.streams[k].presentedTable notify a
        ∧ s.otherStreamsSame k t ∧ s.changesOnly [.streams, .nextGrant, .freeDraws] t

/-- A fetch reply: dropped when it is marked for discard, in hand for C with remaining its length, an EMPTY
record at once for length 0 except during a stop, or held as prefetched; during a stop the stop goes on
with it, or ends (R102, R106, R115, R116, R128, R148).
That a reply is taken only where it matches the access in flight is the model's choice (log 19). -/
def Obligations.FetchReplyBringsDescriptor : Prop :=
  ∀ (k : StreamNo) (w₀ w₄ : Word) (a : Access) (s : State), s.resetAsserted = false →
    s.streams[k].walker.access = some a → a.kind = .fetch →
    ∃ t, exec (.descriptorFetchReply k w₀ w₄) s = .next t
      ∧ s.otherStreamsSame k t ∧ s.changesOnly [.streams] t ∧
      let old := s.streams[k]
      let new := t.streams[k]
      let d : Descriptor := ⟨w₀ &&& 0xFFFFFFFC#32, w₄.extractLsb' 0 16, w₄.getLsbD 16, w₄.getLsbD 17⟩
      let stopping := old.walker.mode = .stopping
      (stopping → a.discard = true →
        new = ({ old with walker := { old.walker with access := none } } : Stream).stopTable) ∧
      (stopping → a.discard = false → a.index = old.walker.cur →
        new = ({ old with walker := { old.walker with
          access := none, inHand := some d, remaining := d.length.toNat } } : Stream).stopTable) ∧
      (¬ stopping → a.discard = true → new = { old with walker := { old.walker with access := none } }) ∧
      (¬ stopping → a.discard = false → a.index ≠ old.walker.cur →
        new = { old with walker := { old.walker with access := none, prefetched := some d } }) ∧
      (¬ stopping → a.discard = false → a.index = old.walker.cur → d.length ≠ 0 →
        new = { old with walker := { old.walker with
          access := none, inHand := some d, remaining := d.length.toNat } }) ∧
      (¬ stopping → a.discard = false → a.index = old.walker.cur → d.length = 0 →
        new = ({ old with walker := { old.walker with
          access := none, inHand := some d, remaining := 0 } } : Stream).completedTable
            s.mku.count .empty 0 ∧
        (old.walker.prefetched = none →
          new.walker.cur = old.walker.cur + 1 ∧ new.walker.inHand = none
          ∧ new.walker.records = old.walker.records ++ [⟨old.walker.cur, .empty, 0,
              old.walker.firstStamp.getD 0, old.walker.tally, d.notify,
              old.walker.cur == old.walker.ready⟩]))

/-- A buffer read reply appends its words to the FIFO with the descriptor's index, the first word of a
BOUNDARY buffer marked, of C and of F alike, and ends priming; one marked for discard enters nothing, and
a stop goes on with it, or ends (R107, R116, R126).
That a reply is taken only where it matches the access in flight is the model's choice (log 19). -/
def Obligations.ReadReplyFillsFifo : Prop :=
  ∀ (k : StreamNo) (words : List Word) (a : Access) (s : State), s.resetAsserted = false →
    s.streams[k].walker.access = some a → a.kind = .read → words.length = a.count →
    ∃ t, exec (.bufferReadReply k words) s = .next t
      ∧ s.otherStreamsSame k t ∧ s.changesOnly [.streams] t ∧
      let old := s.streams[k]
      let new := t.streams[k]
      (a.discard = true → old.walker.mode = .stopping →
        new = ({ old with walker := { old.walker with access := none } } : Stream).stopTable) ∧
      (a.discard = true → old.walker.mode ≠ .stopping → new = { old with walker := { old.walker with access := none } }) ∧
      (a.discard = false → old.walker.mode ≠ .stopping →
        new.fifo.map FifoEntry.word = old.fifo.map FifoEntry.word ++ words
        ∧ new.fifo.take old.fifo.length = old.fifo
        ∧ (∀ e ∈ new.fifo.drop old.fifo.length, e.index = a.index)
        ∧ (∀ e ∈ new.fifo.drop (old.fifo.length + 1), e.boundary = false)
        ∧ (words ≠ [] → new.priming = false)
        ∧ (a.index = old.walker.cur →
            new.walker = { old.walker with
              access := none, moved := old.walker.moved + a.count }
            ∧ ∀ e, (new.fifo.drop old.fifo.length).head? = some e →
                (e.boundary = true ↔ old.walker.moved = 0 ∧
                  ∃ d, old.walker.inHand = some d ∧ d.boundary = true))
        ∧ (a.index ≠ old.walker.cur →
            new.walker = { old.walker with
              access := none, ahead := old.walker.ahead + a.count }
            ∧ ∀ e, (new.fifo.drop old.fifo.length).head? = some e →
                (e.boundary = true ↔ old.walker.ahead = 0 ∧
                  ∃ d, old.walker.prefetched = some d ∧ d.boundary = true)))

/-- A buffer write acknowledgement counts its words as written and keeps the first stamp. Outside a stop a
full buffer completes with a DONE record, and one that is not full with a CUT record when a marked entry
stands at the FIFO's head, with the next descriptor in hand where it was prefetched, an empty one of
them completed at once, and a RUNNING stream DRAINED at the end of the ring; during a stop nothing
completes, and the stop goes on (R99, R102, R106, R109, R110, R115, R148).
That a Listen Stream reads no words ahead is an invariant (StepKeepsStreamsWithinLimits). -/
def Obligations.WriteAckCountsWords : Prop :=
  ∀ (k : StreamNo) (a : Access) (d : Descriptor) (s : State), s.resetAsserted = false →
    s.streams[k].walker.access = some a → a.kind = .write → s.streams[k].isTalk = false →
    s.streams[k].walker.inHand = some d → s.streams[k].walker.ahead = 0 →
    ∃ t, exec (.bufferWriteAck k) s = .next t
      ∧ s.otherStreamsSame k t ∧ s.changesOnly [.streams] t ∧
      let old := s.streams[k].walker
      let new := t.streams[k]
      let written := old.done + a.count
      let after : Stream := { s.streams[k] with walker := { old with
        access := none, done := written, firstStamp := some (old.firstStamp.getD a.stamp) } }
      let marked := old.moved ≠ 0 ∧ ∃ e, s.streams[k].fifo.head? = some e ∧ e.boundary = true
      (old.mode ≠ .stopping → new.fifo = s.streams[k].fifo ∧ new.walker.access = none ∧
        (d.length.toNat ≤ written → new = after.completedTable s.mku.count .done written) ∧
        (written < d.length.toNat → marked → new = after.completedTable s.mku.count .cut written) ∧
        (written < d.length.toNat → ¬ marked → new = after)) ∧
      (old.mode = .stopping → new = after.stopTable)

/-- A record write acknowledgement removes the record and raises BUFFER_DONE and RING_END as it is marked;
the last one of a stop discards what is left in a Listen FIFO, counted in OVERRUNS, makes a Listen
Stream STOPPED, and a Talk Stream too once its entries are gone (R112, R115, R116, R133, R151). -/
def Obligations.RecordAckRaisesEvents : Prop :=
  ∀ (k : StreamNo) (a : Access) (r : Record) (rs : List Record) (s : State),
    s.resetAsserted = false → s.streams[k].walker.access = some a → a.kind = .record →
    s.streams[k].walker.records = r :: rs →
    ∃ t, exec (.recordWriteAck k) s = .next t
      ∧ s.otherStreamsSame k t ∧ s.changesOnly [.streams] t ∧
      let old := s.streams[k]
      let new := t.streams[k]
      let flags := old.flags ||| (if r.notify then 0x01#8 else 0) ||| (if r.ringEnd then 0x02#8 else 0)
      new.walker.records = rs ∧ new.walker.access = none ∧
      (old.walker.mode ≠ .stopping → new = { old with
        flags := flags
        walker := { old.walker with access := none, records := rs } }) ∧
      (old.walker.mode = .stopping → new = ({ old with
        flags := flags
        walker := { old.walker with access := none, records := rs } } : Stream).stopTable) ∧
      (old.walker.mode = .stopping → rs = [] →
        (old.walker.stopCaughtUp = true ∨ old.walker.abortBuilt = true) → old.state = .stopping →
        new.walker.mode = .off
        ∧ (old.isTalk = true → new.walkerQuiet = true
            ∧ (old.entriesGone = true → new.state = .stopped ∧ new.flags = flags ||| 0x80#8)
            ∧ (old.entriesGone = false → new.state = .stopping ∧ new.flags = flags))
        ∧ (old.isTalk = false → new.state = .stopped ∧ new.fifo = []
            ∧ new.overruns.toNat = min 65535 (old.overruns.toNat + old.fifo.length)
            ∧ new.flags = flags ||| 0x80#8 ||| (if old.fifo = [] then 0 else 0x04#8)))

/-- An error response drops the records owed and the progress of C, moves C back to the oldest descriptor
without an acknowledged record, stops the walk, keeps L and raises FAULT; a started stream becomes
FAULTED with cause MEMORY, and a Talk Stream releases its slots (R39, R117, R134, R152). -/
def Obligations.AccessErrorFaultsStream : Prop :=
  ∀ (k : StreamNo) (a : Access) (s : State), s.resetAsserted = false →
    s.streams[k].walker.access = some a →
    ∃ t, exec (.accessError k) s = .next t
      ∧ s.changesOnly [.slotMap, .ccq, .streams] t ∧
      let old := s.streams[k]
      let new := t.streams[k]
      let cur := (old.walker.records.head?.map Record.index).getD old.walker.cur
      new.walker.mode = .off ∧ new.walker.records = [] ∧ new.walker.access = none
      ∧ new.walker.cur = cur ∧ new.walker.fetch = cur ∧ new.walker.ready = old.walker.ready
      ∧ new.walker.inHand = none ∧ new.walker.prefetched = none ∧ new.walker.done = 0
      ∧ new.walker.caughtUp = (old.walker.caughtUp && old.walker.records.isEmpty)
      ∧ new.flags.getLsbD 6 = true
      ∧ (old.state ≠ .stopped → old.state ≠ .faulted →
          (old.isTalk = false → old.state ≠ .acquiring) →
          new.state = .faulted ∧ new.cause = .memory ∧ new.fifo = [])
      ∧ (old.state = .stopped ∨ old.state = .faulted → new.state = old.state)
      ∧ (old.isTalk = true → old.state ≠ .stopped → old.state ≠ .faulted → s.releasedFor k t)
      ∧ (old.isTalk = false → s.changesOnly [.streams] t ∧ s.otherStreamsSame k t)

/-! ### Commands -/

/-- JOIN makes a DORMANT station with a number LISTENING; LEAVE makes a MEMBER LEAVING and queues its LEAVE,
and ends joining, listening or isolation with LEFT, unless a Talk Stream is not STOPPED; in JOINING it
withdraws the queued JOIN and rests the join timer and the attempt; both are refused otherwise, with
the results of R88 and R92 (R47, R88, R89, R92, R169).
What COMMAND reads back is the model's reading (log 15). -/
def Obligations.JoinAndLeaveCommands : Prop :=
  ∀ (index : BitVec 4) (s : State), s.resetAsserted = false →
    let m := s.rsu.membership
    let busy := ∃ k : StreamNo, s.streams[k].isTalk = true ∧ s.streams[k].state ≠ .stopped
    (∃ t, exec (.join index) s = .next t ∧ t.targetResponse = .answered
      ∧ t.command = BitVec.ofNat 32 (index.toNat * 256 + 1)
      ∧ t.result = (if s.straps.stn = 0 then .badConfig
          else if m = .dormant then .ok else .badState)
      ∧ (t.result ≠ .ok → s.changesOnly [.command, .result, .targetResponse] t)
      ∧ (t.result = .ok → t.rsu.membership = .listening ∧ t.rsu.learnCount = 0
          ∧ t.rsu.attempt = 0 ∧ s.changesOnly [.rsu, .command, .result, .targetResponse] t)) ∧
    ∃ t, exec (.leave index) s = .next t ∧ t.targetResponse = .answered
      ∧ t.command = BitVec.ofNat 32 (index.toNat * 256 + 2)
      ∧ (m = .dormant ∨ m = .leaving → t.result = .badState)
      ∧ (m ≠ .dormant → m ≠ .leaving → busy → t.result = .busy)
      ∧ (m ≠ .dormant → m ≠ .leaving → ¬ busy → t.result = .ok)
      ∧ (t.result ≠ .ok → s.changesOnly [.command, .result, .targetResponse] t)
      ∧ (t.result = .ok → m = .member → t.rsu.membership = .leaving ∧ t.rsu.intent = .leave
          ∧ (s.ccq.entries.length < 8 → (∀ e ∈ s.ccq.entries, e.cell.slot? ≠ none) →
              t.rsu.queued = true
              ∧ t.ccq = { s.ccq with entries := s.ccq.entries ++ [⟨.leave, 0, 0, none⟩] })
          ∧ (8 ≤ s.ccq.entries.length → t.rsu.queued = false ∧ t.ccq = s.ccq)
          ∧ s.changesOnly [.rsu, .ccq, .command, .result, .targetResponse] t)
      ∧ (t.result = .ok → m = .joining → t.rsu.joinTimer = none ∧ t.rsu.attempt = 0
          ∧ (s.rsu.queued = true → s.ccq.onLine = false → t.ccq.entries = s.ccq.entries.eraseP fun e =>
              e.cell.slot? == none)
          ∧ (s.rsu.queued = true → s.ccq.onLine = true → ∀ e es, s.ccq.entries = e :: es →
              e.cell.slot? = none → t.ccq.entries =
                { e with withdrawn := some (e.withdrawn.getD .gone) } :: es)
          ∧ (s.rsu.queued = false → t.ccq = s.ccq))
      ∧ (t.result = .ok → m = .listening → t.rsu.learnCount = 0)
      ∧ (t.result = .ok → m ≠ .joining → m ≠ .member → t.ccq = s.ccq)
      ∧ (t.result = .ok → m ≠ .member → t.rsu.membership = .dormant
          ∧ t.stationFlags = s.stationFlags ||| 0x08#9
          ∧ s.changesOnly [.rsu, .ccq, .stationFlags, .command, .result, .targetResponse] t)

/-- The checks of START of a Talk Stream in their order, and of START of a Listen Stream; a refused START
changes nothing but COMMAND and RESULT (R122, R142, R169). -/
def Obligations.StartChecksInOrder : Prop :=
  ∀ (k : StreamNo) (s : State), s.resetAsserted = false →
    ∃ t, exec (.start k) s = .next t ∧
      let st := s.streams[k]
      let aligned := st.cfg.ringBase.toNat % 1024 = 0
      let others := (List.finRange 8).filter fun j =>
        j ≠ k ∧ s.streams[j].isTalk = true ∧ s.streams[j].state ≠ .stopped
      let talkConfig := st.cfg.tag ≠ 0 ∧ 1 ≤ st.cfg.wanted.toNat ∧ st.cfg.wanted.toNat ≤ 8 ∧ aligned
      let listenConfig := aligned ∧ ¬ (st.cfg.filterMode = 0 ∧ st.cfg.tag = 0)
        ∧ st.cfg.filterMode ≠ 3 ∧ st.cfg.gapPolicy ≠ 3
      let inUse := ∃ j ∈ others, s.streams[j].cfg.tag = st.cfg.tag
      let sum := (others.map fun j => s.streams[j].cfg.wanted.toNat).sum + st.cfg.wanted.toNat
      (st.isTalk = true →
        (st.state ≠ .stopped → t.result = .badState) ∧
        (st.state = .stopped → ¬ talkConfig → t.result = .badConfig) ∧
        (st.state = .stopped → talkConfig → s.rsu.membership ≠ .member → t.result = .notMember) ∧
        (st.state = .stopped → talkConfig → s.rsu.membership = .member → inUse →
          t.result = .tagInUse) ∧
        (st.state = .stopped → talkConfig → s.rsu.membership = .member → ¬ inUse → 16 < sum →
          t.result = .overcommit) ∧
        (st.state = .stopped → talkConfig → s.rsu.membership = .member → ¬ inUse → sum ≤ 16 →
          t.result = .ok)) ∧
      (st.isTalk = false →
        (st.state ≠ .stopped → t.result = .badState) ∧
        (st.state = .stopped → ¬ listenConfig → t.result = .badConfig) ∧
        (st.state = .stopped → listenConfig → t.result = .ok)) ∧
      (t.result ≠ .ok → s.changesOnly [.command, .result, .targetResponse] t)

/-- An accepted START makes a Talk Stream ACQUIRING and priming, with its pause timer at 0, or a Listen
Stream RUNNING or DRAINED with its round begun afresh, and starts the walk; no index moves; COMMAND keeps
the word and RESULT is OK (R40, R123, R142, R169). What COMMAND reads back is the model's reading (log
15). -/
def Obligations.StartBeginsStream : Prop :=
  ∀ (k : StreamNo) (s : State), s.resetAsserted = false →
    (s.streams[k].isTalk = true → s.startTalkCheck k = .ok →
      ∃ t, exec (.start k) s = .next t ∧ t.result = .ok
        ∧ t.command = BitVec.ofNat 32 (k.val * 256 + 3)
        ∧ t.streams[k] = { s.streams[k] with
            state := .acquiring, priming := true, walkerQuiet := false, pauseTimer := 0
            walker := { s.streams[k].walker with mode := t.streams[k].walker.mode } }
        ∧ (s.streams[k].walker.mode = .off → t.streams[k].walker.mode = .walking)
        ∧ s.otherStreamsSame k t
        ∧ s.changesOnly [.streams, .command, .result, .targetResponse] t) ∧
    (s.streams[k].isTalk = false → s.streams[k].startListenCheck = .ok →
      ∃ t, exec (.start k) s = .next t ∧ t.result = .ok
        ∧ t.command = BitVec.ofNat 32 (k.val * 256 + 3)
        ∧ t.streams[k] = { s.streams[k] with
            state := if s.streams[k].walker.caughtUp then .drained else .running
            lastWord := none, sources := [], multiRaised := false, expect := false
            walker := { s.streams[k].walker with mode := t.streams[k].walker.mode } }
        ∧ (s.streams[k].walker.mode = .off → t.streams[k].walker.mode = .walking)
        ∧ s.otherStreamsSame k t
        ∧ s.changesOnly [.streams, .command, .result, .targetResponse] t)

/-- STOP is refused in STOPPED and FAULTED and changes nothing in STOPPING; otherwise the stream becomes
STOPPING with cause COMMAND, or STOPPED where its walker is quiet and, of a Talk Stream, no own entry is
left, its walker STOPPING with caught-up noted and its access discarded as R113 says, and a Talk Stream
empties its FIFO and releases its slots; a Listen Stream keeps its FIFO for the flush, or discards it into
OVERRUNS where the ring was caught up and nothing is owed (R39, R40, R113, R115, R116, R132, R133, R150,
R151, R169). What COMMAND reads back is the model's reading (log 15). -/
def Obligations.StopBeginsStopping : Prop :=
  ∀ (k : StreamNo) (s : State), s.resetAsserted = false →
    ∃ t, exec (.stop k) s = .next t ∧ t.targetResponse = .answered
      ∧ t.command = BitVec.ofNat 32 (k.val * 256 + 4) ∧
      let old := s.streams[k]
      let new := t.streams[k]
      let walks := old.walker.mode = .walking ∨ old.walker.mode = .held
      (old.state = .stopped ∨ old.state = .faulted → t.result = .badState
        ∧ s.changesOnly [.command, .result, .targetResponse] t) ∧
      (old.state = .stopping → t.result = .ok
        ∧ s.changesOnly [.command, .result, .targetResponse] t) ∧
      (old.state ≠ .stopped → old.state ≠ .faulted → old.state ≠ .stopping →
        t.result = .ok ∧ new.cause = .command
        ∧ (new.state = .stopping ∨ new.state = .stopped)
        ∧ (old.isTalk = true → old.stopBegun k new t.slotMap
            ∧ new.fifo = [] ∧ new.priming = false ∧ new.wordOnLine = false
            ∧ s.releasedFor k t
            ∧ (walks → new.walker =
                ({ old with walker := old.walker.stopNoted true } : Stream).stopTable.walker)
            ∧ s.changesOnly [.slotMap, .ccq, .streams, .command, .result, .targetResponse] t)
        ∧ (old.isTalk = false → s.otherStreamsSame k t
            ∧ (walks → new = ({ old with
                state := .stopping, cause := .command
                walker := old.walker.stopNoted false } : Stream).stopTable)
            ∧ (old.walker.mode = .off → new = { old with
                state := .stopped, cause := .command, flags := old.flags ||| 0x80#8 })
            ∧ s.changesOnly [.streams, .command, .result, .targetResponse] t))

/-- PAUSE and RESUME with the states in which they are taken: PAUSE holds the walker of a Talk Stream and
leaves that of a Listen Stream walking; RESUME walks again, sets priming by the FIFO and chooses the
state by the held count and caught-up (R126, R131, R149). -/
def Obligations.PauseAndResumeStream : Prop :=
  ∀ (k : StreamNo) (s : State), s.resetAsserted = false →
    let old := s.streams[k]
    (∃ t, exec (.pause k) s = .next t ∧
      let taken := old.state = .acquiring ∨ old.state = .running ∨ old.state = .drained
      let new := t.streams[k]
      s.otherStreamsSame k t ∧ s.changesOnly [.streams, .command, .result, .targetResponse] t
      ∧ (¬ taken → t.result = .badState ∧ new = old)
      ∧ (taken → t.result = .ok
          ∧ new = { old with state := .paused, walker := { old.walker with mode := new.walker.mode } }
          ∧ new.walker.mode = (if old.isTalk = true ∧ old.walker.mode = .walking then .held
              else old.walker.mode))) ∧
    ∃ t, exec (.resume k) s = .next t ∧
      let new := t.streams[k]
      s.otherStreamsSame k t ∧ s.changesOnly [.streams, .command, .result, .targetResponse] t
      ∧ (old.state ≠ .paused → t.result = .badState ∧ new = old)
      ∧ (old.state = .paused → t.result = .ok)
      ∧ (old.state = .paused → old.isTalk = true →
          new.state = (if old.held = 0 then .acquiring
            else if old.walker.caughtUp then .drained else .running)
          ∧ (old.held ≠ 0 → old.walker.caughtUp = true → new.drainStart = s.mku.count)
          ∧ (new.priming = true ↔ old.fifo = [])
          ∧ (old.walker.mode = .held → new.walker = { old.walker with mode := .walking }))
      ∧ (old.state = .paused → old.isTalk = false →
          new = { old with
            state := if old.walker.caughtUp then .drained else .running
            sources := [], multiRaised := false })

/-- RESET_STREAM is taken in STOPPED, and in FAULTED once a Talk Stream is quiet and holds no own entry,
and refused with BUSY otherwise; it returns the indices, the counters, the flags and the engine to their
reset values and keeps the configuration and the enables (R44, R118, R137, R154, R163).
Which engine fields are reset is the model's reading (log 24). -/
def Obligations.ResetStreamClearsStream : Prop :=
  ∀ (k : StreamNo) (s : State), s.resetAsserted = false →
    ∃ t, exec (.resetStream k) s = .next t ∧
      let old := s.streams[k]
      let new := t.streams[k]
      let ready := old.state = .stopped ∨ (old.state = .faulted ∧ (old.isTalk = false ∨
        (old.walkerQuiet = true ∧ ∀ i : SlotNo, s.slotMap[i].stream? ≠ some k)))
      s.otherStreamsSame k t ∧ s.changesOnly [.streams, .command, .result, .targetResponse] t
      ∧ (¬ ready → t.result = .busy ∧ new = old)
      ∧ (ready → t.result = .ok ∧ new.state = .stopped ∧ new.cause = .none ∧ new.fifo = []
          ∧ new.words = 0 ∧ new.fills = 0 ∧ new.overruns = 0 ∧ new.flags = 0
          ∧ new.pauseTimer = 0 ∧ new.short = false ∧ new.walker.cur = 0 ∧ new.walker.fetch = 0
          ∧ new.walker.ready = 0 ∧ new.walker.caughtUp = false ∧ new.walker.records = []
          ∧ new.walker.access = none ∧ new.walker.mode = .off
          ∧ new.cfg = old.cfg ∧ new.enables = old.enables
          ∧ (old.isTalk = true → new.priming = false ∧ new.wordOnLine = false
              ∧ new.drainStart = 0 ∧ new.walkerQuiet = true ∧ new.entriesGone = false)
          ∧ (old.isTalk = false → new.lastWord = none ∧ new.sources = []
              ∧ new.multiRaised = false ∧ new.expect = false))

/-- CLEAR_COUNTERS zeroes every counter of the station and of all streams and nothing else; a code that
names no command gives BAD_COMMAND and a stream index above 7 BAD_STREAM, changing nothing but COMMAND
and RESULT (R162, R169).
Reserved operands of BAD_COMMAND and the read-back of COMMAND are the model's readings (logs 15,
16). -/
def Obligations.ClearCountersAndBadCommands : Prop :=
  ∀ s : State, s.resetAsserted = false →
    (∀ index : BitVec 4, ∃ t, exec (.clearCounters index) s = .next t ∧ t.result = .ok
      ∧ t.counters = ⟨0, 0, 0, 0, 0, 0⟩
      ∧ (∀ k : StreamNo,
          t.streams[k] = { s.streams[k] with words := 0, fills := 0, overruns := 0 })
      ∧ s.changesOnly [.counters, .streams, .command, .result, .targetResponse] t) ∧
    (∀ code index : BitVec 4, commandNamesNothing code index = true →
      exec (.badCommand code index) s = .next { s with
        command := BitVec.ofNat 32 (index.toNat * 256 + code.toNat)
        result := if code = 0 ∨ 9 ≤ code.toNat then .badCommand else .badStream
        targetResponse := .answered })

/-! ### The register window -/

/-- A configuration word of a STOPPED stream is written whole, so that it reads back in its named bits; in
every other state the word keeps its value and LOCKED_WRITE is raised. No command but a hardware reset
changes the configuration of a stream that is not STOPPED (R119, R139, R167, section 10.2).
Reads are the function `readWord` (log 23). -/
def Obligations.ConfigurationLock : Prop :=
  (∀ (k : StreamNo) (which : ConfigWord) (value : Word) (s : State), s.resetAsserted = false →
    ∃ t, exec (.configWrite k which value) s = .next t ∧ t.targetResponse = .answered
      ∧ (s.streams[k].state ≠ .stopped → t.stationFlags = s.stationFlags ||| 0x100#9
          ∧ s.changesOnly [.stationFlags, .targetResponse] t)
      ∧ (s.streams[k].state = .stopped →
          s.otherStreamsSame k t ∧ s.changesOnly [.streams, .targetResponse] t
          ∧ t.streams[k] = { s.streams[k] with cfg := t.streams[k].cfg }
          ∧ (∀ j : Fin 3, t.readWord (BitVec.ofNat 8 (64 + 8 * k.val + j.val)) =
              match which, j.val with
              | .config, 0 => value &&& 0xFF0FFF7F#32
              | .mask, 1 => value &&& 0xFF#32
              | .ringBase, 2 => value
              | _, _ => s.readWord (BitVec.ofNat 8 (64 + 8 * k.val + j.val))))) ∧
  ∀ (c : Instr) (k : StreamNo) (s t : State), c.isReset = false → exec c s = .next t →
    s.streams[k].state ≠ .stopped → t.streams[k].cfg = s.streams[k].cfg

/-- A write to a flag word Clears each flag written as 1 and leaves each flag written as 0, all in one
change, and raises nothing (R157). An enable write sets the enables and no flag (R158). A summary bit is
Set exactly while some flag of its word is both Set and enabled, and LINT# is asserted exactly while some
summary bit is Set and RESET# is not asserted (R159, R172). -/
def Obligations.EventWordsDecideInterrupt : Prop :=
  (∀ (value : Word) (s : State), s.resetAsserted = false →
    (∃ t, exec (.flagWrite .station value) s = .next t
      ∧ (∀ b < 9, t.stationFlags.getLsbD b = (s.stationFlags.getLsbD b && !value.getLsbD b))
      ∧ s.changesOnly [.stationFlags, .targetResponse] t) ∧
    ∀ k : StreamNo, ∃ t, exec (.flagWrite (.stream k) value) s = .next t
      ∧ (∀ b < 8, t.streams[k].flags.getLsbD b =
          (s.streams[k].flags.getLsbD b && !value.getLsbD b))
      ∧ t.streams[k] = { s.streams[k] with flags := t.streams[k].flags }
      ∧ s.otherStreamsSame k t ∧ s.changesOnly [.streams, .targetResponse] t) ∧
  (∀ (value : Word) (s : State), s.resetAsserted = false →
    (∃ t, exec (.enableWrite .station value) s = .next t
      ∧ t.stationEnables = value.setWidth 9
      ∧ s.changesOnly [.stationEnables, .targetResponse] t) ∧
    ∀ k : StreamNo, ∃ t, exec (.enableWrite (.stream k) value) s = .next t
      ∧ t.streams[k] = { s.streams[k] with enables := value.setWidth 8 }
      ∧ s.otherStreamsSame k t ∧ s.changesOnly [.streams, .targetResponse] t) ∧
  ∀ s : State,
    (∀ k : StreamNo, s.summary.getLsbD k.val = true ↔
      ∃ b, s.streams[k].flags.getLsbD b = true ∧ s.streams[k].enables.getLsbD b = true) ∧
    (s.summary.getLsbD 8 = true ↔
      ∃ b, s.stationFlags.getLsbD b = true ∧ s.stationEnables.getLsbD b = true) ∧
    (s.lintAsserted = true ↔ s.resetAsserted = false ∧ ∃ b, s.summary.getLsbD b = true)

/-- Every word of the window reads as the tables of section 10.2 lay it out, from the state of the blocks
that own its fields: straps, membership and sync, round count, roster, command and result, flags,
enables, summary, counters, the words of each stream context, the map view and the roster view; every
other word reads 0. A write to a read-only or unnamed word is answered and changes nothing, LOCKED_WRITE
included, so every word reads as before (R21, R82, R159, R161, R165, R166, R168, section 10.2).
Reads are the function `readWord` (log 23), COMMAND reads its named bits (log 15), and the result code is
that of section 10.5. -/
def Obligations.RegisterWindowReads : Prop :=
  (∀ s : State,
    (s.readWord 0).toNat = s.straps.stn.toNat + 256 * s.straps.rate.toNat
      + 4096 * s.straps.autojoin.toNat
    ∧ (s.readWord 1).toNat = (match s.rsu.membership with
        | .dormant => 0 | .listening => 1 | .joining => 2 | .member => 3 | .leaving => 4
        | .isolated => 5) + (if s.lnu.sync = .synced then 256 else 0)
    ∧ s.readWord 2 = s.mku.count
    ∧ (∀ n : StationNo, (s.readWord 3).getLsbD n.toNat = true ↔ n ≠ 0 ∧ s.rsu.entry n ≠ .absent)
    ∧ s.readWord 4 = s.command &&& 0x00000F0F#32
    ∧ (s.readWord 5).toNat = (match s.result with
        | .ok => 0 | .badState => 1 | .badConfig => 2 | .notMember => 3 | .overcommit => 4
        | .tagInUse => 5 | .busy => 6 | .badStream => 7 | .badCommand => 8)
    ∧ (s.readWord 16).toNat = s.stationFlags.toNat ∧ (s.readWord 17).toNat = s.stationEnables.toNat
    ∧ (s.readWord 18).toNat = s.summary.toNat
    ∧ (s.readWord 20).toNat = s.counters.checkErr.toNat + 65536 * s.counters.collide.toNat
    ∧ (s.readWord 21).toNat = s.counters.takeover.toNat + 65536 * s.counters.aged.toNat
    ∧ (s.readWord 22).toNat = s.counters.correct.toNat + 65536 * s.counters.contend.toNat) ∧
  (∀ (k : StreamNo) (s : State),
    let st := s.streams[k]
    let word (n : Nat) : Word := s.readWord (BitVec.ofNat 8 (64 + 8 * k.val + n))
    (s.readWord (BitVec.ofNat 8 (24 + k.val))).toNat = st.flags.toNat
    ∧ (s.readWord (BitVec.ofNat 8 (32 + k.val))).toNat = st.enables.toNat
    ∧ (word 0).toNat = (if st.isTalk then 0 else 1) + 2 * st.cfg.filterMode.toNat
        + 8 * st.cfg.gapPolicy.toNat + 32 * st.cfg.loop.toNat + 64 * st.cfg.align.toNat
        + 256 * st.cfg.tag.toNat + 65536 * st.cfg.wanted.toNat + 16777216 * st.cfg.grace.toNat
    ∧ (word 1).toNat = st.cfg.mask.toNat ∧ word 2 = st.cfg.ringBase
    ∧ (word 3).toNat = st.walker.ready.toNat
    ∧ (st.held < 16 → (word 4).toNat = st.walker.cur.toNat + 256 * st.walker.caughtUp.toNat
        + 4096 * (match st.state with
          | .stopped => 0 | .acquiring => 1 | .running => 2 | .paused => 3 | .drained => 4
          | .stopping => 5 | .faulted => 6)
        + 65536 * (match st.cause with
          | .none => 0 | .command => 1 | .drain => 2 | .memory => 3 | .duplicate => 4)
        + (if st.isTalk then 1048576 * st.held + 16777216 * st.short.toNat else 0))
    ∧ word 5 = st.words ∧ (word 6).toNat = st.fills.toNat + 65536 * st.overruns.toNat ∧ word 7 = 0) ∧
  (∀ (i : SlotNo) (s : State), (s.readWord (BitVec.ofNat 8 (128 + i.val))).toNat =
    match s.slotMap[i] with
    | .free => 0
    | .held x g n => 1 + 256 * x.toNat + 65536 * g.toNat + 16777216 * n.val
    | .claiming g k _ => 2 + 256 * s.straps.stn.toNat + 65536 * g.toNat + 536870912 * k.val
    | .mine g k => 3 + 256 * s.straps.stn.toNat + 65536 * g.toNat + 536870912 * k.val
    | .releasing g k _ => 4 + 256 * s.straps.stn.toNat + 65536 * g.toNat + 536870912 * k.val
    | .collided g k b => 5 + 256 * s.straps.stn.toNat + 65536 * g.toNat + 16777216 * b.toNat
        + 536870912 * k.val) ∧
  (∀ (n : StationNo) (s : State), (s.readWord (BitVec.ofNat 8 (176 + n.toNat))).toNat =
    if n = 0 then 0 else match s.rsu.entry n with
      | .absent => 0 | .present => 1 | .suspect1 => 18 | .suspect2 => 34) ∧
  (∀ (index : BitVec 8) (s : State),
    (6 ≤ index.toNat ∧ index.toNat < 16) ∨ index = 19 ∨ index = 23
      ∨ (40 ≤ index.toNat ∧ index.toNat < 64) ∨ 208 ≤ index.toNat → s.readWord index = 0) ∧
  ∀ (index : BitVec 8) (value : Word) (s : State), s.resetAsserted = false →
    writableIndex index = false →
    exec (.registerWrite index value) s = .next { s with targetResponse := .answered } ∧
    ∀ i : BitVec 8, State.readWord { s with targetResponse := .answered } i = s.readWord i

/-! ### The cell on the line -/

/-- Every cell a sender can form is read back from its 64 content bits, field for field (R4, R5), and a
position that hears exactly the 80 bits sent there, without a violation, classifies it as that clean
cell and judges the echo a match (R4, R10, R11, R12). The levels that the cell is sent as, a 1 low then
high and a 0 high then low, have one onset, at their start, and a position that starts there hears
exactly those 80 bits, without a violation (R4, R9).
That a line at rest is high, and the half bit time as the grain of time, are the model's choices
(log 34). -/
def Obligations.SentCellsReadBack : Prop :=
  ∀ (c : Cell), c.wf = true →
    Cell.decode c.encode = some c ∧
    (∀ p : Position, c.kind.allowedAt p = true →
      classify p (.candidate ⟨frameOf c.encode, false⟩ false) = .clean c ∧
      echoMatches p c (.candidate ⟨frameOf c.encode, false⟩ false) = true) ∧
    ∀ start : Instant, 16 ≤ start →
      (∀ i < 80, (c.waveform start).level (2 * start + 2 * i) = !(frameOf c.encode).getMsbD i ∧
        (c.waveform start).level (2 * start + 2 * i + 1) = (frameOf c.encode).getMsbD i) ∧
      (∀ h, (c.waveform start).onset h = true ↔ h = 2 * start) ∧
      ∀ reported : Instant,
        (c.waveform start).heardIn start reported = .candidate ⟨frameOf c.encode, false⟩ false

/-- The check is the remainder of the content, with bit 63 the highest term, times x^8 on division by the
generator x^8 + x^2 + x + 1; it is linear in exclusive-OR; a content of 0 has check 00h and is garbled
all the same; and a check that differs makes the cell garbled (R6). -/
def Obligations.CheckIsPolynomialRemainder : Prop :=
  let poly (n : Nat) (v : Nat) : Polynomial (ZMod 2) :=
    ∑ i ∈ Finset.range n, if v.testBit i then (Polynomial.X : Polynomial (ZMod 2)) ^ i else 0
  (∀ c : BitVec 64, poly 8 (crc8 c).toNat =
    (poly 64 c.toNat * Polynomial.X ^ 8) %
      (Polynomial.X ^ 8 + Polynomial.X ^ 2 + Polynomial.X + 1)) ∧
  (∀ a b : BitVec 64, crc8 (a ^^^ b) = crc8 a ^^^ crc8 b) ∧
  crc8 0 = 0 ∧ Cell.decode 0 = none ∧
  (∀ c : BitVec 64, frameOf c = preamble ++ c ++ crc8 c) ∧
  ∀ (p : Position) (k : Candidate), k.bits.extractLsb' 0 8 ≠ crc8 (k.bits.extractLsb' 8 64) →
    k.clean p = none

/-- A clean cell that bears this station's own number, heard where it has no cell on the line, is reported
as a duplicate-address sighting and as nothing else, and any other clean cell with its fields; a garbled or
silent Data Slot and a garbled mark-window candidate are reported, and nothing is of a garbled or silent
Open Slot or of a candidate outside a position; where this station's cell is on the line, the echo result
is the report, but a candidate that began before the own MARK is reported by itself (R12, R13, R14, R16,
R17). A quiet span is silent, also where the candidate of the previous position runs over into it, and
other carrier out of place or present already makes the position garbled (R9).
The order operands are the model's (log 6), half bit times its grain (log 34). Its choices are that an
earlier onset in the mark window spoils no own MARK (log 39) and its candidate is reported by itself
(log 42), that a MARK with the own number is a sighting while UNSYNCED (log 40) and later in the window of
an own MARK (log 43), and that a change 2 bit times after the last is no onset (log 44). -/
def Obligations.LineReportsWhatItHears : Prop :=
  (∀ (stn : StationNo) (p : Position) (onset : Instant) (h : Heard) (first : Bool) (o : Fin 24)
    (l : LineUnit),
    (l.tx = none ∨ (p = .markField ∨ p = .outside) ∧ ∃ own, l.tx = some own ∧ onset < own.start) →
    let report := l.report stn p onset h first o
    (∀ c, classify p h = .clean c → c.sender = stn →
      report = some (.duplicateAddressSighting p c.kind (onset + 80))) ∧
    (∀ x m, classify p h = .clean (.mark x m) → x ≠ stn →
      report = some (.cleanMark (.other onset x m) o)) ∧
    (∀ i x g d, p = .dataSlot i → classify p h = .clean (.inSlot x g d) → x ≠ stn →
      report = some (.cleanDataCell i x g d)) ∧
    (∀ w x g i, p = .openSlot w → classify p h = .clean (.claim x g i) → x ≠ stn →
      report = some (.cleanClaim w x i g)) ∧
    (∀ w x g i, p = .openSlot w → classify p h = .clean (.release x g i) → x ≠ stn →
      report = some (.cleanRelease w x i g)) ∧
    (∀ w x, p = .openSlot w → classify p h = .clean (.join x) → x ≠ stn →
      report = some (.cleanJoin w x)) ∧
    (∀ w x, p = .openSlot w → classify p h = .clean (.leave x) → x ≠ stn →
      report = some (.cleanLeave w x)) ∧
    (∀ i, p = .dataSlot i → classify p h = .garbled →
      report = some (.garbledOrSilentDataSlot i true)) ∧
    (∀ i, p = .dataSlot i → classify p h = .silent →
      report = some (.garbledOrSilentDataSlot i false)) ∧
    (p = .markField → classify p h = .garbled → report = some (.garbledMarkField (onset + 80))) ∧
    (∀ w, p = .openSlot w ∨ p = .outside → classify p h = .silent ∨ classify p h = .garbled →
      report = none)) ∧
  (∀ (stn : StationNo) (p : Position) (onset start : Instant) (c : Cell) (k : Option StreamNo)
    (h : Heard) (first : Bool) (o : Fin 24) (l : LineUnit), l.tx = some ⟨p, start, c, k⟩ →
    (p = .markField ∨ p = .outside → start ≤ onset) →
    let report := l.report stn p onset h first o
    let same := ∃ b, h = .candidate b false ∧ classify p h ≠ .garbled ∧ b.content = c.encode
    (∀ i, p = .dataSlot i → ∃ m, report = some (.dataSlotEcho m first) ∧ (m = true ↔ same)) ∧
    (∀ w, p = .openSlot w → ∃ m, report = some (.openSlotEcho m) ∧ (m = true ↔ same)) ∧
    (p = .markField ∨ p = .outside →
      (same → report = some (.cleanMark .own o)) ∧ (¬ same → report = some .markEchoMismatch))) ∧
  ∀ (w : Waveform) (start reported : Instant), 112 ≤ start →
    let opens := 2 * (start - 16)
    let ends := 2 * (start + 80)
    let present := w.carrier opens = true ∧ w.carrier (opens - 1) = true
    let excepted := ∃ h, w.onset h = true ∧ 2 * (start - 112) ≤ h ∧ h ≤ 2 * (start - 80)
      ∧ ∀ h', h < h' → h' < opens → w.onset h' = false
    (¬ present ∨ excepted → (∀ h, opens ≤ h → h < ends → w.onset h = false) →
      w.heardIn start reported = .quiet) ∧
    (present → ¬ excepted → w.heardIn start reported = .misplaced) ∧
    (¬ present ∨ excepted → ∀ h, opens ≤ h → h < ends → w.onset h = true →
      (∀ h', opens ≤ h' → h' < h → w.onset h' = false) →
      (h ≤ 2 * (start + 16) → ∃ second, w.heardIn start reported = .candidate (w.candidate h) second
        ∧ (second = true ↔
          ∃ h', h + 160 ≤ h' ∧ h' < ends ∧ h' < 2 * reported ∧ w.onset h' = true)) ∧
      (2 * (start + 16) < h → w.heardIn start reported = .misplaced))

/-! ### Invariants -/

/-- Every step keeps: the held counts are the MINE entries (R23), the station has at most 16 own entries
(R22), and every HELD entry is another station's with a tag (R21). -/
def Obligations.StepKeepsSlotMapSound : Prop :=
  ∀ s t : State, HeldCountsMatch s ∧ OwnWithinLimit s ∧ HeldEntriesForeign s → step s = .next t →
    HeldCountsMatch t ∧ OwnWithinLimit t ∧ HeldEntriesForeign t

/-- Every step keeps the own roster entry PRESENT exactly in MEMBER and LEAVING (R82). -/
def Obligations.StepKeepsOwnRosterEntry : Prop :=
  ∀ s t : State, OwnEntryFollows s → step s = .next t → OwnEntryFollows t

/-- Every step keeps the queue within 8 entries, one for a slot and one JOIN or LEAVE (R46), in step with the
queued marks of the map (R28). -/
def Obligations.StepKeepsQueueInStep : Prop :=
  ∀ s t : State, QueueSound s ∧ MapQueueAgree s → step s = .next t →
    QueueSound t ∧ MapQueueAgree t

/-- Every step keeps the fetch index of every stream at C or C + 1 (R100). -/
def Obligations.StepKeepsFetchNearCurrent : Prop :=
  ∀ s t : State, FetchNearCurrent s → step s = .next t → FetchNearCurrent t

/-- A station strapped with number 0 never sends: every step keeps it DORMANT, without own entries, with
nothing queued and nothing on the line, RESET_RELEASE with another number apart (R97, R171). -/
def Obligations.StepKeepsListenOnlySilent : Prop :=
  ∀ s t : State, ListenOnlySilent s → step s = .next t → ListenOnlySilent t

/-- Every step keeps the wanted counts of the Talk Streams that are not STOPPED at 16 at most (R122), and the
entries of every FIFO with the places a read has reserved at 16 at most, with what keeps them so (R100,
R103, R107, R121). -/
def Obligations.StepKeepsStreamsWithinLimits : Prop :=
  ∀ s t : State, step s = .next t →
    (CommitWithinLimit s → CommitWithinLimit t) ∧ (FifosWithinLimit s → FifosWithinLimit t)

/-- The invariants hold right after reset, whatever the straps. -/
def Obligations.InvariantsHoldAfterReset : Prop :=
  ∀ x : Straps, let s := State.afterReset x
    HeldCountsMatch s ∧ OwnWithinLimit s ∧ HeldEntriesForeign s ∧ OwnEntryFollows s ∧ QueueSound s
      ∧ MapQueueAgree s ∧ FetchNearCurrent s ∧ ListenOnlySilent s
      ∧ CommitWithinLimit s ∧ FifosWithinLimit s
end

