-- ==== Sys2Proof/Laws/State.lean ====
section
/-! SUPPORT. Each named update of the state read at each field. -/

namespace Sys2Proof.Machine

/-! ### `State.onLnu` -/

@[simp] theorem State.onLnu_resetAsserted (f : LineUnit → LineUnit) (s : State) :
    (s.onLnu f).resetAsserted = s.resetAsserted := rfl

@[simp] theorem State.onLnu_straps (f : LineUnit → LineUnit) (s : State) :
    (s.onLnu f).straps = s.straps := rfl

@[simp] theorem State.onLnu_lnu (f : LineUnit → LineUnit) (s : State) :
    (s.onLnu f).lnu = f s.lnu := rfl

@[simp] theorem State.onLnu_mku (f : LineUnit → LineUnit) (s : State) :
    (s.onLnu f).mku = s.mku := rfl

@[simp] theorem State.onLnu_rsu (f : LineUnit → LineUnit) (s : State) :
    (s.onLnu f).rsu = s.rsu := rfl

@[simp] theorem State.onLnu_slotMap (f : LineUnit → LineUnit) (s : State) :
    (s.onLnu f).slotMap = s.slotMap := rfl

@[simp] theorem State.onLnu_ccq (f : LineUnit → LineUnit) (s : State) :
    (s.onLnu f).ccq = s.ccq := rfl

@[simp] theorem State.onLnu_streams (f : LineUnit → LineUnit) (s : State) :
    (s.onLnu f).streams = s.streams := rfl

@[simp] theorem State.onLnu_nextGrant (f : LineUnit → LineUnit) (s : State) :
    (s.onLnu f).nextGrant = s.nextGrant := rfl

@[simp] theorem State.onLnu_stationFlags (f : LineUnit → LineUnit) (s : State) :
    (s.onLnu f).stationFlags = s.stationFlags := rfl

@[simp] theorem State.onLnu_stationEnables (f : LineUnit → LineUnit) (s : State) :
    (s.onLnu f).stationEnables = s.stationEnables := rfl

@[simp] theorem State.onLnu_counters (f : LineUnit → LineUnit) (s : State) :
    (s.onLnu f).counters = s.counters := rfl

@[simp] theorem State.onLnu_command (f : LineUnit → LineUnit) (s : State) :
    (s.onLnu f).command = s.command := rfl

@[simp] theorem State.onLnu_result (f : LineUnit → LineUnit) (s : State) :
    (s.onLnu f).result = s.result := rfl

@[simp] theorem State.onLnu_targetResponse (f : LineUnit → LineUnit) (s : State) :
    (s.onLnu f).targetResponse = s.targetResponse := rfl

@[simp] theorem State.onLnu_freeDraws (f : LineUnit → LineUnit) (s : State) :
    (s.onLnu f).freeDraws = s.freeDraws := rfl

@[simp] theorem State.onLnu_pending (f : LineUnit → LineUnit) (s : State) :
    (s.onLnu f).pending = s.pending := rfl

/-! ### `State.onMku` -/

@[simp] theorem State.onMku_resetAsserted (f : MarkUnit → MarkUnit) (s : State) :
    (s.onMku f).resetAsserted = s.resetAsserted := rfl

@[simp] theorem State.onMku_straps (f : MarkUnit → MarkUnit) (s : State) :
    (s.onMku f).straps = s.straps := rfl

@[simp] theorem State.onMku_lnu (f : MarkUnit → MarkUnit) (s : State) :
    (s.onMku f).lnu = s.lnu := rfl

@[simp] theorem State.onMku_mku (f : MarkUnit → MarkUnit) (s : State) :
    (s.onMku f).mku = f s.mku := rfl

@[simp] theorem State.onMku_rsu (f : MarkUnit → MarkUnit) (s : State) :
    (s.onMku f).rsu = s.rsu := rfl

@[simp] theorem State.onMku_slotMap (f : MarkUnit → MarkUnit) (s : State) :
    (s.onMku f).slotMap = s.slotMap := rfl

@[simp] theorem State.onMku_ccq (f : MarkUnit → MarkUnit) (s : State) :
    (s.onMku f).ccq = s.ccq := rfl

@[simp] theorem State.onMku_streams (f : MarkUnit → MarkUnit) (s : State) :
    (s.onMku f).streams = s.streams := rfl

@[simp] theorem State.onMku_nextGrant (f : MarkUnit → MarkUnit) (s : State) :
    (s.onMku f).nextGrant = s.nextGrant := rfl

@[simp] theorem State.onMku_stationFlags (f : MarkUnit → MarkUnit) (s : State) :
    (s.onMku f).stationFlags = s.stationFlags := rfl

@[simp] theorem State.onMku_stationEnables (f : MarkUnit → MarkUnit) (s : State) :
    (s.onMku f).stationEnables = s.stationEnables := rfl

@[simp] theorem State.onMku_counters (f : MarkUnit → MarkUnit) (s : State) :
    (s.onMku f).counters = s.counters := rfl

@[simp] theorem State.onMku_command (f : MarkUnit → MarkUnit) (s : State) :
    (s.onMku f).command = s.command := rfl

@[simp] theorem State.onMku_result (f : MarkUnit → MarkUnit) (s : State) :
    (s.onMku f).result = s.result := rfl

@[simp] theorem State.onMku_targetResponse (f : MarkUnit → MarkUnit) (s : State) :
    (s.onMku f).targetResponse = s.targetResponse := rfl

@[simp] theorem State.onMku_freeDraws (f : MarkUnit → MarkUnit) (s : State) :
    (s.onMku f).freeDraws = s.freeDraws := rfl

@[simp] theorem State.onMku_pending (f : MarkUnit → MarkUnit) (s : State) :
    (s.onMku f).pending = s.pending := rfl

/-! ### `State.onRsu` -/

@[simp] theorem State.onRsu_resetAsserted (f : RosterUnit → RosterUnit) (s : State) :
    (s.onRsu f).resetAsserted = s.resetAsserted := rfl

@[simp] theorem State.onRsu_straps (f : RosterUnit → RosterUnit) (s : State) :
    (s.onRsu f).straps = s.straps := rfl

@[simp] theorem State.onRsu_lnu (f : RosterUnit → RosterUnit) (s : State) :
    (s.onRsu f).lnu = s.lnu := rfl

@[simp] theorem State.onRsu_mku (f : RosterUnit → RosterUnit) (s : State) :
    (s.onRsu f).mku = s.mku := rfl

@[simp] theorem State.onRsu_rsu (f : RosterUnit → RosterUnit) (s : State) :
    (s.onRsu f).rsu = f s.rsu := rfl

@[simp] theorem State.onRsu_slotMap (f : RosterUnit → RosterUnit) (s : State) :
    (s.onRsu f).slotMap = s.slotMap := rfl

@[simp] theorem State.onRsu_ccq (f : RosterUnit → RosterUnit) (s : State) :
    (s.onRsu f).ccq = s.ccq := rfl

@[simp] theorem State.onRsu_streams (f : RosterUnit → RosterUnit) (s : State) :
    (s.onRsu f).streams = s.streams := rfl

@[simp] theorem State.onRsu_nextGrant (f : RosterUnit → RosterUnit) (s : State) :
    (s.onRsu f).nextGrant = s.nextGrant := rfl

@[simp] theorem State.onRsu_stationFlags (f : RosterUnit → RosterUnit) (s : State) :
    (s.onRsu f).stationFlags = s.stationFlags := rfl

@[simp] theorem State.onRsu_stationEnables (f : RosterUnit → RosterUnit) (s : State) :
    (s.onRsu f).stationEnables = s.stationEnables := rfl

@[simp] theorem State.onRsu_counters (f : RosterUnit → RosterUnit) (s : State) :
    (s.onRsu f).counters = s.counters := rfl

@[simp] theorem State.onRsu_command (f : RosterUnit → RosterUnit) (s : State) :
    (s.onRsu f).command = s.command := rfl

@[simp] theorem State.onRsu_result (f : RosterUnit → RosterUnit) (s : State) :
    (s.onRsu f).result = s.result := rfl

@[simp] theorem State.onRsu_targetResponse (f : RosterUnit → RosterUnit) (s : State) :
    (s.onRsu f).targetResponse = s.targetResponse := rfl

@[simp] theorem State.onRsu_freeDraws (f : RosterUnit → RosterUnit) (s : State) :
    (s.onRsu f).freeDraws = s.freeDraws := rfl

@[simp] theorem State.onRsu_pending (f : RosterUnit → RosterUnit) (s : State) :
    (s.onRsu f).pending = s.pending := rfl

/-! ### `State.onCcq` -/

@[simp] theorem State.onCcq_resetAsserted (f : CellQueue → CellQueue) (s : State) :
    (s.onCcq f).resetAsserted = s.resetAsserted := rfl

@[simp] theorem State.onCcq_straps (f : CellQueue → CellQueue) (s : State) :
    (s.onCcq f).straps = s.straps := rfl

@[simp] theorem State.onCcq_lnu (f : CellQueue → CellQueue) (s : State) :
    (s.onCcq f).lnu = s.lnu := rfl

@[simp] theorem State.onCcq_mku (f : CellQueue → CellQueue) (s : State) :
    (s.onCcq f).mku = s.mku := rfl

@[simp] theorem State.onCcq_rsu (f : CellQueue → CellQueue) (s : State) :
    (s.onCcq f).rsu = s.rsu := rfl

@[simp] theorem State.onCcq_slotMap (f : CellQueue → CellQueue) (s : State) :
    (s.onCcq f).slotMap = s.slotMap := rfl

@[simp] theorem State.onCcq_ccq (f : CellQueue → CellQueue) (s : State) :
    (s.onCcq f).ccq = f s.ccq := rfl

@[simp] theorem State.onCcq_streams (f : CellQueue → CellQueue) (s : State) :
    (s.onCcq f).streams = s.streams := rfl

@[simp] theorem State.onCcq_nextGrant (f : CellQueue → CellQueue) (s : State) :
    (s.onCcq f).nextGrant = s.nextGrant := rfl

@[simp] theorem State.onCcq_stationFlags (f : CellQueue → CellQueue) (s : State) :
    (s.onCcq f).stationFlags = s.stationFlags := rfl

@[simp] theorem State.onCcq_stationEnables (f : CellQueue → CellQueue) (s : State) :
    (s.onCcq f).stationEnables = s.stationEnables := rfl

@[simp] theorem State.onCcq_counters (f : CellQueue → CellQueue) (s : State) :
    (s.onCcq f).counters = s.counters := rfl

@[simp] theorem State.onCcq_command (f : CellQueue → CellQueue) (s : State) :
    (s.onCcq f).command = s.command := rfl

@[simp] theorem State.onCcq_result (f : CellQueue → CellQueue) (s : State) :
    (s.onCcq f).result = s.result := rfl

@[simp] theorem State.onCcq_targetResponse (f : CellQueue → CellQueue) (s : State) :
    (s.onCcq f).targetResponse = s.targetResponse := rfl

@[simp] theorem State.onCcq_freeDraws (f : CellQueue → CellQueue) (s : State) :
    (s.onCcq f).freeDraws = s.freeDraws := rfl

@[simp] theorem State.onCcq_pending (f : CellQueue → CellQueue) (s : State) :
    (s.onCcq f).pending = s.pending := rfl

/-! ### `State.onCounters` -/

@[simp] theorem State.onCounters_resetAsserted (f : StationCounters → StationCounters) (s : State) :
    (s.onCounters f).resetAsserted = s.resetAsserted := rfl

@[simp] theorem State.onCounters_straps (f : StationCounters → StationCounters) (s : State) :
    (s.onCounters f).straps = s.straps := rfl

@[simp] theorem State.onCounters_lnu (f : StationCounters → StationCounters) (s : State) :
    (s.onCounters f).lnu = s.lnu := rfl

@[simp] theorem State.onCounters_mku (f : StationCounters → StationCounters) (s : State) :
    (s.onCounters f).mku = s.mku := rfl

@[simp] theorem State.onCounters_rsu (f : StationCounters → StationCounters) (s : State) :
    (s.onCounters f).rsu = s.rsu := rfl

@[simp] theorem State.onCounters_slotMap (f : StationCounters → StationCounters) (s : State) :
    (s.onCounters f).slotMap = s.slotMap := rfl

@[simp] theorem State.onCounters_ccq (f : StationCounters → StationCounters) (s : State) :
    (s.onCounters f).ccq = s.ccq := rfl

@[simp] theorem State.onCounters_streams (f : StationCounters → StationCounters) (s : State) :
    (s.onCounters f).streams = s.streams := rfl

@[simp] theorem State.onCounters_nextGrant (f : StationCounters → StationCounters) (s : State) :
    (s.onCounters f).nextGrant = s.nextGrant := rfl

@[simp] theorem State.onCounters_stationFlags (f : StationCounters → StationCounters) (s : State) :
    (s.onCounters f).stationFlags = s.stationFlags := rfl

@[simp] theorem State.onCounters_stationEnables (f : StationCounters → StationCounters) (s : State) :
    (s.onCounters f).stationEnables = s.stationEnables := rfl

@[simp] theorem State.onCounters_counters (f : StationCounters → StationCounters) (s : State) :
    (s.onCounters f).counters = f s.counters := rfl

@[simp] theorem State.onCounters_command (f : StationCounters → StationCounters) (s : State) :
    (s.onCounters f).command = s.command := rfl

@[simp] theorem State.onCounters_result (f : StationCounters → StationCounters) (s : State) :
    (s.onCounters f).result = s.result := rfl

@[simp] theorem State.onCounters_targetResponse (f : StationCounters → StationCounters) (s : State) :
    (s.onCounters f).targetResponse = s.targetResponse := rfl

@[simp] theorem State.onCounters_freeDraws (f : StationCounters → StationCounters) (s : State) :
    (s.onCounters f).freeDraws = s.freeDraws := rfl

@[simp] theorem State.onCounters_pending (f : StationCounters → StationCounters) (s : State) :
    (s.onCounters f).pending = s.pending := rfl

/-! ### `State.putEntry` -/

@[simp] theorem State.putEntry_resetAsserted (i : SlotNo) (e : SlotEntry) (s : State) :
    (s.putEntry i e).resetAsserted = s.resetAsserted := rfl

@[simp] theorem State.putEntry_straps (i : SlotNo) (e : SlotEntry) (s : State) :
    (s.putEntry i e).straps = s.straps := rfl

@[simp] theorem State.putEntry_lnu (i : SlotNo) (e : SlotEntry) (s : State) :
    (s.putEntry i e).lnu = s.lnu := rfl

@[simp] theorem State.putEntry_mku (i : SlotNo) (e : SlotEntry) (s : State) :
    (s.putEntry i e).mku = s.mku := rfl

@[simp] theorem State.putEntry_rsu (i : SlotNo) (e : SlotEntry) (s : State) :
    (s.putEntry i e).rsu = s.rsu := rfl

@[simp] theorem State.putEntry_slotMap (i : SlotNo) (e : SlotEntry) (s : State) :
    (s.putEntry i e).slotMap = s.slotMap.set i e := rfl

@[simp] theorem State.putEntry_ccq (i : SlotNo) (e : SlotEntry) (s : State) :
    (s.putEntry i e).ccq = s.ccq := rfl

@[simp] theorem State.putEntry_streams (i : SlotNo) (e : SlotEntry) (s : State) :
    (s.putEntry i e).streams = s.streams := rfl

@[simp] theorem State.putEntry_nextGrant (i : SlotNo) (e : SlotEntry) (s : State) :
    (s.putEntry i e).nextGrant = s.nextGrant := rfl

@[simp] theorem State.putEntry_stationFlags (i : SlotNo) (e : SlotEntry) (s : State) :
    (s.putEntry i e).stationFlags = s.stationFlags := rfl

@[simp] theorem State.putEntry_stationEnables (i : SlotNo) (e : SlotEntry) (s : State) :
    (s.putEntry i e).stationEnables = s.stationEnables := rfl

@[simp] theorem State.putEntry_counters (i : SlotNo) (e : SlotEntry) (s : State) :
    (s.putEntry i e).counters = s.counters := rfl

@[simp] theorem State.putEntry_command (i : SlotNo) (e : SlotEntry) (s : State) :
    (s.putEntry i e).command = s.command := rfl

@[simp] theorem State.putEntry_result (i : SlotNo) (e : SlotEntry) (s : State) :
    (s.putEntry i e).result = s.result := rfl

@[simp] theorem State.putEntry_targetResponse (i : SlotNo) (e : SlotEntry) (s : State) :
    (s.putEntry i e).targetResponse = s.targetResponse := rfl

@[simp] theorem State.putEntry_freeDraws (i : SlotNo) (e : SlotEntry) (s : State) :
    (s.putEntry i e).freeDraws = s.freeDraws := rfl

@[simp] theorem State.putEntry_pending (i : SlotNo) (e : SlotEntry) (s : State) :
    (s.putEntry i e).pending = s.pending := rfl

/-! ### `State.onStream` -/

@[simp] theorem State.onStream_resetAsserted (k : StreamNo) (f : Stream → Stream) (s : State) :
    (s.onStream k f).resetAsserted = s.resetAsserted := rfl

@[simp] theorem State.onStream_straps (k : StreamNo) (f : Stream → Stream) (s : State) :
    (s.onStream k f).straps = s.straps := rfl

@[simp] theorem State.onStream_lnu (k : StreamNo) (f : Stream → Stream) (s : State) :
    (s.onStream k f).lnu = s.lnu := rfl

@[simp] theorem State.onStream_mku (k : StreamNo) (f : Stream → Stream) (s : State) :
    (s.onStream k f).mku = s.mku := rfl

@[simp] theorem State.onStream_rsu (k : StreamNo) (f : Stream → Stream) (s : State) :
    (s.onStream k f).rsu = s.rsu := rfl

@[simp] theorem State.onStream_slotMap (k : StreamNo) (f : Stream → Stream) (s : State) :
    (s.onStream k f).slotMap = s.slotMap := rfl

@[simp] theorem State.onStream_ccq (k : StreamNo) (f : Stream → Stream) (s : State) :
    (s.onStream k f).ccq = s.ccq := rfl

@[simp] theorem State.onStream_nextGrant (k : StreamNo) (f : Stream → Stream) (s : State) :
    (s.onStream k f).nextGrant = s.nextGrant := rfl

@[simp] theorem State.onStream_stationFlags (k : StreamNo) (f : Stream → Stream) (s : State) :
    (s.onStream k f).stationFlags = s.stationFlags := rfl

@[simp] theorem State.onStream_stationEnables (k : StreamNo) (f : Stream → Stream) (s : State) :
    (s.onStream k f).stationEnables = s.stationEnables := rfl

@[simp] theorem State.onStream_counters (k : StreamNo) (f : Stream → Stream) (s : State) :
    (s.onStream k f).counters = s.counters := rfl

@[simp] theorem State.onStream_command (k : StreamNo) (f : Stream → Stream) (s : State) :
    (s.onStream k f).command = s.command := rfl

@[simp] theorem State.onStream_result (k : StreamNo) (f : Stream → Stream) (s : State) :
    (s.onStream k f).result = s.result := rfl

@[simp] theorem State.onStream_targetResponse (k : StreamNo) (f : Stream → Stream) (s : State) :
    (s.onStream k f).targetResponse = s.targetResponse := rfl

@[simp] theorem State.onStream_freeDraws (k : StreamNo) (f : Stream → Stream) (s : State) :
    (s.onStream k f).freeDraws = s.freeDraws := rfl

@[simp] theorem State.onStream_pending (k : StreamNo) (f : Stream → Stream) (s : State) :
    (s.onStream k f).pending = s.pending := rfl

/-! ### `State.onStreams` -/

@[simp] theorem State.onStreams_resetAsserted (f : StreamNo → Stream → Stream) (s : State) :
    (s.onStreams f).resetAsserted = s.resetAsserted := rfl

@[simp] theorem State.onStreams_straps (f : StreamNo → Stream → Stream) (s : State) :
    (s.onStreams f).straps = s.straps := rfl

@[simp] theorem State.onStreams_lnu (f : StreamNo → Stream → Stream) (s : State) :
    (s.onStreams f).lnu = s.lnu := rfl

@[simp] theorem State.onStreams_mku (f : StreamNo → Stream → Stream) (s : State) :
    (s.onStreams f).mku = s.mku := rfl

@[simp] theorem State.onStreams_rsu (f : StreamNo → Stream → Stream) (s : State) :
    (s.onStreams f).rsu = s.rsu := rfl

@[simp] theorem State.onStreams_slotMap (f : StreamNo → Stream → Stream) (s : State) :
    (s.onStreams f).slotMap = s.slotMap := rfl

@[simp] theorem State.onStreams_ccq (f : StreamNo → Stream → Stream) (s : State) :
    (s.onStreams f).ccq = s.ccq := rfl

@[simp] theorem State.onStreams_nextGrant (f : StreamNo → Stream → Stream) (s : State) :
    (s.onStreams f).nextGrant = s.nextGrant := rfl

@[simp] theorem State.onStreams_stationFlags (f : StreamNo → Stream → Stream) (s : State) :
    (s.onStreams f).stationFlags = s.stationFlags := rfl

@[simp] theorem State.onStreams_stationEnables (f : StreamNo → Stream → Stream) (s : State) :
    (s.onStreams f).stationEnables = s.stationEnables := rfl

@[simp] theorem State.onStreams_counters (f : StreamNo → Stream → Stream) (s : State) :
    (s.onStreams f).counters = s.counters := rfl

@[simp] theorem State.onStreams_command (f : StreamNo → Stream → Stream) (s : State) :
    (s.onStreams f).command = s.command := rfl

@[simp] theorem State.onStreams_result (f : StreamNo → Stream → Stream) (s : State) :
    (s.onStreams f).result = s.result := rfl

@[simp] theorem State.onStreams_targetResponse (f : StreamNo → Stream → Stream) (s : State) :
    (s.onStreams f).targetResponse = s.targetResponse := rfl

@[simp] theorem State.onStreams_freeDraws (f : StreamNo → Stream → Stream) (s : State) :
    (s.onStreams f).freeDraws = s.freeDraws := rfl

@[simp] theorem State.onStreams_pending (f : StreamNo → Stream → Stream) (s : State) :
    (s.onStreams f).pending = s.pending := rfl

/-! ### `State.installMap` -/

@[simp] theorem State.installMap_resetAsserted (m : Vector SlotEntry 48) (s : State) :
    (s.installMap m).resetAsserted = s.resetAsserted := rfl

@[simp] theorem State.installMap_straps (m : Vector SlotEntry 48) (s : State) :
    (s.installMap m).straps = s.straps := rfl

@[simp] theorem State.installMap_lnu (m : Vector SlotEntry 48) (s : State) :
    (s.installMap m).lnu = s.lnu := rfl

@[simp] theorem State.installMap_mku (m : Vector SlotEntry 48) (s : State) :
    (s.installMap m).mku = s.mku := rfl

@[simp] theorem State.installMap_rsu (m : Vector SlotEntry 48) (s : State) :
    (s.installMap m).rsu = s.rsu := rfl

@[simp] theorem State.installMap_slotMap (m : Vector SlotEntry 48) (s : State) :
    (s.installMap m).slotMap = m := rfl

@[simp] theorem State.installMap_ccq (m : Vector SlotEntry 48) (s : State) :
    (s.installMap m).ccq = s.ccq := rfl

@[simp] theorem State.installMap_nextGrant (m : Vector SlotEntry 48) (s : State) :
    (s.installMap m).nextGrant = s.nextGrant := rfl

@[simp] theorem State.installMap_stationFlags (m : Vector SlotEntry 48) (s : State) :
    (s.installMap m).stationFlags = s.stationFlags := rfl

@[simp] theorem State.installMap_stationEnables (m : Vector SlotEntry 48) (s : State) :
    (s.installMap m).stationEnables = s.stationEnables := rfl

@[simp] theorem State.installMap_counters (m : Vector SlotEntry 48) (s : State) :
    (s.installMap m).counters = s.counters := rfl

@[simp] theorem State.installMap_command (m : Vector SlotEntry 48) (s : State) :
    (s.installMap m).command = s.command := rfl

@[simp] theorem State.installMap_result (m : Vector SlotEntry 48) (s : State) :
    (s.installMap m).result = s.result := rfl

@[simp] theorem State.installMap_targetResponse (m : Vector SlotEntry 48) (s : State) :
    (s.installMap m).targetResponse = s.targetResponse := rfl

@[simp] theorem State.installMap_freeDraws (m : Vector SlotEntry 48) (s : State) :
    (s.installMap m).freeDraws = s.freeDraws := rfl

@[simp] theorem State.installMap_pending (m : Vector SlotEntry 48) (s : State) :
    (s.installMap m).pending = s.pending := rfl

/-! ### `State.raise` -/

@[simp] theorem State.raise_resetAsserted (e : StationEvent) (s : State) :
    (s.raise e).resetAsserted = s.resetAsserted := rfl

@[simp] theorem State.raise_straps (e : StationEvent) (s : State) :
    (s.raise e).straps = s.straps := rfl

@[simp] theorem State.raise_lnu (e : StationEvent) (s : State) :
    (s.raise e).lnu = s.lnu := rfl

@[simp] theorem State.raise_mku (e : StationEvent) (s : State) :
    (s.raise e).mku = s.mku := rfl

@[simp] theorem State.raise_rsu (e : StationEvent) (s : State) :
    (s.raise e).rsu = s.rsu := rfl

@[simp] theorem State.raise_slotMap (e : StationEvent) (s : State) :
    (s.raise e).slotMap = s.slotMap := rfl

@[simp] theorem State.raise_ccq (e : StationEvent) (s : State) :
    (s.raise e).ccq = s.ccq := rfl

@[simp] theorem State.raise_streams (e : StationEvent) (s : State) :
    (s.raise e).streams = s.streams := rfl

@[simp] theorem State.raise_nextGrant (e : StationEvent) (s : State) :
    (s.raise e).nextGrant = s.nextGrant := rfl

@[simp] theorem State.raise_stationFlags (e : StationEvent) (s : State) :
    (s.raise e).stationFlags = s.stationFlags ||| (1#9 <<< e.bit) := rfl

@[simp] theorem State.raise_stationEnables (e : StationEvent) (s : State) :
    (s.raise e).stationEnables = s.stationEnables := rfl

@[simp] theorem State.raise_counters (e : StationEvent) (s : State) :
    (s.raise e).counters = s.counters := rfl

@[simp] theorem State.raise_command (e : StationEvent) (s : State) :
    (s.raise e).command = s.command := rfl

@[simp] theorem State.raise_result (e : StationEvent) (s : State) :
    (s.raise e).result = s.result := rfl

@[simp] theorem State.raise_targetResponse (e : StationEvent) (s : State) :
    (s.raise e).targetResponse = s.targetResponse := rfl

@[simp] theorem State.raise_freeDraws (e : StationEvent) (s : State) :
    (s.raise e).freeDraws = s.freeDraws := rfl

@[simp] theorem State.raise_pending (e : StationEvent) (s : State) :
    (s.raise e).pending = s.pending := rfl

/-! ### Reading one element

A number of type `Fin n` indexes a vector through its value in simp's normal form, so these do too. -/

@[simp] theorem State.onStream_get (k j : StreamNo) (f : Stream → Stream) (s : State) :
    (s.onStream k f).streams[j.val] = if j = k then f s.streams[k.val] else s.streams[j.val] := by
  by_cases h : j = k
  · subst h; simp [State.onStream]
  · have h' : ¬ k.val = j.val := fun e => h (Fin.ext e.symm)
    simp [State.onStream, h, h']

@[simp] theorem State.onStreams_get (j : StreamNo) (f : StreamNo → Stream → Stream) (s : State) :
    (s.onStreams f).streams[j.val] = f j s.streams[j.val] := by
  simp [State.onStreams]

@[simp] theorem State.installMap_get (m : Vector SlotEntry 48) (j : StreamNo) (s : State) :
    (s.installMap m).streams[j.val] = reportMap s.mku.count s.slotMap m j s.streams[j.val] := by
  simp [State.installMap]

/-- One entry of a map after one entry was set. -/
theorem slotMap_set_get (m : Vector SlotEntry 48) (i j : SlotNo) (e : SlotEntry) :
    (m.set i.val e)[j.val] = if j = i then e else m[j.val] := by
  by_cases h : j = i
  · subst h; simp
  · have h' : ¬ i.val = j.val := fun e => h (Fin.ext e.symm)
    simp [h, h']

/-- One roster entry after one entry was set. -/
theorem roster_set_get (m : Vector RosterEntry 32) (i j : Fin 32) (e : RosterEntry) :
    (m.set i.val e)[j.val] = if j = i then e else m[j.val] := by
  by_cases h : j = i
  · subst h; simp
  · have h' : ¬ i.val = j.val := fun e => h (Fin.ext e.symm)
    simp [h, h']

end Sys2Proof.Machine
end

