-- ==== Sys2Proof/Laws/Frames.lean ====
section
/-! SUPPORT. What each shared operation leaves alone. -/

namespace Sys2Proof.Machine

/-! ### The relation -/

theorem State.changesOnly.refl (ps : List StatePart) (s : State) : s.changesOnly ps s := by
  intro p _; cases p <;> rfl

theorem State.changesOnly.trans {ps : List StatePart} {s t u : State} (h₁ : s.changesOnly ps t)
    (h₂ : t.changesOnly ps u) : s.changesOnly ps u := by
  intro p hp
  have a := h₁ p hp
  have b := h₂ p hp
  cases p <;> exact b.trans a

theorem State.changesOnly.mono {ps qs : List StatePart} {s t : State} (h : s.changesOnly ps t)
    (hs : ps ⊆ qs) : s.changesOnly qs t := fun p hp => h p fun hq => hp (hs hq)

/-- Two changes in a row. -/
theorem State.changesOnly.seq {ps qs rs : List StatePart} {s t u : State} (h₁ : s.changesOnly ps t)
    (h₂ : t.changesOnly qs u) (hp : ps ⊆ rs) (hq : qs ⊆ rs) : s.changesOnly rs u :=
  (h₁.mono hp).trans (h₂.mono hq)

/-- A change made for every element of a list. -/
theorem State.changesOnly.foldl {α : Type} {ps : List StatePart} (f : State → α → State)
    (h : ∀ s a, State.changesOnly ps s (f s a)) (l : List α) (s : State) :
    s.changesOnly ps (l.foldl f s) := by
  induction l generalizing s with
  | nil => exact State.changesOnly.refl ps s
  | cons a l ih => exact (h s a).trans (ih _)

/-! ### The named updates -/

theorem State.onLnu_changes (f : LineUnit → LineUnit) (s : State) :
    s.changesOnly [.lnu] (s.onLnu f) := by
  intro p hp; cases p <;> first | rfl | exact absurd (by decide) hp

theorem State.onMku_changes (f : MarkUnit → MarkUnit) (s : State) :
    s.changesOnly [.mku] (s.onMku f) := by
  intro p hp; cases p <;> first | rfl | exact absurd (by decide) hp

theorem State.onRsu_changes (f : RosterUnit → RosterUnit) (s : State) :
    s.changesOnly [.rsu] (s.onRsu f) := by
  intro p hp; cases p <;> first | rfl | exact absurd (by decide) hp

theorem State.onCcq_changes (f : CellQueue → CellQueue) (s : State) :
    s.changesOnly [.ccq] (s.onCcq f) := by
  intro p hp; cases p <;> first | rfl | exact absurd (by decide) hp

theorem State.onCounters_changes (f : StationCounters → StationCounters) (s : State) :
    s.changesOnly [.counters] (s.onCounters f) := by
  intro p hp; cases p <;> first | rfl | exact absurd (by decide) hp

theorem State.onStream_changes (k : StreamNo) (f : Stream → Stream) (s : State) :
    s.changesOnly [.streams] (s.onStream k f) := by
  intro p hp; cases p <;> first | rfl | exact absurd (by decide) hp

theorem State.onStreams_changes (f : StreamNo → Stream → Stream) (s : State) :
    s.changesOnly [.streams] (s.onStreams f) := by
  intro p hp; cases p <;> first | rfl | exact absurd (by decide) hp

theorem State.putEntry_changes (i : SlotNo) (e : SlotEntry) (s : State) :
    s.changesOnly [.slotMap] (s.putEntry i e) := by
  intro p hp; cases p <;> first | rfl | exact absurd (by decide) hp

theorem State.installMap_changes (m : Vector SlotEntry 48) (s : State) :
    s.changesOnly [.slotMap, .streams] (s.installMap m) := by
  intro p hp; cases p <;> first | rfl | exact absurd (by decide) hp

theorem State.setEntry_changes (i : SlotNo) (e : SlotEntry) (s : State) :
    s.changesOnly [.slotMap, .streams] (s.setEntry i e) := State.installMap_changes _ s

theorem State.mapEntries_changes (f : SlotEntry → SlotEntry) (s : State) :
    s.changesOnly [.slotMap, .streams] (s.mapEntries f) := State.installMap_changes _ s

theorem State.raise_changes (e : StationEvent) (s : State) :
    s.changesOnly [.stationFlags] (s.raise e) := by
  intro p hp; cases p <;> first | rfl | exact absurd (by decide) hp

theorem State.offerAll_changes (is : List SlotNo) (s : State) :
    s.changesOnly [.slotMap, .ccq] (s.offerAll is) := by
  intro p hp; cases p <;> first | rfl | exact absurd (by decide) hp

/-! ### The Slot Agent

Every operation of the Slot Agent stays within the map, the queue, the stream contexts and the
counters. -/

/-- The fields the Slot Agent's operations change. -/
abbrev agentParts : List StatePart := [.slotMap, .ccq, .streams, .counters]

theorem State.withdrawIfQueued_changes (i : SlotNo) (why : Withdrawal) (s : State) :
    s.changesOnly [.ccq] (s.withdrawIfQueued i why) := by
  unfold State.withdrawIfQueued
  split
  · exact State.onCcq_changes _ s
  · exact .refl _ s

theorem State.withdrawSet_changes (i : SlotNo) (why : Withdrawal) (e : SlotEntry) (s : State) :
    s.changesOnly [.slotMap, .ccq, .streams] ((s.withdrawIfQueued i why).setEntry i e) :=
  (s.withdrawIfQueued_changes i why).seq (State.setEntry_changes i e _) (by decide) (by decide)

theorem State.collide_changes (i : SlotNo) (s : State) : s.changesOnly agentParts (s.collide i) := by
  have h₀ := State.onCounters_changes StationCounters.addCollide s
  unfold State.collide
  dsimp only
  split
  · exact h₀.seq (State.setEntry_changes _ _ _) (by decide) (by decide)
  · exact h₀.seq (State.withdrawSet_changes _ _ _ _) (by decide) (by decide)
  all_goals exact h₀.mono (by decide)

theorem State.learn_changes (i : SlotNo) (x : StationNo) (t : Tag) (s : State) :
    s.changesOnly agentParts (s.learn i x t) := by
  unfold State.learn
  split
  · exact (State.setEntry_changes _ _ s).mono (by decide)
  · split
    · exact (State.setEntry_changes _ _ s).mono (by decide)
    · exact (State.setEntry_changes _ _ s).seq (State.onCounters_changes _ _) (by decide) (by decide)
  · exact (State.withdrawSet_changes _ _ _ s).mono (by decide)
  · exact (State.setEntry_changes _ _ s).mono (by decide)
  all_goals exact .refl _ s

theorem State.ageOut_changes (i : SlotNo) (s : State) : s.changesOnly agentParts (s.ageOut i) := by
  unfold State.ageOut
  split
  · split
    · exact (State.setEntry_changes _ _ s).seq (State.onCounters_changes _ _) (by decide) (by decide)
    · exact .refl _ s
  · exact .refl _ s

theorem State.missSlot_changes (i : SlotNo) (g : Bool) (s : State) :
    s.changesOnly agentParts (s.missSlot i g) := by
  have h₀ : s.changesOnly agentParts
      (if g then s.onCounters StationCounters.addCheckErr else s) := by
    split
    · exact (State.onCounters_changes _ s).mono (by decide)
    · exact .refl _ s
  unfold State.missSlot
  dsimp only
  split
  · split
    · exact h₀.trans (State.ageOut_changes _ _)
    · exact h₀.trans ((State.setEntry_changes _ _ _).mono (by decide))
  · exact h₀

theorem State.hearClaim_changes (i : SlotNo) (x : StationNo) (t : Tag) (s : State) :
    s.changesOnly [.slotMap, .ccq, .streams] (s.hearClaim i x t) := by
  unfold State.hearClaim
  split
  · exact (State.setEntry_changes _ _ s).mono (by decide)
  · exact State.withdrawSet_changes _ _ _ s
  all_goals exact .refl _ s

theorem State.hearRelease_changes (i : SlotNo) (x : StationNo) (s : State) :
    s.changesOnly [.slotMap, .streams] (s.hearRelease i x) := by
  unfold State.hearRelease
  split
  · split
    · exact State.setEntry_changes _ _ s
    · exact .refl _ s
  · exact .refl _ s

theorem State.autoClaim_changes (s : State) (k : StreamNo) :
    s.changesOnly [.slotMap, .streams] (s.autoClaim k) := by
  unfold State.autoClaim
  split
  · split
    · exact (State.putEntry_changes _ _ s).mono (by decide)
    · exact (State.onStream_changes _ _ s).mono (by decide)
  · exact .refl _ s

theorem State.slotAgentMark_changes (s : State) :
    s.changesOnly [.slotMap, .ccq, .streams] s.slotAgentMark := by
  unfold State.slotAgentMark
  have h₁ := State.mapEntries_changes SlotEntry.tickBackoff s
  have h₂ := h₁.trans ((State.onStreams_changes (fun _ => Stream.tickPause) _).mono (by decide))
  have h₃ := h₂.trans (State.changesOnly.foldl State.autoClaim State.autoClaim_changes allStreams _)
  exact h₃.seq (State.offerAll_changes _ _) (by decide) (by decide)

theorem State.claimOutcome_changes (i : SlotNo) (o : CellOutcome) (s : State) :
    s.changesOnly [.slotMap, .streams] (s.claimOutcome i o) := by
  unfold State.claimOutcome
  split
  · exact State.setEntry_changes _ _ s
  · exact (State.setEntry_changes _ _ s).seq (State.onStream_changes _ _ _) (by decide) (by decide)
  · exact .refl _ s

theorem State.releaseOutcome_changes (i : SlotNo) (o : CellOutcome) (s : State) :
    s.changesOnly [.slotMap, .streams] (s.releaseOutcome i o) := by
  unfold State.releaseOutcome
  split
  · exact State.setEntry_changes _ _ s
  · exact State.setEntry_changes _ _ s
  · exact .refl _ s

theorem State.releaseTrigger_changes (k : StreamNo) (s : State) :
    s.changesOnly [.slotMap, .ccq, .streams] (s.releaseTrigger k) := by
  unfold State.releaseTrigger
  dsimp only
  have h₁ := State.changesOnly.foldl (ps := [.slotMap, .ccq, .streams])
    (fun (s : State) (i : SlotNo) => s.withdrawIfQueued i .gone)
    (fun s i => (State.withdrawIfQueued_changes i .gone s).mono (by decide))
    (allSlots.filter fun i => s.slotMap[i].isClaimingFor k) s
  have h₂ := h₁.trans ((State.mapEntries_changes (SlotEntry.trigger k) _).mono (by decide))
  have h₃ := h₂.trans ((State.onStream_changes k (fun st => { st with short := false }) _).mono
    (by decide))
  have h₄ := h₃.trans ((State.offerAll_changes
    (allSlots.filter fun i => s.slotMap[i].isMineFor k) _).mono (by decide))
  split
  · exact h₄.trans ((State.onStream_changes _ _ _).mono (by decide))
  · exact h₄

theorem State.stopTalk_changes (k : StreamNo) (c : StopCause) (s : State) :
    s.changesOnly [.slotMap, .ccq, .streams] (s.stopTalk k c) :=
  ((State.onStream_changes k _ s).mono (by decide)).trans (State.releaseTrigger_changes k _)

theorem State.wipeAll_changes (s : State) : s.changesOnly [.slotMap, .ccq, .streams] s.wipeAll :=
  (State.mapEntries_changes _ s).seq (State.onCcq_changes _ _) (by decide) (by decide)

theorem State.wipeOwn_changes (s : State) : s.changesOnly [.slotMap, .ccq, .streams] s.wipeOwn :=
  (State.mapEntries_changes _ s).seq (State.onCcq_changes _ _) (by decide) (by decide)

/-! ### The Roster Unit -/

/-- The fields the Roster Unit's own operations change. -/
abbrev rosterParts : List StatePart := [.rsu, .ccq, .stationFlags]

theorem State.setMembership_changes (m : Membership) (s : State) :
    s.changesOnly [.rsu] (s.setMembership m) := State.onRsu_changes _ s

theorem State.offerControl_changes (c : ControlIntent) (q : QueueCell) (s : State) :
    s.changesOnly [.rsu, .ccq] (s.offerControl c q) := by
  unfold State.offerControl
  split <;> intro p hp <;> cases p <;> first | rfl | exact absurd (by decide) hp

theorem State.reoffer_changes (s : State) : s.changesOnly [.rsu, .ccq] s.reoffer := by
  unfold State.reoffer
  split
  · exact .refl _ s
  · split
    · exact .refl _ s
    · exact State.offerControl_changes _ _ s
    · exact State.offerControl_changes _ _ s

theorem State.withdrawJoin_changes (s : State) : s.changesOnly [.rsu, .ccq] s.withdrawJoin := by
  unfold State.withdrawJoin
  dsimp only
  split
  · exact (State.onCcq_changes _ s).seq (State.onRsu_changes _ _) (by decide) (by decide)
  · exact (State.onRsu_changes _ s).mono (by decide)

theorem State.attemptEnds_changes (s : State) : s.changesOnly rosterParts s.attemptEnds := by
  unfold State.attemptEnds
  split
  · exact (State.onRsu_changes _ s).seq (State.offerControl_changes _ _ _) (by decide) (by decide)
  · exact ((State.onRsu_changes _ s).trans (State.setMembership_changes _ _)).seq
      (State.raise_changes _ _) (by decide) (by decide)

theorem State.learnDone_changes (s : State) : s.changesOnly rosterParts s.learnDone :=
  ((State.onRsu_changes _ s).trans (State.setMembership_changes _ _)).seq
    (State.offerControl_changes _ _ _) (by decide) (by decide)

theorem State.learnMark_changes (s : State) : s.changesOnly rosterParts s.learnMark := by
  unfold State.learnMark
  split
  · exact (State.onRsu_changes _ s).mono (by decide)
  · exact s.learnDone_changes

theorem State.joined_changes (s : State) : s.changesOnly rosterParts s.joined :=
  (((State.onRsu_changes _ s).seq (State.withdrawJoin_changes _) (rs := [.rsu, .ccq]) (by decide)
    (by decide)).seq (State.setMembership_changes _ _) (rs := rosterParts) (by decide)
    (by decide)).trans ((State.raise_changes _ _).mono (by decide))

theorem State.joinTimerDone_changes (s : State) : s.changesOnly rosterParts s.joinTimerDone :=
  ((State.onRsu_changes _ s).mono (by decide)).trans (State.attemptEnds_changes _)

theorem State.joinWait_changes (s : State) : s.changesOnly rosterParts s.joinWait := by
  unfold State.joinWait
  split
  · exact s.reoffer_changes.mono (by decide)
  · split
    · exact s.joinTimerDone_changes
    · exact (State.onRsu_changes _ s).mono (by decide)

theorem State.expelled_changes (s : State) : s.changesOnly rosterParts s.expelled :=
  (((State.onRsu_changes _ s).trans (State.setMembership_changes _ _)).seq
    (State.offerControl_changes _ _ _) (rs := rosterParts) (by decide) (by decide)).trans
    ((State.raise_changes _ _).mono (by decide))

theorem State.membershipMark_changes (b : Bool) (s : State) :
    s.changesOnly rosterParts (s.membershipMark b) := by
  unfold State.membershipMark
  split
  · exact .refl _ s
  · exact s.learnMark_changes
  · split
    · exact s.joined_changes
    · exact s.joinWait_changes
  · split
    · exact .refl _ s
    · exact s.expelled_changes
  · exact s.reoffer_changes.mono (by decide)
  · split
    · exact (State.setMembership_changes _ s).seq (State.raise_changes _ _) (by decide) (by decide)
    · exact (State.onRsu_changes _ s).seq (State.setMembership_changes _ _) (by decide) (by decide)

theorem State.rosterMark_changes (x : StationNo) (b : Word) (s : State) :
    s.changesOnly rosterParts (s.rosterMark x b) :=
  ((State.onRsu_changes _ s).mono (by decide)).trans (State.membershipMark_changes _ _)

theorem State.rosterOwnMark_changes (s : State) : s.changesOnly rosterParts s.rosterOwnMark := by
  unfold State.rosterOwnMark
  split
  · exact .refl _ s
  · exact .refl _ s
  · exact s.learnMark_changes
  · exact s.reoffer_changes.mono (by decide)
  · exact s.reoffer_changes.mono (by decide)
  · exact (State.setMembership_changes _ s).seq (State.raise_changes _ _) (by decide) (by decide)

theorem State.joinOutcome_changes (o : CellOutcome) (s : State) :
    s.changesOnly rosterParts (s.joinOutcome o) := by
  unfold State.joinOutcome
  split
  · exact (State.onRsu_changes _ s).mono (by decide)
  · exact ((State.onRsu_changes _ s).mono (by decide)).trans (State.attemptEnds_changes _)
  · exact .refl _ s

theorem State.leaveOutcome_changes (o : CellOutcome) (s : State) :
    s.changesOnly rosterParts (s.leaveOutcome o) := by
  have h : s.changesOnly rosterParts
      (((s.onRsu RosterUnit.dropIntent).setMembership .dormant).raise .left) :=
    ((State.onRsu_changes _ s).trans (State.setMembership_changes _ _)).seq
      (State.raise_changes _ _) (by decide) (by decide)
  unfold State.leaveOutcome
  split
  · exact h
  · exact h
  · exact .refl _ s

/-- The fields that isolation and a duplicate address change. -/
abbrev wipeParts : List StatePart := [.rsu, .slotMap, .ccq, .streams, .stationFlags]

theorem State.isolate_changes (m : Membership) (e : StationEvent) (s : State) :
    s.changesOnly wipeParts (s.isolate m e) :=
  (((State.onRsu_changes _ s).trans (State.setMembership_changes _ _)).seq (State.raise_changes _ _)
    (rs := wipeParts) (by decide) (by decide)).trans ((State.wipeAll_changes _).mono (by decide))

theorem State.rosterSyncLoss_changes (s : State) : s.changesOnly wipeParts s.rosterSyncLoss := by
  unfold State.rosterSyncLoss
  split
  · exact State.isolate_changes _ _ s
  · exact State.isolate_changes _ _ s
  · exact State.isolate_changes _ _ s
  · exact State.isolate_changes _ _ s
  · exact .refl _ s
  · exact .refl _ s

theorem State.faultDuplicate_changes (s : State) (k : StreamNo) :
    s.changesOnly [.slotMap, .ccq, .streams] (s.faultDuplicate k) := by
  unfold State.faultDuplicate
  dsimp only
  split
  · exact ((State.onStream_changes _ _ s).mono (by decide)).trans (State.releaseTrigger_changes _ _)
  · exact .refl _ s

theorem State.duplicateSeen_changes (s : State) : s.changesOnly wipeParts s.duplicateSeen := by
  unfold State.duplicateSeen
  have h₁ : s.changesOnly wipeParts
      (((s.onRsu RosterUnit.rest).setMembership .dormant).raise .duplicate).wipeOwn :=
    (((State.onRsu_changes _ s).trans (State.setMembership_changes _ _)).seq
      (State.raise_changes _ _) (rs := wipeParts) (by decide) (by decide)).trans
      ((State.wipeOwn_changes _).mono (by decide))
  exact h₁.trans ((State.changesOnly.foldl State.faultDuplicate State.faultDuplicate_changes
    allStreams _).mono (by decide))

/-! ### Marks -/

theorem State.sendMark_changes (k : MarkKind) (start : Instant) (s : State) :
    s.changesOnly [.lnu, .mku, .counters] (s.sendMark k start) := by
  have h := (State.onLnu_changes (LineUnit.send ⟨s.lnu.markPosition, start,
      .mark s.straps.stn (s.markFields k), none⟩) s).seq
    (State.onMku_changes (fun m => { m with ownMark := k.inFlight }) _)
    (rs := [.lnu, .mku, .counters]) (by decide) (by decide)
  unfold State.sendMark
  dsimp only
  split
  · exact h.trans ((State.onCounters_changes _ _).mono (by decide))
  · exact h

theorem State.requestMark_changes (k : MarkKind) (start : Instant) (c : Bool) (s : State) :
    s.changesOnly [.lnu, .mku, .counters] (s.requestMark k start c) := by
  unfold State.requestMark
  split
  · exact State.sendMark_changes k start s
  · exact .refl _ s

theorem State.garbledMark_changes (t : Instant) (s : State) :
    s.changesOnly [.lnu, .mku] (s.garbledMark t) := by
  unfold State.garbledMark
  split
  · exact (State.onMku_changes _ s).seq (State.onLnu_changes _ _) (by decide) (by decide)
  · exact (State.onLnu_changes _ s).mono (by decide)

theorem State.countMark_changes (f : MarkFields) (s : State) :
    s.changesOnly [.mku, .stationFlags] (s.countMark f) := by
  unfold State.countMark
  dsimp only
  split
  · exact (State.onMku_changes _ s).seq (State.raise_changes _ _) (by decide) (by decide)
  · exact (State.onMku_changes _ s).mono (by decide)

/-- The fields that the receivers of a clean MARK change, apart from the Line Unit and the Mark Unit. -/
abbrev markParts : List StatePart := [.rsu, .slotMap, .ccq, .streams, .stationFlags]

theorem State.markTask_changes (own : Bool) (x : StationNo) (b : Word) (y : Option StationNo)
    (s : State) (t : MarkTask) : s.changesOnly markParts (s.markTask own x b y t) := by
  unfold State.markTask
  split
  · split
    · exact (State.onRsu_changes _ s).mono (by decide)
    · exact .refl _ s
  · split
    · exact s.rosterOwnMark_changes.mono (by decide)
    · exact (State.rosterMark_changes _ _ s).mono (by decide)
  · exact s.slotAgentMark_changes.mono (by decide)
  · exact (State.onCcq_changes _ s).mono (by decide)

/-- The fields a clean MARK changes. -/
abbrev anchorParts : List StatePart := [.lnu, .mku, .rsu, .slotMap, .ccq, .streams, .stationFlags]

theorem State.anchorMark_changes (own : Bool) (t : Instant) (x : StationNo) (f : MarkFields)
    (o : Fin 24) (s : State) : s.changesOnly anchorParts (s.anchorMark own t x f o) := by
  unfold State.anchorMark
  dsimp only
  have h₁ := (State.onLnu_changes (LineUnit.anchorAt t) s).seq (State.countMark_changes f _)
    (rs := anchorParts) (by decide) (by decide)
  have h₂ := h₁.trans ((State.changesOnly.foldl
    (State.markTask own x f.bitmap (s.mku.missedBy s.straps.stn x f.takeover))
    (State.markTask_changes own x f.bitmap _) (markOrder o) _).mono (by decide))
  exact h₂.trans ((State.onStreams_changes _ _).mono (by decide))

end Sys2Proof.Machine
end

