-- ==== Sys2Proof/Laws/Streams.lean ====
section
/-! SUPPORT. What each operation on a stream context leaves alone: one lemma per operation names every
field it keeps, so that a proof need not unfold the operation to read one of them. -/

namespace Sys2Proof.Machine

open Sys2Proof

/-- The direction is read from the configuration alone. -/
theorem Stream.isTalk_congr {a b : Stream} (h : a.cfg = b.cfg) : a.isTalk = b.isTalk := by
  simp [Stream.isTalk, h]

/-! ### Reports between the blocks -/

@[simp] theorem Stream.raise_keeps (st : Stream) (e : StreamEvent) :
    (st.raise e).cfg = st.cfg ∧ (st.raise e).state = st.state ∧ (st.raise e).cause = st.cause ∧
    (st.raise e).fifo = st.fifo ∧ (st.raise e).wordOnLine = st.wordOnLine ∧
    (st.raise e).priming = st.priming ∧ (st.raise e).drainStart = st.drainStart ∧
    (st.raise e).walkerQuiet = st.walkerQuiet ∧ (st.raise e).entriesGone = st.entriesGone ∧
    (st.raise e).lastWord = st.lastWord ∧ (st.raise e).expect = st.expect ∧
    (st.raise e).sources = st.sources ∧ (st.raise e).multiRaised = st.multiRaised ∧
    (st.raise e).words = st.words ∧ (st.raise e).fills = st.fills ∧
    (st.raise e).overruns = st.overruns ∧ (st.raise e).held = st.held ∧
    (st.raise e).pauseTimer = st.pauseTimer ∧ (st.raise e).short = st.short ∧
    (st.raise e).enables = st.enables ∧ (st.raise e).walker = st.walker := by
  refine ⟨?_, ?_, ?_, ?_, ?_, ?_, ?_, ?_, ?_, ?_, ?_, ?_, ?_, ?_, ?_, ?_, ?_, ?_, ?_, ?_, ?_⟩ <;> rfl

@[simp] theorem Stream.onWalker_keeps (st : Stream) (f : Walker → Walker) :
    (st.onWalker f).cfg = st.cfg ∧ (st.onWalker f).state = st.state ∧
    (st.onWalker f).cause = st.cause ∧ (st.onWalker f).fifo = st.fifo ∧
    (st.onWalker f).wordOnLine = st.wordOnLine ∧ (st.onWalker f).priming = st.priming ∧
    (st.onWalker f).drainStart = st.drainStart ∧ (st.onWalker f).walkerQuiet = st.walkerQuiet ∧
    (st.onWalker f).entriesGone = st.entriesGone ∧ (st.onWalker f).lastWord = st.lastWord ∧
    (st.onWalker f).expect = st.expect ∧ (st.onWalker f).sources = st.sources ∧
    (st.onWalker f).multiRaised = st.multiRaised ∧ (st.onWalker f).words = st.words ∧
    (st.onWalker f).fills = st.fills ∧ (st.onWalker f).overruns = st.overruns ∧
    (st.onWalker f).held = st.held ∧ (st.onWalker f).pauseTimer = st.pauseTimer ∧
    (st.onWalker f).short = st.short ∧ (st.onWalker f).flags = st.flags ∧
    (st.onWalker f).enables = st.enables := by
  refine ⟨?_, ?_, ?_, ?_, ?_, ?_, ?_, ?_, ?_, ?_, ?_, ?_, ?_, ?_, ?_, ?_, ?_, ?_, ?_, ?_, ?_⟩ <;> rfl

@[simp] theorem Stream.emptyFifo_keeps (st : Stream) :
    (st.emptyFifo).cfg = st.cfg ∧ (st.emptyFifo).state = st.state ∧
    (st.emptyFifo).cause = st.cause ∧ (st.emptyFifo).priming = st.priming ∧
    (st.emptyFifo).drainStart = st.drainStart ∧ (st.emptyFifo).walkerQuiet = st.walkerQuiet ∧
    (st.emptyFifo).entriesGone = st.entriesGone ∧ (st.emptyFifo).lastWord = st.lastWord ∧
    (st.emptyFifo).expect = st.expect ∧ (st.emptyFifo).sources = st.sources ∧
    (st.emptyFifo).multiRaised = st.multiRaised ∧ (st.emptyFifo).words = st.words ∧
    (st.emptyFifo).fills = st.fills ∧ (st.emptyFifo).overruns = st.overruns ∧
    (st.emptyFifo).held = st.held ∧ (st.emptyFifo).pauseTimer = st.pauseTimer ∧
    (st.emptyFifo).short = st.short ∧ (st.emptyFifo).flags = st.flags ∧
    (st.emptyFifo).enables = st.enables := by
  refine ⟨?_, ?_, ?_, ?_, ?_, ?_, ?_, ?_, ?_, ?_, ?_, ?_, ?_, ?_, ?_, ?_, ?_, ?_, ?_⟩ <;> rfl

@[simp] theorem Stream.runOrDrain_keeps (st : Stream) (c : Word) :
    (st.runOrDrain c).cfg = st.cfg ∧ (st.runOrDrain c).cause = st.cause ∧
    (st.runOrDrain c).fifo = st.fifo ∧ (st.runOrDrain c).wordOnLine = st.wordOnLine ∧
    (st.runOrDrain c).priming = st.priming ∧ (st.runOrDrain c).walkerQuiet = st.walkerQuiet ∧
    (st.runOrDrain c).entriesGone = st.entriesGone ∧ (st.runOrDrain c).lastWord = st.lastWord ∧
    (st.runOrDrain c).expect = st.expect ∧ (st.runOrDrain c).sources = st.sources ∧
    (st.runOrDrain c).multiRaised = st.multiRaised ∧ (st.runOrDrain c).words = st.words ∧
    (st.runOrDrain c).fills = st.fills ∧ (st.runOrDrain c).overruns = st.overruns ∧
    (st.runOrDrain c).held = st.held ∧ (st.runOrDrain c).pauseTimer = st.pauseTimer ∧
    (st.runOrDrain c).short = st.short ∧ (st.runOrDrain c).flags = st.flags ∧
    (st.runOrDrain c).enables = st.enables ∧ (st.runOrDrain c).walker = st.walker := by
  refine ⟨?_, ?_, ?_, ?_, ?_, ?_, ?_, ?_, ?_, ?_, ?_, ?_, ?_, ?_, ?_, ?_, ?_, ?_, ?_, ?_⟩ <;>
    (unfold Stream.runOrDrain; split <;> rfl)

@[simp] theorem Stream.onHeld_keeps (st : Stream) (c : Word) (n : Nat) :
    (st.onHeld c n).cfg = st.cfg ∧ (st.onHeld c n).cause = st.cause ∧
    (st.onHeld c n).fifo = st.fifo ∧ (st.onHeld c n).wordOnLine = st.wordOnLine ∧
    (st.onHeld c n).priming = st.priming ∧ (st.onHeld c n).walkerQuiet = st.walkerQuiet ∧
    (st.onHeld c n).entriesGone = st.entriesGone ∧ (st.onHeld c n).lastWord = st.lastWord ∧
    (st.onHeld c n).expect = st.expect ∧ (st.onHeld c n).sources = st.sources ∧
    (st.onHeld c n).multiRaised = st.multiRaised ∧ (st.onHeld c n).words = st.words ∧
    (st.onHeld c n).fills = st.fills ∧ (st.onHeld c n).overruns = st.overruns ∧
    (st.onHeld c n).pauseTimer = st.pauseTimer ∧ (st.onHeld c n).flags = st.flags ∧
    (st.onHeld c n).enables = st.enables ∧ (st.onHeld c n).walker = st.walker := by
  refine ⟨?_, ?_, ?_, ?_, ?_, ?_, ?_, ?_, ?_, ?_, ?_, ?_, ?_, ?_, ?_, ?_, ?_, ?_⟩ <;>
    (unfold Stream.onHeld; dsimp only; split_ifs <;> simp)

@[simp] theorem Stream.finishStop_keeps (st : Stream) :
    (st.finishStop).cfg = st.cfg ∧ (st.finishStop).cause = st.cause ∧
    (st.finishStop).fifo = st.fifo ∧ (st.finishStop).wordOnLine = st.wordOnLine ∧
    (st.finishStop).priming = st.priming ∧ (st.finishStop).drainStart = st.drainStart ∧
    (st.finishStop).walkerQuiet = st.walkerQuiet ∧ (st.finishStop).entriesGone = st.entriesGone ∧
    (st.finishStop).lastWord = st.lastWord ∧ (st.finishStop).expect = st.expect ∧
    (st.finishStop).sources = st.sources ∧ (st.finishStop).multiRaised = st.multiRaised ∧
    (st.finishStop).words = st.words ∧ (st.finishStop).fills = st.fills ∧
    (st.finishStop).overruns = st.overruns ∧ (st.finishStop).held = st.held ∧
    (st.finishStop).pauseTimer = st.pauseTimer ∧ (st.finishStop).short = st.short ∧
    (st.finishStop).enables = st.enables ∧ (st.finishStop).walker = st.walker := by
  refine ⟨?_, ?_, ?_, ?_, ?_, ?_, ?_, ?_, ?_, ?_, ?_, ?_, ?_, ?_, ?_, ?_, ?_, ?_, ?_, ?_⟩ <;>
    (unfold Stream.finishStop; split <;> rfl)

@[simp] theorem Stream.onNoneRemain_keeps (st : Stream) :
    (st.onNoneRemain).cfg = st.cfg ∧ (st.onNoneRemain).cause = st.cause ∧
    (st.onNoneRemain).fifo = st.fifo ∧ (st.onNoneRemain).wordOnLine = st.wordOnLine ∧
    (st.onNoneRemain).priming = st.priming ∧ (st.onNoneRemain).drainStart = st.drainStart ∧
    (st.onNoneRemain).walkerQuiet = st.walkerQuiet ∧ (st.onNoneRemain).lastWord = st.lastWord ∧
    (st.onNoneRemain).expect = st.expect ∧ (st.onNoneRemain).sources = st.sources ∧
    (st.onNoneRemain).multiRaised = st.multiRaised ∧ (st.onNoneRemain).words = st.words ∧
    (st.onNoneRemain).fills = st.fills ∧ (st.onNoneRemain).overruns = st.overruns ∧
    (st.onNoneRemain).held = st.held ∧ (st.onNoneRemain).pauseTimer = st.pauseTimer ∧
    (st.onNoneRemain).short = st.short ∧ (st.onNoneRemain).enables = st.enables ∧
    (st.onNoneRemain).walker = st.walker := by
  refine ⟨?_, ?_, ?_, ?_, ?_, ?_, ?_, ?_, ?_, ?_, ?_, ?_, ?_, ?_, ?_, ?_, ?_, ?_, ?_⟩ <;>
    (unfold Stream.onNoneRemain; split <;> simp)

@[simp] theorem Stream.onStopDone_keeps (st : Stream) :
    (st.onStopDone).cfg = st.cfg ∧ (st.onStopDone).cause = st.cause ∧
    (st.onStopDone).fifo = st.fifo ∧ (st.onStopDone).wordOnLine = st.wordOnLine ∧
    (st.onStopDone).priming = st.priming ∧ (st.onStopDone).drainStart = st.drainStart ∧
    (st.onStopDone).entriesGone = st.entriesGone ∧ (st.onStopDone).lastWord = st.lastWord ∧
    (st.onStopDone).expect = st.expect ∧ (st.onStopDone).sources = st.sources ∧
    (st.onStopDone).multiRaised = st.multiRaised ∧ (st.onStopDone).words = st.words ∧
    (st.onStopDone).fills = st.fills ∧ (st.onStopDone).overruns = st.overruns ∧
    (st.onStopDone).held = st.held ∧ (st.onStopDone).pauseTimer = st.pauseTimer ∧
    (st.onStopDone).short = st.short ∧ (st.onStopDone).enables = st.enables ∧
    (st.onStopDone).walker = st.walker := by
  refine ⟨?_, ?_, ?_, ?_, ?_, ?_, ?_, ?_, ?_, ?_, ?_, ?_, ?_, ?_, ?_, ?_, ?_, ?_, ?_⟩ <;>
    (unfold Stream.onStopDone; split <;> (try split) <;> simp)

@[simp] theorem Stream.onCaughtUp_keeps (st : Stream) (c : Word) :
    (st.onCaughtUp c).cfg = st.cfg ∧ (st.onCaughtUp c).cause = st.cause ∧
    (st.onCaughtUp c).fifo = st.fifo ∧ (st.onCaughtUp c).wordOnLine = st.wordOnLine ∧
    (st.onCaughtUp c).priming = st.priming ∧ (st.onCaughtUp c).walkerQuiet = st.walkerQuiet ∧
    (st.onCaughtUp c).entriesGone = st.entriesGone ∧ (st.onCaughtUp c).lastWord = st.lastWord ∧
    (st.onCaughtUp c).expect = st.expect ∧ (st.onCaughtUp c).sources = st.sources ∧
    (st.onCaughtUp c).multiRaised = st.multiRaised ∧ (st.onCaughtUp c).words = st.words ∧
    (st.onCaughtUp c).fills = st.fills ∧ (st.onCaughtUp c).overruns = st.overruns ∧
    (st.onCaughtUp c).held = st.held ∧ (st.onCaughtUp c).pauseTimer = st.pauseTimer ∧
    (st.onCaughtUp c).short = st.short ∧ (st.onCaughtUp c).flags = st.flags ∧
    (st.onCaughtUp c).enables = st.enables ∧ (st.onCaughtUp c).walker = st.walker := by
  refine ⟨?_, ?_, ?_, ?_, ?_, ?_, ?_, ?_, ?_, ?_, ?_, ?_, ?_, ?_, ?_, ?_, ?_, ?_, ?_, ?_⟩ <;>
    (unfold Stream.onCaughtUp; split <;> (try split) <;> rfl)

@[simp] theorem Stream.primeIfEmpty_keeps (st : Stream) :
    (st.primeIfEmpty).cfg = st.cfg ∧ (st.primeIfEmpty).state = st.state ∧
    (st.primeIfEmpty).cause = st.cause ∧ (st.primeIfEmpty).fifo = st.fifo ∧
    (st.primeIfEmpty).wordOnLine = st.wordOnLine ∧ (st.primeIfEmpty).drainStart = st.drainStart ∧
    (st.primeIfEmpty).walkerQuiet = st.walkerQuiet ∧
    (st.primeIfEmpty).entriesGone = st.entriesGone ∧ (st.primeIfEmpty).lastWord = st.lastWord ∧
    (st.primeIfEmpty).expect = st.expect ∧ (st.primeIfEmpty).sources = st.sources ∧
    (st.primeIfEmpty).multiRaised = st.multiRaised ∧ (st.primeIfEmpty).words = st.words ∧
    (st.primeIfEmpty).fills = st.fills ∧ (st.primeIfEmpty).overruns = st.overruns ∧
    (st.primeIfEmpty).held = st.held ∧ (st.primeIfEmpty).pauseTimer = st.pauseTimer ∧
    (st.primeIfEmpty).short = st.short ∧ (st.primeIfEmpty).flags = st.flags ∧
    (st.primeIfEmpty).enables = st.enables ∧ (st.primeIfEmpty).walker = st.walker := by
  refine ⟨?_, ?_, ?_, ?_, ?_, ?_, ?_, ?_, ?_, ?_, ?_, ?_, ?_, ?_, ?_, ?_, ?_, ?_, ?_, ?_, ?_⟩ <;> rfl

@[simp] theorem Stream.onResumed_keeps (st : Stream) :
    (st.onResumed).cfg = st.cfg ∧ (st.onResumed).cause = st.cause ∧ (st.onResumed).fifo = st.fifo ∧
    (st.onResumed).wordOnLine = st.wordOnLine ∧ (st.onResumed).drainStart = st.drainStart ∧
    (st.onResumed).walkerQuiet = st.walkerQuiet ∧ (st.onResumed).entriesGone = st.entriesGone ∧
    (st.onResumed).lastWord = st.lastWord ∧ (st.onResumed).expect = st.expect ∧
    (st.onResumed).sources = st.sources ∧ (st.onResumed).multiRaised = st.multiRaised ∧
    (st.onResumed).words = st.words ∧ (st.onResumed).fills = st.fills ∧
    (st.onResumed).overruns = st.overruns ∧ (st.onResumed).held = st.held ∧
    (st.onResumed).pauseTimer = st.pauseTimer ∧ (st.onResumed).short = st.short ∧
    (st.onResumed).flags = st.flags ∧ (st.onResumed).enables = st.enables ∧
    (st.onResumed).walker = st.walker := by
  refine ⟨?_, ?_, ?_, ?_, ?_, ?_, ?_, ?_, ?_, ?_, ?_, ?_, ?_, ?_, ?_, ?_, ?_, ?_, ?_, ?_⟩ <;>
    (unfold Stream.onResumed; split <;> (try split) <;> rfl)

@[simp] theorem Stream.discardEntries_keeps (st : Stream) :
    (st.discardEntries).cfg = st.cfg ∧ (st.discardEntries).state = st.state ∧
    (st.discardEntries).cause = st.cause ∧ (st.discardEntries).wordOnLine = st.wordOnLine ∧
    (st.discardEntries).priming = st.priming ∧ (st.discardEntries).drainStart = st.drainStart ∧
    (st.discardEntries).walkerQuiet = st.walkerQuiet ∧
    (st.discardEntries).entriesGone = st.entriesGone ∧ (st.discardEntries).lastWord = st.lastWord ∧
    (st.discardEntries).expect = st.expect ∧ (st.discardEntries).sources = st.sources ∧
    (st.discardEntries).multiRaised = st.multiRaised ∧ (st.discardEntries).words = st.words ∧
    (st.discardEntries).fills = st.fills ∧ (st.discardEntries).held = st.held ∧
    (st.discardEntries).pauseTimer = st.pauseTimer ∧ (st.discardEntries).short = st.short ∧
    (st.discardEntries).enables = st.enables ∧ (st.discardEntries).walker = st.walker := by
  refine ⟨?_, ?_, ?_, ?_, ?_, ?_, ?_, ?_, ?_, ?_, ?_, ?_, ?_, ?_, ?_, ?_, ?_, ?_, ?_⟩ <;>
    (unfold Stream.discardEntries; split <;> rfl)

/-! ### The walker -/

@[simp] theorem Stream.completeOnce_keeps (st : Stream) (c : Word) (r : RecordStatus) (n : Nat) :
    (st.completeOnce c r n).cfg = st.cfg ∧ (st.completeOnce c r n).cause = st.cause ∧
    (st.completeOnce c r n).wordOnLine = st.wordOnLine ∧
    (st.completeOnce c r n).priming = st.priming ∧
    (st.completeOnce c r n).walkerQuiet = st.walkerQuiet ∧
    (st.completeOnce c r n).entriesGone = st.entriesGone ∧
    (st.completeOnce c r n).lastWord = st.lastWord ∧ (st.completeOnce c r n).expect = st.expect ∧
    (st.completeOnce c r n).sources = st.sources ∧
    (st.completeOnce c r n).multiRaised = st.multiRaised ∧
    (st.completeOnce c r n).words = st.words ∧ (st.completeOnce c r n).fills = st.fills ∧
    (st.completeOnce c r n).overruns = st.overruns ∧ (st.completeOnce c r n).held = st.held ∧
    (st.completeOnce c r n).pauseTimer = st.pauseTimer ∧ (st.completeOnce c r n).short = st.short ∧
    (st.completeOnce c r n).flags = st.flags ∧ (st.completeOnce c r n).enables = st.enables := by
  refine ⟨?_, ?_, ?_, ?_, ?_, ?_, ?_, ?_, ?_, ?_, ?_, ?_, ?_, ?_, ?_, ?_, ?_, ?_⟩ <;>
    (unfold Stream.completeOnce; dsimp only; split <;> simp)

@[simp] theorem Stream.complete_keeps (st : Stream) (c : Word) (r : RecordStatus) (n : Nat) :
    (st.complete c r n).cfg = st.cfg ∧ (st.complete c r n).cause = st.cause ∧
    (st.complete c r n).wordOnLine = st.wordOnLine ∧ (st.complete c r n).priming = st.priming ∧
    (st.complete c r n).walkerQuiet = st.walkerQuiet ∧
    (st.complete c r n).entriesGone = st.entriesGone ∧ (st.complete c r n).lastWord = st.lastWord ∧
    (st.complete c r n).expect = st.expect ∧ (st.complete c r n).sources = st.sources ∧
    (st.complete c r n).multiRaised = st.multiRaised ∧ (st.complete c r n).words = st.words ∧
    (st.complete c r n).fills = st.fills ∧ (st.complete c r n).overruns = st.overruns ∧
    (st.complete c r n).held = st.held ∧ (st.complete c r n).pauseTimer = st.pauseTimer ∧
    (st.complete c r n).short = st.short ∧ (st.complete c r n).flags = st.flags ∧
    (st.complete c r n).enables = st.enables := by
  refine ⟨?_, ?_, ?_, ?_, ?_, ?_, ?_, ?_, ?_, ?_, ?_, ?_, ?_, ?_, ?_, ?_, ?_, ?_⟩ <;>
    (unfold Stream.complete; dsimp only; split <;> (try split) <;> simp)

@[simp] theorem Stream.departure_keeps (st : Stream) (c : Word) :
    (st.departure c).cfg = st.cfg ∧ (st.departure c).cause = st.cause ∧
    (st.departure c).wordOnLine = st.wordOnLine ∧ (st.departure c).priming = st.priming ∧
    (st.departure c).walkerQuiet = st.walkerQuiet ∧ (st.departure c).entriesGone = st.entriesGone ∧
    (st.departure c).lastWord = st.lastWord ∧ (st.departure c).expect = st.expect ∧
    (st.departure c).sources = st.sources ∧ (st.departure c).multiRaised = st.multiRaised ∧
    (st.departure c).words = st.words ∧ (st.departure c).fills = st.fills ∧
    (st.departure c).overruns = st.overruns ∧ (st.departure c).held = st.held ∧
    (st.departure c).pauseTimer = st.pauseTimer ∧ (st.departure c).short = st.short ∧
    (st.departure c).flags = st.flags ∧ (st.departure c).enables = st.enables := by
  refine ⟨?_, ?_, ?_, ?_, ?_, ?_, ?_, ?_, ?_, ?_, ?_, ?_, ?_, ?_, ?_, ?_, ?_, ?_⟩ <;>
    (unfold Stream.departure; dsimp only; split <;> simp)

@[simp] theorem Stream.cutCheck_keeps (st : Stream) (c : Word) :
    (st.cutCheck c).cfg = st.cfg ∧ (st.cutCheck c).cause = st.cause ∧
    (st.cutCheck c).wordOnLine = st.wordOnLine ∧ (st.cutCheck c).priming = st.priming ∧
    (st.cutCheck c).walkerQuiet = st.walkerQuiet ∧ (st.cutCheck c).entriesGone = st.entriesGone ∧
    (st.cutCheck c).lastWord = st.lastWord ∧ (st.cutCheck c).expect = st.expect ∧
    (st.cutCheck c).sources = st.sources ∧ (st.cutCheck c).multiRaised = st.multiRaised ∧
    (st.cutCheck c).words = st.words ∧ (st.cutCheck c).fills = st.fills ∧
    (st.cutCheck c).overruns = st.overruns ∧ (st.cutCheck c).held = st.held ∧
    (st.cutCheck c).pauseTimer = st.pauseTimer ∧ (st.cutCheck c).short = st.short ∧
    (st.cutCheck c).flags = st.flags ∧ (st.cutCheck c).enables = st.enables := by
  refine ⟨?_, ?_, ?_, ?_, ?_, ?_, ?_, ?_, ?_, ?_, ?_, ?_, ?_, ?_, ?_, ?_, ?_, ?_⟩ <;>
    (unfold Stream.cutCheck; dsimp only; split <;> simp)

@[simp] theorem Stream.settle_keeps (st : Stream) :
    (st.settle).cfg = st.cfg ∧ (st.settle).cause = st.cause ∧
    (st.settle).wordOnLine = st.wordOnLine ∧ (st.settle).priming = st.priming ∧
    (st.settle).drainStart = st.drainStart ∧ (st.settle).entriesGone = st.entriesGone ∧
    (st.settle).lastWord = st.lastWord ∧ (st.settle).expect = st.expect ∧
    (st.settle).sources = st.sources ∧ (st.settle).multiRaised = st.multiRaised ∧
    (st.settle).words = st.words ∧ (st.settle).fills = st.fills ∧ (st.settle).held = st.held ∧
    (st.settle).pauseTimer = st.pauseTimer ∧ (st.settle).short = st.short ∧
    (st.settle).enables = st.enables := by
  refine ⟨?_, ?_, ?_, ?_, ?_, ?_, ?_, ?_, ?_, ?_, ?_, ?_, ?_, ?_, ?_, ?_⟩ <;>
    (unfold Stream.settle; dsimp only; split_ifs <;> simp)

@[simp] theorem Stream.stopRequest_keeps (st : Stream) :
    (st.stopRequest).cfg = st.cfg ∧ (st.stopRequest).cause = st.cause ∧
    (st.stopRequest).wordOnLine = st.wordOnLine ∧ (st.stopRequest).priming = st.priming ∧
    (st.stopRequest).drainStart = st.drainStart ∧ (st.stopRequest).entriesGone = st.entriesGone ∧
    (st.stopRequest).lastWord = st.lastWord ∧ (st.stopRequest).expect = st.expect ∧
    (st.stopRequest).sources = st.sources ∧ (st.stopRequest).multiRaised = st.multiRaised ∧
    (st.stopRequest).words = st.words ∧ (st.stopRequest).fills = st.fills ∧
    (st.stopRequest).held = st.held ∧ (st.stopRequest).pauseTimer = st.pauseTimer ∧
    (st.stopRequest).short = st.short ∧ (st.stopRequest).enables = st.enables := by
  refine ⟨?_, ?_, ?_, ?_, ?_, ?_, ?_, ?_, ?_, ?_, ?_, ?_, ?_, ?_, ?_, ?_⟩ <;>
    (unfold Stream.stopRequest; split <;> simp)

@[simp] theorem Stream.readyWrite_keeps (st : Stream) (v : RingIdx) :
    (st.readyWrite v).cfg = st.cfg ∧ (st.readyWrite v).cause = st.cause ∧
    (st.readyWrite v).fifo = st.fifo ∧ (st.readyWrite v).wordOnLine = st.wordOnLine ∧
    (st.readyWrite v).drainStart = st.drainStart ∧ (st.readyWrite v).walkerQuiet = st.walkerQuiet ∧
    (st.readyWrite v).entriesGone = st.entriesGone ∧ (st.readyWrite v).lastWord = st.lastWord ∧
    (st.readyWrite v).expect = st.expect ∧ (st.readyWrite v).sources = st.sources ∧
    (st.readyWrite v).multiRaised = st.multiRaised ∧ (st.readyWrite v).words = st.words ∧
    (st.readyWrite v).fills = st.fills ∧ (st.readyWrite v).overruns = st.overruns ∧
    (st.readyWrite v).held = st.held ∧ (st.readyWrite v).pauseTimer = st.pauseTimer ∧
    (st.readyWrite v).short = st.short ∧ (st.readyWrite v).flags = st.flags ∧
    (st.readyWrite v).enables = st.enables := by
  refine ⟨?_, ?_, ?_, ?_, ?_, ?_, ?_, ?_, ?_, ?_, ?_, ?_, ?_, ?_, ?_, ?_, ?_, ?_, ?_⟩ <;>
    (unfold Stream.readyWrite; dsimp only; split_ifs <;> simp)

@[simp] theorem Stream.presentRecord_keeps (st : Stream) :
    (st.presentRecord).cfg = st.cfg ∧ (st.presentRecord).state = st.state ∧
    (st.presentRecord).cause = st.cause ∧ (st.presentRecord).fifo = st.fifo ∧
    (st.presentRecord).wordOnLine = st.wordOnLine ∧ (st.presentRecord).priming = st.priming ∧
    (st.presentRecord).drainStart = st.drainStart ∧
    (st.presentRecord).walkerQuiet = st.walkerQuiet ∧
    (st.presentRecord).entriesGone = st.entriesGone ∧ (st.presentRecord).lastWord = st.lastWord ∧
    (st.presentRecord).expect = st.expect ∧ (st.presentRecord).sources = st.sources ∧
    (st.presentRecord).multiRaised = st.multiRaised ∧ (st.presentRecord).words = st.words ∧
    (st.presentRecord).fills = st.fills ∧ (st.presentRecord).overruns = st.overruns ∧
    (st.presentRecord).held = st.held ∧ (st.presentRecord).pauseTimer = st.pauseTimer ∧
    (st.presentRecord).short = st.short ∧ (st.presentRecord).flags = st.flags ∧
    (st.presentRecord).enables = st.enables := by
  refine ⟨?_, ?_, ?_, ?_, ?_, ?_, ?_, ?_, ?_, ?_, ?_, ?_, ?_, ?_, ?_, ?_, ?_, ?_, ?_, ?_, ?_⟩ <;>
    (unfold Stream.presentRecord; split <;> simp)

@[simp] theorem Stream.buildAbort_keeps (st : Stream) (b : Bool) :
    (st.buildAbort b).cfg = st.cfg ∧ (st.buildAbort b).state = st.state ∧
    (st.buildAbort b).cause = st.cause ∧ (st.buildAbort b).fifo = st.fifo ∧
    (st.buildAbort b).wordOnLine = st.wordOnLine ∧ (st.buildAbort b).priming = st.priming ∧
    (st.buildAbort b).drainStart = st.drainStart ∧ (st.buildAbort b).walkerQuiet = st.walkerQuiet ∧
    (st.buildAbort b).entriesGone = st.entriesGone ∧ (st.buildAbort b).lastWord = st.lastWord ∧
    (st.buildAbort b).expect = st.expect ∧ (st.buildAbort b).sources = st.sources ∧
    (st.buildAbort b).multiRaised = st.multiRaised ∧ (st.buildAbort b).words = st.words ∧
    (st.buildAbort b).fills = st.fills ∧ (st.buildAbort b).overruns = st.overruns ∧
    (st.buildAbort b).held = st.held ∧ (st.buildAbort b).pauseTimer = st.pauseTimer ∧
    (st.buildAbort b).short = st.short ∧ (st.buildAbort b).flags = st.flags ∧
    (st.buildAbort b).enables = st.enables := by
  refine ⟨?_, ?_, ?_, ?_, ?_, ?_, ?_, ?_, ?_, ?_, ?_, ?_, ?_, ?_, ?_, ?_, ?_, ?_, ?_, ?_, ?_⟩ <;> rfl

@[simp] theorem Stream.present_keeps (st : Stream) (b : Bool) (ch : Choice) :
    (st.present b ch).cfg = st.cfg ∧ (st.present b ch).state = st.state ∧
    (st.present b ch).cause = st.cause ∧ (st.present b ch).wordOnLine = st.wordOnLine ∧
    (st.present b ch).priming = st.priming ∧ (st.present b ch).drainStart = st.drainStart ∧
    (st.present b ch).walkerQuiet = st.walkerQuiet ∧
    (st.present b ch).entriesGone = st.entriesGone ∧ (st.present b ch).lastWord = st.lastWord ∧
    (st.present b ch).expect = st.expect ∧ (st.present b ch).sources = st.sources ∧
    (st.present b ch).multiRaised = st.multiRaised ∧ (st.present b ch).words = st.words ∧
    (st.present b ch).fills = st.fills ∧ (st.present b ch).overruns = st.overruns ∧
    (st.present b ch).held = st.held ∧ (st.present b ch).pauseTimer = st.pauseTimer ∧
    (st.present b ch).short = st.short ∧ (st.present b ch).flags = st.flags ∧
    (st.present b ch).enables = st.enables := by
  refine ⟨?_, ?_, ?_, ?_, ?_, ?_, ?_, ?_, ?_, ?_, ?_, ?_, ?_, ?_, ?_, ?_, ?_, ?_, ?_, ?_⟩ <;>
    (unfold Stream.present; dsimp only; split <;> simp)

@[simp] theorem Stream.endAccess_keeps (st : Stream) :
    (st.endAccess).cfg = st.cfg ∧ (st.endAccess).state = st.state ∧
    (st.endAccess).cause = st.cause ∧ (st.endAccess).fifo = st.fifo ∧
    (st.endAccess).wordOnLine = st.wordOnLine ∧ (st.endAccess).priming = st.priming ∧
    (st.endAccess).drainStart = st.drainStart ∧ (st.endAccess).walkerQuiet = st.walkerQuiet ∧
    (st.endAccess).entriesGone = st.entriesGone ∧ (st.endAccess).lastWord = st.lastWord ∧
    (st.endAccess).expect = st.expect ∧ (st.endAccess).sources = st.sources ∧
    (st.endAccess).multiRaised = st.multiRaised ∧ (st.endAccess).words = st.words ∧
    (st.endAccess).fills = st.fills ∧ (st.endAccess).overruns = st.overruns ∧
    (st.endAccess).held = st.held ∧ (st.endAccess).pauseTimer = st.pauseTimer ∧
    (st.endAccess).short = st.short ∧ (st.endAccess).flags = st.flags ∧
    (st.endAccess).enables = st.enables := by
  refine ⟨?_, ?_, ?_, ?_, ?_, ?_, ?_, ?_, ?_, ?_, ?_, ?_, ?_, ?_, ?_, ?_, ?_, ?_, ?_, ?_, ?_⟩ <;> rfl

@[simp] theorem Stream.fetchReply_keeps (st : Stream) (c : Word) (d : Descriptor) :
    (st.fetchReply c d).cfg = st.cfg ∧ (st.fetchReply c d).cause = st.cause ∧
    (st.fetchReply c d).wordOnLine = st.wordOnLine ∧ (st.fetchReply c d).priming = st.priming ∧
    (st.fetchReply c d).entriesGone = st.entriesGone ∧ (st.fetchReply c d).lastWord = st.lastWord ∧
    (st.fetchReply c d).expect = st.expect ∧ (st.fetchReply c d).sources = st.sources ∧
    (st.fetchReply c d).multiRaised = st.multiRaised ∧ (st.fetchReply c d).words = st.words ∧
    (st.fetchReply c d).fills = st.fills ∧ (st.fetchReply c d).held = st.held ∧
    (st.fetchReply c d).pauseTimer = st.pauseTimer ∧ (st.fetchReply c d).short = st.short ∧
    (st.fetchReply c d).enables = st.enables := by
  refine ⟨?_, ?_, ?_, ?_, ?_, ?_, ?_, ?_, ?_, ?_, ?_, ?_, ?_, ?_, ?_⟩ <;>
    (unfold Stream.fetchReply; dsimp only; split <;> (try split_ifs) <;> simp)

@[simp] theorem Stream.readReply_keeps (st : Stream) (ws : List Word) :
    (st.readReply ws).cfg = st.cfg ∧ (st.readReply ws).cause = st.cause ∧
    (st.readReply ws).wordOnLine = st.wordOnLine ∧ (st.readReply ws).drainStart = st.drainStart ∧
    (st.readReply ws).entriesGone = st.entriesGone ∧ (st.readReply ws).lastWord = st.lastWord ∧
    (st.readReply ws).expect = st.expect ∧ (st.readReply ws).sources = st.sources ∧
    (st.readReply ws).multiRaised = st.multiRaised ∧ (st.readReply ws).words = st.words ∧
    (st.readReply ws).fills = st.fills ∧ (st.readReply ws).held = st.held ∧
    (st.readReply ws).pauseTimer = st.pauseTimer ∧ (st.readReply ws).short = st.short ∧
    (st.readReply ws).enables = st.enables := by
  refine ⟨?_, ?_, ?_, ?_, ?_, ?_, ?_, ?_, ?_, ?_, ?_, ?_, ?_, ?_, ?_⟩ <;>
    (unfold Stream.readReply; dsimp only; split <;> (try split_ifs) <;> simp)

@[simp] theorem Stream.writeAck_keeps (st : Stream) (c : Word) :
    (st.writeAck c).cfg = st.cfg ∧ (st.writeAck c).cause = st.cause ∧
    (st.writeAck c).wordOnLine = st.wordOnLine ∧ (st.writeAck c).priming = st.priming ∧
    (st.writeAck c).entriesGone = st.entriesGone ∧ (st.writeAck c).lastWord = st.lastWord ∧
    (st.writeAck c).expect = st.expect ∧ (st.writeAck c).sources = st.sources ∧
    (st.writeAck c).multiRaised = st.multiRaised ∧ (st.writeAck c).words = st.words ∧
    (st.writeAck c).fills = st.fills ∧ (st.writeAck c).held = st.held ∧
    (st.writeAck c).pauseTimer = st.pauseTimer ∧ (st.writeAck c).short = st.short ∧
    (st.writeAck c).enables = st.enables := by
  refine ⟨?_, ?_, ?_, ?_, ?_, ?_, ?_, ?_, ?_, ?_, ?_, ?_, ?_, ?_, ?_⟩ <;>
    (unfold Stream.writeAck; dsimp only; split <;> (try split_ifs) <;> simp)

@[simp] theorem Stream.recordAck_keeps (st : Stream) :
    (st.recordAck).cfg = st.cfg ∧ (st.recordAck).cause = st.cause ∧
    (st.recordAck).wordOnLine = st.wordOnLine ∧ (st.recordAck).priming = st.priming ∧
    (st.recordAck).drainStart = st.drainStart ∧ (st.recordAck).entriesGone = st.entriesGone ∧
    (st.recordAck).lastWord = st.lastWord ∧ (st.recordAck).expect = st.expect ∧
    (st.recordAck).sources = st.sources ∧ (st.recordAck).multiRaised = st.multiRaised ∧
    (st.recordAck).words = st.words ∧ (st.recordAck).fills = st.fills ∧
    (st.recordAck).held = st.held ∧ (st.recordAck).pauseTimer = st.pauseTimer ∧
    (st.recordAck).short = st.short ∧ (st.recordAck).enables = st.enables := by
  refine ⟨?_, ?_, ?_, ?_, ?_, ?_, ?_, ?_, ?_, ?_, ?_, ?_, ?_, ?_, ?_, ?_⟩ <;>
    (unfold Stream.recordAck; dsimp only; split <;> (try split_ifs) <;> simp)

@[simp] theorem Stream.walkerFault_keeps (st : Stream) :
    (st.walkerFault).cfg = st.cfg ∧ (st.walkerFault).state = st.state ∧
    (st.walkerFault).cause = st.cause ∧ (st.walkerFault).fifo = st.fifo ∧
    (st.walkerFault).wordOnLine = st.wordOnLine ∧ (st.walkerFault).priming = st.priming ∧
    (st.walkerFault).drainStart = st.drainStart ∧ (st.walkerFault).walkerQuiet = st.walkerQuiet ∧
    (st.walkerFault).entriesGone = st.entriesGone ∧ (st.walkerFault).lastWord = st.lastWord ∧
    (st.walkerFault).expect = st.expect ∧ (st.walkerFault).sources = st.sources ∧
    (st.walkerFault).multiRaised = st.multiRaised ∧ (st.walkerFault).words = st.words ∧
    (st.walkerFault).fills = st.fills ∧ (st.walkerFault).overruns = st.overruns ∧
    (st.walkerFault).held = st.held ∧ (st.walkerFault).pauseTimer = st.pauseTimer ∧
    (st.walkerFault).short = st.short ∧ (st.walkerFault).enables = st.enables := by
  refine ⟨?_, ?_, ?_, ?_, ?_, ?_, ?_, ?_, ?_, ?_, ?_, ?_, ?_, ?_, ?_, ?_, ?_, ?_, ?_, ?_⟩ <;> rfl

/-! ### The Talk engine -/

@[simp] theorem Stream.dataEcho_keeps (st : Stream) (c : Word) :
    (st.dataEcho c).cfg = st.cfg ∧ (st.dataEcho c).cause = st.cause ∧
    (st.dataEcho c).priming = st.priming ∧ (st.dataEcho c).walkerQuiet = st.walkerQuiet ∧
    (st.dataEcho c).entriesGone = st.entriesGone ∧ (st.dataEcho c).lastWord = st.lastWord ∧
    (st.dataEcho c).expect = st.expect ∧ (st.dataEcho c).sources = st.sources ∧
    (st.dataEcho c).multiRaised = st.multiRaised ∧ (st.dataEcho c).fills = st.fills ∧
    (st.dataEcho c).overruns = st.overruns ∧ (st.dataEcho c).held = st.held ∧
    (st.dataEcho c).pauseTimer = st.pauseTimer ∧ (st.dataEcho c).short = st.short ∧
    (st.dataEcho c).flags = st.flags ∧ (st.dataEcho c).enables = st.enables := by
  refine ⟨?_, ?_, ?_, ?_, ?_, ?_, ?_, ?_, ?_, ?_, ?_, ?_, ?_, ?_, ?_, ?_⟩ <;>
    (unfold Stream.dataEcho; split <;> simp)

@[simp] theorem Stream.startTalk_keeps (st : Stream) :
    (st.startTalk).cfg = st.cfg ∧ (st.startTalk).cause = st.cause ∧ (st.startTalk).fifo = st.fifo ∧
    (st.startTalk).wordOnLine = st.wordOnLine ∧ (st.startTalk).drainStart = st.drainStart ∧
    (st.startTalk).entriesGone = st.entriesGone ∧ (st.startTalk).lastWord = st.lastWord ∧
    (st.startTalk).expect = st.expect ∧ (st.startTalk).sources = st.sources ∧
    (st.startTalk).multiRaised = st.multiRaised ∧ (st.startTalk).words = st.words ∧
    (st.startTalk).fills = st.fills ∧ (st.startTalk).overruns = st.overruns ∧
    (st.startTalk).held = st.held ∧ (st.startTalk).short = st.short ∧
    (st.startTalk).flags = st.flags ∧ (st.startTalk).enables = st.enables := by
  refine ⟨?_, ?_, ?_, ?_, ?_, ?_, ?_, ?_, ?_, ?_, ?_, ?_, ?_, ?_, ?_, ?_, ?_⟩ <;> rfl

@[simp] theorem Stream.pauseTalk_keeps (st : Stream) :
    (st.pauseTalk).cfg = st.cfg ∧ (st.pauseTalk).cause = st.cause ∧ (st.pauseTalk).fifo = st.fifo ∧
    (st.pauseTalk).wordOnLine = st.wordOnLine ∧ (st.pauseTalk).priming = st.priming ∧
    (st.pauseTalk).drainStart = st.drainStart ∧ (st.pauseTalk).walkerQuiet = st.walkerQuiet ∧
    (st.pauseTalk).entriesGone = st.entriesGone ∧ (st.pauseTalk).lastWord = st.lastWord ∧
    (st.pauseTalk).expect = st.expect ∧ (st.pauseTalk).sources = st.sources ∧
    (st.pauseTalk).multiRaised = st.multiRaised ∧ (st.pauseTalk).words = st.words ∧
    (st.pauseTalk).fills = st.fills ∧ (st.pauseTalk).overruns = st.overruns ∧
    (st.pauseTalk).held = st.held ∧ (st.pauseTalk).pauseTimer = st.pauseTimer ∧
    (st.pauseTalk).short = st.short ∧ (st.pauseTalk).flags = st.flags ∧
    (st.pauseTalk).enables = st.enables := by
  refine ⟨?_, ?_, ?_, ?_, ?_, ?_, ?_, ?_, ?_, ?_, ?_, ?_, ?_, ?_, ?_, ?_, ?_, ?_, ?_, ?_⟩ <;> rfl

@[simp] theorem Stream.resumeTalk_keeps (st : Stream) (c : Word) :
    (st.resumeTalk c).cfg = st.cfg ∧ (st.resumeTalk c).cause = st.cause ∧
    (st.resumeTalk c).fifo = st.fifo ∧ (st.resumeTalk c).wordOnLine = st.wordOnLine ∧
    (st.resumeTalk c).walkerQuiet = st.walkerQuiet ∧
    (st.resumeTalk c).entriesGone = st.entriesGone ∧ (st.resumeTalk c).lastWord = st.lastWord ∧
    (st.resumeTalk c).expect = st.expect ∧ (st.resumeTalk c).sources = st.sources ∧
    (st.resumeTalk c).multiRaised = st.multiRaised ∧ (st.resumeTalk c).words = st.words ∧
    (st.resumeTalk c).fills = st.fills ∧ (st.resumeTalk c).overruns = st.overruns ∧
    (st.resumeTalk c).held = st.held ∧ (st.resumeTalk c).pauseTimer = st.pauseTimer ∧
    (st.resumeTalk c).short = st.short ∧ (st.resumeTalk c).flags = st.flags ∧
    (st.resumeTalk c).enables = st.enables := by
  refine ⟨?_, ?_, ?_, ?_, ?_, ?_, ?_, ?_, ?_, ?_, ?_, ?_, ?_, ?_, ?_, ?_, ?_, ?_⟩ <;>
    (unfold Stream.resumeTalk; dsimp only; split <;> simp)

@[simp] theorem Stream.beginStop_keeps (st : Stream) (x : StopCause) :
    (st.beginStop x).cfg = st.cfg ∧ (st.beginStop x).drainStart = st.drainStart ∧
    (st.beginStop x).lastWord = st.lastWord ∧ (st.beginStop x).expect = st.expect ∧
    (st.beginStop x).sources = st.sources ∧ (st.beginStop x).multiRaised = st.multiRaised ∧
    (st.beginStop x).words = st.words ∧ (st.beginStop x).fills = st.fills ∧
    (st.beginStop x).held = st.held ∧ (st.beginStop x).pauseTimer = st.pauseTimer ∧
    (st.beginStop x).short = st.short ∧ (st.beginStop x).enables = st.enables := by
  refine ⟨?_, ?_, ?_, ?_, ?_, ?_, ?_, ?_, ?_, ?_, ?_, ?_⟩ <;>
    (simp [Stream.beginStop])

@[simp] theorem Stream.memoryFaultTalk_keeps (st : Stream) :
    (st.memoryFaultTalk).cfg = st.cfg ∧ (st.memoryFaultTalk).drainStart = st.drainStart ∧
    (st.memoryFaultTalk).entriesGone = st.entriesGone ∧
    (st.memoryFaultTalk).lastWord = st.lastWord ∧ (st.memoryFaultTalk).expect = st.expect ∧
    (st.memoryFaultTalk).sources = st.sources ∧ (st.memoryFaultTalk).multiRaised = st.multiRaised ∧
    (st.memoryFaultTalk).words = st.words ∧ (st.memoryFaultTalk).fills = st.fills ∧
    (st.memoryFaultTalk).overruns = st.overruns ∧ (st.memoryFaultTalk).held = st.held ∧
    (st.memoryFaultTalk).pauseTimer = st.pauseTimer ∧ (st.memoryFaultTalk).short = st.short ∧
    (st.memoryFaultTalk).flags = st.flags ∧ (st.memoryFaultTalk).enables = st.enables := by
  refine ⟨?_, ?_, ?_, ?_, ?_, ?_, ?_, ?_, ?_, ?_, ?_, ?_, ?_, ?_, ?_⟩ <;>
    (unfold Stream.memoryFaultTalk; split <;> rfl)

@[simp] theorem Stream.duplicateFault_keeps (st : Stream) :
    (st.duplicateFault).cfg = st.cfg ∧ (st.duplicateFault).drainStart = st.drainStart ∧
    (st.duplicateFault).entriesGone = st.entriesGone ∧ (st.duplicateFault).lastWord = st.lastWord ∧
    (st.duplicateFault).expect = st.expect ∧ (st.duplicateFault).sources = st.sources ∧
    (st.duplicateFault).multiRaised = st.multiRaised ∧ (st.duplicateFault).words = st.words ∧
    (st.duplicateFault).fills = st.fills ∧ (st.duplicateFault).held = st.held ∧
    (st.duplicateFault).pauseTimer = st.pauseTimer ∧ (st.duplicateFault).short = st.short ∧
    (st.duplicateFault).enables = st.enables := by
  refine ⟨?_, ?_, ?_, ?_, ?_, ?_, ?_, ?_, ?_, ?_, ?_, ?_, ?_⟩ <;>
    (unfold Stream.duplicateFault; split <;> (try split) <;> simp)

/-! ### The Listen engine -/

@[simp] theorem Stream.checkSource_keeps (st : Stream) (g : Tag) (x : StationNo) :
    (st.checkSource g x).cfg = st.cfg ∧ (st.checkSource g x).state = st.state ∧
    (st.checkSource g x).cause = st.cause ∧ (st.checkSource g x).fifo = st.fifo ∧
    (st.checkSource g x).wordOnLine = st.wordOnLine ∧ (st.checkSource g x).priming = st.priming ∧
    (st.checkSource g x).drainStart = st.drainStart ∧
    (st.checkSource g x).walkerQuiet = st.walkerQuiet ∧
    (st.checkSource g x).entriesGone = st.entriesGone ∧
    (st.checkSource g x).lastWord = st.lastWord ∧ (st.checkSource g x).expect = st.expect ∧
    (st.checkSource g x).words = st.words ∧ (st.checkSource g x).fills = st.fills ∧
    (st.checkSource g x).overruns = st.overruns ∧ (st.checkSource g x).held = st.held ∧
    (st.checkSource g x).pauseTimer = st.pauseTimer ∧ (st.checkSource g x).short = st.short ∧
    (st.checkSource g x).enables = st.enables ∧ (st.checkSource g x).walker = st.walker := by
  refine ⟨?_, ?_, ?_, ?_, ?_, ?_, ?_, ?_, ?_, ?_, ?_, ?_, ?_, ?_, ?_, ?_, ?_, ?_, ?_⟩ <;>
    (unfold Stream.checkSource; split <;> (try split) <;> rfl)

@[simp] theorem Stream.pushEntry_keeps (st : Stream) (w : Word) (b : Bool) (p : Stamp) :
    ((st.pushEntry w b p).2).cfg = st.cfg ∧ ((st.pushEntry w b p).2).state = st.state ∧
    ((st.pushEntry w b p).2).cause = st.cause ∧
    ((st.pushEntry w b p).2).wordOnLine = st.wordOnLine ∧
    ((st.pushEntry w b p).2).priming = st.priming ∧
    ((st.pushEntry w b p).2).drainStart = st.drainStart ∧
    ((st.pushEntry w b p).2).walkerQuiet = st.walkerQuiet ∧
    ((st.pushEntry w b p).2).entriesGone = st.entriesGone ∧
    ((st.pushEntry w b p).2).lastWord = st.lastWord ∧ ((st.pushEntry w b p).2).expect = st.expect ∧
    ((st.pushEntry w b p).2).sources = st.sources ∧
    ((st.pushEntry w b p).2).multiRaised = st.multiRaised ∧
    ((st.pushEntry w b p).2).words = st.words ∧ ((st.pushEntry w b p).2).fills = st.fills ∧
    ((st.pushEntry w b p).2).held = st.held ∧ ((st.pushEntry w b p).2).pauseTimer = st.pauseTimer ∧
    ((st.pushEntry w b p).2).short = st.short ∧ ((st.pushEntry w b p).2).enables = st.enables ∧
    ((st.pushEntry w b p).2).walker = st.walker := by
  refine ⟨?_, ?_, ?_, ?_, ?_, ?_, ?_, ?_, ?_, ?_, ?_, ?_, ?_, ?_, ?_, ?_, ?_, ?_, ?_⟩ <;>
    (unfold Stream.pushEntry; split <;> rfl)

@[simp] theorem Stream.takeWord_keeps (st : Stream) (c : Word) (b : Bool) (w : Word) :
    (st.takeWord c b w).cfg = st.cfg ∧ (st.takeWord c b w).state = st.state ∧
    (st.takeWord c b w).cause = st.cause ∧ (st.takeWord c b w).wordOnLine = st.wordOnLine ∧
    (st.takeWord c b w).priming = st.priming ∧ (st.takeWord c b w).drainStart = st.drainStart ∧
    (st.takeWord c b w).walkerQuiet = st.walkerQuiet ∧
    (st.takeWord c b w).entriesGone = st.entriesGone ∧ (st.takeWord c b w).expect = st.expect ∧
    (st.takeWord c b w).sources = st.sources ∧ (st.takeWord c b w).multiRaised = st.multiRaised ∧
    (st.takeWord c b w).fills = st.fills ∧ (st.takeWord c b w).held = st.held ∧
    (st.takeWord c b w).pauseTimer = st.pauseTimer ∧ (st.takeWord c b w).short = st.short ∧
    (st.takeWord c b w).enables = st.enables ∧ (st.takeWord c b w).walker = st.walker := by
  refine ⟨?_, ?_, ?_, ?_, ?_, ?_, ?_, ?_, ?_, ?_, ?_, ?_, ?_, ?_, ?_, ?_, ?_⟩ <;>
    (have h := st.pushEntry_keeps w (b && st.cfg.align) (c.setWidth 16); unfold Stream.takeWord; split <;> simp_all)

@[simp] theorem Stream.gap_keeps (st : Stream) (c : Word) :
    (st.gap c).cfg = st.cfg ∧ (st.gap c).state = st.state ∧ (st.gap c).cause = st.cause ∧
    (st.gap c).wordOnLine = st.wordOnLine ∧ (st.gap c).priming = st.priming ∧
    (st.gap c).drainStart = st.drainStart ∧ (st.gap c).walkerQuiet = st.walkerQuiet ∧
    (st.gap c).entriesGone = st.entriesGone ∧ (st.gap c).lastWord = st.lastWord ∧
    (st.gap c).expect = st.expect ∧ (st.gap c).sources = st.sources ∧
    (st.gap c).multiRaised = st.multiRaised ∧ (st.gap c).words = st.words ∧
    (st.gap c).held = st.held ∧ (st.gap c).pauseTimer = st.pauseTimer ∧
    (st.gap c).short = st.short ∧ (st.gap c).enables = st.enables := by
  refine ⟨?_, ?_, ?_, ?_, ?_, ?_, ?_, ?_, ?_, ?_, ?_, ?_, ?_, ?_, ?_, ?_, ?_⟩ <;>
    (unfold Stream.gap; dsimp only; split <;> simp)

@[simp] theorem Stream.judgeSlot_keeps (st : Stream) (c : Word) (l : Bool) :
    (st.judgeSlot c l).cfg = st.cfg ∧ (st.judgeSlot c l).state = st.state ∧
    (st.judgeSlot c l).cause = st.cause ∧ (st.judgeSlot c l).wordOnLine = st.wordOnLine ∧
    (st.judgeSlot c l).priming = st.priming ∧ (st.judgeSlot c l).drainStart = st.drainStart ∧
    (st.judgeSlot c l).walkerQuiet = st.walkerQuiet ∧
    (st.judgeSlot c l).entriesGone = st.entriesGone ∧ (st.judgeSlot c l).lastWord = st.lastWord ∧
    (st.judgeSlot c l).sources = st.sources ∧ (st.judgeSlot c l).multiRaised = st.multiRaised ∧
    (st.judgeSlot c l).words = st.words ∧ (st.judgeSlot c l).held = st.held ∧
    (st.judgeSlot c l).pauseTimer = st.pauseTimer ∧ (st.judgeSlot c l).short = st.short ∧
    (st.judgeSlot c l).enables = st.enables := by
  refine ⟨?_, ?_, ?_, ?_, ?_, ?_, ?_, ?_, ?_, ?_, ?_, ?_, ?_, ?_, ?_, ?_⟩ <;>
    (unfold Stream.judgeSlot; dsimp only; split <;> simp)

@[simp] theorem Stream.hearCell_keeps (st : Stream) (c : Word) (o : Bool) (g : Tag) (x : StationNo) (d : DataKind) :
    (st.hearCell c o g x d).cfg = st.cfg ∧ (st.hearCell c o g x d).cause = st.cause ∧
    (st.hearCell c o g x d).wordOnLine = st.wordOnLine ∧
    (st.hearCell c o g x d).priming = st.priming ∧
    (st.hearCell c o g x d).walkerQuiet = st.walkerQuiet ∧
    (st.hearCell c o g x d).entriesGone = st.entriesGone ∧ (st.hearCell c o g x d).held = st.held ∧
    (st.hearCell c o g x d).pauseTimer = st.pauseTimer ∧ (st.hearCell c o g x d).short = st.short ∧
    (st.hearCell c o g x d).enables = st.enables := by
  refine ⟨?_, ?_, ?_, ?_, ?_, ?_, ?_, ?_, ?_, ?_⟩ <;>
    (unfold Stream.hearCell; dsimp only; split <;> [rfl; (split <;> simp only [Stream.cutCheck_keeps, Stream.judgeSlot_keeps] <;> split_ifs <;> simp)])

@[simp] theorem Stream.hearNothing_keeps (st : Stream) (c : Word) :
    (st.hearNothing c).cfg = st.cfg ∧ (st.hearNothing c).cause = st.cause ∧
    (st.hearNothing c).wordOnLine = st.wordOnLine ∧ (st.hearNothing c).priming = st.priming ∧
    (st.hearNothing c).walkerQuiet = st.walkerQuiet ∧
    (st.hearNothing c).entriesGone = st.entriesGone ∧ (st.hearNothing c).lastWord = st.lastWord ∧
    (st.hearNothing c).sources = st.sources ∧ (st.hearNothing c).multiRaised = st.multiRaised ∧
    (st.hearNothing c).words = st.words ∧ (st.hearNothing c).held = st.held ∧
    (st.hearNothing c).pauseTimer = st.pauseTimer ∧ (st.hearNothing c).short = st.short ∧
    (st.hearNothing c).enables = st.enables := by
  refine ⟨?_, ?_, ?_, ?_, ?_, ?_, ?_, ?_, ?_, ?_, ?_, ?_, ?_, ?_⟩ <;>
    (unfold Stream.hearNothing; split <;> simp)

@[simp] theorem Stream.setExpect_keeps (st : Stream) (e : SlotEntry) :
    (st.setExpect e).cfg = st.cfg ∧ (st.setExpect e).state = st.state ∧
    (st.setExpect e).cause = st.cause ∧ (st.setExpect e).fifo = st.fifo ∧
    (st.setExpect e).wordOnLine = st.wordOnLine ∧ (st.setExpect e).priming = st.priming ∧
    (st.setExpect e).drainStart = st.drainStart ∧ (st.setExpect e).walkerQuiet = st.walkerQuiet ∧
    (st.setExpect e).entriesGone = st.entriesGone ∧ (st.setExpect e).lastWord = st.lastWord ∧
    (st.setExpect e).sources = st.sources ∧ (st.setExpect e).multiRaised = st.multiRaised ∧
    (st.setExpect e).words = st.words ∧ (st.setExpect e).fills = st.fills ∧
    (st.setExpect e).overruns = st.overruns ∧ (st.setExpect e).held = st.held ∧
    (st.setExpect e).pauseTimer = st.pauseTimer ∧ (st.setExpect e).short = st.short ∧
    (st.setExpect e).flags = st.flags ∧ (st.setExpect e).enables = st.enables ∧
    (st.setExpect e).walker = st.walker := by
  refine ⟨?_, ?_, ?_, ?_, ?_, ?_, ?_, ?_, ?_, ?_, ?_, ?_, ?_, ?_, ?_, ?_, ?_, ?_, ?_, ?_, ?_⟩ <;>
    (unfold Stream.setExpect; split <;> rfl)

@[simp] theorem Stream.newRound_keeps (st : Stream) :
    (st.newRound).cfg = st.cfg ∧ (st.newRound).state = st.state ∧ (st.newRound).cause = st.cause ∧
    (st.newRound).fifo = st.fifo ∧ (st.newRound).wordOnLine = st.wordOnLine ∧
    (st.newRound).priming = st.priming ∧ (st.newRound).drainStart = st.drainStart ∧
    (st.newRound).walkerQuiet = st.walkerQuiet ∧ (st.newRound).entriesGone = st.entriesGone ∧
    (st.newRound).lastWord = st.lastWord ∧ (st.newRound).expect = st.expect ∧
    (st.newRound).words = st.words ∧ (st.newRound).fills = st.fills ∧
    (st.newRound).overruns = st.overruns ∧ (st.newRound).held = st.held ∧
    (st.newRound).pauseTimer = st.pauseTimer ∧ (st.newRound).short = st.short ∧
    (st.newRound).flags = st.flags ∧ (st.newRound).enables = st.enables ∧
    (st.newRound).walker = st.walker := by
  refine ⟨?_, ?_, ?_, ?_, ?_, ?_, ?_, ?_, ?_, ?_, ?_, ?_, ?_, ?_, ?_, ?_, ?_, ?_, ?_, ?_⟩ <;>
    (unfold Stream.newRound; split <;> rfl)

@[simp] theorem Stream.startListen_keeps (st : Stream) :
    (st.startListen).cfg = st.cfg ∧ (st.startListen).cause = st.cause ∧
    (st.startListen).fifo = st.fifo ∧ (st.startListen).wordOnLine = st.wordOnLine ∧
    (st.startListen).priming = st.priming ∧ (st.startListen).drainStart = st.drainStart ∧
    (st.startListen).walkerQuiet = st.walkerQuiet ∧ (st.startListen).entriesGone = st.entriesGone ∧
    (st.startListen).words = st.words ∧ (st.startListen).fills = st.fills ∧
    (st.startListen).overruns = st.overruns ∧ (st.startListen).held = st.held ∧
    (st.startListen).pauseTimer = st.pauseTimer ∧ (st.startListen).short = st.short ∧
    (st.startListen).flags = st.flags ∧ (st.startListen).enables = st.enables := by
  refine ⟨?_, ?_, ?_, ?_, ?_, ?_, ?_, ?_, ?_, ?_, ?_, ?_, ?_, ?_, ?_, ?_⟩ <;> rfl

@[simp] theorem Stream.resumeListen_keeps (st : Stream) :
    (st.resumeListen).cfg = st.cfg ∧ (st.resumeListen).cause = st.cause ∧
    (st.resumeListen).fifo = st.fifo ∧ (st.resumeListen).wordOnLine = st.wordOnLine ∧
    (st.resumeListen).priming = st.priming ∧ (st.resumeListen).drainStart = st.drainStart ∧
    (st.resumeListen).walkerQuiet = st.walkerQuiet ∧
    (st.resumeListen).entriesGone = st.entriesGone ∧ (st.resumeListen).lastWord = st.lastWord ∧
    (st.resumeListen).expect = st.expect ∧ (st.resumeListen).words = st.words ∧
    (st.resumeListen).fills = st.fills ∧ (st.resumeListen).overruns = st.overruns ∧
    (st.resumeListen).held = st.held ∧ (st.resumeListen).pauseTimer = st.pauseTimer ∧
    (st.resumeListen).short = st.short ∧ (st.resumeListen).flags = st.flags ∧
    (st.resumeListen).enables = st.enables ∧ (st.resumeListen).walker = st.walker := by
  refine ⟨?_, ?_, ?_, ?_, ?_, ?_, ?_, ?_, ?_, ?_, ?_, ?_, ?_, ?_, ?_, ?_, ?_, ?_, ?_⟩ <;> rfl

@[simp] theorem Stream.stopListen_keeps (st : Stream) :
    (st.stopListen).cfg = st.cfg ∧ (st.stopListen).wordOnLine = st.wordOnLine ∧
    (st.stopListen).priming = st.priming ∧ (st.stopListen).drainStart = st.drainStart ∧
    (st.stopListen).entriesGone = st.entriesGone ∧ (st.stopListen).lastWord = st.lastWord ∧
    (st.stopListen).expect = st.expect ∧ (st.stopListen).sources = st.sources ∧
    (st.stopListen).multiRaised = st.multiRaised ∧ (st.stopListen).words = st.words ∧
    (st.stopListen).fills = st.fills ∧ (st.stopListen).held = st.held ∧
    (st.stopListen).pauseTimer = st.pauseTimer ∧ (st.stopListen).short = st.short ∧
    (st.stopListen).enables = st.enables := by
  refine ⟨?_, ?_, ?_, ?_, ?_, ?_, ?_, ?_, ?_, ?_, ?_, ?_, ?_, ?_, ?_⟩ <;>
    (simp [Stream.stopListen])

@[simp] theorem Stream.memoryFaultListen_keeps (st : Stream) :
    (st.memoryFaultListen).cfg = st.cfg ∧ (st.memoryFaultListen).priming = st.priming ∧
    (st.memoryFaultListen).drainStart = st.drainStart ∧
    (st.memoryFaultListen).walkerQuiet = st.walkerQuiet ∧
    (st.memoryFaultListen).entriesGone = st.entriesGone ∧
    (st.memoryFaultListen).lastWord = st.lastWord ∧ (st.memoryFaultListen).expect = st.expect ∧
    (st.memoryFaultListen).sources = st.sources ∧
    (st.memoryFaultListen).multiRaised = st.multiRaised ∧ (st.memoryFaultListen).words = st.words ∧
    (st.memoryFaultListen).fills = st.fills ∧ (st.memoryFaultListen).overruns = st.overruns ∧
    (st.memoryFaultListen).held = st.held ∧ (st.memoryFaultListen).pauseTimer = st.pauseTimer ∧
    (st.memoryFaultListen).short = st.short ∧ (st.memoryFaultListen).flags = st.flags ∧
    (st.memoryFaultListen).enables = st.enables := by
  refine ⟨?_, ?_, ?_, ?_, ?_, ?_, ?_, ?_, ?_, ?_, ?_, ?_, ?_, ?_, ?_, ?_, ?_⟩ <;>
    (unfold Stream.memoryFaultListen; split <;> rfl)

/-! ### The Slot Agent and the Local Port -/

@[simp] theorem Stream.setShort_keeps (st : Stream) :
    (st.setShort).cfg = st.cfg ∧ (st.setShort).state = st.state ∧ (st.setShort).cause = st.cause ∧
    (st.setShort).fifo = st.fifo ∧ (st.setShort).wordOnLine = st.wordOnLine ∧
    (st.setShort).priming = st.priming ∧ (st.setShort).drainStart = st.drainStart ∧
    (st.setShort).walkerQuiet = st.walkerQuiet ∧ (st.setShort).entriesGone = st.entriesGone ∧
    (st.setShort).lastWord = st.lastWord ∧ (st.setShort).expect = st.expect ∧
    (st.setShort).sources = st.sources ∧ (st.setShort).multiRaised = st.multiRaised ∧
    (st.setShort).words = st.words ∧ (st.setShort).fills = st.fills ∧
    (st.setShort).overruns = st.overruns ∧ (st.setShort).held = st.held ∧
    (st.setShort).pauseTimer = st.pauseTimer ∧ (st.setShort).enables = st.enables ∧
    (st.setShort).walker = st.walker := by
  refine ⟨?_, ?_, ?_, ?_, ?_, ?_, ?_, ?_, ?_, ?_, ?_, ?_, ?_, ?_, ?_, ?_, ?_, ?_, ?_, ?_⟩ <;>
    (unfold Stream.setShort; split <;> rfl)

@[simp] theorem Stream.tickPause_keeps (st : Stream) :
    (st.tickPause).cfg = st.cfg ∧ (st.tickPause).state = st.state ∧
    (st.tickPause).cause = st.cause ∧ (st.tickPause).fifo = st.fifo ∧
    (st.tickPause).wordOnLine = st.wordOnLine ∧ (st.tickPause).priming = st.priming ∧
    (st.tickPause).drainStart = st.drainStart ∧ (st.tickPause).walkerQuiet = st.walkerQuiet ∧
    (st.tickPause).entriesGone = st.entriesGone ∧ (st.tickPause).lastWord = st.lastWord ∧
    (st.tickPause).expect = st.expect ∧ (st.tickPause).sources = st.sources ∧
    (st.tickPause).multiRaised = st.multiRaised ∧ (st.tickPause).words = st.words ∧
    (st.tickPause).fills = st.fills ∧ (st.tickPause).overruns = st.overruns ∧
    (st.tickPause).held = st.held ∧ (st.tickPause).short = st.short ∧
    (st.tickPause).flags = st.flags ∧ (st.tickPause).enables = st.enables ∧
    (st.tickPause).walker = st.walker := by
  refine ⟨?_, ?_, ?_, ?_, ?_, ?_, ?_, ?_, ?_, ?_, ?_, ?_, ?_, ?_, ?_, ?_, ?_, ?_, ?_, ?_, ?_⟩ <;> rfl

@[simp] theorem Stream.resetStream_keeps (st : Stream) :
    (st.resetStream).cfg = st.cfg ∧ (st.resetStream).held = st.held ∧
    (st.resetStream).enables = st.enables := by
  refine ⟨?_, ?_, ?_⟩ <;>
    (unfold Stream.resetStream; split <;> rfl)

@[simp] theorem Stream.clearCounters_keeps (st : Stream) :
    (st.clearCounters).cfg = st.cfg ∧ (st.clearCounters).state = st.state ∧
    (st.clearCounters).cause = st.cause ∧ (st.clearCounters).fifo = st.fifo ∧
    (st.clearCounters).wordOnLine = st.wordOnLine ∧ (st.clearCounters).priming = st.priming ∧
    (st.clearCounters).drainStart = st.drainStart ∧
    (st.clearCounters).walkerQuiet = st.walkerQuiet ∧
    (st.clearCounters).entriesGone = st.entriesGone ∧ (st.clearCounters).lastWord = st.lastWord ∧
    (st.clearCounters).expect = st.expect ∧ (st.clearCounters).sources = st.sources ∧
    (st.clearCounters).multiRaised = st.multiRaised ∧ (st.clearCounters).held = st.held ∧
    (st.clearCounters).pauseTimer = st.pauseTimer ∧ (st.clearCounters).short = st.short ∧
    (st.clearCounters).flags = st.flags ∧ (st.clearCounters).enables = st.enables ∧
    (st.clearCounters).walker = st.walker := by
  refine ⟨?_, ?_, ?_, ?_, ?_, ?_, ?_, ?_, ?_, ?_, ?_, ?_, ?_, ?_, ?_, ?_, ?_, ?_, ?_⟩ <;> rfl

@[simp] theorem reportMap_keeps (st : Stream) (c : Word) (m m' : Vector SlotEntry 48) (k : StreamNo) :
    (reportMap c m m' k st).cfg = st.cfg ∧ (reportMap c m m' k st).cause = st.cause ∧
    (reportMap c m m' k st).fifo = st.fifo ∧ (reportMap c m m' k st).wordOnLine = st.wordOnLine ∧
    (reportMap c m m' k st).priming = st.priming ∧
    (reportMap c m m' k st).walkerQuiet = st.walkerQuiet ∧
    (reportMap c m m' k st).lastWord = st.lastWord ∧ (reportMap c m m' k st).expect = st.expect ∧
    (reportMap c m m' k st).sources = st.sources ∧
    (reportMap c m m' k st).multiRaised = st.multiRaised ∧
    (reportMap c m m' k st).words = st.words ∧ (reportMap c m m' k st).fills = st.fills ∧
    (reportMap c m m' k st).overruns = st.overruns ∧
    (reportMap c m m' k st).pauseTimer = st.pauseTimer ∧
    (reportMap c m m' k st).enables = st.enables ∧ (reportMap c m m' k st).walker = st.walker := by
  refine ⟨?_, ?_, ?_, ?_, ?_, ?_, ?_, ?_, ?_, ?_, ?_, ?_, ?_, ?_, ?_, ?_⟩ <;>
    (unfold reportMap; dsimp only; split_ifs <;> simp)

/-! ### What they set -/

@[simp] theorem Stream.onHeld_held (st : Stream) (c : Word) (n : Nat) : (st.onHeld c n).held = n := by
  unfold Stream.onHeld; dsimp only; split_ifs <;> simp

/-- After a map change the held count is the MINE entries of the new map (R23). -/
@[simp] theorem reportMap_held (st : Stream) (c : Word) (m m' : Vector SlotEntry 48) (k : StreamNo) :
    (reportMap c m m' k st).held = mineCount m' k := by
  unfold reportMap; dsimp only; split_ifs <;> simp_all

@[simp] theorem Stream.emptyFifo_fifo (st : Stream) : st.emptyFifo.fifo = [] := rfl

/-- A Listen Stream takes a report of the map as its held count and SHORT alone (R40). -/
theorem reportMap_listen (st : Stream) (c : Word) (m m' : Vector SlotEntry 48) (k : StreamNo)
    (h : st.isTalk = false) :
    (reportMap c m m' k st).state = st.state ∧ (reportMap c m m' k st).drainStart = st.drainStart ∧
    (reportMap c m m' k st).entriesGone = st.entriesGone ∧
    (reportMap c m m' k st).flags = st.flags := by
  have e (n : Nat) : st.onHeld c n =
      { st with held := n, short := st.short && n != st.cfg.wanted.toNat } := by
    simp [Stream.onHeld, h]
  have t (a : Stream) (ha : a.isTalk = false) : a.onNoneRemain = a := by
    simp [Stream.onNoneRemain, ha]
  have h' (n : Nat) : (st.onHeld c n).isTalk = false := (Stream.isTalk_congr (by simp)).trans h
  unfold reportMap
  dsimp only
  split_ifs <;> (try rw [t _ (h' _)]) <;> (try rw [t _ h]) <;> simp [e]

end Sys2Proof.Machine
end

