-- ==== Sys2Proof/Laws/Ops.lean ====
section
/-! SUPPORT. The wrappers of a meaning, the counters, and what a change of one stream context or of the
map leaves of the others. -/

namespace Sys2Proof.Machine

open Sys2Proof

/-! ### The two wrappers -/

theorem event_next (f : State → State) {s : State} (h : s.resetAsserted = false) :
    event f s = .next (f s) := by
  simp [event, h]

theorem event_reset (f : State → State) {s : State} (h : s.resetAsserted = true) :
    event f s = .next s := by
  simp [event, h]

theorem targetWrite_next (f : State → State) {s : State} (h : s.resetAsserted = false) :
    targetWrite f s = .next { f s with targetResponse := .answered } := by
  simp [targetWrite, h]

theorem targetWrite_reset (f : State → State) {s : State} (h : s.resetAsserted = true) :
    targetWrite f s = .next { s with targetResponse := .error } := by
  simp [targetWrite, h]

/-- An answered access changes what its operation changes, and the response. -/
theorem State.answered_changes {ps : List StatePart} {s t : State} (h : s.changesOnly ps t) :
    s.changesOnly (.targetResponse :: ps) { t with targetResponse := .answered } := by
  intro p hp
  have hq : p ∉ ps := fun hm => hp (List.mem_cons_of_mem _ hm)
  have ht : p ≠ .targetResponse := fun e => hp (e ▸ List.mem_cons_self)
  have := h p hq
  cases p <;> first | exact this | exact absurd rfl ht

/-! ### Counters (R161) -/

theorem satAdd_toNat {w : Nat} (c : BitVec w) (n : Nat) :
    (satAdd c n).toNat = min (2 ^ w - 1) (c.toNat + n) := by
  have : 0 < 2 ^ w := Nat.two_pow_pos w
  simp only [satAdd, BitVec.toNat_ofNat]
  exact Nat.mod_eq_of_lt (by omega)

theorem countsOne_satAdd (c : BitVec 16) : countsOne c (satAdd c 1) := satAdd_toNat c 1

/-! ### One stream context, or one entry -/

theorem State.onStream_others (k : StreamNo) (f : Stream → Stream) (s : State) :
    s.otherStreamsSame k (s.onStream k f) := by
  intro j hj
  simp [hj]

@[simp] theorem State.setEntry_get (i j : SlotNo) (e : SlotEntry) (s : State) :
    (s.setEntry i e).slotMap[j.val] = if j = i then e else s.slotMap[j.val] :=
  slotMap_set_get s.slotMap i j e

@[simp] theorem State.mapEntries_get (f : SlotEntry → SlotEntry) (j : SlotNo) (s : State) :
    (s.mapEntries f).slotMap[j.val] = f s.slotMap[j.val] := by
  simp [State.mapEntries]

@[simp] theorem State.putEntry_get (i j : SlotNo) (e : SlotEntry) (s : State) :
    (s.putEntry i e).slotMap[j.val] = if j = i then e else s.slotMap[j.val] :=
  slotMap_set_get s.slotMap i j e

@[simp] theorem State.mapEntries_ccq (f : SlotEntry → SlotEntry) (s : State) :
    (s.mapEntries f).ccq = s.ccq := State.installMap_ccq _ s

@[simp] theorem State.setEntry_ccq (i : SlotNo) (e : SlotEntry) (s : State) :
    (s.setEntry i e).ccq = s.ccq := State.installMap_ccq _ s

theorem State.setEntry_others (i : SlotNo) (e : SlotEntry) (s : State) :
    s.otherEntriesSame i (s.setEntry i e) := by
  intro j hj
  simp [hj]

/-- What a change of one entry leaves of a stream context. -/
@[simp] theorem State.setEntry_stream (i : SlotNo) (e : SlotEntry) (k : StreamNo) (s : State) :
    (s.setEntry i e).streams[k.val] =
      reportMap s.mku.count s.slotMap (s.slotMap.set i e) k s.streams[k.val] := by
  simp [State.setEntry]

@[simp] theorem State.mapEntries_stream (f : SlotEntry → SlotEntry) (k : StreamNo) (s : State) :
    (s.mapEntries f).streams[k.val] =
      reportMap s.mku.count s.slotMap (s.mapEntries f).slotMap k s.streams[k.val] := by
  simp [State.mapEntries]

/-! ### Counting entries -/

theorem countEntries_le (p : SlotEntry → Bool) (m : Vector SlotEntry 48) : countEntries p m ≤ 48 := by
  have h := List.countP_le_length (p := p) (l := m.toList)
  simpa [countEntries] using h

theorem countEntries_pos {p : SlotEntry → Bool} {m : Vector SlotEntry 48} :
    0 < countEntries p m ↔ ∃ i : SlotNo, p m[i.val] = true := by
  simp only [countEntries, List.countP_pos_iff, Vector.mem_toList_iff]
  constructor
  · rintro ⟨e, he, hp⟩
    obtain ⟨i, hi, rfl⟩ := Vector.getElem_of_mem he
    exact ⟨⟨i, hi⟩, hp⟩
  · rintro ⟨i, hp⟩
    exact ⟨_, Vector.getElem_mem i.isLt, hp⟩

theorem countEntries_zero {p : SlotEntry → Bool} {m : Vector SlotEntry 48} :
    countEntries p m = 0 ↔ ∀ i : SlotNo, p m[i.val] = false := by
  have h := countEntries_pos (p := p) (m := m)
  constructor
  · intro h0 i
    cases hp : p m[i.val] with
    | false => rfl
    | true => exact absurd (h.mpr ⟨i, hp⟩) (by omega)
  · intro ha
    by_contra h0
    obtain ⟨i, hp⟩ := h.mp (Nat.pos_of_ne_zero h0)
    rw [ha i] at hp
    exact Bool.noConfusion hp

/-- The count after one entry was set, in terms of the count before. -/
theorem countEntries_set (p : SlotEntry → Bool) (m : Vector SlotEntry 48) (i : SlotNo)
    (e : SlotEntry) :
    countEntries p (m.set i.val e) + (if p m[i.val] then 1 else 0) =
      countEntries p m + (if p e then 1 else 0) := by
  have hc := Vector.countP_set (p := p) (xs := m) (a := e) i.isLt
  have hp : p m[i.val] = true → 0 < m.countP p := fun h =>
    Vector.countP_toList (p := p) ▸ countEntries_pos.mpr ⟨i, h⟩
  simp only [countEntries, Vector.countP_toList, hc]
  split_ifs <;> simp_all

end Sys2Proof.Machine
end

