-- ==== Sys2Proof/Laws/Walker.lean ====
section
/-! SUPPORT. What a completion, a reply and the stop leave of the Ring Walker. -/

namespace Sys2Proof.Machine

open Sys2Proof

/-! ### Completion (R102) -/

/-- Completing the last ready descriptor: caught up, with the record marked as the ring's end. -/
theorem Stream.completeOnce_end (c : Word) (r : RecordStatus) (n : Nat) (st : Stream)
    (h : st.walker.cur = st.walker.ready) :
    (st.completeOnce c r n).walker = { st.walker.advance with
      records := st.walker.records ++ [st.walker.recordOf r n st.walker.notifyInHand true]
      caughtUp := true
      access := st.walker.access.map (Access.discardFor (st.walker.cur + 1)) } := by
  simp [Stream.completeOnce, h]

/-- Completing a descriptor that is not the last ready one, with nothing prefetched. -/
theorem Stream.completeOnce_more (c : Word) (r : RecordStatus) (n : Nat) (st : Stream)
    (h : st.walker.cur ≠ st.walker.ready) (hp : st.walker.prefetched = none) :
    (st.completeOnce c r n).walker = { st.walker.advance with
      records := st.walker.records ++ [st.walker.recordOf r n st.walker.notifyInHand false] } := by
  simp [Stream.completeOnce, h, hp]

/-- Completing a descriptor that is not the last ready one, with the next one prefetched. -/
theorem Stream.completeOnce_prefetched (c : Word) (r : RecordStatus) (n : Nat) (st : Stream)
    (d : Descriptor) (h : st.walker.cur ≠ st.walker.ready) (hp : st.walker.prefetched = some d) :
    (st.completeOnce c r n).walker = { st.walker.advance with
      records := st.walker.records ++ [st.walker.recordOf r n st.walker.notifyInHand false]
      inHand := some d, remaining := d.len, moved := st.walker.ahead } := by
  simp [Stream.completeOnce, h, hp]

/-- One completion is all there is unless a descriptor of length 0 stands prefetched (R106). -/
theorem Stream.complete_once (c : Word) (r : RecordStatus) (n : Nat) (st : Stream)
    (h : ∀ d, st.walker.prefetched = some d → d.len ≠ 0) :
    st.complete c r n = st.completeOnce c r n := by
  have hl : ∀ d, (st.completeOnce c r n).walker.inHand = some d → d.len ≠ 0 := by
    intro d hd
    by_cases hc : st.walker.cur = st.walker.ready
    · simp [Stream.completeOnce_end c r n st hc, Walker.advance] at hd
    · cases hp : st.walker.prefetched with
      | none => simp [Stream.completeOnce_more c r n st hc hp, Walker.advance] at hd
      | some e =>
          simp only [Stream.completeOnce_prefetched c r n st e hc hp, Option.some.injEq] at hd
          exact hd ▸ h e hp
  unfold Stream.complete
  dsimp only
  split
  · rename_i d hd
    simp [hl d hd]
  · rfl

/-- The FIFO of a Listen Stream stands through a completion. -/
theorem Stream.completeOnce_listen (c : Word) (r : RecordStatus) (n : Nat) (st : Stream)
    (h : st.isTalk = false) : (st.completeOnce c r n).fifo = st.fifo := by
  unfold Stream.completeOnce
  dsimp only
  split <;> simp [h]

theorem Stream.complete_listen (c : Word) (r : RecordStatus) (n : Nat) (st : Stream)
    (h : st.isTalk = false) : (st.complete c r n).fifo = st.fifo := by
  have h' : (st.completeOnce c r n).isTalk = false := (Stream.isTalk_congr (by simp)).trans h
  unfold Stream.complete
  dsimp only
  split
  · split
    · rw [Stream.completeOnce_listen _ _ _ _ h', Stream.completeOnce_listen _ _ _ _ h]
    · exact Stream.completeOnce_listen _ _ _ _ h
  · exact Stream.completeOnce_listen _ _ _ _ h

/-- A completion leaves the walk mode, L and the stop's notes alone. -/
@[simp] theorem Stream.completeOnce_mode (c : Word) (r : RecordStatus) (n : Nat) (st : Stream) :
    (st.completeOnce c r n).walker.mode = st.walker.mode ∧
    (st.completeOnce c r n).walker.ready = st.walker.ready ∧
    (st.completeOnce c r n).walker.stopCaughtUp = st.walker.stopCaughtUp ∧
    (st.completeOnce c r n).walker.abortBuilt = st.walker.abortBuilt := by
  by_cases hc : st.walker.cur = st.walker.ready
  · rw [Stream.completeOnce_end c r n st hc]; exact ⟨rfl, rfl, rfl, rfl⟩
  · cases hp : st.walker.prefetched with
    | none => rw [Stream.completeOnce_more c r n st hc hp]; exact ⟨rfl, rfl, rfl, rfl⟩
    | some d => rw [Stream.completeOnce_prefetched c r n st d hc hp]; exact ⟨rfl, rfl, rfl, rfl⟩

@[simp] theorem Stream.complete_mode (c : Word) (r : RecordStatus) (n : Nat) (st : Stream) :
    (st.complete c r n).walker.mode = st.walker.mode ∧
    (st.complete c r n).walker.ready = st.walker.ready ∧
    (st.complete c r n).walker.stopCaughtUp = st.walker.stopCaughtUp ∧
    (st.complete c r n).walker.abortBuilt = st.walker.abortBuilt := by
  unfold Stream.complete
  dsimp only
  split <;> (try split) <;> simp

/-- A completion presents no access. -/
theorem Stream.completeOnce_access (c : Word) (r : RecordStatus) (n : Nat) (st : Stream)
    (h : st.walker.access = none) : (st.completeOnce c r n).walker.access = none := by
  by_cases hc : st.walker.cur = st.walker.ready
  · simp [Stream.completeOnce_end c r n st hc, h]
  · cases hp : st.walker.prefetched with
    | none => simp [Stream.completeOnce_more c r n st hc hp, Walker.advance, h]
    | some d => simp [Stream.completeOnce_prefetched c r n st d hc hp, Walker.advance, h]

theorem Stream.complete_access (c : Word) (r : RecordStatus) (n : Nat) (st : Stream)
    (h : st.walker.access = none) : (st.complete c r n).walker.access = none := by
  have h' := Stream.completeOnce_access c r n st h
  unfold Stream.complete
  dsimp only
  split
  · split
    · exact Stream.completeOnce_access _ _ _ _ h'
    · exact h'
  · exact h'

/-! ### CUT and the stop (R110, R115) -/

/-- No cut without a boundary mark at the head. -/
theorem Stream.cutCheck_none (c : Word) (st : Stream)
    (h : ∀ e, st.fifo.head? = some e → e.boundary = false) : st.cutCheck c = st := by
  have hb : st.fifo.head?.any FifoEntry.boundary = false := by
    cases hh : st.fifo.head? with
    | none => rfl
    | some e => simp [h e hh]
  simp [Stream.cutCheck, hb]

/-- A Talk Stream is never cut. -/
theorem Stream.cutCheck_talk (c : Word) (st : Stream) (h : st.isTalk = true) : st.cutCheck c = st := by
  simp [Stream.cutCheck, h]

/-- Nothing settles outside a stop. -/
theorem Stream.settle_idle (st : Stream) (h : st.walker.mode ≠ .stopping) : st.settle = st := by
  simp [Stream.settle, h]

/-- Nothing settles while a record is owed or an access is in flight. -/
theorem Stream.settle_busy (st : Stream) (h : st.walker.access ≠ none ∨ st.walker.records ≠ []) :
    st.settle = st := by
  rcases h with h | h <;> simp [Stream.settle, h]

/-! ### Replies -/

/-- The access a reply is for. -/
theorem Stream.inFlight_some (st : Stream) (k : AccessKind) (a : Access)
    (h : st.walker.access = some a) (hk : a.kind = k) : st.inFlight k = some a := by
  simp [Stream.inFlight, h, hk]

/-- A reply of a kind that is not in flight is for no access. -/
theorem Stream.inFlight_none (st : Stream) (k : AccessKind)
    (h : ∀ a, st.walker.access = some a → a.kind ≠ k) : st.inFlight k = none := by
  cases ha : st.walker.access with
  | none => simp [Stream.inFlight, ha]
  | some a => simp [Stream.inFlight, ha, h a ha]

theorem talkEntries_words (i : RingIdx) (b : Bool) (ws : List Word) :
    (talkEntries i b ws).map FifoEntry.word = ws := by
  induction ws generalizing b with
  | nil => rfl
  | cons w ws ih => simp [talkEntries, ih]

theorem talkEntries_index (i : RingIdx) (b : Bool) (ws : List Word) :
    ∀ e ∈ talkEntries i b ws, e.index = i := by
  induction ws generalizing b with
  | nil => simp [talkEntries]
  | cons w ws ih =>
      intro e he
      rcases List.mem_cons.mp he with rfl | he
      · rfl
      · exact ih _ e he

/-- Only the buffer's first word is marked (R107). -/
theorem talkEntries_rest (i : RingIdx) (b : Bool) (ws : List Word) :
    ∀ e ∈ (talkEntries i b ws).drop 1, e.boundary = false := by
  have h : ∀ ws : List Word, ∀ e ∈ talkEntries i false ws, e.boundary = false := by
    intro ws
    induction ws with
    | nil => simp [talkEntries]
    | cons w ws ih =>
        intro e he
        rcases List.mem_cons.mp he with rfl | he
        · rfl
        · exact ih e he
  cases ws with
  | nil => simp [talkEntries]
  | cons w ws => exact h ws

/-! ### F stays at C or C + 1 (R100) -/

/-- The fetch index is the current index or the one after it. -/
def Walker.near (w : Walker) : Prop := w.fetch = w.cur ∨ w.fetch = w.cur + 1

theorem Walker.advance_near (w : Walker) : w.advance.near := Or.inl rfl

theorem Stream.completeOnce_near (c : Word) (r : RecordStatus) (n : Nat) (st : Stream) :
    (st.completeOnce c r n).walker.near := by
  by_cases hc : st.walker.cur = st.walker.ready
  · rw [Stream.completeOnce_end c r n st hc]; exact Or.inl rfl
  · cases hp : st.walker.prefetched with
    | none => rw [Stream.completeOnce_more c r n st hc hp]; exact Or.inl rfl
    | some d => rw [Stream.completeOnce_prefetched c r n st d hc hp]; exact Or.inl rfl

theorem Stream.complete_near (c : Word) (r : RecordStatus) (n : Nat) (st : Stream) :
    (st.complete c r n).walker.near := by
  unfold Stream.complete
  dsimp only
  split
  · split
    · exact Stream.completeOnce_near _ _ _ _
    · exact Stream.completeOnce_near _ _ _ _
  · exact Stream.completeOnce_near _ _ _ _

end Sys2Proof.Machine
end

