-- ==== Sys2Proof/Laws/Access.lean ====
section
/-! SUPPORT. The tables of Safety.lean and the Ring Walker: the access a stream chooses and presents, a
stop between two accesses, the stop request, and a completion. -/

namespace Sys2Proof.Machine

open Sys2Proof

/-! ### Addresses and words -/

/-- Descriptor `i` stands 16 bytes on for each index (R98). -/
theorem Stream.descriptorAddress_eq (st : Stream) (i : RingIdx) :
    st.descriptorAddress i = st.descriptorAt i := by
  unfold Stream.descriptorAddress Stream.descriptorAt
  apply congrArg
  apply BitVec.eq_of_toNat_eq
  simp [BitVec.toNat_mul, BitVec.toNat_ofNat]

theorem halves_eq (a b : BitVec 16) : a ++ b = BitVec.ofNat 32 (a.toNat * 65536 + b.toNat) := by
  apply BitVec.eq_of_toNat_eq
  have := a.isLt
  have := b.isLt
  rw [BitVec.toNat_append, Nat.shiftLeft_eq, Nat.mul_comm,
    ← Nat.two_pow_add_eq_or_of_lt (i := 16) b.isLt, BitVec.toNat_ofNat, Nat.mod_eq_of_lt (by omega)]

/-- The record words as numbers (R98). -/
theorem Record.data_eq (r : Record) : r.data = recordWords r := by
  rcases r with ⟨i, st, w, s, t, n, e⟩
  unfold Record.data recordWords
  cases st <;> simp [halves_eq, RecordStatus.code]

/-- Past the first entry only the marks count. -/
theorem takeWhile_zipIdx_marks (m : Nat) (l : List FifoEntry) (n : Nat) (hn : 0 < n) :
    ((l.zipIdx n).takeWhile fun e => !e.1.boundary || (e.2 == 0 && m == 0)).length =
      (l.takeWhile fun e => !e.boundary).length := by
  induction l generalizing n with
  | nil => simp
  | cons a l ih =>
      have hn' : n ≠ 0 := by omega
      have hi := ih (n + 1) (by omega)
      simp only [List.zipIdx_cons, List.takeWhile_cons]
      cases hb : a.boundary
      · simp
        exact hi
      · simp [hn']

/-- The entries that a buffer write may take, counted by their marks (R109). -/
theorem Stream.placeable_eq (st : Stream) (d : Descriptor) (h : st.walker.inHand = some d) :
    st.placeable = st.placeableTable d := by
  unfold Stream.placeable Stream.placeableTable Walker.unmoved
  simp only [h, Option.map_some, Option.getD_some, Config.fifoDepth, Descriptor.len]
  cases hl : List.take (min 16 (d.length.toNat - st.walker.moved)) st.fifo with
  | nil => simp
  | cons e es =>
      have h1 := takeWhile_zipIdx_marks st.walker.moved es 1 (by omega)
      simp only [List.zipIdx_cons, List.takeWhile_cons, Nat.zero_add]
      by_cases hb : e.boundary = true <;> by_cases hm : st.walker.moved = 0 <;>
        simp [hb, hm] at h1 ⊢ <;> omega

/-! ### What presenting an access changes (R104, R105) -/

theorem Stream.present_record (b : Bool) (st : Stream) (r : Record) (rs : List Record)
    (hr : st.walker.records = r :: rs) :
    st.present b .record = st.presentedTable b (st.recordWriteOf r) := by
  simp [Stream.present, Stream.presentRecord, hr, Stream.presentedTable, Stream.recordWriteOf,
    Stream.onWalker, Access.present, Stream.descriptorAddress_eq, Record.data_eq]

theorem Stream.present_fetchCur (b : Bool) (st : Stream) :
    st.present b .fetchCur = st.presentedTable b (st.fetchOf st.walker.cur) := by
  simp [Stream.present, Stream.presentedTable, Stream.fetchOf, Stream.onWalker, Access.present,
    Stream.descriptorAddress_eq]

theorem Stream.present_prefetch (b : Bool) (st : Stream) :
    st.present b .prefetch = st.presentedTable b (st.fetchOf (st.walker.cur + 1)) := by
  simp [Stream.present, Stream.presentedTable, Stream.fetchOf, Stream.onWalker, Access.present,
    Stream.descriptorAddress_eq]

theorem Stream.present_readCur (b : Bool) (st : Stream) (d : Descriptor) (n : Nat)
    (h : st.walker.inHand = some d) : st.present b (.readCur n) =
      st.presentedTable b (readOf st.walker.cur d st.walker.moved n) := by
  simp [Stream.present, Stream.presentedTable, readOf, Stream.onWalker, Access.present, h,
    Descriptor.wordAddress]

theorem Stream.present_readNext (b : Bool) (st : Stream) (d : Descriptor) (n : Nat)
    (h : st.walker.prefetched = some d) : st.present b (.readNext n) =
      st.presentedTable b (readOf st.walker.fetch d st.walker.ahead n) := by
  simp [Stream.present, Stream.presentedTable, readOf, Stream.onWalker, Access.present, h,
    Descriptor.wordAddress]

theorem Stream.present_writeCur (b : Bool) (st : Stream) (d : Descriptor) (n : Nat)
    (h : st.walker.inHand = some d) :
    st.present b (.writeCur n) = st.presentedTable b (st.writeOf d n) := by
  simp [Stream.present, Stream.presentedTable, Stream.writeOf, Access.present, h,
    Descriptor.wordAddress, Walker.unmoved, Descriptor.len, Walker.left]

theorem Stream.present_abort (b : Bool) (st : Stream) (hr : st.walker.records = []) :
    st.present b .abort =
      st.presentedTable b (st.recordWriteOf (st.walker.abortRecord false)) := by
  have e : st.walker.recordOf .aborted st.walker.done
      ((st.walker.inHand.map Descriptor.notify).getD b) false = st.walker.abortRecord b := rfl
  simp only [Stream.present, Stream.presentedTable, Stream.buildAbort, Stream.presentRecord,
    Stream.onWalker, Walker.advance, hr, Stream.recordWriteOf, List.nil_append, ne_eq,
    not_true_eq_false, if_false, e]
  congr 2
  simp [Access.present, Record.data_eq, Stream.descriptorAt, Walker.abortRecord, recordWords,
    Stream.descriptorAddress_eq]

/-! ### The choice (R103, R104, R114, R115) -/

/-- A choice and a table entry agree: neither is there, or both are and presenting the choice is what the
table says of the access. -/
def Stream.Agree (st : Stream) (b : Bool) : Option Choice → Option Access → Prop
  | none, none => True
  | some c, some a => st.present b c = st.presentedTable b a
  | _, _ => False

/-- The choice while walking (R104). -/
theorem Stream.chooseWalking_table (st : Stream) (b : Bool) :
    st.Agree b st.chooseWalking st.walkingTable := by
  unfold Stream.chooseWalking Stream.walkingTable
  dsimp only
  cases hr : st.walker.records with
  | cons r rs =>
    rw [if_pos (by simp)]
    exact Stream.present_record b st r rs hr
  | nil =>
    simp only [ne_eq, not_true_eq_false, if_false, Stream.room, Config.fifoDepth]
    cases hi : st.walker.inHand with
    | none =>
      have hp : st.placeable = 0 := by simp [Stream.placeable, Walker.unmoved, hi]
      cases hc : st.walker.caughtUp with
      | false => simpa [Stream.Agree] using Stream.present_fetchCur b st
      | true =>
        cases ht : st.isTalk with
        | false => simp [hp, Stream.Agree]
        | true =>
          cases hpre : st.walker.prefetched with
          | none => simp [hp, Walker.unmoved, Walker.unreadNext, hi, hpre, Stream.Agree]
          | some f =>
            simp only [hp, Walker.unmoved, Walker.unreadNext, hi, hpre, Option.map_some,
              Option.getD_some, Option.map_none, Option.getD_none, Descriptor.len]
            by_cases hz : f.length.toNat ≤ st.walker.ahead ∨ 16 - st.fifo.length = 0
            · have : min (f.length.toNat - st.walker.ahead) (16 - st.fifo.length) = 0 := by omega
              simp [hz, this, Stream.Agree]
            · have : min (f.length.toNat - st.walker.ahead) (16 - st.fifo.length) ≠ 0 := by omega
              simp only [hz, this, if_false]
              simpa [Stream.Agree] using Stream.present_readNext b st f _ hpre
    | some d =>
      have hL : ∀ a b : Nat, min a b ≠ 0 ↔ a ≠ 0 ∧ b ≠ 0 := by omega
      simp only [Stream.placeable_eq st d hi, Walker.unmoved, hi, Option.map_some, Option.getD_some,
        Walker.left, Descriptor.len, hL, reduceCtorEq, and_false, if_false]
      by_cases h1 : st.isTalk = true ∧ d.length.toNat - st.walker.moved ≠ 0 ∧ 16 - st.fifo.length ≠ 0
      · rw [if_pos h1, if_pos h1]
        exact Stream.present_readCur b st d _ hi
      rw [if_neg h1, if_neg h1]
      by_cases h2 : st.isTalk = false ∧ st.placeableTable d ≠ 0
      · rw [if_pos (by simpa using h2), if_pos h2]
        exact Stream.present_writeCur b st d _ hi
      rw [if_neg (by simpa using h2), if_neg h2]
      by_cases h3 : st.walker.fetch = st.walker.cur ∧ st.walker.cur ≠ st.walker.ready
      · rw [if_pos (by simpa using h3), if_pos h3]
        exact Stream.present_prefetch b st
      rw [if_neg (by simpa using h3), if_neg h3]
      cases ht : st.isTalk with
      | false => simp [Stream.Agree]
      | true =>
        cases hpre : st.walker.prefetched with
        | none => simp [Walker.unreadNext, hpre, Stream.Agree]
        | some f =>
          simp only [Walker.unreadNext, hpre, Option.map_some, Option.getD_some, Descriptor.len]
          by_cases hz : d.length.toNat - st.walker.moved ≠ 0 ∨ f.length.toNat ≤ st.walker.ahead
              ∨ 16 - st.fifo.length = 0
          · rw [if_pos hz, if_neg (by omega)]
            trivial
          · rw [if_neg hz, if_pos ⟨trivial, by omega⟩]
            exact Stream.present_readNext b st f _ hpre

/-- The choice during a stop (R114, R115). -/
theorem Stream.chooseStopping_table (st : Stream) (b : Bool) :
    st.Agree b st.chooseStopping st.stoppingTable := by
  unfold Stream.chooseStopping Stream.stoppingTable
  dsimp only
  cases hr : st.walker.records with
  | cons r rs =>
    rw [if_pos (by simp)]
    exact Stream.present_record b st r rs hr
  | nil =>
    simp only [ne_eq, not_true_eq_false, if_false]
    by_cases h0 : st.walker.stopCaughtUp = true ∨ st.walker.abortBuilt = true
    · rw [if_pos h0, if_pos h0]
      trivial
    rw [if_neg h0, if_neg h0]
    by_cases h1 : st.isTalk = true ∨ st.fifo = []
    · rw [if_pos h1, if_neg (by rcases h1 with h1 | h1 <;> simp [h1]), if_neg (by
        rcases h1 with h1 | h1 <;> simp [h1])]
      exact Stream.present_abort b st hr
    rw [if_neg h1]
    push Not at h1
    have ht : st.isTalk = false := by simpa using h1.1
    cases hi : st.walker.inHand with
    | none =>
      rw [if_pos (by simp [ht, h1])]
      exact Stream.present_fetchCur b st
    | some d =>
      simp only [ht, Walker.unmoved, hi, Walker.left, Config.fifoDepth, Option.map_some,
        Option.getD_some, Descriptor.len, reduceCtorEq, false_and, and_false, if_false]
      by_cases h2 : d.length.toNat - st.walker.moved = 0
      · rw [if_pos h2, if_neg (by simp [h2])]
        exact Stream.present_abort b st hr
      · have := List.length_pos_iff.mpr h1.2
        rw [if_neg h2, if_pos ⟨rfl, by omega⟩]
        exact Stream.present_writeCur b st d _ hi

/-- The access that a stream chooses is that of the table, and presenting it changes what the table says
(R103, R104). -/
theorem Stream.choose_table (st : Stream) (b : Bool) : st.Agree b st.choose st.accessTable := by
  unfold Stream.choose Stream.accessTable
  cases ha : st.walker.access with
  | some a => simp [Stream.Agree]
  | none =>
    cases hm : st.walker.mode with
    | off => simp [Stream.Agree]
    | walking => simpa using Stream.chooseWalking_table st b
    | stopping => simpa using Stream.chooseStopping_table st b
    | held =>
      cases hr : st.walker.records with
      | nil => simp [Stream.Agree]
      | cons r rs => simpa [Stream.Agree] using Stream.present_record b st r rs hr

/-- A stream waits for the initiator exactly where the table gives it an access. -/
theorem Stream.choose_isSome (st : Stream) : st.choose.isSome = true ↔ st.accessTable ≠ none := by
  have h := Stream.choose_table st false
  revert h
  cases st.choose <;> cases st.accessTable <;> simp [Stream.Agree]

/-! ### Stops and completions -/

theorem Stream.discardEntries_table (st : Stream) : st.discardEntries = st.discardTable := by
  unfold Stream.discardEntries Stream.discardTable
  split <;> rfl

theorem Stream.onStopDone_table (st : Stream) : st.onStopDone = st.stopDoneTable := by
  unfold Stream.onStopDone Stream.stopDoneTable Stream.finishStop
  cases ht : st.isTalk <;> cases hs : st.state <;> simp [Stream.raise] <;> rfl

/-- A stop between two accesses (R115, R116). -/
theorem Stream.settle_table (st : Stream) (h : st.walker.mode = .stopping) :
    st.settle = st.stopTable := by
  unfold Stream.settle Stream.stopTable
  dsimp only
  by_cases h1 : st.walker.access ≠ none ∨ st.walker.records ≠ []
  · rw [if_pos h1, if_neg (by tauto)]
  · rw [if_neg h1, if_pos (by tauto)]
    split
    · simp only [Stream.discardEntries_table, Stream.onStopDone_table]
      congr 1
      simp only [Stream.onWalker]
      unfold Stream.discardTable
      split_ifs <;> rfl
    · have : ((!st.isTalk) = true ∧
          (st.walker.inHand.any fun d => decide (d.len ≤ st.walker.moved)) = true) ↔
          (st.isTalk = false ∧ ∃ d ∈ st.walker.inHand, d.length.toNat ≤ st.walker.moved) := by
        cases st.walker.inHand with
        | none => simp
        | some d => by_cases hd : d.length.toNat ≤ st.walker.moved <;> simp [Descriptor.len, hd]
      simp only [this, Stream.discardEntries_table]

theorem Walker.stopNoted_access (b : Bool) (w : Walker) :
    w.access.map (Access.onStop b w.cur) = (w.stopNoted b).access := by
  unfold Walker.stopNoted Access.onStop
  cases w.access with
  | none => rfl
  | some a =>
      rcases a with ⟨kd, i, ad, c, di, da, stp⟩
      cases b <;> cases kd <;> simp

/-- The stop request of a walker at work (R113). -/
theorem Stream.stopRequest_table (st : Stream) (b : Bool) (hb : st.isTalk = b)
    (hw : st.walker.mode = .walking ∨ st.walker.mode = .held) :
    st.stopRequest = ({ st with walker := st.walker.stopNoted b } : Stream).stopTable := by
  subst hb
  have e := Walker.stopNoted_access st.isTalk st.walker
  have h : st.stopRequest =
      ({ st with walker := st.walker.stopNoted st.isTalk } : Stream).settle := by
    unfold Stream.stopRequest
    rcases hw with hw | hw <;> rw [hw] <;> dsimp only [Stream.onWalker] <;> rw [e] <;> rfl
  rw [h, Stream.settle_table _ rfl]

theorem Access.discard_map (i : RingIdx) (x : Option Access) :
    x.map (Access.discardFor i) = x.map fun a =>
      if (true = true) ∧ (a.kind = .fetch ∨ a.kind = .read) ∧ a.index = i then
        { a with discard := true } else a := by
  cases x <;> simp [Access.discardFor]

/-- One completion (R102). -/
theorem Stream.completeOnce_table (c : Word) (r : RecordStatus) (n : Nat) (st : Stream) :
    st.completeOnce c r n = st.completedOnce c r n := by
  have hid : ∀ x : Option Access, (x.map fun a => a) = x := by intro x; cases x <;> rfl
  unfold Stream.completedOnce
  by_cases hc : st.walker.cur = st.walker.ready
  · unfold Stream.completeOnce Stream.onCaughtUp
    have hb : (st.walker.cur == st.walker.ready) = true := by simpa using hc
    simp only [hb]
    cases ht : st.isTalk <;> cases hs : st.state <;>
      simp_all [Stream.isTalk, Walker.advance, Walker.recordOf, Walker.notifyInHand,
        Access.discard_map]
  · have hb : (st.walker.cur == st.walker.ready) = false := by simpa using hc
    unfold Stream.completeOnce
    cases hp : st.walker.prefetched <;>
      simp [hb, hc, hp, hid, Walker.advance, Walker.recordOf, Walker.notifyInHand, Descriptor.len]

/-- A completion with the empty one that may follow (R102, R106). -/
theorem Stream.complete_table (c : Word) (r : RecordStatus) (n : Nat) (st : Stream) :
    st.complete c r n = st.completedTable c r n := by
  unfold Stream.complete Stream.completedTable
  simp only [Stream.completeOnce_table]
  cases (st.completedOnce c r n).walker.inHand with
  | none => simp
  | some d =>
      have : d.len = 0 ↔ d.length = 0 := by
        unfold Descriptor.len
        exact ⟨fun h => BitVec.eq_of_toNat_eq h, fun h => by rw [h]; rfl⟩
      simp [this]

/-- A departure at the engine (R108, R124). -/
theorem Stream.dataEcho_table (c : Word) (st : Stream) : st.dataEcho c = st.departTable c := by
  unfold Stream.dataEcho Stream.departTable Stream.departure
  cases st.wordOnLine
  · rfl
  · simp only [Stream.complete_table, if_true, Bool.true_eq_false, if_false]
    rfl

/-! ### Reports of the Slot Agent -/

theorem ownCount_zero (m : Vector SlotEntry 48) (k : StreamNo) :
    ownCount m k = 0 ↔ ∀ i : SlotNo, m[i].stream? ≠ some k := by
  simp [ownCount, countEntries_zero]

theorem Stream.noneRemain_table (st : Stream) : st.onNoneRemain = st.noneRemainTable := by
  unfold Stream.onNoneRemain Stream.noneRemainTable Stream.finishStop
  by_cases h : st.isTalk = true ∧ st.state = .stopping
  · simp only [h, and_self, if_true, and_true]
    cases st.walkerQuiet <;> simp [Stream.raise] <;> rfl
  · simp [h]

/-- The report of a changed map to one stream (R40, R127, R133). -/
theorem reportMap_table (c : Word) (m m' : Vector SlotEntry 48) (k : StreamNo) (st : Stream) :
    reportMap c m m' k st = st.mapReported c m m' k := by
  have e : (if mineCount m' k = st.held then st else st.onHeld c (mineCount m' k)) =
      st.heldTable c (mineCount m' k) := by
    generalize mineCount m' k = n
    unfold Stream.heldTable Stream.onHeld Stream.runOrDrain
    by_cases hn : n = st.held
    · subst hn
      rw [if_pos rfl, if_neg (by omega), if_neg (by omega)]
      simp
    · have hb : (n == st.held) = false := by simpa using hn
      cases ht : st.isTalk <;> cases hs : st.state <;> cases hc : st.walker.caughtUp <;>
        simp only [hn, hb, ht, hs, hc, if_false, if_true, Bool.false_or, reduceCtorEq, and_true,
          true_and, and_false, false_and, Bool.not_true, Bool.not_false, Bool.false_eq_true, or_true,
          true_or, or_false, ne_eq] <;> split_ifs <;> rfl
  unfold reportMap Stream.mapReported
  dsimp only
  rw [e, Stream.noneRemain_table]
  have : ownCount m k ≠ 0 ↔ ∃ i : SlotNo, m[i].stream? = some k := by
    rw [Ne, ownCount_zero]
    simp
  simp only [this, ownCount_zero m' k]

end Sys2Proof.Machine
end

