-- ==== Sys2Proof/Laws/Limits.lean ====
section
/-! SUPPORT. Each operation on a stream context keeps it within its bounds (R100, R107, R121), keeps its
configuration and leaves a STOPPED stream STOPPED; START alone begins a stream. -/

namespace Sys2Proof.Machine

open Sys2Proof

/-- From `a` to `b` the bounds are kept, and so is the configuration, and a STOPPED stream stays so. -/
structure Stream.Steady (a b : Stream) : Prop where
  bounded : a.Bounded → b.Bounded
  cfg : b.cfg = a.cfg
  stopped : a.state = .stopped → b.state = .stopped

theorem Stream.Steady.refl (a : Stream) : a.Steady a := ⟨id, rfl, id⟩

theorem Stream.Steady.trans {a b c : Stream} (h₁ : a.Steady b) (h₂ : b.Steady c) : a.Steady c :=
  ⟨fun h => h₂.bounded (h₁.bounded h), h₂.cfg.trans h₁.cfg, fun h => h₂.stopped (h₁.stopped h)⟩

/-- A walker that only ends or discards an access, or forgets words read ahead. -/
structure Walker.Calmer (w v : Walker) : Prop where
  mode : v.mode = w.mode
  ahead : v.ahead = w.ahead ∨ v.ahead = 0
  access : ∀ x, v.access = some x → ∃ y, w.access = some y ∧ x.kind = y.kind ∧ x.count = y.count ∧
    (y.discard = true → x.discard = true)

theorem Walker.Calmer.refl (w : Walker) : w.Calmer w :=
  ⟨rfl, .inl rfl, fun x h => ⟨x, h, rfl, rfl, id⟩⟩

/-- Access, mode and the words read ahead are as before. -/
theorem Walker.Calmer.same {w v : Walker} (hm : v.mode = w.mode) (ha : v.ahead = w.ahead)
    (hx : v.access = w.access) : w.Calmer v :=
  ⟨hm, .inl ha, fun x h => ⟨x, hx ▸ h, rfl, rfl, id⟩⟩

theorem Walker.Calmer.trans {u v w : Walker} (h₁ : u.Calmer v) (h₂ : v.Calmer w) : u.Calmer w := by
  refine ⟨h₂.mode.trans h₁.mode, ?_, ?_⟩
  · rcases h₂.ahead with h | h
    · rw [h]; exact h₁.ahead
    · exact .inr h
  · intro x hx
    obtain ⟨y, hy, a, b, c⟩ := h₂.access x hx
    obtain ⟨z, hz, a', b', c'⟩ := h₁.access y hy
    exact ⟨z, hz, a.trans a', b.trans b', fun h => c (c' h)⟩

theorem Walker.Calmer.reserved {w v : Walker} (h : w.Calmer v) : v.reserved ≤ w.reserved := by
  unfold Walker.reserved
  cases hv : v.access with
  | none => simp
  | some x =>
      obtain ⟨y, hy, hk, hn, hd⟩ := h.access x hv
      simp only [hy, hk, hn]
      split
      · rename_i hx
        have : ¬ y.discard = true := fun e => by simp [hd e] at hx
        rw [if_pos ⟨hx.1, by simpa using this⟩]
      · simp

theorem Walker.Calmer.idle {w v : Walker} (h : w.Calmer v) (hw : w.access = none) :
    v.access = none := by
  cases hv : v.access with
  | none => rfl
  | some x =>
      obtain ⟨y, hy, -⟩ := h.access x hv
      rw [hw] at hy
      cases hy

/-- A map over the access in flight that keeps its kind and size, and a mark for discard. -/
theorem Walker.Calmer.map {w v : Walker} (f : Access → Access) (hm : v.mode = w.mode)
    (ha : v.ahead = w.ahead ∨ v.ahead = 0) (hx : v.access = w.access.map f)
    (hf : ∀ a, (f a).kind = a.kind ∧ (f a).count = a.count ∧
      (a.discard = true → (f a).discard = true)) : w.Calmer v := by
  refine ⟨hm, ha, fun x h => ?_⟩
  rw [hx, Option.map_eq_some_iff] at h
  obtain ⟨y, hy, rfl⟩ := h
  exact ⟨y, hy, (hf y).1, (hf y).2.1, (hf y).2.2⟩

theorem Access.discardRead_keeps (a : Access) : a.discardRead.kind = a.kind ∧
    a.discardRead.count = a.count ∧ (a.discard = true → a.discardRead.discard = true) := by
  unfold Access.discardRead; split <;> simp

theorem Access.discardFor_keeps (i : RingIdx) (a : Access) : (a.discardFor i).kind = a.kind ∧
    (a.discardFor i).count = a.count ∧ (a.discard = true → (a.discardFor i).discard = true) := by
  unfold Access.discardFor; split <;> simp

/-! ### What keeps the bounds -/

/-- The FIFO does not grow, the walker is calmer, and the engine's state and its quiet mark stay. -/
theorem Stream.Steady.calmer {a b : Stream} (hc : b.cfg = a.cfg)
    (hf : b.fifo.length ≤ a.fifo.length) (hw : a.walker.Calmer b.walker)
    (hq : b.walkerQuiet = a.walkerQuiet) (hs : b.state = a.state) : a.Steady b := by
  have ht : b.isTalk = a.isTalk := Stream.isTalk_congr hc
  refine ⟨fun h => ⟨?_, ?_, ?_, ?_, ?_, ?_, ?_⟩, hc, fun e => hs.trans e⟩
  · exact le_trans (Nat.add_le_add hf hw.reserved) h.room
  · intro e x hx
    obtain ⟨y, hy, hk, -⟩ := hw.access x hx
    exact hk ▸ h.listenReads (ht ▸ e) y hy
  · exact fun e => hw.idle (h.offIdle (hw.mode ▸ e))
  · rw [hs, hw.mode]; exact h.stoppedOff
  · rw [ht, hq, hs, hw.mode]; exact h.quietOff
  · rw [ht, hw.mode]
    intro e
    rcases hw.ahead with h' | h'
    · exact h'.trans (h.aheadWalking e)
    · exact h'
  · intro e x hx hr
    obtain ⟨y, hy, hk, -, hd⟩ := hw.access x hx
    exact hd (h.stopDiscards (hw.mode ▸ e) y hy (hk ▸ hr))

/-- FIFO, walker, engine state and quiet mark stay. -/
theorem Stream.Steady.same {a b : Stream} (hc : b.cfg = a.cfg) (hf : b.fifo = a.fifo)
    (hw : b.walker = a.walker) (hq : b.walkerQuiet = a.walkerQuiet) (hs : b.state = a.state) :
    a.Steady b :=
  .calmer hc (by rw [hf]) (hw ▸ .refl _) hq hs

/-- A Talk Stream that is quiet is stopped, stopping or faulted. -/
theorem Stream.Bounded.notQuiet {a : Stream} (h : a.Bounded) (ht : a.isTalk = true)
    (h₁ : a.state ≠ .stopped) (h₂ : a.state ≠ .stopping) (h₃ : a.state ≠ .faulted) :
    a.walkerQuiet = false := by
  cases hq : a.walkerQuiet with
  | false => rfl
  | true => rcases (h.quietOff ht hq).2 with e | e | e <;> contradiction

/-- A state that is none of STOPPED, STOPPING and FAULTED. -/
def StreamState.started (x : StreamState) : Prop :=
  x ≠ .stopped ∧ x ≠ .stopping ∧ x ≠ .faulted

/-- The engine goes from a started state to another state but STOPPED; the rest stays. -/
theorem Stream.Steady.engine {a b : Stream} (hc : b.cfg = a.cfg) (hf : b.fifo = a.fifo)
    (hw : b.walker = a.walker) (hq : b.walkerQuiet = a.walkerQuiet) (ha : a.state.started)
    (hb : b.state ≠ .stopped) : a.Steady b := by
  have ht : b.isTalk = a.isTalk := Stream.isTalk_congr hc
  refine ⟨fun h => ⟨?_, ?_, ?_, fun e => absurd e hb, ?_, ?_, ?_⟩, hc, fun e => absurd e ha.1⟩
  · rw [hf, hw]; exact h.room
  · rw [ht, hw]; exact h.listenReads
  · rw [hw]; exact h.offIdle
  · rw [ht, hq]
    intro e₁ e₂
    rw [h.notQuiet e₁ ha.1 ha.2.1 ha.2.2] at e₂
    cases e₂
  · rw [ht, hw]; exact h.aheadWalking
  · rw [hw]; exact h.stopDiscards

variable {st : Stream}

theorem Stream.steady_raise (e : StreamEvent) : st.Steady (st.raise e) := .same rfl rfl rfl rfl rfl

theorem Stream.Steady.raise {a b : Stream} {e : StreamEvent} (h : a.Steady b) :
    a.Steady (b.raise e) := h.trans (Stream.steady_raise e)

/-- A change of the walker alone. -/
theorem Stream.steady_onWalker (f : Walker → Walker) (h : st.walker.Calmer (f st.walker)) :
    st.Steady (st.onWalker f) := .calmer rfl le_rfl h rfl rfl

theorem Stream.steady_emptyFifo : st.Steady st.emptyFifo :=
  .calmer rfl (Nat.zero_le _)
    (.map Access.discardRead rfl (.inl rfl) rfl Access.discardRead_keeps) rfl rfl

/-! ### Reports between the blocks -/

theorem Stream.steady_runOrDrain (c : Word) (h : st.state.started) : st.Steady (st.runOrDrain c) :=
  .engine (by simp) (by simp) (by simp) (by simp) h (by unfold Stream.runOrDrain; split <;> simp)

theorem Stream.steady_onHeld (c : Word) (n : Nat) : st.Steady (st.onHeld c n) := by
  have h₀ : st.Steady { st with held := n, short := st.short && n != st.cfg.wanted.toNat } :=
    .same rfl rfl rfl rfl rfl
  unfold Stream.onHeld
  dsimp only
  split
  · exact h₀
  · split
    · rename_i h
      exact h₀.trans (Stream.steady_runOrDrain c (by simp [StreamState.started, h.2.2]))
    · split
      · rename_i h
        refine h₀.trans (.engine rfl rfl rfl rfl ?_ (by simp))
        rcases h.2.2 with h | h <;> simp [StreamState.started, h]
      · exact h₀

/-- The end of a stop, for a Talk Stream. -/
theorem Stream.steady_finishStop (h : st.isTalk = true) : st.Steady st.finishStop := by
  unfold Stream.finishStop
  split
  · rename_i hq
    refine Stream.Steady.trans (b := { st with state := .stopped }) ?_ (Stream.steady_raise _)
    exact ⟨fun b => ⟨b.room, b.listenReads, b.offIdle, fun _ => (b.quietOff h hq.1).1,
      fun _ e => ⟨(b.quietOff h hq.1).1, .inl rfl⟩, b.aheadWalking, b.stopDiscards⟩, rfl, fun _ => rfl⟩
  · exact .refl _

theorem Stream.steady_onNoneRemain : st.Steady st.onNoneRemain := by
  unfold Stream.onNoneRemain
  split
  · rename_i h
    exact Stream.Steady.trans (b := { st with entriesGone := true }) (.same rfl rfl rfl rfl rfl)
      (Stream.steady_finishStop h.1)
  · exact .refl _

/-- Stop done comes when the walker is OFF. -/
theorem Stream.steady_onStopDone (hm : st.walker.mode = .off) : st.Steady st.onStopDone := by
  have hq (h : st.state = .stopping ∨ st.state = .faulted) :
      st.Steady { st with walkerQuiet := true } :=
    ⟨fun b => ⟨b.room, b.listenReads, b.offIdle, b.stoppedOff, fun _ _ => ⟨hm, .inr h⟩,
      b.aheadWalking, b.stopDiscards⟩, rfl, id⟩
  unfold Stream.onStopDone
  split
  · rename_i ht
    split
    · rename_i hs
      exact (hq (.inl hs)).trans (Stream.steady_finishStop ht)
    · rename_i hs
      exact hq (.inr hs)
    · exact .refl _
  · split
    · rename_i ht hs
      refine Stream.Steady.trans (b := { st with state := .stopped }) ?_ (Stream.steady_raise _)
      exact ⟨fun b => ⟨b.room, b.listenReads, b.offIdle, fun _ => hm,
        fun e => absurd e ht, b.aheadWalking, b.stopDiscards⟩, rfl, fun _ => rfl⟩
    · exact .refl _

theorem Stream.steady_onCaughtUp (c : Word) : st.Steady (st.onCaughtUp c) := by
  unfold Stream.onCaughtUp
  split
  · rename_i h
    split <;> exact .engine rfl rfl rfl rfl (by simp [StreamState.started, h]) (by simp)
  · exact .refl _

theorem Stream.steady_onResumed : st.Steady st.onResumed := by
  unfold Stream.onResumed
  split
  · split
    · rename_i h
      exact .engine rfl rfl rfl rfl (by simp [StreamState.started, h]) (by simp)
    all_goals exact .same rfl rfl rfl rfl rfl
  · split
    · rename_i h
      exact .engine rfl rfl rfl rfl (by simp [StreamState.started, h]) (by simp)
    · exact .refl _

theorem Stream.steady_discardEntries : st.Steady st.discardEntries := by
  unfold Stream.discardEntries
  split
  · exact .refl _
  · exact .raise (.calmer rfl (Nat.zero_le _) (.refl _) rfl rfl)

theorem reportMap_steady (c : Word) (m m' : Vector SlotEntry 48) (k : StreamNo) :
    st.Steady (reportMap c m m' k st) := by
  have h₀ : st.Steady (if mineCount m' k = st.held then st else st.onHeld c (mineCount m' k)) := by
    split
    · exact .refl _
    · exact Stream.steady_onHeld _ _
  unfold reportMap
  dsimp only
  split
  · exact h₀.trans Stream.steady_onNoneRemain
  · exact h₀

/-! ### Completion -/

theorem Walker.advance_calmer (w : Walker) : w.Calmer w.advance :=
  ⟨rfl, .inr rfl, fun x h => ⟨x, h, rfl, rfl, id⟩⟩

theorem Stream.steady_completeOnce (c : Word) (r : RecordStatus) (n : Nat) :
    st.Steady (st.completeOnce c r n) := by
  unfold Stream.completeOnce
  dsimp only
  split
  · refine Stream.Steady.trans ?_ (Stream.steady_onCaughtUp _)
    refine .calmer rfl ?_ ?_ rfl rfl
    · dsimp only
      split
      · exact List.length_filter_le _ _
      · exact le_rfl
    · exact .map (Access.discardFor _) rfl (.inr rfl) rfl (Access.discardFor_keeps _)
  · refine .calmer rfl le_rfl ?_ rfl rfl
    dsimp only
    split <;> exact ⟨rfl, .inr rfl, fun x h => ⟨x, h, rfl, rfl, id⟩⟩

theorem Stream.steady_complete (c : Word) (r : RecordStatus) (n : Nat) :
    st.Steady (st.complete c r n) := by
  have h := st.steady_completeOnce c r n
  unfold Stream.complete
  dsimp only
  split
  · split
    · exact h.trans (Stream.steady_completeOnce _ _ _)
    · exact h
  · exact h

theorem Stream.steady_departure (c : Word) : st.Steady (st.departure c) := by
  have h : st.Steady (st.onWalker fun w => { w with
      firstStamp := some (w.firstStamp.getD (c.setWidth 16))
      done := w.done + 1
      remaining := w.remaining - 1 }) := Stream.steady_onWalker _ (.same rfl rfl rfl)
  unfold Stream.departure
  dsimp only
  split
  · exact h.trans (Stream.steady_complete _ _ _)
  · exact h

theorem Stream.steady_cutCheck (c : Word) : st.Steady (st.cutCheck c) := by
  unfold Stream.cutCheck
  dsimp only
  split
  · exact Stream.steady_complete _ _ _
  · exact .refl _

/-! ### Stop -/

theorem Stream.steady_settle : st.Steady st.settle := by
  have off (a : Stream) (hm : a.walker.mode = .stopping) (ha : a.walker.access = none) :
      a.Steady (a.onWalker fun w => { w with
        mode := .off, stopCaughtUp := false, abortBuilt := false }) := by
    refine ⟨fun h => ⟨?_, h.listenReads, fun _ => ha, fun _ => rfl, ?_, ?_, ?_⟩, rfl, id⟩
    · exact h.room
    · intro h₁ h₂
      exact ⟨rfl, (h.quietOff h₁ h₂).2⟩
    · exact fun _ => h.aheadWalking (.inr (.inr hm))
    · intro e; cases e
  unfold Stream.settle
  dsimp only
  split
  · rename_i h
    split
    · split
      · exact (off st h.1 h.2.1).trans (Stream.steady_onStopDone rfl)
      · refine st.steady_discardEntries.trans ((off _ ?_ ?_).trans (Stream.steady_onStopDone rfl))
        · simpa using h.1
        · simpa using h.2.1
    · split
      · exact Stream.steady_discardEntries
      · exact .refl _
  · exact .refl _

theorem Access.onStop_keeps (t : Bool) (i : RingIdx) (a : Access) : (a.onStop t i).kind = a.kind ∧
    (a.onStop t i).count = a.count ∧ (a.discard = true → (a.onStop t i).discard = true) ∧
    (a.kind = .read → (a.onStop t i).discard = true) := by
  unfold Access.onStop
  split
  · split <;> simp_all
  all_goals simp_all

theorem Stream.steady_stopRequest (hs : st.state ≠ .stopped) : st.Steady st.stopRequest := by
  have enter (hm : st.walker.mode = .walking ∨ st.walker.mode = .held) : st.Steady
      (st.onWalker fun w => { w with
        mode := .stopping
        stopCaughtUp := w.caughtUp
        abortBuilt := false
        access := w.access.map (Access.onStop st.isTalk w.cur)
        prefetched := none
        ahead := 0
        fetch := w.cur }) := by
    have hc : st.walker.Calmer { st.walker with
        ahead := 0, access := st.walker.access.map (Access.onStop st.isTalk st.walker.cur) } :=
      .map _ rfl (.inr rfl) rfl fun a =>
        ⟨(a.onStop_keeps _ _).1, (a.onStop_keeps _ _).2.1, (a.onStop_keeps _ _).2.2.1⟩
    refine ⟨fun h => ⟨?_, ?_, ?_, fun e => absurd e hs, ?_, fun _ => rfl, ?_⟩, rfl, id⟩
    · exact le_trans (Nat.add_le_add_left hc.reserved _) h.room
    · intro e x hx
      obtain ⟨y, hy, hk, -⟩ := hc.access x hx
      exact hk ▸ h.listenReads e y hy
    · intro e; cases e
    · intro h₁ h₂
      have := (h.quietOff h₁ h₂).1
      rcases hm with hm | hm <;> rw [hm] at this <;> cases this
    · intro _ x hx hr
      rw [Stream.onWalker, Option.map_eq_some_iff] at hx
      obtain ⟨y, -, rfl⟩ := hx
      exact (y.onStop_keeps _ _).2.2.2 ((y.onStop_keeps _ _).1 ▸ hr)
  unfold Stream.stopRequest
  split
  · rename_i hm
    exact Stream.steady_onStopDone hm
  · exact .refl _
  · rename_i hm
    exact (enter (.inl hm)).trans Stream.steady_settle
  · rename_i hm
    exact (enter (.inr hm)).trans Stream.steady_settle

/-- The engine's mark that its walker is quiet is Cleared, in a state other than STOPPED. -/
theorem Stream.Steady.unquiet {a b : Stream} (hc : b.cfg = a.cfg) (hf : b.fifo = a.fifo)
    (hw : b.walker = a.walker) (hq : b.walkerQuiet = false) (ha : a.state ≠ .stopped)
    (hb : b.state ≠ .stopped) : a.Steady b := by
  have ht : b.isTalk = a.isTalk := Stream.isTalk_congr hc
  refine ⟨fun h => ⟨?_, ?_, ?_, fun e => absurd e hb, ?_, ?_, ?_⟩, hc, fun e => absurd e ha⟩
  · rw [hf, hw]; exact h.room
  · rw [ht, hw]; exact h.listenReads
  · rw [hw]; exact h.offIdle
  · intro _ e; rw [hq] at e; cases e
  · rw [ht, hw]; exact h.aheadWalking
  · rw [hw]; exact h.stopDiscards

theorem Stream.steady_beginStop (x : StopCause) (hs : st.state ≠ .stopped) :
    st.Steady (st.beginStop x) := by
  unfold Stream.beginStop
  refine Stream.Steady.trans ?_ (Stream.steady_stopRequest (by simp))
  exact st.steady_emptyFifo.trans (.unquiet rfl rfl rfl rfl hs (by simp))

theorem Stream.steady_stopListen (h : st.state.started) : st.Steady st.stopListen := by
  unfold Stream.stopListen
  refine Stream.Steady.trans ?_ (Stream.steady_stopRequest (by simp))
  exact .engine rfl rfl rfl rfl h (by simp)

theorem Stream.steady_duplicateFault : st.Steady st.duplicateFault := by
  have stopping (h : st.state = .stopping) :
      st.Steady { st with state := .faulted, cause := .duplicate } := by
    refine ⟨fun b => ⟨b.room, b.listenReads, b.offIdle, ?_, ?_, b.aheadWalking, b.stopDiscards⟩,
      rfl, ?_⟩
    · intro e; cases e
    · exact fun h₁ h₂ => ⟨(b.quietOff h₁ h₂).1, .inr (.inr rfl)⟩
    · intro e; rw [h] at e; cases e
  have started (h : st.state ≠ .stopped) : st.Steady ((({ st.emptyFifo with
      state := .faulted, cause := .duplicate, priming := false
      walkerQuiet := false } : Stream).raise .fault).stopRequest) := by
    refine Stream.Steady.trans ?_ (Stream.steady_stopRequest (by simp))
    exact .raise (st.steady_emptyFifo.trans (.unquiet rfl rfl rfl rfl h (by simp)))
  unfold Stream.duplicateFault
  split
  · exact .refl _
  · split
    all_goals first
      | exact started (by simp [*])
      | (rename_i h; exact .raise (stopping h))
      | exact .refl _

/-! ### Choosing and presenting -/

theorem Stream.steady_readyWrite (v : RingIdx) : st.Steady (st.readyWrite v) := by
  unfold Stream.readyWrite
  dsimp only
  split
  · exact Stream.steady_onWalker _ (.same rfl rfl rfl)
  · split
    · exact .refl _
    · exact (Stream.steady_onWalker _ (.same rfl rfl rfl)).trans Stream.steady_onResumed

/-- A stream that chooses an access has none in flight, and its walker is not OFF. -/
theorem Stream.choose_idle {c : Choice} (h : st.choose = some c) :
    st.walker.access = none ∧ st.walker.mode ≠ .off := by
  unfold Stream.choose at h
  split at h
  · cases h
  · rename_i ha
    refine ⟨by simpa using ha, fun e => ?_⟩
    rw [e] at h
    cases h

/-- A read is chosen by a Talk Stream that walks, for no more words than the FIFO has room for. -/
theorem Stream.choose_read {n : Nat} (h : st.choose = some (.readCur n) ∨
    st.choose = some (.readNext n)) : st.isTalk = true ∧ st.walker.mode = .walking ∧ n ≤ st.room := by
  have walking (h : st.chooseWalking = some (.readCur n) ∨ st.chooseWalking = some (.readNext n)) :
      st.isTalk = true ∧ n ≤ st.room := by
    unfold Stream.chooseWalking at h
    dsimp only at h
    split_ifs at h <;> simp at h
    all_goals
      subst h
      exact ⟨by simp_all, Nat.min_le_right _ _⟩
  unfold Stream.choose at h
  split at h
  · simp at h
  · split at h
    · simp at h
    · split at h <;> simp at h
    · rename_i hm
      exact ⟨(walking h).1, hm, (walking h).2⟩
    · unfold Stream.chooseStopping at h
      dsimp only at h
      split_ifs at h <;> simp at h

/-- An access other than a read, presented by a stream that had none in flight. -/
theorem Stream.Steady.presents {a b : Stream} (hc : b.cfg = a.cfg)
    (hf : b.fifo.length ≤ a.fifo.length) (hm : b.walker.mode = a.walker.mode)
    (hl : b.walker.ahead = a.walker.ahead ∨ b.walker.ahead = 0) (hon : a.walker.mode ≠ .off)
    (hx : ∀ x, b.walker.access = some x → x.kind ≠ .read)
    (hq : b.walkerQuiet = a.walkerQuiet) (hs : b.state = a.state) : a.Steady b := by
  have ht : b.isTalk = a.isTalk := Stream.isTalk_congr hc
  have hr : b.walker.reserved = 0 := by
    unfold Walker.reserved
    cases hb : b.walker.access with
    | none => rfl
    | some x => simp [hx x hb]
  refine ⟨fun h => ⟨?_, fun _ => hx, fun e => absurd (hm ▸ e) hon, ?_, ?_, ?_, ?_⟩, hc,
    fun e => hs.trans e⟩
  · rw [hr]; exact le_trans hf (le_trans (Nat.le_add_right _ _) h.room)
  · rw [hs, hm]; exact h.stoppedOff
  · rw [ht, hq, hs, hm]; exact h.quietOff
  · rw [ht, hm]
    intro e
    rcases hl with h' | h'
    · exact h'.trans (h.aheadWalking e)
    · exact h'
  · exact fun _ x hb hk => absurd hk (hx x hb)

/-- A read of `n` words, presented by a Talk Stream that walks. -/
theorem Stream.Steady.reads {a b : Stream} {n : Nat} (ht : a.isTalk = true)
    (hm : a.walker.mode = .walking) (hn : n ≤ a.room) (hc : b.cfg = a.cfg) (hf : b.fifo = a.fifo)
    (hbm : b.walker.mode = a.walker.mode)
    (hx : ∀ x, b.walker.access = some x → x.count = n) (hq : b.walkerQuiet = a.walkerQuiet)
    (hs : b.state = a.state) : a.Steady b := by
  have htb : b.isTalk = true := (Stream.isTalk_congr hc).trans ht
  have hr : b.walker.reserved ≤ n := by
    unfold Walker.reserved
    cases hb : b.walker.access with
    | none => exact Nat.zero_le _
    | some x => dsimp only; split <;> simp [hx x hb]
  refine ⟨fun h => ⟨?_, ?_, ?_, ?_, ?_, ?_, ?_⟩, hc, fun e => hs.trans e⟩
  · rw [hf]
    have := h.room
    have hn' : n ≤ 16 - a.fifo.length := hn
    omega
  · intro e; rw [htb] at e; cases e
  · intro e; rw [hbm, hm] at e; cases e
  · rw [hs, hbm]; exact h.stoppedOff
  · intro _; rw [hq, hs, hbm]; exact h.quietOff ht
  · rw [htb, hbm, hm]; intro e; simp at e
  · intro e; rw [hbm, hm] at e; cases e

theorem Stream.steady_present (b : Bool) (c : Choice) (h : st.choose = some c) :
    st.Steady (st.present b c) := by
  have hi := Stream.choose_idle h
  have record (a : Stream) (hc : a.cfg = st.cfg) (hf : a.fifo = st.fifo)
      (hm : a.walker.mode = st.walker.mode) (hl : a.walker.ahead = st.walker.ahead ∨ a.walker.ahead = 0)
      (hx : a.walker.access = none) (hq : a.walkerQuiet = st.walkerQuiet) (hs : a.state = st.state) :
      st.Steady a.presentRecord := by
    unfold Stream.presentRecord
    split
    · exact .presents hc (by rw [hf]) hm hl hi.2 (by simp [hx]) hq hs
    · exact .presents hc (by simp [Stream.onWalker, hf]) hm hl hi.2
        (by intro x e; cases e; simp [Access.present]) hq hs
  unfold Stream.present
  dsimp only
  split
  · exact record st rfl rfl rfl (.inl rfl) hi.1 rfl rfl
  · exact .presents rfl le_rfl rfl (.inl rfl) hi.2
      (by intro x e; cases e; simp [Access.present]) rfl rfl
  · exact .presents rfl le_rfl rfl (.inl rfl) hi.2
      (by intro x e; cases e; simp [Access.present]) rfl rfl
  · obtain ⟨ht, hm, hn⟩ := Stream.choose_read (.inl h)
    refine .reads ht hm hn rfl rfl rfl ?_ rfl rfl
    intro x e
    rw [Stream.onWalker, Option.map_eq_some_iff] at e
    obtain ⟨d, -, rfl⟩ := e
    rfl
  · obtain ⟨ht, hm, hn⟩ := Stream.choose_read (.inr h)
    refine .reads ht hm hn rfl rfl rfl ?_ rfl rfl
    intro x e
    rw [Stream.onWalker, Option.map_eq_some_iff] at e
    obtain ⟨d, -, rfl⟩ := e
    rfl
  · refine .presents rfl (by simp) rfl (.inl rfl) hi.2 ?_ rfl rfl
    intro x e
    rw [Option.map_eq_some_iff] at e
    obtain ⟨d, -, rfl⟩ := e
    simp [Access.present]
  · exact record (st.buildAbort b) rfl rfl rfl (.inr rfl) hi.1 rfl rfl

/-! ### Replies -/

theorem Stream.steady_endAccess : st.Steady st.endAccess :=
  Stream.steady_onWalker _ ⟨rfl, .inl rfl, fun x h => by cases h⟩

theorem Stream.steady_fetchReply (c : Word) (d : Descriptor) : st.Steady (st.fetchReply c d) := by
  unfold Stream.fetchReply
  split
  · exact .refl _
  · dsimp only
    refine Stream.Steady.trans ?_ Stream.steady_settle
    split
    · exact st.steady_endAccess
    · refine st.steady_endAccess.trans ?_
      split
      · split
        · exact (Stream.steady_onWalker _ (.same rfl rfl rfl)).trans (Stream.steady_complete _ _ _)
        · exact Stream.steady_onWalker _ (.same rfl rfl rfl)
      · exact Stream.steady_onWalker _ (.same rfl rfl rfl)

theorem talkEntries_length (i : RingIdx) (b : Bool) (ws : List Word) :
    (talkEntries i b ws).length = ws.length := by
  induction ws generalizing b with
  | nil => rfl
  | cons w ws ih => simp [talkEntries, ih]

/-- The words of a read fill the places it had reserved. -/
theorem Stream.steady_readReply (ws : List Word) : st.Steady (st.readReply ws) := by
  unfold Stream.readReply
  split
  · exact .refl _
  · rename_i a ha
    obtain ⟨ha, hk⟩ : st.walker.access = some a ∧ a.kind = .read := by
      simpa [Stream.inFlight, Option.filter_eq_some_iff] using ha
    split
    · exact .refl _
    · rename_i hn
      have hn : ws.length = a.count := by simpa using hn
      dsimp only
      refine Stream.Steady.trans ?_ Stream.steady_settle
      split
      · exact st.steady_endAccess
      · rename_i hd
        have hd : a.discard = false := by simpa using hd
        have taken (f : List FifoEntry) (p : Bool) (w : Walker) (hf : f.length = ws.length)
            (hm : w.mode = st.walker.mode) (hx : w.access = none) : st.Steady
            { st with fifo := st.fifo ++ f, priming := p, walker := w } := by
          refine ⟨fun h => ?_, rfl, id⟩
          have talk : st.isTalk = true := by
            cases ht : st.isTalk with
            | true => rfl
            | false => exact absurd hk (h.listenReads ht a ha)
          have on : st.walker.mode ≠ .off := fun e => by simp [h.offIdle e] at ha
          have walks : st.walker.mode ≠ .stopping := fun e => by
            simp [h.stopDiscards e a ha hk] at hd
          refine ⟨?_, fun _ x e => ?_, fun _ => hx, ?_, ?_, ?_, fun _ x e => ?_⟩
          · have := h.room
            simp only [Walker.reserved, ha, hk, hd, and_self, if_true] at this
            simp only [Walker.reserved, hx, List.length_append]
            omega
          · rw [hx] at e; cases e
          · intro e; exact hm.trans (h.stoppedOff e)
          · intro h₁ h₂
            exact ⟨hm.trans (h.quietOff h₁ h₂).1, (h.quietOff h₁ h₂).2⟩
          · intro e
            exfalso
            rcases e with e | e | e
            · exact absurd (talk.symm.trans e) (by simp)
            · exact on (hm ▸ e)
            · exact walks (hm ▸ e)
          · rw [hx] at e; cases e
        exact taken _ _ _ (talkEntries_length _ _ _)
          (by split <;> rfl) (by split <;> rfl)

theorem Stream.steady_writeAck (c : Word) : st.Steady (st.writeAck c) := by
  unfold Stream.writeAck
  split
  · exact .refl _
  · dsimp only
    refine Stream.Steady.trans ?_ ((Stream.steady_cutCheck c).trans Stream.steady_settle)
    refine st.steady_endAccess.trans ?_
    split
    · exact (Stream.steady_onWalker _ (.same rfl rfl rfl)).trans (Stream.steady_complete _ _ _)
    · exact Stream.steady_onWalker _ (.same rfl rfl rfl)

theorem Stream.steady_recordAck : st.Steady st.recordAck := by
  unfold Stream.recordAck
  split
  · dsimp only
    refine Stream.Steady.trans ?_ Stream.steady_settle
    rename_i rs _ _
    have h : st.Steady (st.onWalker fun w => { w with access := none, records := rs }) :=
      Stream.steady_onWalker _ ⟨rfl, .inl rfl, fun x h => by cases h⟩
    split <;> split
    · exact .raise (.raise h)
    · exact .raise h
    · exact .raise h
    · exact h
  · exact .refl _

/-! ### Faults -/

/-- A walker at rest, with nothing in flight, in a state in which a Talk Stream may be quiet. -/
theorem Stream.Bounded.off {b : Stream} (hf : b.fifo.length ≤ 16) (hm : b.walker.mode = .off)
    (hx : b.walker.access = none) (hl : b.walker.ahead = 0)
    (hs : b.isTalk = true → b.walkerQuiet = true →
      b.state = .stopped ∨ b.state = .stopping ∨ b.state = .faulted) : b.Bounded where
  room := by simpa [Walker.reserved, hx] using hf
  listenReads := fun _ x e => by rw [hx] at e; cases e
  offIdle := fun _ => hx
  stoppedOff := fun _ => hm
  quietOff := fun h₁ h₂ => ⟨hm, hs h₁ h₂⟩
  aheadWalking := fun _ => hl
  stopDiscards := fun e => by rw [hm] at e; cases e

theorem Stream.steady_memoryFaultTalk : st.Steady st.walkerFault.memoryFaultTalk := by
  unfold Stream.memoryFaultTalk
  have e : st.walkerFault.state = st.state := rfl
  rw [e]
  refine ⟨fun h => ?_, ?_, ?_⟩
  · have hf : st.fifo.length ≤ 16 := le_trans (Nat.le_add_right _ _) h.room
    split
    all_goals first
      | exact .off (Nat.zero_le _) rfl rfl rfl fun _ _ => .inr (.inr rfl)
      | (rename_i hs; exact .off hf rfl rfl rfl fun _ _ => .inr (.inr hs))
      | (rename_i hs; exact .off hf rfl rfl rfl fun _ _ => .inl hs)
  · split <;> rfl
  · intro hs; rw [hs]; exact hs

theorem Stream.steady_memoryFaultListen (ht : st.isTalk = false) :
    st.Steady st.walkerFault.memoryFaultListen := by
  unfold Stream.memoryFaultListen
  have e : st.walkerFault.state = st.state := rfl
  rw [e]
  have listens (b : Stream) (hc : b.cfg = st.cfg) : b.isTalk = true → b.walkerQuiet = true →
      b.state = .stopped ∨ b.state = .stopping ∨ b.state = .faulted := by
    intro h; rw [Stream.isTalk_congr hc, ht] at h; cases h
  refine ⟨fun h => ?_, ?_, ?_⟩
  · have hf : st.fifo.length ≤ 16 := le_trans (Nat.le_add_right _ _) h.room
    split
    all_goals first
      | exact .off (Nat.zero_le _) rfl rfl rfl (listens _ rfl)
      | exact .off hf rfl rfl rfl (listens _ rfl)
  · split <;> rfl
  · intro hs; rw [hs]; exact hs

/-! ### The Talk engine -/

theorem Walker.addTally_calmer (w : Walker) : w.Calmer w.addTally := by
  unfold Walker.addTally; split
  · exact .refl _
  · exact .same rfl rfl rfl

theorem Stream.steady_answer : st.Steady st.answer.2 := by
  unfold Stream.answer
  split
  · split
    · exact .refl _
    · split
      · exact .same rfl rfl rfl rfl rfl
      · split
        · exact .refl _
        · exact .raise (.calmer rfl le_rfl (Walker.addTally_calmer _) rfl rfl)
  · exact .refl _

theorem Stream.steady_dataEcho (c : Word) : st.Steady (st.dataEcho c) := by
  unfold Stream.dataEcho
  split
  · refine Stream.Steady.trans ?_ (Stream.steady_departure c)
    exact .calmer rfl (by simp) (.refl _) rfl rfl
  · exact .refl _

theorem Walker.hold_bounds (w : Walker) : w.hold.access = w.access ∧ w.hold.ahead = w.ahead ∧
    (w.hold.mode = .off ↔ w.mode = .off) ∧ (w.hold.mode = .stopping ↔ w.mode = .stopping) := by
  unfold Walker.hold; split <;> simp_all

theorem Walker.walk_bounds (w : Walker) : w.walk.access = w.access ∧ w.walk.ahead = w.ahead ∧
    w.walk.mode ≠ .off ∧ (w.walk.mode = .stopping ↔ w.mode = .stopping) := by
  unfold Walker.walk
  split
  · rename_i h
    rcases h with h | h <;> simp [h]
  · rename_i h
    exact ⟨rfl, rfl, fun e => h (.inl e), Iff.rfl⟩

theorem Stream.steady_pauseTalk (h : st.state.started) : st.Steady st.pauseTalk := by
  have hw := st.walker.hold_bounds
  refine ⟨fun b => ⟨?_, ?_, ?_, ?_, ?_, ?_, ?_⟩, rfl, fun e => absurd e h.1⟩
  · simpa [Stream.pauseTalk, Stream.onWalker, Walker.reserved, hw.1] using b.room
  · exact fun e x hx => b.listenReads e x (hw.1 ▸ hx)
  · exact fun e => hw.1.trans (b.offIdle (hw.2.2.1.mp e))
  · intro e; cases e
  · intro h₁ h₂
    have h₂ : st.walkerQuiet = true := h₂
    rw [b.notQuiet h₁ h.1 h.2.1 h.2.2] at h₂
    cases h₂
  · intro e
    refine hw.2.1.trans (b.aheadWalking ?_)
    rcases e with e | e | e
    · exact .inl e
    · exact .inr (.inl (hw.2.2.1.mp e))
    · exact .inr (.inr (hw.2.2.2.mp e))
  · exact fun e x hx => b.stopDiscards (hw.2.2.2.mp e) x (hw.1 ▸ hx)

/-- A walk begins, or goes on, in a Talk Stream that is not quiet or in a Listen Stream. -/
theorem Stream.Bounded.walks {b : Stream} (h : st.Bounded) (hc : b.cfg = st.cfg)
    (hf : b.fifo = st.fifo) (hw : b.walker = st.walker.walk) (hs : b.state ≠ .stopped)
    (hq : st.isTalk = true → b.walkerQuiet = false) : b.Bounded := by
  have ht : b.isTalk = st.isTalk := Stream.isTalk_congr hc
  have hv := st.walker.walk_bounds
  refine ⟨?_, ?_, ?_, fun e => absurd e hs, ?_, ?_, ?_⟩
  · rw [hf, hw]; simpa [Walker.reserved, hv.1] using h.room
  · rw [ht, hw, hv.1]; exact h.listenReads
  · intro e; exact absurd (hw ▸ e) hv.2.2.1
  · intro h₁ h₂; rw [hq (ht ▸ h₁)] at h₂; cases h₂
  · rw [ht, hw, hv.2.1]
    intro e
    refine h.aheadWalking ?_
    rcases e with e | e | e
    · exact .inl e
    · exact absurd e hv.2.2.1
    · exact .inr (.inr (hv.2.2.2.mp e))
  · rw [hw, hv.1]; exact fun e => h.stopDiscards (hv.2.2.2.mp e)

theorem Stream.steady_resumeTalk (c : Word) (ht : st.isTalk = true) (h : st.state.started) :
    st.Steady (st.resumeTalk c) := by
  refine ⟨fun b => b.walks (by simp) (by simp) ?_ ?_ ?_, by simp, fun e => absurd e h.1⟩
  · unfold Stream.resumeTalk; dsimp only; split
    · rfl
    · simp only [Stream.runOrDrain_keeps]; rfl
  · unfold Stream.resumeTalk Stream.runOrDrain; dsimp only; split_ifs <;> simp
  · intro _; simpa using b.notQuiet ht h.1 h.2.1 h.2.2

theorem Stream.bounded_startTalk (b : st.Bounded) : st.startTalk.Bounded :=
  b.walks rfl rfl rfl (by simp [Stream.startTalk, Stream.onWalker]) fun _ => rfl

/-! ### The Listen engine -/

/-- A Listen Stream reads nothing, so that its FIFO alone counts. -/
theorem Stream.Bounded.push {b : Stream} (h : st.Bounded) (ht : st.isTalk = false)
    (hc : b.cfg = st.cfg) (hf : b.fifo.length ≤ 16) (hw : b.walker = st.walker)
    (hs : b.state = st.state) : b.Bounded := by
  have htb : b.isTalk = false := (Stream.isTalk_congr hc).trans ht
  have hr : st.walker.reserved = 0 := by
    unfold Walker.reserved
    cases ha : st.walker.access with
    | none => rfl
    | some x => simp [h.listenReads ht x ha]
  refine ⟨?_, ?_, ?_, ?_, ?_, ?_, ?_⟩
  · rw [hw, hr]; exact hf
  · intro _; rw [hw]; exact h.listenReads ht
  · rw [hw]; exact h.offIdle
  · rw [hw, hs]; exact h.stoppedOff
  · intro e; rw [htb] at e; cases e
  · rw [hw]; exact fun _ => h.aheadWalking (.inl ht)
  · rw [hw]; exact h.stopDiscards

theorem Stream.steady_pushEntry (w : Word) (b : Bool) (p : Stamp) (ht : st.isTalk = false) :
    st.Steady (st.pushEntry w b p).2 := by
  unfold Stream.pushEntry
  split
  · rename_i hl
    refine ⟨fun h => h.push ht rfl ?_ rfl rfl, rfl, id⟩
    have : st.fifo.length < 16 := hl
    simp
    omega
  · exact .raise (.same rfl rfl rfl rfl rfl)

theorem Stream.steady_takeWord (c : Word) (b : Bool) (w : Word) (ht : st.isTalk = false) :
    st.Steady (st.takeWord c b w) := by
  have h := st.steady_pushEntry w (b && st.cfg.align) (c.setWidth 16) ht
  unfold Stream.takeWord
  split
  · rename_i a heq
    rw [heq] at h
    exact h.trans (.same rfl rfl rfl rfl rfl)
  · rename_i a heq
    rw [heq] at h
    exact h

theorem Stream.steady_checkSource (g : Tag) (x : StationNo) : st.Steady (st.checkSource g x) :=
  .same (by simp) (by simp) (by simp) (by simp) (by simp)

theorem Stream.steady_gap (c : Word) (ht : st.isTalk = false) : st.Steady (st.gap c) := by
  have h₀ : st.Steady (({ st with fills := satAdd st.fills 1 } : Stream).onWalker Walker.addTally) :=
    .calmer rfl le_rfl (Walker.addTally_calmer _) rfl rfl
  unfold Stream.gap
  dsimp only
  split
  · exact h₀.trans (Stream.steady_pushEntry _ _ _ ht)
  · exact h₀.trans (Stream.steady_pushEntry _ _ _ ht)
  · exact h₀

theorem Stream.steady_judgeSlot (c : Word) (l : Bool) (ht : st.isTalk = false) :
    st.Steady (st.judgeSlot c l) := by
  have h₀ : st.Steady { st with expect := false } := .same rfl rfl rfl rfl rfl
  unfold Stream.judgeSlot
  dsimp only
  split
  · exact h₀.trans (Stream.steady_gap c ht)
  · exact h₀

theorem Stream.steady_hearCell (c : Word) (o : Bool) (g : Tag) (x : StationNo) (d : DataKind) :
    st.Steady (st.hearCell c o g x d) := by
  unfold Stream.hearCell
  split
  · exact .refl _
  · rename_i ht
    have ht : st.isTalk = false := by simpa using ht
    dsimp only
    have h₁ : st.Steady (if st.accepts o g then st.checkSource g x else st) := by
      split
      · exact Stream.steady_checkSource g x
      · exact .refl _
    have ht₁ := (Stream.isTalk_congr h₁.cfg).trans ht
    generalize (if st.accepts o g then st.checkSource g x else st) = a at h₁ ht₁
    have done (a : Stream) (h : st.Steady a) (l : Bool) : st.Steady ((a.judgeSlot c l).cutCheck c) :=
      (h.trans (Stream.steady_judgeSlot c l ((Stream.isTalk_congr h.cfg).trans ht))).trans
        (Stream.steady_cutCheck c)
    refine done _ ?_ _
    cases d with
    | data b w =>
        dsimp only
        split
        · exact h₁.trans (Stream.steady_takeWord c b w ht₁)
        · exact h₁
    | fill => exact h₁
    | keep => exact h₁

theorem Stream.steady_hearNothing (c : Word) : st.Steady (st.hearNothing c) := by
  unfold Stream.hearNothing
  split
  · exact .refl _
  · rename_i ht
    exact (Stream.steady_judgeSlot c true (by simpa using ht)).trans (Stream.steady_cutCheck c)

theorem Stream.steady_setExpect (e : SlotEntry) : st.Steady (st.setExpect e) := by
  unfold Stream.setExpect; split
  · exact .refl _
  · exact .same rfl rfl rfl rfl rfl

theorem Stream.steady_newRound : st.Steady st.newRound := by
  unfold Stream.newRound; split
  · exact .refl _
  · exact .same rfl rfl rfl rfl rfl

theorem Stream.bounded_startListen (b : st.Bounded) (ht : st.isTalk = false) :
    st.startListen.Bounded := by
  refine b.walks rfl rfl rfl ?_ fun e => ?_
  · show st.listenState ≠ .stopped
    unfold Stream.listenState; split <;> simp
  · rw [ht] at e; cases e

theorem Stream.steady_resumeListen (h : st.state.started) : st.Steady st.resumeListen := by
  refine .engine rfl rfl rfl rfl h ?_
  show st.listenState ≠ .stopped
  unfold Stream.listenState; split <;> simp

/-! ### The Slot Agent and the Local Port -/

theorem Stream.steady_setShort : st.Steady st.setShort :=
  .same (by simp) (by simp) (by simp) (by simp) (by simp)

theorem Stream.steady_tickPause : st.Steady st.tickPause := .same rfl rfl rfl rfl rfl

theorem Stream.steady_clearCounters : st.Steady st.clearCounters := .same rfl rfl rfl rfl rfl

theorem Stream.steady_resetStream : st.Steady st.resetStream := by
  unfold Stream.resetStream
  split
  · exact ⟨fun _ => .off (Nat.zero_le _) rfl rfl rfl fun _ _ => .inl rfl, rfl, fun _ => rfl⟩
  · exact ⟨fun _ => .off (Nat.zero_le _) rfl rfl rfl fun _ _ => .inl rfl, rfl, fun _ => rfl⟩

end Sys2Proof.Machine
end

