-- ==== Sys2Proof/Laws/Near.lean ====
section
/-! SUPPORT. Each operation on a stream context leaves the fetch index at C or C + 1 (R100). -/

namespace Sys2Proof.Machine

open Sys2Proof

variable {st : Stream}

/-- A change that leaves C and F alone. -/
theorem Walker.near_same {w w' : Walker} (hc : w'.cur = w.cur) (hf : w'.fetch = w.fetch)
    (h : w.near) : w'.near := by
  unfold Walker.near at h ⊢
  rw [hc, hf]
  exact h

theorem Stream.near_cutCheck (c : Word) (h : st.walker.near) : (st.cutCheck c).walker.near := by
  unfold Stream.cutCheck
  dsimp only
  split
  · exact Stream.complete_near _ _ _ _
  · exact h

theorem Stream.near_departure (c : Word) (h : st.walker.near) : (st.departure c).walker.near := by
  unfold Stream.departure
  dsimp only
  split
  · exact Stream.complete_near _ _ _ _
  · exact Walker.near_same rfl rfl h

theorem Stream.near_dataEcho (c : Word) (h : st.walker.near) : (st.dataEcho c).walker.near := by
  unfold Stream.dataEcho
  split
  · exact Stream.near_departure c h
  · exact h

theorem Stream.near_settle (h : st.walker.near) : st.settle.walker.near := by
  unfold Stream.settle
  dsimp only
  split
  · split
    · split
      · exact Walker.near_same (by simp [Stream.onWalker]) (by simp [Stream.onWalker]) h
      · exact Walker.near_same (by simp [Stream.onWalker]) (by simp [Stream.onWalker]) h
    · split
      · exact Walker.near_same (by simp) (by simp) h
      · exact h
  · exact h

theorem Stream.near_stopRequest (h : st.walker.near) : st.stopRequest.walker.near := by
  unfold Stream.stopRequest
  split
  · exact Walker.near_same (by simp) (by simp) h
  · exact h
  all_goals exact Stream.near_settle (Or.inl rfl)

theorem Stream.near_emptyFifo (h : st.walker.near) : st.emptyFifo.walker.near :=
  Walker.near_same rfl rfl h

theorem Stream.near_beginStop (x : StopCause) (h : st.walker.near) :
    (st.beginStop x).walker.near := by
  unfold Stream.beginStop
  exact Stream.near_stopRequest (Walker.near_same rfl rfl h)

theorem Stream.near_stopListen (h : st.walker.near) : st.stopListen.walker.near := by
  unfold Stream.stopListen
  exact Stream.near_stopRequest h

theorem Stream.near_duplicateFault (h : st.walker.near) : st.duplicateFault.walker.near := by
  unfold Stream.duplicateFault
  split
  · exact h
  · split
    all_goals first
      | exact Stream.near_stopRequest (Walker.near_same rfl rfl h)
      | exact h

theorem Stream.near_readyWrite (v : RingIdx) (h : st.walker.near) :
    (st.readyWrite v).walker.near := by
  unfold Stream.readyWrite
  dsimp only
  split
  · exact Walker.near_same rfl rfl h
  · split
    · exact h
    · exact Walker.near_same (by simp [Stream.onWalker]) (by simp [Stream.onWalker]) h

theorem Stream.near_presentRecord (h : st.walker.near) : st.presentRecord.walker.near := by
  unfold Stream.presentRecord
  split
  · exact h
  · exact Walker.near_same rfl rfl h

theorem Stream.near_present (b : Bool) (c : Choice) (h : st.walker.near) :
    (st.present b c).walker.near := by
  unfold Stream.present
  dsimp only
  split
  · exact Stream.near_presentRecord h
  · exact Walker.near_same rfl rfl h
  · exact Or.inr rfl
  · exact Walker.near_same rfl rfl h
  · exact Walker.near_same rfl rfl h
  · exact Walker.near_same rfl rfl h
  · exact Stream.near_presentRecord (Or.inl rfl)

theorem Stream.near_fetchReply (c : Word) (d : Descriptor) (h : st.walker.near) :
    (st.fetchReply c d).walker.near := by
  have h₀ : st.endAccess.walker.near := Walker.near_same rfl rfl h
  unfold Stream.fetchReply
  split
  · exact h
  · dsimp only
    refine Stream.near_settle ?_
    split
    · exact h₀
    · split
      · split
        · exact Stream.complete_near _ _ _ _
        · exact Walker.near_same rfl rfl h₀
      · exact Walker.near_same rfl rfl h₀

theorem Stream.near_readReply (ws : List Word) (h : st.walker.near) :
    (st.readReply ws).walker.near := by
  have h₀ : st.endAccess.walker.near := Walker.near_same rfl rfl h
  unfold Stream.readReply
  split
  · exact h
  · split
    · exact h
    · dsimp only
      refine Stream.near_settle ?_
      split
      · exact h₀
      · dsimp only
        split <;> exact Walker.near_same rfl rfl h₀

theorem Stream.near_writeAck (c : Word) (h : st.walker.near) : (st.writeAck c).walker.near := by
  unfold Stream.writeAck
  split
  · exact h
  · dsimp only
    refine Stream.near_settle (Stream.near_cutCheck c ?_)
    split
    · exact Stream.complete_near _ _ _ _
    · exact Walker.near_same rfl rfl h

theorem Stream.near_recordAck (h : st.walker.near) : st.recordAck.walker.near := by
  unfold Stream.recordAck
  split
  · dsimp only
    refine Stream.near_settle ?_
    split <;> split <;> exact Walker.near_same rfl rfl h
  · exact h

theorem Stream.near_walkerFault : st.walkerFault.walker.near := Or.inl rfl

theorem Stream.near_memoryFaultTalk (h : st.walker.near) : st.memoryFaultTalk.walker.near := by
  unfold Stream.memoryFaultTalk
  split <;> exact Stream.near_emptyFifo h

theorem Stream.near_memoryFaultListen (h : st.walker.near) : st.memoryFaultListen.walker.near := by
  unfold Stream.memoryFaultListen
  split <;> exact Stream.near_emptyFifo h

theorem Walker.addTally_same (w : Walker) : w.addTally.cur = w.cur ∧ w.addTally.fetch = w.fetch := by
  unfold Walker.addTally; split <;> exact ⟨rfl, rfl⟩

theorem Walker.near_addTally {w : Walker} (h : w.near) : w.addTally.near :=
  Walker.near_same w.addTally_same.1 w.addTally_same.2 h

theorem Stream.near_answer (h : st.walker.near) : st.answer.2.walker.near := by
  unfold Stream.answer
  split
  · split
    · exact h
    · split
      · exact h
      · split
        · exact h
        · exact Walker.near_addTally h
  · exact h

theorem Stream.near_gap (c : Word) (h : st.walker.near) : (st.gap c).walker.near := by
  unfold Stream.gap
  dsimp only
  have h₀ : ((({ st with fills := satAdd st.fills 1 }).onWalker Walker.addTally).walker).near :=
    Walker.near_addTally h
  split
  · simpa using h₀
  · simpa using h₀
  · exact h₀

theorem Stream.near_judgeSlot (c : Word) (l : Bool) (h : st.walker.near) :
    (st.judgeSlot c l).walker.near := by
  unfold Stream.judgeSlot
  dsimp only
  split
  · exact Stream.near_gap c h
  · exact h

theorem Stream.near_hearCell (c : Word) (o : Bool) (g : Tag) (x : StationNo) (d : DataKind)
    (h : st.walker.near) : (st.hearCell c o g x d).walker.near := by
  have h₁ : (if st.accepts o g then st.checkSource g x else st).walker.near := by
    split
    · simpa using h
    · exact h
  have h₂ (s : Stream) (b : Bool) (w : Word) (hs : s.walker.near) :
      (if s.accepts o g then s.takeWord c b w else s).walker.near := by
    split
    · simpa using hs
    · exact hs
  unfold Stream.hearCell
  dsimp only
  rw [apply_ite Stream.walker]
  split
  · exact h
  · refine Stream.near_cutCheck c (Stream.near_judgeSlot c _ ?_)
    cases d with
    | data b w => exact h₂ _ b w h₁
    | fill => exact h₁
    | keep => exact h₁

theorem Stream.near_hearNothing (c : Word) (h : st.walker.near) :
    (st.hearNothing c).walker.near := by
  unfold Stream.hearNothing
  split
  · exact h
  · exact Stream.near_cutCheck c (Stream.near_judgeSlot c _ h)

theorem Walker.near_walk {w : Walker} (h : w.near) : w.walk.near := by
  unfold Walker.walk; split
  · exact Walker.near_same rfl rfl h
  · exact h

theorem Walker.near_hold {w : Walker} (h : w.near) : w.hold.near := by
  unfold Walker.hold; split
  · exact Walker.near_same rfl rfl h
  · exact h

theorem Stream.near_startTalk (h : st.walker.near) : st.startTalk.walker.near := Walker.near_walk h

theorem Stream.near_startListen (h : st.walker.near) : st.startListen.walker.near :=
  Walker.near_walk h

theorem Stream.near_pauseTalk (h : st.walker.near) : st.pauseTalk.walker.near := Walker.near_hold h

theorem Stream.near_resumeTalk (c : Word) (h : st.walker.near) :
    (st.resumeTalk c).walker.near := by
  have h₀ : st.walker.walk.near := Walker.near_walk h
  unfold Stream.resumeTalk
  dsimp only
  split
  · exact h₀
  · simp only [Stream.runOrDrain_keeps]
    exact h₀

theorem Stream.near_resetStream : st.resetStream.walker.near := by
  unfold Stream.resetStream; split <;> exact Or.inl rfl

end Sys2Proof.Machine
end

