-- ==== Sys2Proof/Laws/Roster.lean ====
section
/-! SUPPORT. What each operation of the Roster Unit leaves of an entry, of the membership state and of
the station flags. -/

namespace Sys2Proof.Machine

open Sys2Proof

/-! ### One entry -/

theorem toFin_inj {n m : StationNo} : n.toFin = m.toFin ↔ n = m :=
  ⟨BitVec.eq_of_toFin_eq, fun h => by rw [h]⟩

@[simp] theorem RosterUnit.putEntry_entry (n m : StationNo) (e : RosterEntry) (u : RosterUnit) :
    (u.putEntry m e).entry n = if n = m then e else u.entry n := by
  simp only [RosterUnit.entry, RosterUnit.putEntry, Fin.getElem_fin, roster_set_get]
  by_cases h : n = m
  · subst h; simp
  · have h' : ¬ (n.toFin : Fin 32) = m.toFin := fun e => h (BitVec.eq_of_toFin_eq e)
    rw [if_neg h, if_neg h']

/-- A membership change decides the own entry and no other (R82). -/
@[simp] theorem RosterUnit.setMembership_entry (stn n : StationNo) (m : Membership) (u : RosterUnit) :
    (u.setMembership stn m).entry n =
      if n = stn ∧ stn ≠ 0 then (if m.onLine then .present else .absent) else u.entry n := by
  by_cases h : stn = 0
  · have hz : u.setMembership stn m = { u with membership := m } := if_pos h
    rw [hz, if_neg fun c => c.2 h]
    rfl
  · have hz : u.setMembership stn m =
        ({ u with membership := m } : RosterUnit).putEntry stn
          (if m.onLine then .present else .absent) := if_neg h
    rw [hz, RosterUnit.putEntry_entry]
    by_cases hn : n = stn
    · rw [if_pos hn]
      exact (if_pos ⟨hn, h⟩).symm
    · rw [if_neg hn, if_neg fun c => hn c.1]
      rfl

@[simp] theorem RosterUnit.setMembership_membership (stn : StationNo) (m : Membership)
    (u : RosterUnit) : (u.setMembership stn m).membership = m := by
  unfold RosterUnit.setMembership; dsimp only; split <;> rfl

theorem RosterUnit.setMembership_keeps (stn : StationNo) (m : Membership) (u : RosterUnit) :
    u.setMembership stn m =
      { u with membership := m, roster := (u.setMembership stn m).roster } := by
  unfold RosterUnit.setMembership; dsimp only; split <;> rfl

@[simp] theorem RosterUnit.onOther_entry (stn x n : StationNo) (f : RosterEntry → RosterEntry)
    (u : RosterUnit) :
    (u.onOther stn x f).entry n =
      if n = x ∧ x ≠ 0 ∧ x ≠ stn then f (u.entry n) else u.entry n := by
  unfold RosterUnit.onOther
  by_cases h : x = 0 ∨ x = stn
  · simp only [h, if_true]
    rcases h with h | h <;> simp [h]
  · simp only [h, if_false, RosterUnit.putEntry_entry]
    rw [not_or] at h
    by_cases hn : n = x
    · rw [if_pos hn, if_pos ⟨hn, h⟩, hn]
    · rw [if_neg hn, if_neg (fun c => hn c.1)]

theorem RosterUnit.onOther_keeps (stn x : StationNo) (f : RosterEntry → RosterEntry)
    (u : RosterUnit) : u.onOther stn x f = { u with roster := (u.onOther stn x f).roster } := by
  unfold RosterUnit.onOther; split <;> rfl

theorem RosterUnit.adoptBitmap_entry (stn n : StationNo) (b : Word) (u : RosterUnit) (h : n ≠ 0)
    (hs : n ≠ stn) : (u.adoptBitmap stn b).entry n = (u.entry n).adopt (b.getLsbD n.toNat) := by
  have h0 : ¬ ((n.toFin : Fin 32).val = 0 ∨ (n.toFin : Fin 32) = stn.toFin) := by
    rintro (e | e)
    · exact h (BitVec.eq_of_toNat_eq e)
    · exact hs (BitVec.eq_of_toFin_eq e)
  simp only [RosterUnit.entry, RosterUnit.adoptBitmap, Fin.getElem_fin, Vector.getElem_ofFn]
  rw [if_neg h0]
  rfl

/-- The bitmap table of R85 after the sender's refresh, as one table. -/
theorem RosterUnit.mark_entry (stn x n : StationNo) (b : Word) (u : RosterUnit) (h : n ≠ 0)
    (hs : n ≠ stn) :
    ((u.heard stn x).adoptBitmap stn b).entry n =
      bitmapTable (n = x) (b.getLsbD n.toNat) (u.entry n) := by
  rw [RosterUnit.adoptBitmap_entry _ _ _ _ h hs]
  simp only [RosterUnit.heard, RosterUnit.onOther_entry]
  by_cases hx : n = x
  · subst hx
    simp only [h, hs, ne_eq, not_false_eq_true, and_self, if_true]
    cases hb : b.getLsbD n.toNat <;> simp [bitmapTable, RosterEntry.adopt]
  · simp only [hx, false_and, if_false]
    cases hb : b.getLsbD n.toNat <;> cases u.entry n <;> simp [bitmapTable, RosterEntry.adopt]

theorem RosterEntry.miss_eq (e : RosterEntry) : e.miss = missTable e := by cases e <;> rfl

/-! ### The Roster Unit's operations on the state -/

/-- An offer of JOIN or LEAVE changes only the queue, the intent and the queued mark (R89, R92). -/
theorem State.offerControl_rsu (i : ControlIntent) (c : QueueCell) (s : State) :
    (s.offerControl i c).rsu =
      { s.rsu with intent := i, queued := (s.offerControl i c).rsu.queued } := by
  unfold State.offerControl; split <;> rfl

@[simp] theorem State.offerControl_keeps (i : ControlIntent) (c : QueueCell) (s : State) :
    (s.offerControl i c).straps = s.straps ∧ (s.offerControl i c).stationFlags = s.stationFlags ∧
    (s.offerControl i c).rsu.membership = s.rsu.membership ∧
    (s.offerControl i c).rsu.attempt = s.rsu.attempt ∧
    (s.offerControl i c).rsu.intent = i ∧
    (s.offerControl i c).rsu.joinTimer = s.rsu.joinTimer ∧
    (s.offerControl i c).rsu.learnCount = s.rsu.learnCount ∧
    (∀ n, (s.offerControl i c).rsu.entry n = s.rsu.entry n) := by
  unfold State.offerControl; split <;> exact ⟨rfl, rfl, rfl, rfl, rfl, rfl, rfl, fun _ => rfl⟩

@[simp] theorem State.reoffer_keeps (s : State) :
    s.reoffer.straps = s.straps ∧ s.reoffer.stationFlags = s.stationFlags ∧
    s.reoffer.rsu.membership = s.rsu.membership ∧
    (∀ n, s.reoffer.rsu.entry n = s.rsu.entry n) := by
  unfold State.reoffer
  split
  · exact ⟨rfl, rfl, rfl, fun _ => rfl⟩
  · split
    · exact ⟨rfl, rfl, rfl, fun _ => rfl⟩
    · simp [State.offerJoin]
    · simp [State.offerLeave]

@[simp] theorem State.withdrawJoin_keeps (s : State) :
    s.withdrawJoin.straps = s.straps ∧ s.withdrawJoin.stationFlags = s.stationFlags ∧
    s.withdrawJoin.rsu = { s.rsu with intent := .none, queued := false } := by
  unfold State.withdrawJoin; dsimp only; split <;> exact ⟨rfl, rfl, rfl⟩

@[simp] theorem State.setMembership_rsu (m : Membership) (s : State) :
    (s.setMembership m).rsu = s.rsu.setMembership s.straps.stn m := rfl

@[simp] theorem State.setMembership_keeps (m : Membership) (s : State) :
    (s.setMembership m).straps = s.straps ∧ (s.setMembership m).stationFlags = s.stationFlags ∧
    (s.setMembership m).ccq = s.ccq := ⟨rfl, rfl, rfl⟩

/-- Changing other fields of the unit leaves its entries alone. -/
theorem RosterUnit.entry_congr {u v : RosterUnit} (h : u.roster = v.roster) (n : StationNo) :
    u.entry n = v.entry n := by
  simp [RosterUnit.entry, h]

/-- What another station's MARK does to the entries of other stations: nothing beyond the bitmap. -/
theorem State.membershipMark_entry (b : Bool) (s : State) (n : StationNo) (h : n ≠ s.straps.stn) :
    (s.membershipMark b).rsu.entry n = s.rsu.entry n := by
  have e (u v : RosterUnit) (hr : u.roster = v.roster) : u.entry n = v.entry n :=
    RosterUnit.entry_congr hr n
  unfold State.membershipMark
  split
  · rfl
  · unfold State.learnMark State.learnDone State.offerJoin
    split <;> simp [h] <;> exact e _ _ rfl
  · split
    · simp [State.joined, h]; exact e _ _ rfl
    · unfold State.joinWait State.joinTimerDone State.attemptEnds State.offerJoin
      split
      · simp
      · split
        · split <;> simp [h] <;> exact e _ _ rfl
        · exact e _ _ rfl
  · split
    · rfl
    · simp [State.expelled, State.offerJoin, h]; exact e _ _ rfl
  · simp
  · split
    · simp [h]
    · simp [h]; exact e _ _ rfl

/-- The membership state after another station's MARK (R88, R90, R91, R93, R95). -/
theorem State.membershipMark_membership (b : Bool) (s : State) :
    (s.membershipMark b).rsu.membership = membershipTable s.rsu b := by
  unfold State.membershipMark membershipTable
  split
  · simp [*]
  · unfold State.learnMark State.learnDone State.offerJoin
    split <;> simp_all
  · rename_i hm
    simp only [hm]
    split
    · simp [State.joined]
    · unfold State.joinWait State.joinTimerDone State.attemptEnds State.offerJoin
      split
      · simp_all
      · rename_i t ht
        by_cases h1 : t ≤ 1
        · by_cases h2 : s.rsu.attempt < 4
          · have : ¬ 4 ≤ s.rsu.attempt := by omega
            simp [h1, h2, Config.joinAttempts, ht, this, hm]
          · have : 4 ≤ s.rsu.attempt := by omega
            simp [h1, h2, Config.joinAttempts, ht, this]
        · simp [h1, ht, hm]
  · split <;> simp_all [State.expelled, State.offerJoin]
  · simp_all
  · split <;> simp_all

/-- The station flags after another station's MARK: JOINED, EXPELLED and JOIN_FAILED as the membership
moves. -/
theorem State.membershipMark_flags (b : Bool) (s : State) :
    (s.membershipMark b).stationFlags = s.stationFlags |||
      (if b = true ∧ (s.rsu.membership = .joining ∨ s.rsu.membership = .isolated) then 1#9 else
        if b = false ∧ s.rsu.membership = .member then 2#9 else
        if s.rsu.membership = .joining ∧ (s.membershipMark b).rsu.membership = .dormant then 4#9
        else 0#9) := by
  rw [State.membershipMark_membership]
  unfold State.membershipMark membershipTable
  split
  · simp [*]
  · unfold State.learnMark State.learnDone State.offerJoin
    split <;> simp_all
  · rename_i hm
    simp only [hm]
    cases b
    · unfold State.joinWait State.joinTimerDone State.attemptEnds State.offerJoin
      simp only [Bool.false_eq_true, if_false]
      split
      · simp_all
      · rename_i t ht
        by_cases h1 : t ≤ 1
        · by_cases h2 : s.rsu.attempt < 4
          · have : ¬ 4 ≤ s.rsu.attempt := by omega
            simp [h1, h2, Config.joinAttempts, ht, this]
          · have : 4 ≤ s.rsu.attempt := by omega
            simp [h1, h2, Config.joinAttempts, ht, this, StationEvent.bit]
        · simp [h1, ht]
    · simp [State.joined, StationEvent.bit]
  · cases b <;> simp_all [State.expelled, State.offerJoin, StationEvent.bit]
  · simp_all
  · cases b <;> simp_all [StationEvent.bit]

end Sys2Proof.Machine
end

