-- ==== Sys2Proof/Laws/Queue.lean ====
section
/-! SUPPORT. The Control Cell Queue and the queued marks of the map: what an offer, a withdrawal, a Mark
and an echo leave of the entries, and that each keeps queue and map in step. -/

namespace Sys2Proof.Machine

open Sys2Proof

/-! ### The queue and the map in step (R28, R45, R46) -/

/-- The entry of the map a queue cell stands for has its queued mark Set. -/
def QueueCell.named (m : Vector SlotEntry 48) : QueueCell → Prop
  | .claim i t k => m[i] = .claiming t k true
  | .release i k => ∃ t, m[i] = .releasing t k true
  | .join | .leave => True

/-- `QueueSound` and `MapQueueAgree`, as a relation of the map and the queue alone. -/
structure QueueFits (m : Vector SlotEntry 48) (q : CellQueue) : Prop where
  short : q.entries.length ≤ 8
  nodup : (q.entries.map fun e => e.cell.slot?).Nodup
  named : ∀ e ∈ q.entries, e.withdrawn = none → e.cell.named m
  queued : ∀ i : SlotNo, m[i.val].isQueued = true →
    ∃ e ∈ q.entries, e.withdrawn = none ∧ e.cell.slot? = some i
  tail : ∀ e ∈ q.entries.tail, e.withdrawn = none
  offLine : q.onLine = false → ∀ e ∈ q.entries, e.withdrawn = none

theorem queueFits_iff (s : State) :
    QueueFits s.slotMap s.ccq ↔ QueueSound s ∧ MapQueueAgree s := by
  constructor
  · intro h
    refine ⟨⟨h.short, h.nodup⟩, fun e he hw => ?_, fun i hi => h.queued i hi, h.tail, h.offLine⟩
    have := h.named e he hw
    cases hc : e.cell <;> simpa [QueueCell.named, hc] using this
  · rintro ⟨⟨h₁, h₂⟩, h₃, h₄, h₅, h₆⟩
    refine ⟨h₁, h₂, fun e he hw => ?_, fun i hi => h₄ i hi, h₅, h₆⟩
    have := h₃ e he hw
    cases hc : e.cell <;> simpa [QueueCell.named, hc] using this

/-- An empty queue fits a map without queued marks. -/
theorem QueueFits.empty (m : Vector SlotEntry 48) (q : CellQueue) (hq : q.entries = [])
    (h : ∀ i : SlotNo, m[i.val].isQueued = false) : QueueFits m q := by
  refine ⟨by simp [hq], by simp [hq], by simp [hq], fun i hi => ?_, by simp [hq], by simp [hq]⟩
  rw [h i] at hi
  exact absurd hi (by decide)

theorem QueueCell.named_slot {m : Vector SlotEntry 48} {c : QueueCell} {i : SlotNo}
    (h : c.named m) (hs : c.slot? = some i) : m[i.val].isQueued = true := by
  cases c with
  | join | leave => simp [QueueCell.slot?] at hs
  | claim j t k =>
      simp only [QueueCell.slot?, Option.some.injEq] at hs
      subst hs
      simp only [QueueCell.named, Fin.getElem_fin] at h
      simp [h, SlotEntry.isQueued]
  | release j k =>
      simp only [QueueCell.slot?, Option.some.injEq] at hs
      subst hs
      obtain ⟨t, h⟩ := h
      simp only [Fin.getElem_fin] at h
      simp [h, SlotEntry.isQueued]

theorem QueueCell.named_congr {m m' : Vector SlotEntry 48} {c : QueueCell}
    (h : ∀ i, c.slot? = some i → m'[i.val] = m[i.val]) (hc : c.named m) : c.named m' := by
  cases c with
  | join | leave => trivial
  | claim i t k => simpa [QueueCell.named, h i rfl] using hc
  | release i k => simpa [QueueCell.named, h i rfl] using hc

/-- A map that differs only at entries without a queued mark fits the same queue. -/
theorem QueueFits.congr {m m' : Vector SlotEntry 48} {q : CellQueue} (h : QueueFits m q)
    (hm : ∀ i : SlotNo, m[i.val].isQueued = true ∨ m'[i.val].isQueued = true →
      m'[i.val] = m[i.val]) : QueueFits m' q := by
  refine ⟨h.short, h.nodup, fun e he hw => ?_, fun i hi => ?_, h.tail, h.offLine⟩
  · have hn := h.named e he hw
    exact QueueCell.named_congr (fun i hs => hm i (Or.inl (QueueCell.named_slot hn hs))) hn
  · exact h.queued i (hm i (Or.inr hi) ▸ hi)

/-! ### Withdrawals (R47, R48) -/

/-- What is left of the queue after a withdrawal: every entry but the one meant, and that one at most
withdrawn. -/
theorem CellQueue.withdraw_entries {m : Vector SlotEntry 48} {q : CellQueue} (h : QueueFits m q)
    (w : Option SlotNo) (why : Withdrawal) :
    (∀ e ∈ (q.withdraw w why).entries, e.withdrawn = none → e ∈ q.entries ∧ e.cell.slot? ≠ w) ∧
    (∀ e ∈ q.entries, e.cell.slot? ≠ w → e ∈ (q.withdraw w why).entries) ∧
    ((q.withdraw w why).entries.map fun e => e.cell.slot?).Sublist
      (q.entries.map fun e => e.cell.slot?) ∧
    (∀ e ∈ (q.withdraw w why).entries.tail, e ∈ q.entries.tail) ∧
    (q.withdraw w why).onLine = q.onLine ∧
    (q.onLine = false → ∀ e ∈ (q.withdraw w why).entries, e ∈ q.entries) := by
  unfold CellQueue.withdraw
  have hn := h.nodup
  cases hq : q.entries with
  | nil => simp [hq]
  | cons e es =>
      rw [hq, List.map_cons, List.nodup_cons] at hn
      have hne : ∀ x ∈ es, x.cell.slot? ≠ e.cell.slot? := fun x hx hs =>
        hn.1 (List.mem_map.mpr ⟨x, hx, hs⟩)
      dsimp only
      split
      · rename_i he
        have hes : ∀ x ∈ es, x.cell.slot? ≠ w := fun x hx => he ▸ hne x hx
        split
        · rename_i hl
          refine ⟨?_, ?_, ?_, ?_, rfl, ?_⟩
          · intro x hx hw
            rcases List.mem_cons.mp hx with rfl | hx
            · simp at hw
            · exact ⟨List.mem_cons_of_mem _ hx, hes x hx⟩
          · intro x hx hs
            rcases List.mem_cons.mp hx with rfl | hx
            · exact absurd he hs
            · exact List.mem_cons_of_mem _ hx
          · simp
          · intro x hx; exact hx
          · intro hf; simp [hl] at hf
        · refine ⟨fun x hx _ => ⟨List.mem_cons_of_mem _ hx, hes x hx⟩, ?_, ?_, ?_, rfl, ?_⟩
          · intro x hx hs
            rcases List.mem_cons.mp hx with rfl | hx
            · exact absurd he hs
            · exact hx
          · simp
          · exact fun x hx => List.mem_of_mem_tail hx
          · exact fun _ x hx => List.mem_cons_of_mem _ hx
      · rename_i he
        have hsub : (es.eraseP fun e => e.cell.slot? == w).Sublist es := List.eraseP_sublist
        have hgone : ∀ x ∈ es.eraseP (fun e => e.cell.slot? == w), x.cell.slot? ≠ w := by
          intro x hx hs
          obtain ⟨a, l₁, l₂, hb, ha, hl, hr⟩ := List.exists_of_eraseP
            (p := fun e : QueueEntry => e.cell.slot? == w) (hsub.subset hx) (by simpa using hs)
          rw [hr, List.mem_append] at hx
          have hn₂ := hn.2
          rw [hl, List.map_append, List.map_cons] at hn₂
          have haw : a.cell.slot? = w := by simpa using ha
          rcases hx with hx | hx
          · exact hb x hx (by simpa using hs)
          · have := (List.nodup_append.mp hn₂).2.1
            rw [List.nodup_cons] at this
            exact this.1 (List.mem_map.mpr ⟨x, hx, hs.trans haw.symm⟩)
        refine ⟨?_, ?_, ?_, ?_, rfl, ?_⟩
        · intro x hx _
          rcases List.mem_cons.mp hx with rfl | hx
          · exact ⟨List.mem_cons_self, he⟩
          · exact ⟨List.mem_cons_of_mem _ (hsub.subset hx), hgone x hx⟩
        · intro x hx hs
          rcases List.mem_cons.mp hx with rfl | hx
          · exact List.mem_cons_self
          · exact List.mem_cons_of_mem _ ((List.mem_eraseP_of_neg (by simpa using hs)).mpr hx)
        · exact (hsub.map _).cons_cons _
        · exact fun x hx => hsub.subset hx
        · intro _ x hx
          rcases List.mem_cons.mp hx with rfl | hx
          · exact List.mem_cons_self
          · exact List.mem_cons_of_mem _ (hsub.subset hx)

/-- A withdrawal keeps queue and map in step when the entry loses its queued mark with it. -/
theorem QueueFits.withdraw {m m' : Vector SlotEntry 48} {q : CellQueue} (h : QueueFits m q)
    (w : Option SlotNo) (why : Withdrawal) (hw : ∀ i : SlotNo, w = some i → m'[i.val].isQueued = false)
    (hm : ∀ i : SlotNo, w ≠ some i → m'[i.val] = m[i.val]) : QueueFits m' (q.withdraw w why) := by
  obtain ⟨h₁, h₂, h₃, h₄, h₅, h₆⟩ := CellQueue.withdraw_entries h w why
  refine ⟨?_, h.nodup.sublist h₃, fun e he hn => ?_, fun i hi => ?_, fun e he => h.tail e (h₄ e he),
    fun hl e he => h.offLine (h₅ ▸ hl) e (h₆ (h₅ ▸ hl) e he)⟩
  · have := h₃.length_le
    rw [List.length_map, List.length_map] at this
    exact this.trans h.short
  · obtain ⟨hq, hs⟩ := h₁ e he hn
    exact QueueCell.named_congr (fun i hi => hm i fun hx => hs (hi.trans hx.symm)) (h.named e hq hn)
  · by_cases hx : w = some i
    · rw [hw i hx] at hi
      exact absurd hi (by decide)
    · rw [hm i hx] at hi
      obtain ⟨e, he, hn, hs⟩ := h.queued i hi
      exact ⟨e, h₂ e he (fun hc => hx (hc.symm.trans hs)), hn, hs⟩

/-- One entry set to a state without a queued mark, its queue entry withdrawn if it had one. -/
theorem QueueFits.withdrawSet {s : State} (h : QueueFits s.slotMap s.ccq) (i : SlotNo)
    (why : Withdrawal) (e : SlotEntry) (he : e.isQueued = false) :
    QueueFits ((s.withdrawIfQueued i why).setEntry i e).slotMap
      ((s.withdrawIfQueued i why).setEntry i e).ccq := by
  have hset : ∀ j : SlotNo, some i ≠ some j → (s.slotMap.set i.val e)[j.val] = s.slotMap[j.val] := by
    intro j hj
    rw [slotMap_set_get, if_neg fun hji : j = i => hj (congrArg some hji.symm)]
  have hi : ∀ j : SlotNo, some i = some j → (s.slotMap.set i.val e)[j.val].isQueued = false := by
    intro j hj
    cases hj
    rw [slotMap_set_get, if_pos rfl]
    exact he
  unfold State.withdrawIfQueued
  split
  · exact h.withdraw (some i) why hi hset
  · rename_i hq
    refine h.congr fun j hj => ?_
    by_cases hji : some i = some j
    · rcases hj with hj | hj
      · cases hji; exact absurd hj hq
      · exact absurd ((hi j hji).symm.trans hj) (by decide)
    · exact hset j hji

/-! ### Offers (R36, R46) -/

theorem CellQueue.offer_some {c : QueueCell} {q q' : CellQueue} (h : q.offer c = some q') :
    q' = { q with entries := q.entries ++ [⟨c, 0, 0, none⟩] } ∧ q.entries.length < 8 ∧
      ∀ e ∈ q.entries, e.cell.slot? ≠ c.slot? := by
  unfold CellQueue.offer at h
  split at h
  · rename_i hc
    refine ⟨(Option.some.inj h).symm, hc.1, fun e he hs => ?_⟩
    have := hc.2
    simp only [Bool.not_eq_true', List.any_eq_false] at this
    exact this e he (by simp [QueueCell.conflicts, hs])
  · exact absurd h (by simp)

/-- An offer that is taken keeps queue and map in step when the map's mark goes with it. -/
theorem QueueFits.offer {m m' : Vector SlotEntry 48} {q q' : CellQueue} {c : QueueCell}
    (h : QueueFits m q) (ho : q.offer c = some q') (hc : c.named m')
    (hm : ∀ i : SlotNo, c.slot? ≠ some i → m'[i.val] = m[i.val]) : QueueFits m' q' := by
  obtain ⟨rfl, hl, hs⟩ := CellQueue.offer_some ho
  have hmem {e : QueueEntry} (he : e ∈ q.entries ++ [⟨c, 0, 0, none⟩]) :
      e ∈ q.entries ∨ e = ⟨c, 0, 0, none⟩ := by simpa using he
  refine ⟨?_, ?_, fun e he hn => ?_, fun i hi => ?_, fun e he => ?_, fun hon e he => ?_⟩
  · simpa using hl
  · rw [List.map_append, List.nodup_append]
    refine ⟨h.nodup, by simp, ?_⟩
    intro a ha b hb
    obtain ⟨e, he, rfl⟩ := List.mem_map.mp ha
    have hb' : b = c.slot? := by simpa using hb
    exact hb' ▸ hs e he
  · rcases hmem he with he | rfl
    · exact QueueCell.named_congr (fun i hi => hm i fun hci => hs e he (hi.trans hci.symm))
        (h.named e he hn)
    · exact hc
  · by_cases hci : c.slot? = some i
    · exact ⟨⟨c, 0, 0, none⟩, by simp, rfl, hci⟩
    · rw [hm i hci] at hi
      obtain ⟨e, he, hn, hs'⟩ := h.queued i hi
      exact ⟨e, by simp [he], hn, hs'⟩
  · cases hq : q.entries with
    | nil => simp [hq] at he
    | cons x xs =>
        simp only [hq, List.cons_append, List.tail_cons, List.mem_append, List.mem_singleton] at he
        rcases he with he | rfl
        · exact h.tail e (by simpa [hq] using he)
        · rfl
  · rcases hmem he with he | rfl
    · exact h.offLine hon e he
    · rfl

/-- The offer an entry makes names that entry once its mark is Set. -/
theorem SlotEntry.offer_named {m : Vector SlotEntry 48} {i : SlotNo} {c : QueueCell}
    (h : m[i.val].offer i = some c) :
    c.slot? = some i ∧ c.named (m.set i.val m[i.val].setQueued) := by
  cases he : m[i.val] with
  | free | held _ _ _ | mine _ _ | collided _ _ _ => simp [he, SlotEntry.offer] at h
  | claiming t k b =>
      cases b <;> simp only [he, SlotEntry.offer, Option.some.injEq, reduceCtorEq] at h
      subst h
      exact ⟨rfl, by simp [QueueCell.named, SlotEntry.setQueued]⟩
  | releasing t k b =>
      cases b <;> simp only [he, SlotEntry.offer, Option.some.injEq, reduceCtorEq] at h
      subst h
      exact ⟨rfl, by simp [QueueCell.named, SlotEntry.setQueued]⟩

theorem QueueFits.offerSlots {is : List SlotNo} {m : Vector SlotEntry 48} {q : CellQueue}
    (h : QueueFits m q) :
    QueueFits (offerSlots is (m, q)).1 (Sys2Proof.Machine.offerSlots is (m, q)).2 := by
  induction is generalizing m q with
  | nil => exact h
  | cons i is ih =>
      unfold Sys2Proof.Machine.offerSlots
      cases ho : m[i].offer i with
      | none => exact ih h
      | some c =>
          dsimp only
          cases hq : q.offer c with
          | none => exact h
          | some q' =>
              obtain ⟨hs, hn⟩ := SlotEntry.offer_named (m := m) (i := i) ho
              refine ih (h.offer hq hn fun j hj => ?_)
              exact (slotMap_set_get m i j _).trans
                (if_neg fun hji : j = i => hj (hs.trans (congrArg some hji.symm)))

theorem QueueFits.offerAll {s : State} (h : QueueFits s.slotMap s.ccq) (is : List SlotNo) :
    QueueFits (s.offerAll is).slotMap (s.offerAll is).ccq := h.offerSlots

/-- A JOIN or LEAVE offered keeps queue and map in step. -/
theorem QueueFits.offerControl {s : State} (h : QueueFits s.slotMap s.ccq) (i : ControlIntent)
    (c : QueueCell) (hc : c.slot? = none) :
    QueueFits (s.offerControl i c).slotMap (s.offerControl i c).ccq := by
  unfold State.offerControl
  split
  · rename_i q hq
    refine h.offer hq ?_ fun _ _ => rfl
    cases c <;> simp [QueueCell.slot?] at hc <;> trivial
  · exact h

/-! ### A Mark and an echo (R48, R49, R53 to R55) -/

/-- Heads passed over are no part of what must be in step. -/
theorem QueueFits.forgetPassed {m : Vector SlotEntry 48} {q : CellQueue} (h : QueueFits m q) :
    QueueFits m q.forgetPassed :=
  ⟨h.short, h.nodup, h.named, h.queued, h.tail, h.offLine⟩

/-- A late Open Slot start closes the turn at most. -/
theorem QueueFits.metPassed {m : Vector SlotEntry 48} {q : CellQueue} (h : QueueFits m q)
    (stn : StationNo) (which : OpenSlot) (e : QueueEntry) : QueueFits m (q.metPassed stn which e) :=
  ⟨h.short, h.nodup, h.named, h.queued, h.tail, h.offLine⟩

/-- A clean MARK changes waits and the turn, never which cells are queued. -/
theorem QueueFits.onMark {m : Vector SlotEntry 48} {q : CellQueue} (h : QueueFits m q) :
    QueueFits m q.onMark := by
  unfold CellQueue.onMark
  cases hq : q.entries with
  | nil => exact ⟨h.short, h.nodup, h.named, h.queued, h.tail, h.offLine⟩
  | cons e es =>
      dsimp only
      split
      · exact ⟨h.short, h.nodup, h.named, h.queued, h.tail, h.offLine⟩
      · refine ⟨?_, ?_, ?_, ?_, ?_, ?_⟩
        · have := h.short; simpa [hq] using this
        · have := h.nodup; simpa [hq] using this
        · have := h.named; rw [hq] at this
          intro x hx hw
          rcases List.mem_cons.mp hx with rfl | hx
          · exact this e (List.mem_cons_self) hw
          · exact this x (List.mem_cons_of_mem _ hx) hw
        · intro i hi
          obtain ⟨x, hx, hw, hs⟩ := h.queued i hi
          rw [hq] at hx
          rcases List.mem_cons.mp hx with rfl | hx
          · exact ⟨_, List.mem_cons_self, hw, hs⟩
          · exact ⟨x, List.mem_cons_of_mem _ hx, hw, hs⟩
        · have := h.tail; simpa [hq] using this
        · intro hl x hx
          have := h.offLine hl; rw [hq] at this
          rcases List.mem_cons.mp hx with rfl | hx
          · exact this e List.mem_cons_self
          · exact this x (List.mem_cons_of_mem _ hx)

/-- A head handed to the line. -/
theorem QueueFits.hand {m : Vector SlotEntry 48} {q : CellQueue} (h : QueueFits m q) :
    QueueFits m q.hand :=
  ⟨h.short, h.nodup, h.named, h.queued, h.tail, fun hl => absurd hl (by simp [CellQueue.hand])⟩

/-- The head leaves the queue, and its entry of the map, if it has one, loses the queued mark. -/
theorem QueueFits.behead {m m' : Vector SlotEntry 48} {q q' : CellQueue} {e : QueueEntry}
    {es : List QueueEntry} (h : QueueFits m q) (hq : q.entries = e :: es) (hq' : q'.entries = es)
    (hw : e.withdrawn = none → ∀ i : SlotNo, e.cell.slot? = some i → m'[i.val].isQueued = false)
    (hm : ∀ i : SlotNo, e.withdrawn ≠ none ∨ e.cell.slot? ≠ some i → m'[i.val] = m[i.val]) :
    QueueFits m' q' := by
  have hn := h.nodup
  rw [hq, List.map_cons, List.nodup_cons] at hn
  have hne : ∀ x ∈ es, x.cell.slot? ≠ e.cell.slot? := fun x hx hs =>
    hn.1 (List.mem_map.mpr ⟨x, hx, hs⟩)
  have hes : ∀ x ∈ es, x.withdrawn = none := fun x hx => h.tail x (by simpa [hq] using hx)
  have hin : ∀ x ∈ es, x ∈ q.entries := fun x hx => by simp [hq, hx]
  refine ⟨?_, hq' ▸ hn.2, fun x hx hxw => ?_, fun i hi => ?_, fun x hx => ?_, fun _ x hx => ?_⟩
  · have := h.short; rw [hq, List.length_cons] at this; rw [hq']; omega
  · rw [hq'] at hx
    exact QueueCell.named_congr
      (fun i hi => hm i (Or.inr fun hei => hne x hx (hi.trans hei.symm))) (h.named x (hin x hx) hxw)
  · rw [hq']
    by_cases hx : e.withdrawn = none ∧ e.cell.slot? = some i
    · rw [hw hx.1 i hx.2] at hi
      exact absurd hi (by decide)
    · have hor : e.withdrawn ≠ none ∨ e.cell.slot? ≠ some i := by
        by_cases h₁ : e.withdrawn = none
        · exact Or.inr fun h₂ => hx ⟨h₁, h₂⟩
        · exact Or.inl h₁
      rw [hm i hor] at hi
      obtain ⟨x, hxq, hxw, hxs⟩ := h.queued i hi
      rw [hq] at hxq
      rcases List.mem_cons.mp hxq with rfl | hxq
      · rcases hor with h₁ | h₁
        · exact absurd hxw h₁
        · exact absurd hxs h₁
      · exact ⟨x, hxq, hxw, hxs⟩
  · rw [hq'] at hx; exact hes x (List.mem_of_mem_tail hx)
  · rw [hq'] at hx; exact hes x hx

end Sys2Proof.Machine
end

