-- ==== Sys2Proof/Laws/QueueOps.lean ====
section
/-! SUPPORT. Each operation on the map or the queue keeps the two in step. -/

namespace Sys2Proof.Machine

open Sys2Proof

/-- Queue and map of a state are in step. -/
def State.fits (s : State) : Prop := QueueFits s.slotMap s.ccq

theorem State.fits_same {s t : State} (hm : t.slotMap = s.slotMap) (hq : t.ccq = s.ccq)
    (h : s.fits) : t.fits := by
  unfold State.fits at h ⊢
  rw [hm, hq]
  exact h

/-- A change outside the map and the queue keeps them in step. -/
theorem State.fits_frame {ps : List StatePart} {s t : State} (hc : s.changesOnly ps t)
    (hm : StatePart.slotMap ∉ ps) (hq : StatePart.ccq ∉ ps) (h : s.fits) : t.fits :=
  State.fits_same (hc _ hm) (hc _ hq) h

theorem State.fits_withdrawSet {s : State} (h : s.fits) (i : SlotNo) (why : Withdrawal)
    (e : SlotEntry) (he : e.isQueued = false) : ((s.withdrawIfQueued i why).setEntry i e).fits :=
  QueueFits.withdrawSet h i why e he

/-! ### One entry -/

theorem State.fits_setEntry {s : State} (h : s.fits) (i : SlotNo) (e : SlotEntry)
    (hi : s.slotMap[i.val].isQueued = false) (he : e.isQueued = false) : (s.setEntry i e).fits := by
  refine h.congr fun j hj => ?_
  rw [State.setEntry_get] at hj ⊢
  split
  · rename_i hji
    subst hji
    rw [if_pos rfl, hi, he] at hj
    exact absurd hj (by decide)
  · rfl

theorem State.fits_mapEntries {s : State} (h : s.fits) (f : SlotEntry → SlotEntry)
    (hf : ∀ e, e.isQueued = true ∨ (f e).isQueued = true → f e = e) : (s.mapEntries f).fits := by
  unfold State.fits
  rw [State.mapEntries_ccq]
  refine QueueFits.congr (m := s.slotMap) h fun j hj => ?_
  rw [State.mapEntries_get] at hj ⊢
  exact hf _ hj

theorem State.fits_collide {s : State} (h : s.fits) (i : SlotNo) : (s.collide i).fits := by
  have h₀ : (s.onCounters StationCounters.addCollide).fits := State.fits_same rfl rfl h
  unfold State.collide
  dsimp only
  split
  · rename_i t k he
    exact State.fits_setEntry h₀ i _ (by simp only [Fin.getElem_fin] at he; rw [he]; rfl) rfl
  · exact State.fits_withdrawSet h₀ i _ _ rfl
  all_goals exact h₀

theorem State.fits_learn {s : State} (h : s.fits) (i : SlotNo) (x : StationNo) (t : Tag) :
    (s.learn i x t).fits := by
  unfold State.learn
  split
  · rename_i he
    exact State.fits_setEntry h i _ (by simp only [Fin.getElem_fin] at he; rw [he]; rfl) rfl
  · rename_i he
    have := State.fits_setEntry h i (.held x t 0)
      (by simp only [Fin.getElem_fin] at he; rw [he]; rfl) rfl
    dsimp only
    split
    · exact this
    · exact State.fits_same rfl rfl this
  · exact State.fits_withdrawSet h i _ _ rfl
  · rename_i he
    exact State.fits_setEntry h i _ (by simp only [Fin.getElem_fin] at he; rw [he]; rfl) rfl
  all_goals exact h

theorem State.fits_ageOut {s : State} (h : s.fits) (i : SlotNo) : (s.ageOut i).fits := by
  unfold State.ageOut
  split
  · rename_i he
    split
    · exact State.fits_same rfl rfl (State.fits_setEntry h i .free
        (by simp only [Fin.getElem_fin] at he; rw [he]; rfl) rfl)
    · exact h
  · exact h

theorem State.fits_missSlot {s : State} (h : s.fits) (i : SlotNo) (g : Bool) :
    (s.missSlot i g).fits := by
  have h₀ : State.fits (if g then s.onCounters StationCounters.addCheckErr else s) := by
    split
    · exact State.fits_same rfl rfl h
    · exact h
  unfold State.missSlot
  dsimp only
  split
  · rename_i he
    split
    · exact State.fits_ageOut h₀ i
    · exact State.fits_setEntry h₀ i _ (by simp only [Fin.getElem_fin] at he; rw [he]; rfl) rfl
  · exact h₀

theorem State.fits_hearClaim {s : State} (h : s.fits) (i : SlotNo) (x : StationNo) (t : Tag) :
    (s.hearClaim i x t).fits := by
  unfold State.hearClaim
  split
  · rename_i he
    exact State.fits_setEntry h i _ (by simp only [Fin.getElem_fin] at he; rw [he]; rfl) rfl
  · exact State.fits_withdrawSet h i _ _ rfl
  all_goals exact h

theorem State.fits_hearRelease {s : State} (h : s.fits) (i : SlotNo) (x : StationNo) :
    (s.hearRelease i x).fits := by
  unfold State.hearRelease
  split
  · rename_i he
    split
    · exact State.fits_setEntry h i _ (by simp only [Fin.getElem_fin] at he; rw [he]; rfl) rfl
    · exact h
  · exact h

theorem State.fits_leave {s : State} (h : s.fits) (x : StationNo) :
    (s.mapEntries (SlotEntry.leave x)).fits := by
  refine State.fits_mapEntries h _ fun e he => ?_
  cases e <;> first
    | rfl
    | (simp only [SlotEntry.leave] at he ⊢; split at he <;> simp [SlotEntry.isQueued] at he)

/-! ### The work at a Mark -/

theorem firstFree_some {m : Vector SlotEntry 48} {i : SlotNo} (h : firstFree m = some i) :
    m[i.val] = .free := by
  have := List.find?_some h
  simpa using this

theorem State.fits_autoClaim {s : State} (h : s.fits) (k : StreamNo) : (s.autoClaim k).fits := by
  unfold State.autoClaim
  split
  · split
    · rename_i i hi
      refine QueueFits.congr h fun j hj => ?_
      rw [State.putEntry_get] at hj ⊢
      split
      · rename_i hji
        subst hji
        rw [if_pos rfl, firstFree_some hi] at hj
        simp [SlotEntry.isQueued] at hj
      · rfl
    · exact State.fits_same rfl rfl h
  · exact h

theorem State.fits_offerAll {s : State} (h : s.fits) (is : List SlotNo) : (s.offerAll is).fits :=
  QueueFits.offerAll h is

theorem State.fits_slotAgentMark {s : State} (h : s.fits) : s.slotAgentMark.fits := by
  have hfold : ∀ (l : List StreamNo) (s : State), s.fits → (l.foldl State.autoClaim s).fits := by
    intro l
    induction l with
    | nil => exact fun _ h => h
    | cons k l ih => exact fun s h => ih _ (State.fits_autoClaim h k)
  have h₁ : (s.mapEntries SlotEntry.tickBackoff).fits := by
    refine State.fits_mapEntries h _ fun e he => ?_
    cases e <;> first
      | rfl
      | (simp only [SlotEntry.tickBackoff] at he ⊢; split at he <;> simp [SlotEntry.isQueued] at he)
  have h₂ : ((s.mapEntries SlotEntry.tickBackoff).onStreams fun _ => Stream.tickPause).fits :=
    State.fits_same (State.onStreams_slotMap _ _) (State.onStreams_ccq _ _) h₁
  unfold State.slotAgentMark
  exact State.fits_offerAll (hfold _ _ h₂) _

/-! ### Releases and wipes -/

/-- Withdrawals one after another, for entries that all become FREE. -/
theorem QueueFits.withdrawAll {s : State} (l : List SlotNo) (why : Withdrawal)
    (m : Vector SlotEntry 48) (h : QueueFits m s.ccq)
    (hm : ∀ i : SlotNo, i ∈ l → m[i.val] = s.slotMap[i.val] ∨ m[i.val].isQueued = false) :
    ∃ m', QueueFits m' (l.foldl (fun s i => s.withdrawIfQueued i why) s).ccq ∧
      (∀ i : SlotNo, i ∈ l → m'[i.val] = .free ∨
        (m'[i.val].isQueued = false ∧ m'[i.val] = m[i.val])) ∧
      ∀ i : SlotNo, i ∉ l → m'[i.val] = m[i.val] := by
  induction l generalizing s m with
  | nil => exact ⟨m, h, by simp, fun _ _ => rfl⟩
  | cons i l ih =>
      have hmap : (s.withdrawIfQueued i why).slotMap = s.slotMap := by
        unfold State.withdrawIfQueued; split <;> rfl
      by_cases hq : s.slotMap[i.val].isQueued = true
      · have hccq : (s.withdrawIfQueued i why).ccq = s.ccq.withdraw (some i) why := by
          unfold State.withdrawIfQueued; rw [if_pos (by simpa using hq)]; rfl
        have h₁ : QueueFits (m.set i.val .free) (s.withdrawIfQueued i why).ccq := by
          rw [hccq]
          refine h.withdraw (some i) why (fun j hj => ?_) fun j hj => ?_
          · cases hj; rw [slotMap_set_get, if_pos rfl]; rfl
          · exact (slotMap_set_get m i j _).trans
              (if_neg fun hji : j = i => hj (congrArg some hji.symm))
        obtain ⟨m', hf, hin, hout⟩ := ih (s := s.withdrawIfQueued i why) _ h₁ (by
          intro j hj
          rw [slotMap_set_get, hmap]
          split
          · exact Or.inr rfl
          · exact hm j (List.mem_cons_of_mem _ hj))
        refine ⟨m', hf, fun j hj => ?_, fun j hj => ?_⟩
        · by_cases hjl : j ∈ l
          · rcases hin j hjl with h' | ⟨h', h''⟩
            · exact Or.inl h'
            · rw [slotMap_set_get] at h''
              split at h''
              · exact Or.inl h''
              · exact Or.inr ⟨h', h''⟩
          · have hji : j = i := by
              rcases List.mem_cons.mp hj with h' | h'
              · exact h'
              · exact absurd h' hjl
            rw [hout j hjl, slotMap_set_get, if_pos hji]
            exact Or.inl rfl
        · rw [List.mem_cons, not_or] at hj
          rw [hout j hj.2, slotMap_set_get, if_neg hj.1]
      · have hs : s.withdrawIfQueued i why = s := by
          unfold State.withdrawIfQueued; rw [if_neg (by simpa using hq)]
        obtain ⟨m', hf, hin, hout⟩ := ih (s := s) m h fun j hj => hm j (List.mem_cons_of_mem _ hj)
        refine ⟨m', ?_, fun j hj => ?_, fun j hj => hout j fun hj' => hj (List.mem_cons_of_mem _ hj')⟩
        · rw [List.foldl_cons, hs]; exact hf
        · by_cases hjl : j ∈ l
          · exact hin j hjl
          · have hji : j = i := by
              rcases List.mem_cons.mp hj with h' | h'
              · exact h'
              · exact absurd h' hjl
            refine Or.inr ⟨?_, hout j hjl⟩
            rw [hout j hjl, hji]
            rcases hm i List.mem_cons_self with h' | h'
            · rw [h']; simpa using hq
            · exact h'

theorem withdrawFold_slotMap (l : List SlotNo) (why : Withdrawal) (s : State) :
    (l.foldl (fun s i => s.withdrawIfQueued i why) s).slotMap = s.slotMap := by
  induction l generalizing s with
  | nil => rfl
  | cons i l ih =>
      rw [List.foldl_cons, ih]
      unfold State.withdrawIfQueued; split <;> rfl

theorem State.fits_releaseTrigger {s : State} (h : s.fits) (k : StreamNo) :
    (s.releaseTrigger k).fits := by
  unfold State.releaseTrigger
  dsimp only
  set claims := allSlots.filter fun i => s.slotMap[i].isClaimingFor k with hcl
  obtain ⟨m', hf, hin, hout⟩ := QueueFits.withdrawAll claims .gone s.slotMap h fun i _ => Or.inl rfl
  have hmem : ∀ i : SlotNo, i ∈ claims ↔ s.slotMap[i.val].isClaimingFor k = true := by
    intro i; simp [hcl, allSlots]
  set s₁ := claims.foldl (fun s i => s.withdrawIfQueued i .gone) s with hs₁
  have hmap : s₁.slotMap = s.slotMap := withdrawFold_slotMap claims .gone s
  have h₂ : (s₁.mapEntries (SlotEntry.trigger k)).fits := by
    unfold State.fits
    rw [State.mapEntries_ccq]
    refine QueueFits.congr (m := m') hf fun i hi => ?_
    rw [State.mapEntries_get, hmap] at hi ⊢
    by_cases hc : i ∈ claims
    · have hck := (hmem i).mp hc
      have ht : (s.slotMap[i.val]).trigger k = .free := by
        revert hck
        cases s.slotMap[i.val] <;> simp [SlotEntry.isClaimingFor, SlotEntry.trigger]
      rw [ht] at hi ⊢
      rcases hin i hc with h' | ⟨h', _⟩
      · exact h'.symm
      · rw [h'] at hi; exact absurd hi (by decide)
    · have hck : s.slotMap[i.val].isClaimingFor k = false := by
        cases hb : s.slotMap[i.val].isClaimingFor k
        · rfl
        · exact absurd ((hmem i).mpr hb) hc
      rw [hout i hc] at hi ⊢
      revert hck hi
      cases s.slotMap[i.val] <;>
        simp [SlotEntry.isClaimingFor, SlotEntry.trigger, SlotEntry.isQueued] <;>
        (try split_ifs) <;> simp_all
  have h₃ : State.fits (((s₁.mapEntries (SlotEntry.trigger k)).onStream k
      fun st => { st with short := false }).offerAll
      (allSlots.filter fun i => s.slotMap[i].isMineFor k)) :=
    State.fits_offerAll
      (State.fits_same (State.onStream_slotMap _ _ _) (State.onStream_ccq _ _ _) h₂) _
  split
  · exact State.fits_same (State.onStream_slotMap _ _ _) (State.onStream_ccq _ _ _) h₃
  · exact h₃

theorem State.fits_wipeAll (s : State) : s.wipeAll.fits := by
  refine QueueFits.empty _ _ rfl fun i => ?_
  show (s.mapEntries fun _ => .free).slotMap[i.val].isQueued = false
  rw [State.mapEntries_get]
  rfl

theorem State.fits_wipeOwn (s : State) : s.wipeOwn.fits := by
  refine QueueFits.empty _ _ rfl fun i => ?_
  show (s.mapEntries SlotEntry.freeOwn).slotMap[i.val].isQueued = false
  rw [State.mapEntries_get]
  cases s.slotMap[i.val] <;> rfl

/-! ### Outcomes -/

theorem State.claimOutcome_get {s : State} (i : SlotNo) (o : CellOutcome) (j : SlotNo)
    (hj : j ≠ i) : (s.claimOutcome i o).slotMap[j.val] = s.slotMap[j.val] := by
  unfold State.claimOutcome
  split <;> simp [hj]

theorem State.releaseOutcome_get {s : State} (i : SlotNo) (o : CellOutcome) (j : SlotNo)
    (hj : j ≠ i) : (s.releaseOutcome i o).slotMap[j.val] = s.slotMap[j.val] := by
  unfold State.releaseOutcome
  split <;> simp [hj]

end Sys2Proof.Machine
end

