-- ==== Sys2Proof/Laws/QueueSteps.lean ====
section
/-! SUPPORT. The operations of the Roster Unit, of a Mark, and of the slots keep queue and map in
step. -/

namespace Sys2Proof.Machine

open Sys2Proof

theorem State.fits_withdrawJoin {s : State} (h : s.fits) : s.withdrawJoin.fits := by
  unfold State.withdrawJoin; dsimp only
  split
  · refine State.fits_same (s := s.onCcq (CellQueue.withdraw none .gone)) rfl rfl ?_
    exact QueueFits.withdraw h none .gone (by simp) (fun _ _ => rfl)
  · exact State.fits_same rfl rfl h

theorem State.fits_offerJoin {s : State} (h : s.fits) : s.offerJoin.fits := QueueFits.offerControl h _ _ rfl

theorem State.fits_offerLeave {s : State} (h : s.fits) : s.offerLeave.fits := QueueFits.offerControl h _ _ rfl

theorem State.fits_reoffer {s : State} (h : s.fits) : s.reoffer.fits := by
  unfold State.reoffer; split
  · exact h
  · split
    · exact h
    · exact State.fits_offerJoin h
    · exact State.fits_offerLeave h

theorem State.fits_onRsu {s : State} (f) (h : s.fits) : (s.onRsu f).fits := State.fits_same rfl rfl h

theorem State.fits_onLnu {s : State} (f) (h : s.fits) : (s.onLnu f).fits := State.fits_same rfl rfl h

theorem State.fits_onMku {s : State} (f) (h : s.fits) : (s.onMku f).fits := State.fits_same rfl rfl h

theorem State.fits_onCounters {s : State} (f) (h : s.fits) : (s.onCounters f).fits := State.fits_same rfl rfl h

theorem State.fits_raise {s : State} (f) (h : s.fits) : (s.raise f).fits := State.fits_same rfl rfl h

theorem State.fits_setMembership {s : State} (f) (h : s.fits) : (s.setMembership f).fits := State.fits_same rfl rfl h

theorem State.fits_onStream {s : State} (k f) (h : s.fits) : (s.onStream k f).fits := State.fits_same (State.onStream_slotMap _ _ _) (State.onStream_ccq _ _ _) h

theorem State.fits_onStreams {s : State} (f) (h : s.fits) : (s.onStreams f).fits := State.fits_same (State.onStreams_slotMap _ _) (State.onStreams_ccq _ _) h

theorem State.fits_attemptEnds {s : State} (h : s.fits) : s.attemptEnds.fits := by
  unfold State.attemptEnds; split
  · exact State.fits_offerJoin (State.fits_onRsu _ h)
  · exact State.fits_raise _ (State.fits_setMembership _ (State.fits_onRsu _ h))

theorem State.fits_learnDone {s : State} (h : s.fits) : s.learnDone.fits := State.fits_offerJoin (State.fits_setMembership _ (State.fits_onRsu _ h))

theorem State.fits_learnMark {s : State} (h : s.fits) : s.learnMark.fits := by
  unfold State.learnMark; split
  · exact State.fits_onRsu _ h
  · exact State.fits_learnDone h

theorem State.fits_joinTimerDone {s : State} (h : s.fits) : s.joinTimerDone.fits := State.fits_attemptEnds (State.fits_onRsu _ h)

theorem State.fits_membershipMark {s : State} (b) (h : s.fits) : (s.membershipMark b).fits := by
  unfold State.membershipMark
  split
  · exact h
  · exact State.fits_learnMark h
  · split
    · exact State.fits_raise _ (State.fits_setMembership _ (State.fits_withdrawJoin (State.fits_onRsu _ h)))
    · unfold State.joinWait; split
      · exact State.fits_reoffer h
      · split
        · exact State.fits_joinTimerDone h
        · exact State.fits_onRsu _ h
  · split
    · exact h
    · exact State.fits_raise _ (State.fits_offerJoin (State.fits_setMembership _ (State.fits_onRsu _ h)))
  · exact State.fits_reoffer h
  · split
    · exact State.fits_raise _ (State.fits_setMembership _ h)
    · exact State.fits_setMembership _ (State.fits_onRsu _ h)

theorem State.fits_rosterOwnMark {s : State} (h : s.fits) : s.rosterOwnMark.fits := by
  unfold State.rosterOwnMark
  split
  · exact h
  · exact h
  · exact State.fits_learnMark h
  · exact State.fits_reoffer h
  · exact State.fits_reoffer h
  · exact State.fits_raise _ (State.fits_setMembership _ h)

theorem State.fits_markTask {s : State} (own x b y t) (h : s.fits) : (State.markTask own x b y s t).fits := by
  unfold State.markTask
  split
  · split
    · exact State.fits_onRsu _ h
    · exact h
  · split
    · exact State.fits_rosterOwnMark h
    · exact State.fits_membershipMark _ (State.fits_onRsu _ h)
  · exact State.fits_slotAgentMark h
  · exact QueueFits.onMark h

theorem State.fits_foldl {α} (f : State → α → State) (hf : ∀ s a, s.fits → (f s a).fits) (l : List α) {s : State} (h : s.fits) : (l.foldl f s).fits := by
  induction l generalizing s with
  | nil => exact h
  | cons a l ih => exact ih (hf s a h)

theorem State.fits_anchorMark {s : State} (own t x f o) (h : s.fits) : (s.anchorMark own t x f o).fits := by
  unfold State.anchorMark; dsimp only
  refine State.fits_onStreams _ (State.fits_foldl _ (fun s a => State.fits_markTask _ _ _ _ a) _ ?_)
  unfold State.countMark; dsimp only
  split
  · exact State.fits_raise _ (State.fits_onMku _ (State.fits_onLnu _ h))
  · exact (State.fits_onMku _ (State.fits_onLnu _ h))

theorem State.fits_requestMark {s : State} (k t c) (h : s.fits) : (s.requestMark k t c).fits := 
  State.fits_frame (State.requestMark_changes k t c s) (by decide) (by decide) h

theorem State.fits_garbledMark {s : State} (t) (h : s.fits) : (s.garbledMark t).fits := 
  State.fits_frame (State.garbledMark_changes t s) (by decide) (by decide) h

theorem State.fits_missedSlot {s : State} (i g) (h : s.fits) : (s.missedSlot i g).fits := 
  State.fits_onLnu _ (State.fits_onStreams _ (State.fits_missSlot h i g))

theorem State.fits_duplicateSeen {s : State} (h : s.fits) : s.duplicateSeen.fits := by
  unfold State.duplicateSeen; dsimp only
  refine State.fits_foldl _ (fun s k h => ?_) _ (State.fits_wipeOwn _)
  unfold State.faultDuplicate; dsimp only
  split
  · exact State.fits_releaseTrigger (State.fits_onStream _ _ h) _
  · exact h

theorem State.fits_sighting {s : State} (g : State → State) (hg : ∀ s, s.fits → (g s).fits) (h : s.fits) : (s.sighting g).fits := by
  unfold State.sighting; split
  · exact h
  · exact State.fits_duplicateSeen (hg _ h)

theorem State.fits_stopTalk {s : State} (k c) (h : s.fits) : (s.stopTalk k c).fits := State.fits_releaseTrigger (State.fits_onStream _ _ h) _

theorem State.fits_cleanControl {s : State} (w x f) (hf : ∀ s : State, s.fits → (f s).fits) (h : s.fits) : (s.cleanControl w x f).fits := by
  unfold State.cleanControl
  split
  · exact h
  split
  · exact State.fits_onLnu _ h
  split
  · exact State.fits_sighting _ (fun s h => State.fits_onLnu _ h) h
  · exact State.fits_onLnu _ (hf _ h)

theorem State.fits_takeOutcome {s : State} (e : QueueEntry) (es) (o : CellOutcome) (h : s.fits) (hq : s.ccq.entries = e :: es) (q' : CellQueue) (hq' : q'.entries = es)
   (ho : (∃ w, e.withdrawn = some w ∧ o = w.outcome) ∨ (e.withdrawn = none ∧ (o = .matched ∨ o = .contention))) :
   ((s.onCcq fun _ => q').takeOutcome e.cell o).fits := by
  have named := h.named e (by rw [hq]; simp)
  have hw : ∀ w : Withdrawal, w.outcome = .taken ∨ w.outcome = .gone := by intro w; cases w <;> simp [Withdrawal.outcome]
  have base : e.withdrawn ≠ none ∨ e.cell.slot? = none → (s.onCcq fun _ => q').fits := by
    intro hc
    refine QueueFits.behead h hq hq' ?_ (fun _ _ => rfl)
    intro hn i hi; rcases hc with hc | hc
    · exact absurd hn hc
    · rw [hc] at hi; simp at hi
  unfold State.takeOutcome
  split
  · rename_i hc
    have b := base (.inr (by rw [hc]; rfl))
    unfold State.joinOutcome; split
    · exact State.fits_onRsu _ b
    · exact State.fits_attemptEnds (State.fits_onRsu _ b)
    · exact b
  · rename_i hc
    have b := base (.inr (by rw [hc]; rfl))
    unfold State.leaveOutcome; split
    · exact State.fits_raise _ (State.fits_setMembership _ (State.fits_onRsu _ b))
    · exact State.fits_raise _ (State.fits_setMembership _ (State.fits_onRsu _ b))
    · exact b
  · rename_i i t k hc
    rcases ho with ⟨w, hwd, rfl⟩ | ⟨hn, ho⟩
    · have b := base (.inl (by simp [hwd]))
      have : (s.onCcq fun _ => q').claimOutcome i w.outcome = s.onCcq fun _ => q' := by
        unfold State.claimOutcome; rcases hw w with h | h <;> rw [h]
      rw [this]; exact b
    · have nm := named hn
      rw [hc] at nm; simp only [QueueCell.named, Fin.getElem_fin] at nm
      have g : ∀ j : SlotNo, j ≠ i → ((s.onCcq fun _ => q').claimOutcome i o).slotMap[j.val] = s.slotMap[j.val] := fun j hj => State.claimOutcome_get i o j hj
      have ccq : ((s.onCcq fun _ => q').claimOutcome i o).ccq = q' := by
        have := State.claimOutcome_changes i o (s.onCcq fun _ => q') .ccq (by decide)
        exact this
      unfold State.fits
      rw [ccq]
      refine QueueFits.behead h hq hq' ?_ ?_
      · intro _ j hj
        rw [hc] at hj; simp [QueueCell.slot?] at hj; subst hj
        rcases ho with rfl | rfl
        · simp [State.claimOutcome, nm, SlotEntry.isQueued]
        · simp [State.claimOutcome, nm, SlotEntry.isQueued]
      · intro j hj
        refine g j ?_
        rintro rfl
        rcases hj with hj | hj
        · exact hj hn
        · rw [hc] at hj; exact hj rfl
  · rename_i i k hc
    rcases ho with ⟨w, hwd, rfl⟩ | ⟨hn, ho⟩
    · have b := base (.inl (by simp [hwd]))
      have : (s.onCcq fun _ => q').releaseOutcome i w.outcome = s.onCcq fun _ => q' := by
        unfold State.releaseOutcome; rcases hw w with h | h <;> rw [h]
      rw [this]; exact b
    · have nm := named hn
      rw [hc] at nm; simp only [QueueCell.named, Fin.getElem_fin] at nm
      obtain ⟨t, nm⟩ := nm
      have g : ∀ j : SlotNo, j ≠ i → ((s.onCcq fun _ => q').releaseOutcome i o).slotMap[j.val] = s.slotMap[j.val] := fun j hj => State.releaseOutcome_get i o j hj
      have ccq : ((s.onCcq fun _ => q').releaseOutcome i o).ccq = q' := by
        have := State.releaseOutcome_changes i o (s.onCcq fun _ => q') .ccq (by decide)
        exact this
      unfold State.fits
      rw [ccq]
      refine QueueFits.behead h hq hq' ?_ ?_
      · intro _ j hj
        rw [hc] at hj; simp [QueueCell.slot?] at hj; subst hj
        rcases ho with rfl | rfl
        · simp [State.releaseOutcome, nm, SlotEntry.isQueued]
        · simp [State.releaseOutcome, nm, SlotEntry.isQueued]
      · intro j hj
        refine g j ?_
        rintro rfl
        rcases hj with hj | hj
        · exact hj hn
        · rw [hc] at hj; exact hj rfl

theorem QueueFits.retry {m q} {e : QueueEntry} {es} (h : QueueFits m q) (hq : q.entries = e :: es) (hw : e.withdrawn = none) (a w) :
   QueueFits m { q with onLine := false, entries := { e with attempt := a, wait := w } :: es } := by
  refine ⟨?_, ?_, ?_, ?_, ?_, ?_⟩
  · have := h.short; simpa [hq] using this
  · have := h.nodup; simpa [hq] using this
  · intro x hx hxw
    rcases List.mem_cons.mp hx with rfl | hx
    · exact h.named e (by simp [hq]) hw
    · exact h.named x (by simp [hq, hx]) hxw
  · intro i hi
    obtain ⟨x, hx, hxw, hs⟩ := h.queued i hi
    rw [hq] at hx
    rcases List.mem_cons.mp hx with rfl | hx
    · exact ⟨_, List.mem_cons_self, hxw, hs⟩
    · exact ⟨x, List.mem_cons_of_mem _ hx, hxw, hs⟩
  · have := h.tail; simpa [hq] using this
  · intro _ x hx
    rcases List.mem_cons.mp hx with rfl | hx
    · exact hw
    · exact h.tail x (by simpa [hq] using hx)

theorem State.fits_openSlotEcho {s : State} (m) (h : s.fits) : (s.openSlotEcho m).fits := by
  unfold State.openSlotEcho
  split
  swap
  · exact h
  dsimp only
  set s1 := (if m = true then s.onLnu LineUnit.endTx else (s.onLnu LineUnit.endTx).onCounters StationCounters.addContend) with hs1
  have h1 : s1.fits := by
    rw [hs1]; split
    · exact State.fits_onLnu _ h
    · exact State.fits_onCounters _ (State.fits_onLnu _ h)
  clear_value s1
  unfold CellQueue.onEcho
  cases hq : s1.ccq.entries with
  | nil => exact State.fits_same rfl rfl h1
  | cons e es =>
    dsimp only
    cases hw : e.withdrawn with
    | some why =>
      dsimp only
      exact State.fits_takeOutcome e es _ h1 hq _ (by simp [CellQueue.removeHead, hq]) (.inl ⟨why, hw, rfl⟩)
    | none =>
      dsimp only
      cases m
      case true =>
        exact State.fits_takeOutcome e es _ h1 hq _ (by simp [CellQueue.removeHead, hq]) (.inr ⟨hw, .inl rfl⟩)
      case false =>
        by_cases ha : e.attempt < Config.lastAttempt
        · simp only [ha, if_true, Bool.false_eq_true, if_false]
          have := QueueFits.retry h1 hq hw (e.attempt + 1) (backoffWait s1.straps.stn (e.attempt + 1))
          rw [hw] at this
          exact this
        · simp only [ha, if_false, Bool.false_eq_true]
          exact State.fits_takeOutcome e es _ h1 hq _ (by simp [CellQueue.removeHead, hq]) (.inr ⟨hw, .inr rfl⟩)

/-- The contender is the queue's head and meets conditions 1 to 3 of R50. -/
theorem CellQueue.contender_some {stn : StationNo} {w : OpenSlot} {q : CellQueue} {e : QueueEntry}
    (h : q.contender stn w = some e) : e ∈ q.entries ∧ q.ready stn w e = true := by
  unfold CellQueue.contender at h
  split at h
  · simp at h
  · rename_i e' es hq
    split at h
    · rename_i hr
      simp only [Option.some.injEq] at h
      subst h
      exact ⟨by simp [hq], hr⟩
    · simp at h

theorem State.fits_contend {s : State} (w : OpenSlot) (a : Instant) (h : s.fits) :
    (s.contend w a).fits := by
  unfold State.contend
  split
  swap
  · exact h
  rename_i e hc
  have hsend : ∀ c, (s.sendControl w a c).fits := by
    intro c; unfold State.sendControl; exact QueueFits.hand (m := s.slotMap) (q := s.ccq) h
  obtain ⟨hq, hr⟩ := CellQueue.contender_some hc
  have hl : s.ccq.onLine = false := by
    simp only [CellQueue.ready, Bool.and_eq_true] at hr; simpa using hr.1.2
  have hn : e.withdrawn = none := h.offLine hl e hq
  have nm := h.named e hq hn
  unfold State.handHead; dsimp only
  split
  · exact hsend _
  · exact hsend _
  · rename_i i t k hcell
    rw [hcell] at nm; simp only [QueueCell.named] at nm
    rw [if_pos (by rw [nm]; simp [SlotEntry.isClaimingFor])]
    exact hsend _
  · rename_i i k hcell
    rw [hcell] at nm; simp only [QueueCell.named] at nm
    obtain ⟨t, nm⟩ := nm
    rw [nm]; simp
    exact hsend _

theorem State.fits_openSlotStart {s : State} (w : SlotStart) (h : s.fits) :
    (s.openSlotStart w).fits := by
  unfold State.openSlotStart
  split
  swap
  · exact h
  split
  · exact QueueFits.metPassed (m := s.slotMap) h _ _ _
  · exact State.fits_contend _ _ (QueueFits.forgetPassed (m := s.slotMap) h)

theorem State.fits_dataSlotStart {s : State} (i) (h : s.fits) : (s.dataSlotStart i).fits := by
  unfold State.dataSlotStart
  split
  swap
  · exact h
  refine State.fits_onStreams _ ?_
  unfold State.handSlotCell
  split
  · unfold State.askEngine; dsimp only; split
    · exact State.fits_stopTalk _ _ (State.fits_onLnu _ h)
    · exact State.fits_onStream _ _ (State.fits_onLnu _ h)
  · exact State.fits_onLnu _ h
  all_goals exact h

theorem State.fits_dataSlotEcho {s : State} (m f) (h : s.fits) : (s.dataSlotEcho m f).fits := by
  unfold State.dataSlotEcho
  split
  · exact h
  dsimp only
  have he : ∀ (s : State) k st, s.fits → (s.engineEcho k st).fits := by
    intro s k st h; unfold State.engineEcho; split
    · exact State.fits_onStream _ _ h
    · exact h
  have hs : ∀ (s : State) m i, s.fits → (s.slotEcho m i).fits := by
    intro s m i h; unfold State.slotEcho; split
    · exact h
    · exact State.fits_collide h i
  split
  · refine State.fits_onStreams _ ?_
    split
    · exact he _ _ _ (hs _ _ _ (State.fits_onLnu _ h))
    · exact hs _ _ _ (he _ _ _ (State.fits_onLnu _ h))
  · split
    · exact he _ _ _ (hs _ _ _ (State.fits_onLnu _ h))
    · exact hs _ _ _ (he _ _ _ (State.fits_onLnu _ h))

end Sys2Proof.Machine
end

