-- ==== Sys2Proof/Laws/Release.lean ====
section
/-! SUPPORT. What offers, a release trigger and a wipe leave of the map and of the held counts. -/

namespace Sys2Proof.Machine

open Sys2Proof

/-! ### Offers -/

/-- An offer changes an entry by its queued mark at most, and only a listed one. -/
theorem offerSlots_get (is : List SlotNo) (m : Vector SlotEntry 48) (q : CellQueue) (j : SlotNo) :
    (offerSlots is (m, q)).1[j.val] = m[j.val] ∨
      (j ∈ is ∧ (offerSlots is (m, q)).1[j.val] = m[j.val].setQueued) := by
  induction is generalizing m q with
  | nil => exact Or.inl rfl
  | cons i is ih =>
      have hidem (e : SlotEntry) : e.setQueued.setQueued = e.setQueued := by
        cases e <;> rfl
      have hset : (m.set i.val m[i].setQueued)[j.val] =
          if j = i then m[i.val].setQueued else m[j.val] := slotMap_set_get m i j _
      have hskip : offerSlots (i :: is) (m, q) = offerSlots is (m, q) ∨
          offerSlots (i :: is) (m, q) = (m, q) ∨
          ∃ q', offerSlots (i :: is) (m, q) = offerSlots is (m.set i.val m[i].setQueued, q') := by
        rw [offerSlots]
        split
        · exact Or.inl rfl
        · split
          · exact Or.inr (Or.inr ⟨_, rfl⟩)
          · exact Or.inr (Or.inl rfl)
      rcases hskip with h | h | ⟨q', h⟩
      · rw [h]
        rcases ih m q with h | ⟨h, h'⟩
        · exact Or.inl h
        · exact Or.inr ⟨List.mem_cons_of_mem _ h, h'⟩
      · rw [h]
        exact Or.inl rfl
      · rw [h]
        rcases ih (m.set i.val m[i].setQueued) q' with h | ⟨h, h'⟩
        · rw [hset] at h
          split at h
          · rename_i hji
            exact Or.inr ⟨hji ▸ List.mem_cons_self, hji ▸ h⟩
          · exact Or.inl h
        · rw [hset] at h'
          refine Or.inr ⟨List.mem_cons_of_mem _ h, ?_⟩
          split at h'
          · rename_i hji
            rw [h', hidem, hji]
          · exact h'

theorem State.offerAll_get (is : List SlotNo) (s : State) (j : SlotNo) :
    (s.offerAll is).slotMap[j.val] = s.slotMap[j.val] ∨
      (j ∈ is ∧ (s.offerAll is).slotMap[j.val] = s.slotMap[j.val].setQueued) :=
  offerSlots_get is s.slotMap s.ccq j

/-! ### A release trigger (R39) -/

/-- An entry that is MINE for no stream counts for none. -/
theorem mineCount_zero {m : Vector SlotEntry 48} {k : StreamNo}
    (h : ∀ i : SlotNo, m[i.val].isMineFor k = false) : mineCount m k = 0 :=
  countEntries_zero.mpr h

theorem SlotEntry.trigger_mine (k : StreamNo) (e : SlotEntry) : (e.trigger k).isMineFor k = false := by
  cases e <;> simp only [SlotEntry.trigger] <;> (try split) <;> simp_all [SlotEntry.isMineFor]

/-- The withdrawals of a release trigger leave the stream contexts alone. -/
theorem withdrawFold_streams (l : List SlotNo) (why : Withdrawal) (s : State) :
    (l.foldl (fun s i => s.withdrawIfQueued i why) s).streams = s.streams := by
  induction l generalizing s with
  | nil => rfl
  | cons i l ih =>
      rw [List.foldl_cons, ih]
      unfold State.withdrawIfQueued; split <;> rfl

theorem State.releaseTrigger_released (k : StreamNo) (s : State) :
    s.releasedFor k (s.releaseTrigger k) := by
  unfold State.releaseTrigger
  dsimp only
  set claims := allSlots.filter fun i => s.slotMap[i].isClaimingFor k
  set mine := allSlots.filter fun i => s.slotMap[i].isMineFor k with hmine
  set s₁ := claims.foldl (fun s i => s.withdrawIfQueued i .gone) s
  have hmap : s₁.slotMap = s.slotMap := withdrawFold_slotMap claims .gone s
  set s₂ := s₁.mapEntries (SlotEntry.trigger k)
  set s₃ := s₂.onStream k fun st => { st with short := false }
  have h₃ : ∀ i : SlotNo, s₃.slotMap[i.val] = (s.slotMap[i.val]).trigger k := by
    intro i
    show (s₁.mapEntries (SlotEntry.trigger k)).slotMap[i.val] = _
    rw [State.mapEntries_get, hmap]
  have hk : s₃.streams[k.val].held = 0 ∧ s₃.streams[k.val].short = false := by
    have hz : mineCount s₂.slotMap k = 0 := mineCount_zero fun i => by
      have := h₃ i
      change s₂.slotMap[i.val] = _ at this
      rw [this]
      exact SlotEntry.trigger_mine k _
    have hs : s₃.streams[k.val] = { s₂.streams[k.val] with short := false } := by
      simp [s₃]
    rw [hs]
    refine ⟨?_, rfl⟩
    show s₂.streams[k.val].held = 0
    have : s₂.streams[k.val] = reportMap s₁.mku.count s₁.slotMap s₂.slotMap k s₁.streams[k.val] :=
      State.mapEntries_stream _ _ _
    rw [this, reportMap_held, hz]
  set s₄ := s₃.offerAll mine
  have h₄ : s₄.streams = s₃.streams := rfl
  have hmap₄ : ∀ i : SlotNo, match s.slotMap[i] with
      | .mine g j => if j = k then ∃ q, s₄.slotMap[i] = .releasing g k q
          else s₄.slotMap[i] = .mine g j
      | .claiming g j q => s₄.slotMap[i] = if j = k then .free else .claiming g j q
      | .collided g j b => s₄.slotMap[i] = if j = k then .free else .collided g j b
      | e => s₄.slotMap[i] = e := by
    intro i
    have hg := State.offerAll_get mine s₃ i
    rw [h₃ i] at hg
    simp only [Fin.getElem_fin]
    have hnot : s.slotMap[i.val].isMineFor k = false → s₄.slotMap[i.val] =
        (s.slotMap[i.val]).trigger k := by
      intro hm
      rcases hg with h | ⟨h, _⟩
      · exact h
      · rw [hmine, List.mem_filter] at h
        rw [Fin.getElem_fin, hm] at h
        exact absurd h.2 (by decide)
    cases he : s.slotMap[i.val] with
    | mine g j =>
        by_cases hj : j = k
        · subst hj
          rw [he] at hg
          simp only [SlotEntry.trigger, if_true] at hg ⊢
          rcases hg with h | ⟨_, h⟩
          · exact ⟨false, h⟩
          · exact ⟨true, h⟩
        · have := hnot (by simp [he, SlotEntry.isMineFor, hj])
          rw [he] at this
          simpa [SlotEntry.trigger, hj] using this
    | free | held _ _ _ | claiming _ _ _ | releasing _ _ _ | collided _ _ _ =>
        have := hnot (by simp [he, SlotEntry.isMineFor])
        rw [he] at this
        simpa [SlotEntry.trigger] using this
  have hlast : ∀ t : State, t.slotMap = s₄.slotMap → t.streams[k].held = s₄.streams[k].held →
      t.streams[k].short = s₄.streams[k].short → s.releasedFor k t := by
    intro t hm hh hs
    refine ⟨fun i => ?_, ?_, ?_⟩
    · rw [hm]; exact hmap₄ i
    · rw [hh, h₄]; exact hk.1
    · rw [hs, h₄]; exact hk.2
  split
  · refine hlast _ rfl ?_ ?_ <;> simp
  · exact hlast _ rfl rfl rfl

/-- A change before the trigger that leaves the map alone does not change what is released. -/
theorem State.releasedFor_congr {k : StreamNo} {s s' t : State} (h : s'.slotMap = s.slotMap)
    (hr : s'.releasedFor k t) : s.releasedFor k t := by
  unfold State.releasedFor at hr ⊢
  rw [h] at hr
  exact hr

end Sys2Proof.Machine
end

