-- ==== Sys2Proof/Laws/Stops.lean ====
section
/-! SUPPORT. How a stop of a Talk Stream begins: what its engine, its walker and the release trigger leave
of STOPPING, STOPPED and the two stop marks (R129, R132, R133). -/

namespace Sys2Proof.Machine

open Sys2Proof

/-- The engine's part of a stop: STOPPING, entries gone Cleared, and quiet exactly where the walker is
OFF. -/
structure Stream.Begun (old new : Stream) : Prop where
  quiet : new.walkerQuiet = true ↔ new.walker.mode = .off
  gone : new.entriesGone = false
  state : new.state = .stopping
  flags : new.flags = old.flags
  cfg : new.cfg = old.cfg

theorem Stream.beginStop_begun (st : Stream) (c : StopCause) (ht : st.isTalk = true) :
    st.Begun (st.beginStop c) := by
  have e : st.beginStop c = Stream.stopRequest { st.emptyFifo with
    state := .stopping, cause := c, priming := false, entriesGone := false, walkerQuiet := false } := rfl
  rw [e]
  generalize hx : ({ st.emptyFifo with
    state := .stopping, cause := c, priming := false, entriesGone := false
    walkerQuiet := false } : Stream) = x
  obtain ⟨h1, h2, h3, h4, h5⟩ : x.entriesGone = false ∧ x.state = .stopping ∧ x.flags = st.flags ∧
      x.cfg = st.cfg ∧ x.walkerQuiet = false := by rw [← hx]; exact ⟨rfl, rfl, rfl, rfl, rfl⟩
  have hxt : x.isTalk = true := (Stream.isTalk_congr h4).trans ht
  have at_work (hm : x.walker.mode = .walking ∨ x.walker.mode = .held) : st.Begun x.stopRequest := by
    have ht' : ∀ w, ({ x with walker := w } : Stream).isTalk = true := fun _ => hxt
    rw [Stream.stopRequest_table x true hxt hm]
    unfold Stream.stopTable Stream.stopDoneTable
    simp only [ht', if_true, h2, h1]
    split_ifs <;> constructor <;> simp_all [Walker.stopNoted]
  cases hm : x.walker.mode with
  | walking => exact at_work (.inl hm)
  | held => exact at_work (.inr hm)
  | off =>
    have : x.stopRequest = { x with walkerQuiet := true } := by
      unfold Stream.stopRequest
      rw [hm]
      simp [Stream.onStopDone, hxt, h2, Stream.finishStop, h1]
    rw [this]
    constructor <;> simp [h1, h2, h3, h4, hm]
  | stopping =>
    have : x.stopRequest = x := by
      unfold Stream.stopRequest
      rw [hm]
    rw [this]
    constructor <;> simp [h1, h2, h3, h4, h5, hm]

/-- The report that none remain after a stop began (R133). -/
theorem Stream.Begun.noneRemain {old b : Stream} (h : old.Begun b) (ht : b.isTalk = true) (n : Nat)
    (x : Bool) :
    let r := ({ b with held := n, short := x } : Stream).noneRemainTable
    (r.walkerQuiet = true ↔ r.walker.mode = .off) ∧ r.entriesGone = true ∧
    (r.walker.mode = .off → r.state = .stopped ∧ r.flags = old.flags ||| 0x80#8) ∧
    (r.walker.mode ≠ .off → r.state = .stopping ∧ r.flags = old.flags) := by
  obtain ⟨q, _, s, f, _⟩ := h
  have ht' : ({ b with held := n, short := x } : Stream).isTalk = true := ht
  have hs' : ({ b with held := n, short := x } : Stream).state = .stopping := s
  unfold Stream.noneRemainTable
  rw [if_pos ⟨ht', hs'⟩]
  cases hq : b.walkerQuiet <;> rw [hq] at q <;> simp [f, s] <;> simpa using q

/-- Withdrawals leave the map and the round count alone. -/
theorem withdrawFold_keeps (l : List SlotNo) (why : Withdrawal) (s : State) :
    (l.foldl (fun s i => s.withdrawIfQueued i why) s).slotMap = s.slotMap ∧
      (l.foldl (fun s i => s.withdrawIfQueued i why) s).mku = s.mku := by
  induction l generalizing s with
  | nil => exact ⟨rfl, rfl⟩
  | cons a l ih =>
      rw [List.foldl_cons]
      refine ⟨(ih _).1.trans ?_, (ih _).2.trans ?_⟩ <;>
        (unfold State.withdrawIfQueued; split <;> rfl)

/-- An entry with its queued mark Set names the same stream. -/
theorem SlotEntry.setQueued_stream (e : SlotEntry) : e.setQueued.stream? = e.stream? := by
  cases e <;> rfl

/-- A release trigger frees entries of its stream and makes none. -/
theorem SlotEntry.trigger_stream (k : StreamNo) (e : SlotEntry) (h : e.stream? ≠ some k) :
    (e.trigger k).stream? ≠ some k := by
  cases e <;> simp_all [SlotEntry.trigger, SlotEntry.stream?]

/-- What a release trigger makes of its own stream, by the map after its table (R39, R40). -/
theorem State.releaseTrigger_stream (k : StreamNo) (s : State) :
    ∃ m : Vector SlotEntry 48,
      (∀ i : SlotNo, (s.releaseTrigger k).slotMap[i].stream? = m[i].stream?) ∧
      (∀ i : SlotNo, s.slotMap[i].stream? ≠ some k → m[i].stream? ≠ some k) ∧
      (s.releaseTrigger k).streams[k] =
        let r := { s.streams[k].mapReported s.mku.count s.slotMap m k with short := false }
        if ownCount s.slotMap k = 0 then r.noneRemainTable else r := by
  let claims := allSlots.filter fun i => s.slotMap[i].isClaimingFor k
  let v := claims.foldl (fun s i => s.withdrawIfQueued i .gone) s
  let mine := allSlots.filter fun i => s.slotMap[i].isMineFor k
  let u := (v.mapEntries (SlotEntry.trigger k)).onStream k fun st => { st with short := false }
  have hv : v.slotMap = s.slotMap ∧ v.mku = s.mku := withdrawFold_keeps claims .gone s
  have hvs : v.streams = s.streams := withdrawFold_streams claims .gone s
  have he : s.releaseTrigger k =
      if ownCount s.slotMap k == 0 then (u.offerAll mine).onStream k Stream.onNoneRemain
      else u.offerAll mine := rfl
  refine ⟨(v.mapEntries (SlotEntry.trigger k)).slotMap, fun i => ?_, fun i hi => ?_, ?_⟩
  · have e1 : (s.releaseTrigger k).slotMap = (u.offerAll mine).slotMap := by
      rw [he]
      split <;> rfl
    rw [e1]
    rcases State.offerAll_get mine u i with h | ⟨_, h⟩
    · exact congrArg SlotEntry.stream? h
    · exact (congrArg SlotEntry.stream? h).trans (SlotEntry.setQueued_stream _)
  · have := State.mapEntries_get (SlotEntry.trigger k) i v
    rw [hv.1] at this
    exact fun h => SlotEntry.trigger_stream k _ hi ((congrArg SlotEntry.stream? this).symm.trans h)
  · have e5 := State.mapEntries_stream (SlotEntry.trigger k) k v
    rw [hvs, hv.1, hv.2, reportMap_table] at e5
    have e4 : u.streams[k.val] = { s.streams[k.val].mapReported s.mku.count s.slotMap
        (v.mapEntries (SlotEntry.trigger k)).slotMap k with short := false } := by
      rw [← e5]
      simp [u]
    rw [he]
    by_cases h0 : ownCount s.slotMap k = 0
    · rw [if_pos (by simpa using h0), if_pos h0, ← Stream.noneRemain_table, Fin.getElem_fin,
        State.onStream_get, if_pos rfl]
      exact congrArg Stream.onNoneRemain e4
    · rw [if_neg (by simpa using h0), if_neg h0]
      exact e4

/-- In STOPPING a held-count report changes the count and SHORT alone (R127). -/
theorem Stream.heldTable_stopping (c : Word) (n : Nat) (st : Stream) (h : st.state = .stopping) :
    st.heldTable c n = { st with
      held := n, short := st.short && (n == st.held || n != st.cfg.wanted.toNat) } := by
  simp [Stream.heldTable, h]

/-- A stop of a Talk Stream: STOPPED where its walker is OFF and no own entry is left (R133). -/
theorem State.stopTalk_begun (k : StreamNo) (s : State) (c : StopCause)
    (ht : s.streams[k].isTalk = true) :
    s.streams[k].stopBegun k (s.stopTalk k c).streams[k] (s.stopTalk k c).slotMap := by
  have hb := Stream.beginStop_begun s.streams[k] c ht
  obtain ⟨m, hm, hkeep, hst⟩ := State.releaseTrigger_stream k (s.onStream k (Stream.beginStop c))
  have hg : (s.onStream k (Stream.beginStop c)).streams[k] = s.streams[k].beginStop c := by
    simp
  change s.streams[k].stopBegun k ((s.onStream k (Stream.beginStop c)).releaseTrigger k).streams[k]
    ((s.onStream k (Stream.beginStop c)).releaseTrigger k).slotMap
  rw [hg] at hst
  generalize s.streams[k].beginStop c = b at *
  have hbt : b.isTalk = true := (Stream.isTalk_congr hb.cfg).trans ht
  unfold Stream.stopBegun
  dsimp only
  rw [hst]
  simp only [hm]
  unfold Stream.mapReported
  rw [Stream.heldTable_stopping _ _ _ hb.state]
  generalize (s.onStream k (Stream.beginStop c)).slotMap = m₀ at *
  by_cases h0 : ownCount m₀ k = 0
  · have g := (ownCount_zero m₀ k).mp h0
    have g' : ∀ i : SlotNo, m[i].stream? ≠ some k := fun i => hkeep i (g i)
    obtain ⟨a, b', c', d⟩ := hb.noneRemain hbt (mineCount m k) false
    rw [if_pos h0, if_neg (fun h => h.1.elim g)]
    exact ⟨a, iff_of_true b' g', fun h => c' h.1, fun h => d fun hx => h ⟨hx, g'⟩⟩
  · have g : ∃ i : SlotNo, m₀[i].stream? = some k := by
      by_contra hc
      exact h0 ((ownCount_zero _ _).mpr fun i hi => hc ⟨i, hi⟩)
    rw [if_neg h0]
    by_cases g' : ∀ i : SlotNo, m[i].stream? ≠ some k
    · obtain ⟨a, b', c', d⟩ := hb.noneRemain hbt (mineCount m k)
        (b.short && (mineCount m k == b.held || mineCount m k != b.cfg.wanted.toNat))
      rw [if_pos ⟨g, g'⟩]
      exact ⟨a, iff_of_true b' g', fun h => c' h.1, fun h => d fun hx => h ⟨hx, g'⟩⟩
    · rw [if_neg (fun h => g' h.2)]
      exact ⟨hb.quiet, iff_of_false (by simp [hb.gone]) g', fun h => absurd h.2 g',
        fun _ => ⟨hb.state, hb.flags⟩⟩

end Sys2Proof.Machine
end

