-- ==== Sys2Proof/Tests/Slice0.lean ====
section
/-! SUPPORT. Small tests: ill-formed commands refused, the check and the cells, each row once on a small
state, and a state that meets the hypotheses of each statement. -/

namespace Sys2Proof.Tests

open Sys2Proof Sys2Proof.Machine

/-! ### States to test on -/

/-- The state a command leaves. -/
def after (c : Instr) (s : State) : State :=
  match exec c s with
  | .next t => t
  | _ => s

/-- Station 5 right after reset. -/
def here : State := State.afterReset ⟨5, 0, false⟩

/-- RESET# is asserted. -/
def inReset : State := { here with resetAsserted := true }

/-- SYNCED, in the Round anchored at 1000. -/
def inRound (s : State) : State :=
  { s with lnu := { s.lnu with
    sync := .synced, anchor := some 1000, expected := some 5896, syncRef := 5896 } }

/-- The mark window after that Round is open. -/
def inWindow (s : State) : State := { inRound s with lnu := { (inRound s).lnu with windowOpen := true } }

/-- The membership state, with the own entry it decides. -/
def as (m : Membership) (s : State) : State := s.setMembership m

/-- A Talk Stream's configuration: tag 9, wanted 2, grace 3, ring at 400h. -/
def talkConfig : StreamConfig :=
  { StreamConfig.reset with tag := 9, wanted := 2, grace := 3, ringBase := 0x400 }

/-- A Listen Stream's configuration: every tag, policy ZERO, ALIGN. -/
def listenConfig : StreamConfig :=
  { StreamConfig.reset with direction := .listen, filterMode := 2, gapPolicy := 1, align := true }

/-- Stream 0 is a Talk Stream in a state, with its walker WALKING. -/
def talk (x : StreamState) (s : State) : State :=
  s.onStream 0 fun st => { st with
    cfg := talkConfig, state := x, walker := { st.walker with mode := .walking, ready := 4 } }

/-- Stream 1 is a Listen Stream in a state, with its walker WALKING. -/
def listen (x : StreamState) (s : State) : State :=
  s.onStream 1 fun st => { st with
    cfg := listenConfig, state := x, walker := { st.walker with mode := .walking, ready := 4 } }

/-- Entry `i` of the map set, with the reports that go with it. -/
def entry (i : SlotNo) (e : SlotEntry) (s : State) : State := s.setEntry i e

/-- A queue entry at the head, with its turn open. -/
def queued (c : QueueCell) (s : State) : State :=
  { s with ccq := ⟨[⟨c, 0, 0, none⟩], [], true, false⟩ }

/-- A cell on the line. -/
def sending (p : Position) (c : Cell) (k : Option StreamNo) (s : State) : State :=
  { s with lnu := { s.lnu with tx := some ⟨p, 1000, c, k⟩, driving := true } }

/-- An access of stream `k` in flight. -/
def flying (k : StreamNo) (a : Access) (s : State) : State :=
  s.onStream k fun st => st.onWalker fun w => { w with access := some a }

/-- Stream 0 after its STOP. -/
def stopped (s : State) : State := after (.stop 0) s

/-- A buffer of 3 words at 8000h with NOTIFY. -/
def buffer : Descriptor := ⟨0x8000, 3, true, false⟩

/-- The walker of stream `k` with that buffer in hand. -/
def inHand (k : StreamNo) (s : State) : State :=
  s.onStream k fun st => st.onWalker fun w => { w with inHand := some buffer, remaining := 3 }

/-- A MARK of round 3 with next holder 8, a bitmap and the TAKEOVER flag as given. -/
def mark (takeover : Bool) (bitmap : Word) : MarkFields := ⟨3, takeover, false, 0, 8, bitmap⟩

/-! ### Ill-formed commands -/

theorem test_wf_refuses_sender_zero : Instr.wf (.cleanDataCell 3 0 9 .fill) = false := by decide
theorem test_wf_refuses_tag_zero : Instr.wf (.cleanDataCell 3 7 0 .fill) = false := by decide
theorem test_wf_refuses_claim_sender : Instr.wf (.cleanClaim .a 0 3 9) = false := by decide
theorem test_wf_refuses_claim_tag : Instr.wf (.cleanClaim .a 7 3 0) = false := by decide
theorem test_wf_refuses_release_sender : Instr.wf (.cleanRelease .a 0 3 9) = false := by decide
theorem test_wf_refuses_release_tag : Instr.wf (.cleanRelease .b 7 3 0) = false := by decide
theorem test_wf_refuses_leave_sender : Instr.wf (.cleanLeave .a 0) = false := by decide
theorem test_wf_refuses_join_sender : Instr.wf (.cleanJoin .b 0) = false := by decide
theorem test_wf_refuses_kind_in_position :
    Instr.wf (.duplicateAddressSighting (.openSlot .a) .data 0) = false := by decide
theorem test_wf_refuses_mark_sender : Instr.wf (.cleanMark (.other 0 0 (mark false 2)) 0) = false := by
  decide
theorem test_wf_refuses_mark_next :
    Instr.wf (.cleanMark (.other 0 7 { mark false 2 with next := 0 }) 0) = false := by decide
theorem test_wf_refuses_mark_bitmap : Instr.wf (.cleanMark (.other 0 7 (mark false 1)) 0) = false := by
  decide
theorem test_wf_refuses_empty_read : Instr.wf (.bufferReadReply 0 []) = false := by decide
theorem test_wf_refuses_long_read : Instr.wf (.bufferReadReply 0 (List.replicate 17 0)) = false := by
  decide
theorem test_wf_refuses_good_command : Instr.wf (.badCommand 3 7) = false := by decide
theorem test_wf_takes_bad_index : Instr.wf (.badCommand 3 8) = true := by decide
theorem test_wf_refuses_writable_word : Instr.wf (.registerWrite 64 0) = false := by decide
theorem test_wf_takes_status_word : Instr.wf (.registerWrite 68 0) = true := by decide

/-! ### The check and the cells -/

set_option maxRecDepth 4000 in
theorem test_check_of_single_bits :
    crc8 0 = 0 ∧ crc8 1 = 0x07 ∧ crc8 2 = 0x0E ∧ crc8 0x100 = 0x15 ∧ crc8 0x101 = 0x12 := by decide

/-- A MARK's content, bit by bit: kind 0, sender 5, FLAGS 010, round 03h, next 6 and rank 2, bitmap. -/
theorem test_mark_content :
    (Cell.mark 5 ⟨3, true, false, 2, 6, 0x60⟩).encode =
      0b0000_00101_010_00000011_001100100000_00000000000000000000000001100000#64 := by decide

theorem test_data_content :
    (Cell.inSlot 5 9 (.data true 0x12345678)).encode = 0x12C0900012345678#64 := by decide

theorem test_claim_content : (Cell.claim 5 9 47).encode = 0x6280902F00000000#64 := by decide

set_option maxRecDepth 4000 in
theorem test_claim_reads_back :
    classify (.openSlot .a) (.candidate ⟨frameOf (Cell.claim 5 9 47).encode, false⟩ false) =
      .clean (.claim 5 9 47) := by decide

theorem test_slot_48_is_garbled : Cell.decode 0x6280903000000000#64 = none := by decide

theorem test_violation_is_garbled :
    classify (.openSlot .a) (.candidate ⟨frameOf (Cell.join 5).encode, true⟩ false) = .garbled := by
  decide

theorem test_second_onset_is_garbled :
    classify (.openSlot .a) (.candidate ⟨frameOf (Cell.join 5).encode, false⟩ true) = .garbled := by
  decide

set_option maxRecDepth 8000 in
theorem test_wrong_position_is_garbled :
    classify (.dataSlot 3) (.candidate ⟨frameOf (Cell.join 5).encode, false⟩ false) = .garbled := by
  decide

theorem test_orders_are_all_24 :
    ((List.finRange 24).map markOrder).Nodup ∧
      ∀ o : Fin 24, (markOrder o).Nodup ∧ (markOrder o).length = 4 := by decide +kernel

theorem test_places_of_onsets :
    onsetPlace 1000 1096 = some (.dataSlot 0, true) ∧
    onsetPlace 1000 1080 = some (.dataSlot 0, true) ∧
    onsetPlace 1000 1112 = some (.dataSlot 0, true) ∧
    onsetPlace 1000 1113 = some (.dataSlot 0, false) ∧
    onsetPlace 1000 (1000 + 50 * 96) = some (.openSlot .b, true) ∧
    onsetPlace 1000 5880 = some (.markField, true) := by decide

/-- The line while station 5 sends a JOIN from instant 1384 on. -/
def joinLine : Waveform := (Cell.join 5).waveform 1384

theorem test_levels_of_bits : bitLevels true = [false, true] ∧ bitLevels false = [true, false] ∧
    joinLine.level 2767 = true ∧ joinLine.level 2768 = false ∧ joinLine.level 2769 = true := by
  decide +kernel

theorem test_onset_is_the_start : joinLine.onsets 2700 3000 = [2768] := by decide +kernel

/-- Level changes 2 bit times apart, and 2 bit times and a half: the second is an onset only where the line
was quiet before it (log 44). -/
theorem test_onset_after_quiet :
    (Waveform.mk 100 [false, false, false, false]).onset 104 = false ∧
      (Waveform.mk 100 [false, false, false, false, false]).onset 105 = true := by decide

theorem test_position_hears_cell : joinLine.heardIn 1384 1480 =
    .candidate ⟨frameOf (Cell.join 5).encode, false⟩ false := by decide +kernel

theorem test_position_hears_late_onset : joinLine.heardIn 1367 1463 = .misplaced := by decide +kernel

theorem test_position_hears_nothing : joinLine.heardIn 1200 1296 = .quiet := by decide +kernel

theorem test_report_of_onset : (inRound here).lnu.reportOnset joinLine 2768 = some (.carrierOnset 1384) ∧
    (inRound here).lnu.reportOnset joinLine 2769 = none := by decide +kernel

theorem test_report_of_slot : (inRound here).lnu.reportSlot 4 (.openSlot .a) (1000 + 4800) joinLine false
    = none := by decide +kernel

/-! ### One test or two for each row -/

theorem test_hardware_reset : (after .hardwareReset (inRound here)).lnu = LineUnit.reset ∧
    (after .hardwareReset (inRound here)).resetAsserted = true := by decide

theorem test_reset_release : (after (.resetRelease ⟨7, 2, true⟩) inReset).rsu.membership = .listening := by
  decide

theorem test_carrier_onset :
    (after (.carrierOnset 2000) { here with mku := { here.mku with coldWait := some 1500 } }).mku.coldWait
      = some (2080 + 2 * 5 * 96) := by decide

theorem test_carrier_onset_in_mid_slot :
    (after (.carrierOnset 1140) (inRound here)).lnu.candidates = [] ∧
      (after (.carrierOnset 1112) (inRound here)).lnu.candidates = [⟨.dataSlot 0, 1112⟩] := by decide

theorem test_data_slot_start_keep :
    (after (.dataSlotStart 3) (inRound (entry 3 (.releasing 9 0 true) here))).lnu.tx =
      some ⟨.dataSlot 3, 1000 + 4 * 96, .inSlot 5 9 .keep, none⟩ := by decide

theorem test_data_slot_start_fill :
    (after (.dataSlotStart 3) (inRound (entry 3 (.mine 9 0) (talk .running here)))).streams[(0 : StreamNo)].fills
      = 1 := by decide

theorem test_data_slot_start_grace :
    (after (.dataSlotStart 3) (inRound (entry 3 (.mine 9 0) { talk .drained here with
      mku := { here.mku with count := 3 } }))).streams[(0 : StreamNo)].cause = .drain := by decide

theorem test_grace_expiry :
    (after (.graceExpiry 0) { talk .drained here with
      mku := { here.mku with count := 3 } }).streams[(0 : StreamNo)].state = .stopping := by decide

theorem test_grace_still_running :
    after (.graceExpiry 0) (talk .drained here) = talk .drained here := by decide

theorem test_data_slot_echo_collides :
    (after (.dataSlotEcho false true) (sending (.dataSlot 3) (.inSlot 5 9 .keep) (some 0)
      (entry 3 (.mine 9 0) (talk .running here)))).slotMap[(3 : SlotNo)] = .collided 9 0 5 := by decide

/-- The head on the line, with `n` words of the buffer left. -/
def departing (n : Nat) : State :=
  sending (.dataSlot 3) (.inSlot 5 9 (.data false 6)) (some 0)
    ((inHand 0 (talk .running here)).onStream 0 fun st => { st with
      wordOnLine := true, fifo := [⟨6, false, 0, 0⟩], walker := { st.walker with remaining := n } })

/-- The last word of the last ready descriptor, with a word of C + 1 read ahead. -/
theorem test_last_word_of_ring :
    let s := (departing 1).onStream 0 fun st => { st with
      fifo := [⟨6, false, 0, 0⟩, ⟨8, false, 1, 0⟩], walker := { st.walker with ready := 0 } }
    let st := (after (.dataSlotEcho true true) s).streams[(0 : StreamNo)]
    st.state = .drained ∧ st.fifo = [] ∧ st.walker.caughtUp = true := by decide

/-- The last word before a prefetched empty descriptor. -/
theorem test_empty_follows :
    let s := (departing 1).onStream 0 fun st => st.onWalker fun w => { w with
      prefetched := some ⟨0, 0, false, false⟩ }
    (after (.dataSlotEcho true true) s).streams[(0 : StreamNo)].walker.records.map Record.status =
      [.done, .empty] := by decide

theorem test_clean_data_cell_learns :
    (after (.cleanDataCell 3 7 9 .keep) (inRound here)).slotMap[(3 : SlotNo)] = .held 7 9 0 := by decide

theorem test_clean_data_cell_taken :
    (after (.cleanDataCell 3 7 9 (.data true 42)) (inRound (listen .running here))).streams[(1 : StreamNo)].fifo
      = [⟨42, true, 0, 0⟩] := by decide

theorem test_silent_slot_ages :
    (after (.garbledOrSilentDataSlot 3 false) (inRound (entry 3 (.held 7 9 7) here))).counters.aged = 1 := by
  decide

theorem test_garbled_slot_counts :
    (after (.garbledOrSilentDataSlot 3 true) (inRound here)).counters.checkErr = 1 := by decide

theorem test_aging : (after (.aging 3) (entry 3 (.held 7 9 7) here)).slotMap[(3 : SlotNo)] = .free := by
  decide

theorem test_open_slot_start :
    (after (.openSlotStart (.onTime .b)) (inRound (queued .join here))).lnu.tx =
      some ⟨.openSlot .b, 1000 + 50 * 96, .join 5, none⟩ := by decide

theorem test_open_slot_not_chosen :
    (after (.openSlotStart (.onTime .a)) (inRound (queued .join here))).lnu.tx = none := by decide

/-- The head CLAIM of slot 3 was withdrawn, its turn still open. -/
def passed : State :=
  let s := queued (.claim 3 9 0) (inRound (entry 3 (.claiming 9 0 true) here))
  { s with ccq := s.ccq.withdraw (some 3) .taken }

theorem test_late_open_slot_start :
    (after (.openSlotStart (.late .b 0)) passed).ccq.turnOpen = false ∧
      (after (.openSlotStart (.late .a 0)) passed).ccq.turnOpen = true ∧
      (after (.openSlotStart (.onTime .b)) passed).ccq.turnOpen = true := by decide

/-- Station 5 with its CLAIM of slot 3 on the line. -/
def claiming : State :=
  let s := queued (.claim 3 9 0) (entry 3 (.claiming 9 0 true) (talk .acquiring here))
  sending (.openSlot .b) (.claim 5 9 3) none { s with ccq := s.ccq.hand }

theorem test_open_slot_echo_match :
    (after (.openSlotEcho true) claiming).slotMap[(3 : SlotNo)] = .mine 9 0 ∧
      (after (.openSlotEcho true) claiming).streams[(0 : StreamNo)].state = .running := by decide

theorem test_open_slot_echo_mismatch :
    (after (.openSlotEcho false) claiming).ccq.entries = [⟨.claim 3 9 0, 1, 1, none⟩] := by decide

theorem test_clean_claim :
    (after (.cleanClaim .a 7 3 9) (inRound here)).slotMap[(3 : SlotNo)] = .held 7 9 0 := by decide

theorem test_clean_release :
    (after (.cleanRelease .a 7 3 1) (inRound (entry 3 (.held 7 9 0) here))).slotMap[(3 : SlotNo)] = .free := by
  decide

theorem test_clean_leave :
    (after (.cleanLeave .a 7) (inRound (entry 47 (.held 7 9 0) here))).slotMap[(47 : SlotNo)] = .free := by
  decide

theorem test_clean_join : (after (.cleanJoin .a 7) (inRound here)).rsu.entry 7 = .present := by decide

set_option maxRecDepth 8000 in
theorem test_duplicate_sighting :
    (after (.duplicateAddressSighting (.openSlot .a) .join 2000) (inRound (talk .running (as .member
      here)))).streams[(0 : StreamNo)].cause = .duplicate := by decide

/-- A member that knows the holder 3 and station 4. -/
def ranked : State :=
  { as .member here with
    mku := { here.mku with holder := some 3 }
    rsu := ((as .member here).rsu.putEntry 3 .present).putEntry 4 .suspect1 }

theorem test_mark_window_open : (after .markWindowOpen (inRound ranked)).mku.plan = .takeover 2 := by decide

theorem test_duty_mark :
    (after (.dutyMark false) (inWindow { ranked with
      mku := { ranked.mku with plan := .duty } })).lnu.tx =
      some ⟨.markField, 5896, .mark 5 ⟨1, false, false, 0, 3, 0x28⟩, none⟩ := by decide

theorem test_takeover_mark :
    (after (.takeoverMark false) (inWindow { ranked with
      mku := { ranked.mku with plan := .takeover 2 } })).counters.takeover = 1 := by decide

theorem test_recovery_wait_expiry :
    (after (.recoveryWaitExpiry false) { ranked with
      mku := { ranked.mku with recoveryWait := some 7000 } }).mku.ownMark = .normal := by decide

theorem test_cold_start_wait_expiry :
    (after (.coldStartWaitExpiry false) { as .isolated here with
      mku := { here.mku with coldWait := some 7000 } }).lnu.tx =
      some ⟨.outside, 7000, .mark 5 ⟨1, false, true, 0, 5, 0x20⟩, none⟩ := by decide

set_option maxRecDepth 8000 in
theorem test_clean_mark_counts :
    (after (.cleanMark (.other 6000 7 (mark false 0xA0)) 0) here).mku.count = 3 := by decide

theorem test_clean_mark_in_mid_round :
    after (.cleanMark (.other 3000 7 (mark false 0xA0)) 0) (inRound here) = inRound here := by decide

set_option maxRecDepth 8000 in
theorem test_clean_mark_admits :
    (after (.cleanMark (.other 6000 7 (mark false 0xA0)) 23) (as .joining here)).rsu.membership = .member := by
  decide

theorem test_learn_count_done :
    (after .learnCountDone { as .listening here with
      rsu := { (as .listening here).rsu with learnCount := 1 } }).ccq.entries = [⟨.join, 0, 0, none⟩] := by
  decide

theorem test_join_timer_expiry :
    (after .joinTimerExpiry { as .joining here with
      rsu := { (as .joining here).rsu with joinTimer := some 1, attempt := 4 } }).rsu.membership
      = .dormant := by decide

theorem test_backoff_expiry :
    (after (.backoffExpiry 3) (entry 3 (.collided 9 0 1) here)).slotMap[(3 : SlotNo)] = .free := by decide

theorem test_backoff_not_yet :
    (after (.backoffExpiry 3) (entry 3 (.collided 9 0 2) here)).slotMap[(3 : SlotNo)] = .collided 9 0 2 := by
  decide

theorem test_pause_timer_expiry :
    (after (.pauseTimerExpiry 0) (here.onStream 0 fun st => { st with
      pauseTimer := 1 })).streams[(0 : StreamNo)].pauseTimer = 0 := by decide

theorem test_head_wait_expiry :
    (after .headWaitExpiry { here with ccq := ⟨[⟨.join, 1, 1, none⟩], [], false, false⟩ }).ccq =
      ⟨[⟨.join, 1, 0, none⟩], [], false, false⟩ := by decide

theorem test_garbled_mark_field :
    (after (.garbledMarkField 6000) (inWindow here)).mku.recoveryWait = some (6000 + 960) := by decide

/-- The window has closed while a candidate that began in it was examined, and another onset came. -/
def closed : State := after (.carrierOnset 6690) (after .marklessRound (after (.carrierOnset 6660) (inWindow here)))

theorem test_garbled_mark_after_close : closed.lnu.candidates = [⟨.markField, 6660⟩, ⟨.outside, 6690⟩] ∧
    (after (.garbledMarkField 6740) closed).mku.recoveryWait = some (6740 + 960) := by decide

theorem test_mark_echo_mismatch :
    (after .markEchoMismatch (sending .outside (.mark 5 (mark false 0x20)) none
      { here with mku := { here.mku with ownMark := .cold } })).mku.coldWait = some (1080 + 960) := by decide

theorem test_markless_round : (after .marklessRound (inWindow here)).lnu.sync = .unsynced := by decide

theorem test_sync_loss : (after .syncLoss (as .member here)).rsu.membership = .isolated ∧
    (after .syncLoss (as .member here)).lnu.syncRef = 14688 := by decide

theorem test_ready_write_resumes :
    (after (.readyWrite 1 3) ((listen .drained here).onStream 1 fun st => st.onWalker fun w =>
      { w with caughtUp := true })).streams[(1 : StreamNo)].state = .running := by decide

theorem test_access_issue :
    (after .accessIssue (talk .acquiring here)).streams[(0 : StreamNo)].walker.access =
      some ⟨.fetch, 0, 0x400, 2, false, [], 0⟩ := by decide

theorem test_access_issue_of_abort :
    (after .accessIssue (stopped (inHand 0 (talk .running here)))).streams[(0 : StreamNo)].walker.access =
      some ⟨.record, 0, 0x408, 2, false, [4, 0], 0⟩ := by decide

/-- The fetch of descriptor 0 in flight. -/
def fetching : State := flying 0 ⟨.fetch, 0, 0x400, 2, false, [], 0⟩ (talk .acquiring here)

theorem test_fetch_reply :
    (after (.descriptorFetchReply 0 0x8003 0x10003) fetching).streams[(0 : StreamNo)].walker.inHand =
      some buffer := by decide

theorem test_fetch_of_empty_descriptor :
    (after (.descriptorFetchReply 0 0x8000 0) fetching).streams[(0 : StreamNo)].walker.records =
      [⟨0, .empty, 0, 0, 0, false, false⟩] := by decide

/-- The read of the buffer in flight. -/
def reading : State := flying 0 ⟨.read, 0, 0x8000, 3, false, [], 0⟩ (inHand 0 (talk .running here))

theorem test_read_reply :
    (after (.bufferReadReply 0 [1, 2, 3]) reading).streams[(0 : StreamNo)].fifo =
      [⟨1, false, 0, 0⟩, ⟨2, false, 0, 0⟩, ⟨3, false, 0, 0⟩] := by decide

/-- The write of `n` words into the buffer in flight. -/
def writing (n : Nat) : State :=
  flying 1 ⟨.write, 0, 0x8000, n, false, List.replicate n 0, 6⟩ (inHand 1 (listen .running here))

theorem test_write_ack :
    (after (.bufferWriteAck 1) (writing 3)).streams[(1 : StreamNo)].walker.records =
      [⟨0, .done, 3, 6, 0, true, false⟩] := by decide

/-- A record with both marks, its write in flight. -/
def recording : State :=
  flying 0 ⟨.record, 0, 0x408, 2, false, [0, 0], 0⟩ ((talk .running here).onStream 0 fun st =>
    st.onWalker fun w => { w with records := [⟨0, .done, 3, 6, 0, true, true⟩] })

theorem test_record_ack : (after (.recordWriteAck 0) recording).streams[(0 : StreamNo)].flags = 3 := by decide

theorem test_access_error : (after (.accessError 0) fetching).streams[(0 : StreamNo)].cause = .memory := by
  decide

theorem test_join_command : (after (.join 0) here).rsu.membership = .listening := by decide

theorem test_leave_command : (after (.leave 0) (as .member here)).ccq.entries = [⟨.leave, 0, 0, none⟩] := by
  decide

/-- Stream 0 configured to talk and stream 1 to listen, both STOPPED. -/
def ready : State := listen .stopped (talk .stopped (as .member here))

theorem test_start_talk : (after (.start 0) ready).streams[(0 : StreamNo)].state = .acquiring := by decide
theorem test_start_listen : (after (.start 1) ready).streams[(1 : StreamNo)].state = .running := by decide

theorem test_stop : (after (.stop 0) (talk .running here)).streams[(0 : StreamNo)].state = .stopping := by
  decide

theorem test_pause : (after (.pause 0) (talk .running here)).streams[(0 : StreamNo)].walker.mode = .held := by
  decide

theorem test_resume : (after (.resume 0) (talk .paused here)).streams[(0 : StreamNo)].state = .acquiring := by
  decide

theorem test_reset_stream :
    (after (.resetStream 0) (talk .stopped here)).streams[(0 : StreamNo)].walker = Walker.reset := by decide

theorem test_clear_counters :
    (after (.clearCounters 0) { here with counters := ⟨1, 2, 3, 4, 5, 6⟩ }).counters = .zero := by decide

theorem test_bad_command : (after (.badCommand 9 0) here).result = .badCommand ∧
    (after (.badCommand 3 8) here).result = .badStream := by decide

theorem test_config_write :
    (after (.configWrite 0 .config 0xFFFFFFFF) here).readWord 64 = 0xFF0FFF7F ∧
      (after (.configWrite 0 .config 1) (talk .running here)).stationFlags = 0x100 := by decide

theorem test_flag_write : (after (.flagWrite .station 0x1) { here with stationFlags := 0x3 }).stationFlags = 2 := by
  decide

theorem test_enable_write :
    (after (.enableWrite (.stream 7) 0xFFF) here).streams[(7 : StreamNo)].enables = 0xFF := by decide

theorem test_register_write : after (.registerWrite 68 1) here = { here with targetResponse := .answered } := by
  decide

theorem test_access_during_reset :
    after (.targetAccessDuringReset 0 none) inReset = { inReset with targetResponse := .error } := by decide

/-! ### A state that meets the hypotheses of each statement

Where a statement has several clauses, each has its own state here. -/

/-- RESET# released. -/
abbrev running (s : State) : Prop := s.resetAsserted = false

theorem witness_StepTakesFrontCommand :
    ({ here with pending := [.syncLoss] } : State).pending = .syncLoss :: [] ∧ here.pending = [] := by
  decide

theorem witness_HardwareResetAndRelease :
    inReset.resetAsserted = true ∧ running here ∧
      Instr.isReset (.targetAccessDuringReset 0 none) = false ∧ Instr.isReset .syncLoss = false ∧
      Instr.isTargetAccess (.readyWrite 0 1) = true ∧ Instr.isTargetAccess .syncLoss = false := by decide

/-- A TAKEOVER plan in an open window, with both waits running. -/
def waiting : State :=
  inWindow { ranked with mku := { ranked.mku with
    plan := .takeover 7, recoveryWait := some 7000, coldWait := some 8000 } }

theorem witness_CarrierOnsetCancelsAndRestarts :
    running waiting ∧ waiting.lnu.tx = none ∧ waiting.mku.coldWait ≠ none ∧
      waiting.mku.plan = .takeover 7 ∧ waiting.lnu.windowOpen = true ∧
      running claiming ∧ claiming.lnu.tx ≠ none ∧ here.mku.coldWait = none ∧
      here.lnu.windowOpen = false := by decide

/-- Onsets at the ends of a Data Slot's, an Open Slot's and the mark window's range. -/
theorem witness_CarrierOnsetCancelsAndRestarts_opens :
    here.opensCandidate 7 .outside ∧ (inRound here).opensCandidate 1080 (.dataSlot 0) ∧
      (inRound here).opensCandidate 1112 (.dataSlot 0) ∧
      (inRound here).opensCandidate 5816 (.openSlot .b) ∧
      (inRound here).opensCandidate 5880 .markField ∧ (inRound here).opensCandidate 6664 .markField := by
  refine ⟨rfl, ⟨rfl, 1000, rfl, ?_⟩, ⟨rfl, 1000, rfl, ?_⟩, ⟨rfl, 1000, rfl, ?_⟩, ⟨rfl, 1000, rfl, ?_⟩,
    ⟨rfl, 1000, rfl, ?_⟩⟩ <;> decide

/-- A member with every station PRESENT and holder 31. -/
def crowded : State :=
  let s := as .member here
  { s with
    mku := { s.mku with holder := some 31 }
    rsu := { s.rsu with roster := (Vector.replicate 32 .present).set 0 .absent } }

theorem witness_WindowOpeningPlansByRank :
    running (inRound ranked) ∧ (inRound ranked).lnu.sync = .synced ∧
      (inRound ranked).lnu.windowOpen = false ∧ (inRound ranked).onDuty ∧
      ranked.mku.holder = some 3 ∧ ranked.straps.stn ≠ 0 ∧
      ranked.rsu.entry ranked.straps.stn = .present ∧ here.mku.holder = none ∧
      crowded.onDuty ∧ crowded.mku.holder = some 31 ∧
      crowded.rsu.entry crowded.straps.stn = .present := by decide

theorem witness_OwnMarksGoOut :
    (let s := inWindow { ranked with mku := { ranked.mku with plan := .duty } };
      running s ∧ ¬ s.markBlocked false ∧ s.onDuty ∧ s.lnu.expected = some 5896 ∧ s.mku.plan = .duty) ∧
    (running waiting ∧ ¬ waiting.markBlocked false ∧ waiting.onDuty ∧
      waiting.lnu.expected = some 5896 ∧ waiting.mku.plan = .takeover 7 ∧
      waiting.mku.carrierSeen = false ∧ waiting.mku.recoveryWait = some 7000) ∧
    (let s := { as .isolated here with mku := { here.mku with coldWait := some 0 } };
      running s ∧ ¬ s.markBlocked false ∧ s.rsu.membership = .isolated ∧ s.straps.stn ≠ 0 ∧
      s.mku.coldWait = some 0) := by decide

theorem witness_MarkRequestsWithheld :
    (let s := inRound { ranked with mku := { ranked.mku with plan := .duty } };
      running s ∧ s.markBlocked false ∧ s.lnu.expected = some 5896 ∧ s.mku.plan = .duty) ∧
    (waiting.markBlocked true ∧ waiting.mku.plan = .takeover 7 ∧ waiting.lnu.expected = some 5896 ∧
      waiting.mku.recoveryWait = some 7000 ∧ waiting.mku.coldWait = some 8000 ∧
      waiting.rsu.membership ≠ .isolated) ∧
    (let s := { as .isolated here with mku := { here.mku with coldWait := some 0 } };
      running s ∧ s.markBlocked true ∧ s.rsu.membership = .isolated ∧ s.mku.coldWait = some 0) := by
  decide

set_option maxRecDepth 8000 in
theorem witness_OwnMarkNamesPresentStations :
    (5 : StationNo) ≠ 0 ∧ ranked.rsu.entry 3 = .present ∧
      (∀ n : Fin 32, 5 < n.val → ranked.rsu.entry (BitVec.ofFin n) ≠ .present) ∧
      ∀ n : Fin 32, n.val ≠ 0 → n.val ≠ 5 →
        (as .member here).rsu.entry (BitVec.ofFin n) ≠ .present := by decide

theorem witness_CleanMarkAnchorsRound :
    running here ∧ (7 : StationNo) ≠ 0 ∧ (7 : StationNo) ≠ here.straps.stn ∧
      (mark false 0xA0).next ≠ 0 ∧ here.mku.count.toNat < 3 ∧ 3 ≤ 2 ^ 32 - 1 ∧
      3 % 256 = (mark false 0xA0).round.toNat ∧ (listen .running here).streams[(1 : StreamNo)].isTalk = false ∧
      here.lnu.sync = .unsynced := by
  decide

/-- Onsets in the open window anchor, at its ends too; one before it and one in mid-Round do not. -/
theorem witness_CleanMarkAnchorsRound_window :
    (inWindow here).canAnchor 5880 ∧ (inWindow here).canAnchor 6664 ∧ ¬ (inWindow here).canAnchor 5879 ∧
      ¬ (inWindow here).canAnchor 6665 ∧ ¬ (inRound here).canAnchor 5896 := by
  have e : ∀ n, (inWindow here).canAnchor n ↔ 5896 ≤ n + 16 ∧ n ≤ 6664 := fun n => by
    simp [State.canAnchor, inWindow, inRound, State.inMarkWindow]
  rw [e, e, e, e]
  simp [State.canAnchor, inRound, here, State.afterReset, LineUnit.reset]

/-- The count two below its stop: round number 3 names no value above it. -/
theorem witness_CleanMarkAnchorsRound_stop (v : Nat)
    (h : ({ here.mku with count := 0xFFFFFFFD } : MarkUnit).count.toNat < v) (h' : v ≤ 2 ^ 32 - 1) :
    v % 256 ≠ (mark false 0xA0).round.toNat := by
  have h₁ : ({ here.mku with count := 0xFFFFFFFD } : MarkUnit).count.toNat = 0xFFFFFFFD := rfl
  have h₂ : (mark false 0xA0).round.toNat = 3 := rfl
  omega

theorem witness_OwnMarkAnchorsRound :
    let s := sending .outside (.mark 5 (mark false 0x20)) none (as .isolated here)
    running s ∧ s.lnu.tx = some ⟨.outside, 1000, .mark 5 (mark false 0x20), none⟩ ∧
      s.lnu.sync = .unsynced ∧ s.rsu.membership = .isolated ∧ (as .leaving here).onDuty ∧
      here.rsu.membership = .dormant := by
  decide

/-- A LISTENING and a JOINING station on whose line the own MARK still was. -/
theorem witness_OwnMarkAnchorsRound_states :
    (as .listening here).rsu.membership = .listening ∧ (as .listening here).rsu.learnCount = 0 ∧
      (as .joining here).rsu.membership = .joining := by decide

/-- An own MARK of a Round that another has anchored since. -/
theorem witness_OwnMarkAnchorsRound_late :
    let s := sending .markField (.mark 5 (mark false 0x20)) none (inRound here)
    running s ∧ s.lnu.tx = some ⟨.markField, 1000, .mark 5 (mark false 0x20), none⟩ ∧
      ¬ s.canAnchor 1000 :=
  ⟨rfl, rfl, by simp [State.canAnchor, sending, inRound, here, State.afterReset, LineUnit.reset]⟩

theorem witness_RosterUnitFollowsMark :
    running ranked ∧ (7 : StationNo) ≠ ranked.straps.stn ∧ (3 : StationNo) ≠ ranked.straps.stn ∧
      (31 : StationNo) ≠ ranked.straps.stn ∧ ranked.mku.holder = some 3 ∧ (7 : StationNo) ≠ 3 ∧
      (mark false 0xA0).next ≠ 0 ∧ ranked.lnu.sync = .unsynced := by decide

/-- A JOINING station with its JOIN behind a CLAIM in the queue. -/
theorem witness_RosterUnitFollowsMark_join :
    let s := { as .joining here with
      rsu := { (as .joining here).rsu with queued := true }
      ccq := ⟨[⟨.claim 3 9 0, 0, 0, none⟩, ⟨.join, 0, 0, none⟩], [], true, false⟩ }
    running s ∧ s.lnu.sync = .unsynced ∧ s.rsu.membership = .joining ∧ s.rsu.queued = true ∧
      s.ccq.onLine = false ∧ QueueSound s ∧ (mark false 0xA0).bitmap.getLsbD s.straps.stn.toNat = true := by
  decide

theorem witness_AutoClaimTakesLowestFree :
    (let s := as .member (talk .acquiring here);
      let st := s.streams[(0 : StreamNo)];
      st.isTalk = true ∧ st.state = .acquiring ∧ s.rsu.membership = .member ∧
        st.held + countEntries (·.isClaimingFor 0) s.slotMap < st.cfg.wanted.toNat ∧
        st.pauseTimer = 0 ∧ ownTotal s.slotMap < 16 ∧ s.slotMap[(0 : SlotNo)] = .free ∧
        ∀ j : SlotNo, j < 0 → s.slotMap[j] ≠ .free) ∧
    (let s := { as .member (talk .acquiring here) with slotMap := Vector.replicate 48 (.held 7 9 0) };
      let st := s.streams[(0 : StreamNo)];
      st.held + countEntries (·.isClaimingFor 0) s.slotMap < st.cfg.wanted.toNat ∧
        ownTotal s.slotMap < 16 ∧ ∀ i : SlotNo, s.slotMap[i] ≠ .free) := by decide +kernel

/-- A member with a stream to claim for, a backoff, an unqueued CLAIM and one more own entry, so that every
step at a clean Mark has work; its own MARK is on the line. -/
def atMark : State :=
  let s := entry 6 (.collided 9 0 1) (entry 3 (.claiming 9 0 false) (talk .acquiring (as .member here)))
  sending .outside (.mark 5 (mark false 0x20)) none { s with ccq := ⟨[⟨.leave, 1, 1, none⟩], [], false, false⟩ }

theorem witness_CleanMarkDrivesSlotAgentAndQueue :
    running atMark ∧ atMark.hearsAnchor .own ∧ HeldCountsMatch atMark ∧
      (inWindow here).hearsAnchor (.other 6664 7 (mark false 0xA0)) ∧ HeldCountsMatch (inWindow here) := by
  refine ⟨rfl, ⟨_, _, _, _, _, rfl, .inl rfl⟩, by decide +kernel, ⟨by decide, by decide, by decide, ?_⟩,
    by decide +kernel⟩
  exact .inr ⟨rfl, 5896, rfl, by decide⟩

/-- What the steps of such a Mark meet: a backoff of 1, room to claim, a waiting head; and full maps and
queues. -/
theorem witness_CleanMarkDrivesSlotAgentAndQueue_clauses :
    backoffTable atMark.slotMap[(6 : SlotNo)] = .free ∧ atMark.slotMap[(0 : SlotNo)] = .free ∧
      unqueuedTable 3 atMark.slotMap[(3 : SlotNo)] = some (.claim 3 9 0) ∧
      atMark.ccq.entries = [⟨.leave, 1, 1, none⟩] ∧ atMark.rsu.membership ≠ .joining ∧
      here.ccq.entries = [] ∧
      (∀ i : SlotNo, (Vector.replicate 48 (SlotEntry.held 7 9 0))[i] ≠ .free) ∧
      8 ≤ (List.replicate 8 (⟨.leave, 0, 0, none⟩ : QueueEntry)).length := by decide +kernel

/-- An open window; and an own normal and an own cold MARK on the line. -/
theorem witness_GarbledMarksStartWaits :
    running (inWindow here) ∧
    (let s := sending .markField (.mark 5 (mark false 0x20)) none
        { here with mku := { here.mku with ownMark := .normal } };
      running s ∧ s.lnu.tx = some ⟨.markField, 1000, .mark 5 (mark false 0x20), none⟩ ∧
        s.mku.ownMark = .normal) ∧
    ({ here with mku := { here.mku with ownMark := .cold } } : State).mku.ownMark = .cold := by decide

/-- In the open window and after its close a candidate that began in it is delivered, and no other. -/
theorem witness_GarbledMarksStartWaits_delivers :
    (inWindow here).deliversGarble 5880 ∧ closed.deliversGarble 6660 ∧ ¬ closed.deliversGarble 6690 ∧
      ¬ (inRound here).deliversGarble 5896 := by
  have e : ∀ n, closed.deliversGarble n ↔ 5896 ≤ n + 16 ∧ n ≤ 6664 := fun n => by
    have h₁ : closed.lnu.sync = .unsynced := by decide
    have h₂ : closed.lnu.expected = some 5896 := by decide
    simp [State.deliversGarble, h₁, State.inMarkWindow, h₂]
  rw [e, e]
  simp [State.deliversGarble, State.inMarkWindow, inWindow, inRound, here, State.afterReset,
    LineUnit.reset]

theorem witness_MarklessRoundAndSyncLoss :
    (inWindow here).lnu.windowOpen = true ∧ running (as .leaving here) ∧
      (as .leaving here).lnu.sync = .unsynced ∧ (as .leaving here).rsu.membership = .leaving ∧
      (as .member here).lnu.sync = .unsynced ∧ here.rsu.membership = .dormant := by decide

theorem witness_MarkExpiriesTakeEffect :
    running here ∧
    (let s := { as .listening here with rsu := { (as .listening here).rsu with learnCount := 1 } };
      s.rsu.membership = .listening ∧ s.rsu.learnCount = 1 ∧ s.ccq.entries.length < 8 ∧
        ∀ e ∈ s.ccq.entries, e.cell.slot? ≠ none) ∧
    (let s := { as .joining here with
        rsu := { (as .joining here).rsu with joinTimer := some 1, attempt := 4 } };
      s.rsu.membership = .joining ∧ s.rsu.joinTimer = some 1 ∧ 4 ≤ s.rsu.attempt) ∧
    (as .joining here).rsu.attempt < 4 ∧
    (entry 47 (.collided 9 0 1) here).slotMap[(47 : SlotNo)] = .collided 9 0 1 ∧
    (here.onStream 7 fun st => { st with pauseTimer := 1 }).streams[(7 : StreamNo)].pauseTimer = 1 ∧
    (QueueEntry.mk .join 1 1 none).wait = 1 := by decide

theorem witness_DataSlotStartSendsAndExpects :
    (let s := inRound (entry 47 (.mine 9 0) (talk .running here));
      running s ∧ s.lnu.sync = .synced ∧ s.lnu.windowOpen = false ∧ s.lnu.anchor = some 1000 ∧
        s.slotMap[(47 : SlotNo)] = .mine 9 0 ∧ ¬ s.graceOut 0 ∧
        s.streams[(0 : StreamNo)].isTalk = true ∧ slotKindTable s.streams[(0 : StreamNo)] = .fill) ∧
    (let s := inRound (entry 47 (.mine 9 0) { talk .drained here with
        mku := { here.mku with count := 3 } });
      running s ∧ s.slotMap[(47 : SlotNo)] = .mine 9 0 ∧ s.graceOut 0) ∧
    (entry 0 (.releasing 9 0 false) here).slotMap[(0 : SlotNo)] = .releasing 9 0 false ∧
    (entry 0 (.held 7 9 0) here).slotMap[(0 : SlotNo)] = .held 7 9 0 ∧
    (listen .running here).streams[(1 : StreamNo)].cfg.passes 9 = true ∧
    (talk .paused here).streams[(0 : StreamNo)].isTalk = true ∧
    slotKindTable (talk .paused here).streams[(0 : StreamNo)] = .keep ∧
    slotKindTable { (talk .running here).streams[(0 : StreamNo)] with fifo := [⟨6, true, 0, 0⟩] } =
      .data true 6 := by decide

theorem witness_FilterPassesByMode :
    (1 : Tag) ≠ 0 ∧
      (let s := here.onStream 0 fun st => { st with cfg := { listenConfig with filterMode := 0 } };
        running s ∧ s.streams[(0 : StreamNo)].isTalk = false ∧
          s.streams[(0 : StreamNo)].state = .stopped ∧
          s.streams[(0 : StreamNo)].cfg.filterMode = 0 ∧ s.streams[(0 : StreamNo)].cfg.tag = 0) ∧
      StreamConfig.reset.filterMode = 0 ∧ StreamConfig.reset.tag = 0 ∧
      listenConfig.filterMode = 2 ∧
      (let c := { StreamConfig.reset with filterMode := 1, tag := 0x28, mask := 0xF0 };
        c.filterMode = 1 ∧ c.tag = 0x28 ∧ c.mask = 0xF0 ∧ c.passes 0x20 = true ∧ c.passes 0x2F = true ∧
          c.passes 0x30 = false) := by decide

theorem witness_GraceExpiryStopsStream :
    (let s := { talk .drained here with mku := { here.mku with count := 3 } };
      running s ∧ s.graceOut 0) ∧
    (let s := { talk .drained here with mku := { here.mku with count := 2 } };
      running s ∧ ¬ s.graceOut 0) := by decide

/-- A stop that ends at once, and one that waits for its slot. -/
theorem witness_GraceExpiryStopsStream_ends :
    let s (m : WalkMode) := { (talk .drained here).onStream 0 fun st => st.onWalker fun w => { w with
      mode := m } with mku := { here.mku with count := 3 } }
    (s .off).graceOut 0 ∧ (after (.graceExpiry 0) (s .off)).streams[(0 : StreamNo)].state = .stopped ∧
      (after (.graceExpiry 0) (entry 3 (.mine 9 0) (s .off))).streams[(0 : StreamNo)].state
        = .stopping := by decide

theorem witness_CollisionStandsBack :
    let s := sending (.dataSlot 47) (.inSlot 5 9 .keep) (some 0)
      (entry 47 (.releasing 9 0 true) (talk .running here))
    running s ∧ s.lnu.tx = some ⟨.dataSlot 47, 1000, .inSlot 5 9 .keep, some 0⟩ ∧
      s.slotMap[(47 : SlotNo)] = .releasing 9 0 true ∧
      (entry 0 (.mine 9 0) here).slotMap[(0 : SlotNo)] = .mine 9 0 := by decide

theorem witness_DataWordDeparts :
    (let s := departing 2;
      running s ∧ s.lnu.tx = some ⟨.dataSlot 3, 1000, .inSlot 5 9 (.data false 6), some 0⟩ ∧
        s.streams[(0 : StreamNo)].isTalk = true ∧ s.streams[(0 : StreamNo)].wordOnLine = true ∧
        2 ≤ s.streams[(0 : StreamNo)].walker.remaining) ∧
    (departing 1).streams[(0 : StreamNo)].walker.remaining = 1 ∧
    (departing 1).streams[(0 : StreamNo)].walker.prefetched = none := by decide

/-- A last word at the end of the ring with a word of C + 1 behind it, a prefetched empty descriptor before
the end, and a cell whose mark was Cleared. -/
theorem witness_DataWordDeparts_clauses :
    (let st := (departing 1).streams[(0 : StreamNo)];
      st.walker.cur ≠ st.walker.ready ∧
        ({ st with walker := { st.walker with ready := 0 } } : Stream).walker.cur = 0 ∧
        ({ st with walker := { st.walker with prefetched := some ⟨0, 0, false, false⟩ } } :
          Stream).walker.prefetched.any (fun d => d.length == 0) = true) ∧
    (let s := sending (.dataSlot 47) (.inSlot 5 9 .fill) (some 0) (talk .running here);
      running s ∧ s.lnu.tx = some ⟨.dataSlot 47, 1000, .inSlot 5 9 .fill, some 0⟩ ∧
        s.streams[(0 : StreamNo)].isTalk = true ∧ s.streams[(0 : StreamNo)].wordOnLine = false) := by
  decide

theorem witness_CleanDataCellTeachesMap :
    let s := inRound (entry 3 (.claiming 9 0 true) (entry 4 (.held 7 9 7) here))
    running s ∧ s.lnu.sync = .synced ∧ (7 : StationNo) ≠ 0 ∧ (9 : Tag) ≠ 0 ∧
      (7 : StationNo) ≠ s.straps.stn ∧ s.slotMap[(3 : SlotNo)] = .claiming 9 0 true ∧
      s.slotMap[(4 : SlotNo)] = .held 7 9 7 ∧ (7 : StationNo) ≠ 8 := by decide

theorem witness_ListenStreamTakesPassingCells :
    let s := inRound (listen .running here)
    running s ∧ s.lnu.sync = .synced ∧ (7 : StationNo) ≠ s.straps.stn ∧
      s.streams[(1 : StreamNo)].isTalk = false ∧ s.streams[(1 : StreamNo)].state = .running ∧
      s.streams[(1 : StreamNo)].cfg.passes 9 = true ∧ s.streams[(1 : StreamNo)].fifo.length < 16 ∧
      s.streams[(1 : StreamNo)].sources = [] ∧
      (listen .paused here).streams[(1 : StreamNo)].state ≠ .running := by decide

/-- Stream 1 with LOOP, a buffer that holds a word and a marked word at its FIFO's head, while the cell of
stream 0 is on the line. -/
def looping : State :=
  sending (.dataSlot 3) (.inSlot 5 9 (.data true 6)) (some 0)
    ((inHand 1 (listen .running here)).onStream 1 fun st => { st with
      cfg := { st.cfg with loop := true }, fifo := [⟨6, true, 0, 0⟩]
      walker := { st.walker with moved := 1, done := 1 } })

theorem witness_ListenStreamTakesPassingCells_own :
    let st := looping.streams[(1 : StreamNo)]
    running looping ∧ st.isTalk = false ∧ st.state = .running ∧ st.cfg.passes 9 = true ∧
      st.cfg.loop = true ∧ some (0 : StreamNo) ≠ some 1 ∧
      looping.lnu.tx = some ⟨.dataSlot 3, 1000, .inSlot 5 9 (.data true 6), some 0⟩ ∧
      st.walker.mode ≠ .stopping ∧ st.walker.moved ≠ 0 ∧ st.walker.access = none ∧
      st.fifo.head? = some ⟨6, true, 0, 0⟩ ∧ st.walker.prefetched = none ∧ st.expect = false ∧
      here.streams[(1 : StreamNo)].walker.moved = 0 := by decide

/-- A DRAINED Listen Stream with a full FIFO that has heard tag 9 from station 8. -/
def full : State :=
  (listen .drained here).onStream 1 fun st => { st with
    fifo := List.replicate 16 ⟨6, false, 0, 0⟩, sources := [(9, 8)] }

theorem witness_ListenStreamTakesPassingCells_full :
    running (inRound full) ∧ full.streams[(1 : StreamNo)].isTalk = false ∧
      full.streams[(1 : StreamNo)].state = .drained ∧
      16 ≤ full.streams[(1 : StreamNo)].fifo.length ∧
      full.streams[(1 : StreamNo)].sources = [(9, 8)] ∧
      [((9 : Tag), (8 : StationNo))].find? (fun p => p.1 == 9) = some (9, 8) := by decide

theorem witness_GapFollowsPolicy :
    let s := inRound ((listen .running here).onStream 1 fun st => { st with expect := true })
    let t := s.onStream 1 fun st => { st with
      cfg := { st.cfg with gapPolicy := 2 }, fifo := List.replicate 16 ⟨6, false, 0, 0⟩ }
    running s ∧ s.lnu.sync = .synced ∧ s.streams[(1 : StreamNo)].isTalk = false ∧
      s.streams[(1 : StreamNo)].expect = true ∧ s.streams[(1 : StreamNo)].state = .running ∧
      s.streams[(1 : StreamNo)].cfg.gapPolicy = 1 ∧ s.streams[(1 : StreamNo)].fifo.length < 16 ∧
      s.streams[(1 : StreamNo)].fifo.head? = none ∧
      s.streams[(1 : StreamNo)].walker.caughtUp = false ∧
      t.streams[(1 : StreamNo)].cfg.gapPolicy = 2 ∧ 16 ≤ t.streams[(1 : StreamNo)].fifo.length := by decide

theorem witness_SilenceAgesHeldEntries :
    running (inRound (entry 3 (.held 7 9 7) here)) ∧ (inRound here).lnu.sync = .synced ∧
      (entry 3 (.held 7 9 7) here).slotMap[(3 : SlotNo)] = .held 7 9 7 ∧
      (entry 3 (.held 7 9 6) here).slotMap[(3 : SlotNo)] = .held 7 9 6 := by decide

theorem witness_OpenSlotSendsQueueHead :
    (let s := inRound (queued (.claim 3 9 0) (entry 3 (.claiming 9 0 true) here));
      running s ∧ s.lnu.sync = .synced ∧ s.lnu.windowOpen = false ∧ s.lnu.anchor = some 1000 ∧
        s.ccq.entries = [⟨.claim 3 9 0, 0, 0, none⟩] ∧ s.ccq.turnOpen = true ∧ s.ccq.onLine = false ∧
        (s.straps.stn.toNat + 0) % 2 ≠ 0 ∧ s.slotMap[(3 : SlotNo)] = .claiming 9 0 true) ∧
    (queued .join here).ccq.entries = [⟨.join, 0, 0, none⟩] ∧
    (queued .leave here).ccq.entries = [⟨.leave, 0, 0, none⟩] ∧
    (entry 3 (.releasing 9 0 true) here).slotMap[(3 : SlotNo)] = .releasing 9 0 true ∧
    here.slotMap[(3 : SlotNo)] = .free ∧ here.ccq.entries = [] ∧
    (running passed ∧ passed.lnu.sync = .synced ∧ passed.lnu.windowOpen = false ∧
      passed.lnu.anchor = some 1000 ∧ passed.ccq.passedOver[0]? = some ⟨.claim 3 9 0, 0, 0, none⟩ ∧
      passed.ccq.turnOpen = true ∧ passed.ccq.onLine = false) := by decide

/-- The cell of a head that was withdrawn while it was on the line. -/
def gone : State := { claiming with ccq := claiming.ccq.withdraw (some 3) .taken }

theorem witness_ControlEchoMatchSettles :
    running claiming ∧ claiming.lnu.tx = some ⟨.openSlot .b, 1000, .claim 5 9 3, none⟩ ∧
      claiming.ccq.onLine = true ∧ claiming.ccq.entries = [⟨.claim 3 9 0, 0, 0, none⟩] ∧
      claiming.slotMap[(3 : SlotNo)] = .claiming 9 0 true ∧
      (as .joining here).rsu.membership = .joining ∧ (as .leaving here).rsu.membership = .leaving ∧
      (entry 3 (.releasing 9 0 true) here).slotMap[(3 : SlotNo)] = .releasing 9 0 true ∧
      running gone ∧ gone.lnu.tx = claiming.lnu.tx ∧ gone.ccq.onLine = true ∧
      gone.ccq.entries = [⟨.claim 3 9 0, 0, 0, some .taken⟩] := by decide

theorem witness_ControlEchoMismatchBacksOff :
    (QueueEntry.mk (.claim 3 9 0) 5 0 none).attempt < 6 ∧
      6 ≤ (QueueEntry.mk (.claim 3 9 0) 6 0 none).attempt ∧
      (let s := { claiming with ccq := { claiming.ccq with entries := [⟨.claim 3 9 0, 6, 0, none⟩] } };
        running s ∧ s.lnu.tx = some ⟨.openSlot .b, 1000, .claim 5 9 3, none⟩ ∧ s.ccq.onLine = true ∧
          s.ccq.entries = [⟨.claim 3 9 0, 6, 0, none⟩] ∧
          s.slotMap[(3 : SlotNo)] = .claiming 9 0 true) ∧
      (as .joining here).rsu.attempt < 4 ∧ (as .leaving here).rsu.membership = .leaving ∧
      gone.ccq.entries = [⟨.claim 3 9 0, 0, 0, some .taken⟩] := by decide

/-- For HeardClaimTakesFreeSlot, HeardReleaseFreesOwnersSlot and HeardLeaveAndJoin. -/
theorem witness_HeardControlCells :
    running (inRound here) ∧ (inRound here).lnu.sync = .synced ∧ (7 : StationNo) ≠ 0 ∧ (9 : Tag) ≠ 0 ∧
      (7 : StationNo) ≠ here.straps.stn ∧ (31 : StationNo) ≠ here.straps.stn ∧
      (entry 0 (.held 7 1 7) here).slotMap[(0 : SlotNo)] = .held 7 1 7 ∧
      (entry 3 (.claiming 9 0 true) here).slotMap[(3 : SlotNo)] = .claiming 9 0 true ∧
      here.slotMap[(47 : SlotNo)] = .free := by decide

/-- The last record of a stop, its write in flight. -/
def stopping (gone : Bool) : State :=
  recording.onStream 0 fun st => { st with
    state := .stopping, entriesGone := gone
    walker := { st.walker with mode := .stopping, abortBuilt := true } }

theorem witness_DuplicateSilencesStation :
    let s := inRound (entry 3 (.mine 9 0) (talk .running (as .member here)))
    running s ∧ s.straps.stn ≠ 0 ∧ s.lnu.tx = none ∧ CellKind.join.allowedAt (.openSlot .a) = true ∧
      CellKind.data.allowedAt (.dataSlot 47) = true ∧ CellKind.mark.allowedAt .outside = true ∧
      s.lnu.sync = .synced ∧ s.slotMap[(3 : SlotNo)].isOwn = true ∧
      s.slotMap[(4 : SlotNo)].isOwn = false ∧ s.streams[(0 : StreamNo)].isTalk = true ∧
      s.streams[(0 : StreamNo)].state = .running ∧ s.streams[(7 : StreamNo)].state = .stopped ∧
      here.lnu.sync = .unsynced ∧ 2000 = 1920 + 80 ∧
      (let st := { (stopping false).streams[(0 : StreamNo)] with walkerQuiet := false };
        st.isTalk = true ∧ st.state = .stopping ∧ st.walkerQuiet = false) := by decide

/-- A caught-up Listen Stream in DRAINED, an ACQUIRING and a STOPPING Talk Stream, and a walker that is not
caught up. -/
theorem witness_ReadyWriteHandsDescriptors :
    let caughtUp (k : StreamNo) (s : State) := s.onStream k fun st => st.onWalker fun w =>
      { w with caughtUp := true }
    let s := caughtUp 1 (listen .drained here)
    running s ∧ s.streams[(1 : StreamNo)].walker.caughtUp = true ∧
      (63 : RingIdx) = s.streams[(1 : StreamNo)].walker.cur - 1 ∧
      (0 : RingIdx) ≠ s.streams[(1 : StreamNo)].walker.cur - 1 ∧
      here.streams[(1 : StreamNo)].walker.caughtUp = false ∧
      (∀ x ∈ [StreamState.drained, .acquiring, .running, .paused, .stopping, .faulted, .stopped],
        let st := (caughtUp 0 (talk x here)).streams[(0 : StreamNo)]
        st.state = x ∧ st.isTalk = true ∧ st.walker.caughtUp = true ∧ st.fifo = []) := by decide

theorem witness_GrantsGoRoundRobin :
    running here ∧ (∀ k : StreamNo, here.streams[k].accessTable = none) ∧
    (let s := { listen .running (talk .acquiring here) with nextGrant := 1 };
      s.streams[(1 : StreamNo)].accessTable ≠ none ∧
        ∀ j : StreamNo, (j - s.nextGrant).val < ((1 : StreamNo) - s.nextGrant).val →
          s.streams[j].accessTable = none) ∧
    (let s := { talk .acquiring here with nextGrant := 1 };
      s.streams[(0 : StreamNo)].accessTable ≠ none ∧
        ∀ j : StreamNo, (j - s.nextGrant).val < ((0 : StreamNo) - s.nextGrant).val →
          s.streams[j].accessTable = none) := by decide +kernel

/-- Stream 1 with two words in its FIFO, before and after its STOP. -/
def flushing : State :=
  (listen .running here).onStream 1 fun st => { st with fifo := [⟨6, true, 0, 7⟩, ⟨8, false, 0, 9⟩] }

/-- Each access once: fetch, read, write and record; and, in a stop, the flush and the abort record. -/
theorem witness_GrantsGoRoundRobin_accesses :
    let bare (s : State) : State := s.onStream 0 fun st => st.onWalker fun w => { w with access := none }
    (talk .acquiring here).streams[(0 : StreamNo)].accessTable = some ⟨.fetch, 0, 0x400, 2, false, [], 0⟩ ∧
    (inHand 0 (talk .running here)).streams[(0 : StreamNo)].accessTable =
      some ⟨.read, 0, 0x8000, 3, false, [], 0⟩ ∧
    (inHand 1 flushing).streams[(1 : StreamNo)].accessTable =
      some ⟨.write, 0, 0x8000, 2, false, [6, 8], 7⟩ ∧
    (bare recording).streams[(0 : StreamNo)].accessTable =
      some ⟨.record, 0, 0x408, 2, false, [0x30001, 6], 0⟩ ∧
    (stopped (inHand 0 (talk .running here))).streams[(0 : StreamNo)].accessTable =
      some ⟨.record, 0, 0x408, 2, false, [4, 0], 0⟩ ∧
    (after (.stop 1) flushing).streams[(1 : StreamNo)].accessTable =
      some ⟨.fetch, 0, 0, 2, false, [], 0⟩ ∧
    (after (.stop 1) (inHand 1 flushing)).streams[(1 : StreamNo)].accessTable =
      some ⟨.write, 0, 0x8000, 2, false, [6, 8], 7⟩ := by decide

theorem witness_FetchReplyBringsDescriptor :
    running fetching ∧
      fetching.streams[(0 : StreamNo)].walker.access = some ⟨.fetch, 0, 0x400, 2, false, [], 0⟩ ∧
      fetching.streams[(0 : StreamNo)].walker.mode ≠ .stopping ∧
      (0 : RingIdx) = fetching.streams[(0 : StreamNo)].walker.cur ∧
      (1 : RingIdx) ≠ fetching.streams[(0 : StreamNo)].walker.cur ∧
      fetching.streams[(0 : StreamNo)].walker.prefetched = none ∧
      (stopped fetching).streams[(0 : StreamNo)].walker.mode = .stopping ∧
      (stopped fetching).streams[(0 : StreamNo)].walker.access =
        some ⟨.fetch, 0, 0x400, 2, true, [], 0⟩ ∧
      (let s := after (.stop 1) (flying 1 ⟨.fetch, 0, 0, 2, false, [], 0⟩ flushing);
        running s ∧ s.streams[(1 : StreamNo)].walker.mode = .stopping ∧
          s.streams[(1 : StreamNo)].walker.access = some ⟨.fetch, 0, 0, 2, false, [], 0⟩) := by decide

theorem witness_ReadReplyFillsFifo :
    running reading ∧
      reading.streams[(0 : StreamNo)].walker.access = some ⟨.read, 0, 0x8000, 3, false, [], 0⟩ ∧
      [(1 : Word), 2, 3].length = 3 ∧ reading.streams[(0 : StreamNo)].walker.mode ≠ .stopping ∧
      (0 : RingIdx) = reading.streams[(0 : StreamNo)].walker.cur ∧
      (1 : RingIdx) ≠ reading.streams[(0 : StreamNo)].walker.cur ∧
      (stopped reading).streams[(0 : StreamNo)].walker.access =
        some ⟨.read, 0, 0x8000, 3, true, [], 0⟩ ∧
      (stopped reading).streams[(0 : StreamNo)].walker.mode = .stopping := by decide

theorem witness_WriteAckCountsWords :
    (let s := writing 3;
      running s ∧ s.streams[(1 : StreamNo)].walker.access =
          some ⟨.write, 0, 0x8000, 3, false, [0, 0, 0], 6⟩ ∧
        s.streams[(1 : StreamNo)].isTalk = false ∧
        s.streams[(1 : StreamNo)].walker.inHand = some buffer ∧
        s.streams[(1 : StreamNo)].walker.ahead = 0 ∧
        s.streams[(1 : StreamNo)].walker.mode ≠ .stopping ∧
        s.streams[(1 : StreamNo)].fifo.head? = none ∧
        buffer.length.toNat ≤ s.streams[(1 : StreamNo)].walker.done + 3 ∧
        s.streams[(1 : StreamNo)].walker.prefetched = none) ∧
    (writing 2).streams[(1 : StreamNo)].walker.done + 2 < buffer.length.toNat ∧
    (let st := ((writing 2).onStream 1 fun st => { st with
        fifo := [⟨6, true, 0, 0⟩], walker := { st.walker with moved := 2 } }).streams[(1 : StreamNo)];
      st.walker.moved ≠ 0 ∧ st.fifo.head? = some ⟨6, true, 0, 0⟩) ∧
    (after (.stop 1) (writing 3)).streams[(1 : StreamNo)].walker.mode = .stopping := by decide

theorem witness_RecordAckRaisesEvents :
    running recording ∧
      recording.streams[(0 : StreamNo)].walker.access =
        some ⟨.record, 0, 0x408, 2, false, [0, 0], 0⟩ ∧
      recording.streams[(0 : StreamNo)].walker.records = [⟨0, .done, 3, 6, 0, true, true⟩] ∧
      recording.streams[(0 : StreamNo)].walker.mode ≠ .stopping ∧
      (stopping true).streams[(0 : StreamNo)].walker.mode = .stopping ∧
      (stopping true).streams[(0 : StreamNo)].isTalk = true ∧
      (stopping true).streams[(0 : StreamNo)].walker.abortBuilt = true ∧
      (stopping true).streams[(0 : StreamNo)].state = .stopping ∧
      (stopping true).streams[(0 : StreamNo)].entriesGone = true ∧
      (stopping false).streams[(0 : StreamNo)].entriesGone = false ∧
      (let s := after .accessIssue (after (.stop 1) (listen .running here));
        running s ∧ s.streams[(1 : StreamNo)].isTalk = false ∧
          s.streams[(1 : StreamNo)].walker.mode = .stopping ∧
          s.streams[(1 : StreamNo)].walker.abortBuilt = true ∧
          s.streams[(1 : StreamNo)].state = .stopping ∧
          s.streams[(1 : StreamNo)].walker.records.length = 1 ∧
          s.streams[(1 : StreamNo)].walker.access ≠ none) := by decide

theorem witness_AccessErrorFaultsStream :
    running fetching ∧
      fetching.streams[(0 : StreamNo)].walker.access = some ⟨.fetch, 0, 0x400, 2, false, [], 0⟩ ∧
      fetching.streams[(0 : StreamNo)].isTalk = true ∧
      fetching.streams[(0 : StreamNo)].state = .acquiring ∧
      (writing 3).streams[(1 : StreamNo)].isTalk = false ∧
      (writing 3).streams[(1 : StreamNo)].state = .running := by decide

theorem witness_JoinAndLeaveCommands :
    running here ∧ here.straps.stn ≠ 0 ∧ here.rsu.membership = .dormant ∧
      (as .member here).rsu.membership = .member ∧
      (as .isolated here).rsu.membership ≠ .member ∧
      (talk .running here).streams[(0 : StreamNo)].isTalk = true ∧
      (talk .running here).streams[(0 : StreamNo)].state ≠ .stopped ∧
      (let s := queued .join { as .joining here with rsu := { (as .joining here).rsu with queued := true } };
        running s ∧ s.rsu.membership = .joining ∧ s.rsu.queued = true ∧ s.ccq.onLine = false ∧
          (∀ k : StreamNo, s.streams[k].state = .stopped) ∧
          s.ccq.hand.onLine = true ∧ s.ccq.hand.entries = [⟨.join, 0, 0, none⟩]) ∧
      8 ≤ (List.replicate 8 (⟨.claim 3 9 0, 0, 0, none⟩ : QueueEntry)).length := by decide

theorem witness_StartChecksInOrder :
    running ready ∧ ready.streams[(0 : StreamNo)].isTalk = true ∧
      ready.streams[(0 : StreamNo)].state = .stopped ∧ talkConfig.tag ≠ 0 ∧
      talkConfig.ringBase.toNat % 1024 = 0 ∧ ready.rsu.membership = .member ∧
      ready.streams[(1 : StreamNo)].isTalk = false ∧
      ready.streams[(1 : StreamNo)].state = .stopped ∧ listenConfig.filterMode ≠ 3 := by decide

theorem witness_StartBeginsStream :
    running ready ∧ ready.startTalkCheck 0 = .ok ∧ ready.streams[(1 : StreamNo)].startListenCheck = .ok ∧
      (here.onStream 0 fun st => { st with cfg := talkConfig }).streams[(0 : StreamNo)].walker.mode
        = .off := by decide

theorem witness_StopBeginsStopping :
    running (talk .running here) ∧ (talk .running here).streams[(0 : StreamNo)].state = .running ∧
      (talk .running here).streams[(0 : StreamNo)].isTalk = true ∧
      (talk .running here).streams[(0 : StreamNo)].walker.mode = .walking ∧
      (listen .paused here).streams[(1 : StreamNo)].state = .paused ∧
      (listen .paused here).streams[(1 : StreamNo)].isTalk = false ∧
      (listen .paused here).streams[(1 : StreamNo)].walker.mode = .walking ∧
      ((listen .paused here).onStream 1 fun st => st.onWalker fun w => { w with
        mode := .off }).streams[(1 : StreamNo)].walker.mode = .off ∧
      (talk .faulted here).streams[(0 : StreamNo)].state = .faulted ∧
      (talk .stopping here).streams[(0 : StreamNo)].state = .stopping := by decide

theorem witness_PauseAndResumeStream :
    running (talk .running here) ∧ (talk .running here).streams[(0 : StreamNo)].state = .running ∧
      (talk .paused here).streams[(0 : StreamNo)].state = .paused ∧
      (listen .paused here).streams[(1 : StreamNo)].isTalk = false ∧
      (entry 3 (.mine 9 0) (talk .paused here)).streams[(0 : StreamNo)].held ≠ 0 := by decide

theorem witness_ResetStreamClearsStream :
    running (talk .faulted here) ∧ (talk .faulted here).streams[(0 : StreamNo)].state = .faulted ∧
      (talk .faulted here).streams[(0 : StreamNo)].walkerQuiet = true ∧
      (∀ i : SlotNo, (talk .faulted here).slotMap[i].stream? ≠ some 0) ∧
      (entry 3 (.releasing 9 0 true) (talk .faulted here)).slotMap[(3 : SlotNo)].stream? = some 0 ∧
      (talk .stopped here).streams[(0 : StreamNo)].state = .stopped := by decide +kernel

theorem witness_ClearCountersAndBadCommands :
    running here ∧ commandNamesNothing 0 0 = true ∧ commandNamesNothing 9 0 = true ∧
      commandNamesNothing 3 8 = true ∧ commandNamesNothing 7 15 = true := by decide

theorem witness_ConfigurationLock :
    running here ∧ here.streams[(7 : StreamNo)].state = .stopped ∧
      (talk .running here).streams[(0 : StreamNo)].state ≠ .stopped := by decide

theorem witness_EventWordsDecideInterrupt :
    running here ∧
    (let s := here.onStream 7 fun st => { st with flags := 0x80, enables := 0x80 };
      s.streams[(7 : StreamNo)].flags.getLsbD 7 = true ∧
        s.summary.getLsbD 7 = true ∧ s.lintAsserted = true ∧ s.summary.getLsbD 8 = false) := by decide

theorem witness_RegisterWindowReads :
    running here ∧ here.streams[(7 : StreamNo)].held < 16 ∧ writableIndex 0 = false ∧
      writableIndex 5 = false ∧ writableIndex 23 = false ∧ writableIndex 40 = false ∧
      writableIndex 127 = false ∧ writableIndex 255 = false ∧
      (6 : BitVec 8).toNat < 16 ∧ 40 ≤ (63 : BitVec 8).toNat ∧ 208 ≤ (255 : BitVec 8).toNat := by decide

theorem witness_SentCellsReadBack :
    (Cell.mark 5 (mark true 0xFFFFFFFE)).wf = true ∧ (Cell.release 31 255 47).wf = true ∧
      CellKind.mark.allowedAt .markField = true ∧ CellKind.release.allowedAt (.openSlot .b) = true ∧
      16 ≤ 16 := by
  decide

set_option maxRecDepth 8000 in
theorem witness_CheckIsPolynomialRemainder :
    (⟨0, false⟩ : Candidate).bits.extractLsb' 0 8 = crc8 0 ∧
      (⟨1, false⟩ : Candidate).bits.extractLsb' 0 8 ≠ crc8 ((⟨1, false⟩ : Candidate).bits.extractLsb' 8 64) := by
  decide

set_option maxRecDepth 8000 in
theorem witness_LineReportsWhatItHears :
    LineUnit.reset.tx = none ∧
      classify (.dataSlot 0) (.candidate ⟨frameOf (Cell.inSlot 5 9 .keep).encode, false⟩ false) =
        .clean (.inSlot 5 9 .keep) ∧ (Cell.inSlot 5 9 .keep).sender = 5 ∧ (5 : StationNo) ≠ 7 ∧
      classify (.openSlot .a) .quiet = .silent ∧ classify (.openSlot .a) .misplaced = .garbled ∧
      classify .markField .misplaced = .garbled ∧
      claiming.lnu.tx = some ⟨.openSlot .b, 1000, .claim 5 9 3, none⟩ := by decide

/-- An own MARK that went out while a candidate begun before it was still under examination: that candidate
is no echo (logs 39, 42). -/
theorem witness_LineReportsWhatItHears_before_own :
    let l := (sending .markField (.mark 5 (mark false 0x20)) none (inRound here)).lnu
    l.tx = some ⟨.markField, 1000, .mark 5 (mark false 0x20), none⟩ ∧ 990 < 1000 ∧ 1000 ≤ 1000 ∧
      classify .markField .misplaced = .garbled ∧
      l.report 5 .markField 990 .misplaced false 0 = some (.garbledMarkField 1070) ∧
      l.report 5 .markField 1000 .misplaced false 0 = some .markEchoMismatch := by decide

/-- A position with its cell, the next one with that cell still on the line when its span opens, one whose
onset comes too late, and one with carrier that began in no place. -/
theorem witness_LineReportsWhatItHears_waveform :
    (joinLine.carrier (2 * (1384 - 16)) = false ∧ joinLine.onset 2768 = true ∧ 2768 ≤ 2 * (1384 + 16)) ∧
    (let start := 1384 + 96;
      joinLine.carrier (2 * (start - 16)) = true ∧ joinLine.carrier (2 * (start - 16) - 1) = true ∧
        2 * (start - 112) ≤ 2768 ∧ 2768 ≤ 2 * (start - 80)) ∧
    2 * (1367 + 16) < 2768 ∧
    (let start := 1384 + 32;
      joinLine.carrier (2 * (start - 16)) = true ∧ joinLine.carrier (2 * (start - 16) - 1) = true ∧
        2 * (start - 80) < 2768) := by decide +kernel

/-- A station with an own entry, another's entry, and a queued CLAIM. -/
def busy : State :=
  let s := entry 4 (.held 7 9 0) (entry 3 (.claiming 9 0 true) (talk .acquiring (as .member here)))
  queued (.claim 3 9 0) (entry 5 (.mine 9 0) s)

theorem busy_get (j : SlotNo) : busy.slotMap[j.val] =
    if j = 5 then .mine 9 0 else if j = 4 then .held 7 9 0 else if j = 3 then .claiming 9 0 true
    else .free := by revert j; decide +kernel

theorem witness_StepKeepsSlotMapSound :
    (HeldCountsMatch busy ∧ OwnWithinLimit busy ∧ HeldEntriesForeign busy) ∧ step busy = .next busy := by
  refine ⟨⟨by decide +kernel, by decide +kernel, fun i x t n h => ?_⟩, rfl⟩
  rw [Fin.getElem_fin, busy_get] at h
  split at h
  · simp at h
  · split at h
    · simp only [SlotEntry.held.injEq] at h
      obtain ⟨rfl, rfl, rfl⟩ := h
      decide
    · split at h <;> simp at h

theorem witness_StepKeepsOwnRosterEntry : OwnEntryFollows busy ∧ step busy = .next busy :=
  ⟨by decide +kernel, rfl⟩

theorem witness_StepKeepsQueueInStep : (QueueSound busy ∧ MapQueueAgree busy) ∧ step busy = .next busy := by
  refine ⟨⟨by decide, ?_, fun i hi => ?_, by decide, by decide⟩, rfl⟩
  · intro e he _
    have : e = ⟨.claim 3 9 0, 0, 0, none⟩ := by simpa [busy, queued] using he
    subst this
    exact busy_get 3
  · rw [Fin.getElem_fin, busy_get] at hi
    have h3 : i = 3 := by
      by_contra hne
      split at hi <;> (try split at hi) <;> simp_all [SlotEntry.isQueued]
    exact ⟨_, List.mem_cons_self, rfl, by rw [h3]; rfl⟩

theorem witness_StepKeepsFetchNearCurrent : FetchNearCurrent busy ∧ step busy = .next busy :=
  ⟨by decide, rfl⟩

theorem witness_StepKeepsStreamsWithinLimits :
    let s := busy.onStream 0 fun st => { st with walkerQuiet := false }
    (CommitWithinLimit s ∧ FifosWithinLimit s) ∧ step s = .next s := by
  intro s
  refine ⟨⟨by decide +kernel, fun k => ?_⟩, rfl⟩
  have h : ∀ k : StreamNo, s.streams[k.val] =
      if k = 0 then s.streams[(0 : StreamNo)] else Stream.reset := by decide +kernel
  rw [Fin.getElem_fin, h]
  split <;> constructor <;> decide

/-- A read in flight into a FIFO that it will fill: 13 entries and 3 places reserved. -/
theorem witness_StepKeepsStreamsWithinLimits_full :
    let st := { reading.streams[(0 : StreamNo)] with fifo := List.replicate 13 ⟨6, false, 0, 0⟩ }
    st.fifo.length + st.walker.reserved = 16 ∧ st.walker.ahead = 0 ∧ st.walkerQuiet = true := by decide

/-- A listen-only station. -/
def listener : State := listen .running (State.afterReset ⟨0, 0, true⟩)

theorem witness_StepKeepsListenOnlySilent :
    ListenOnlySilent listener ∧ listener.straps.stn = 0 ∧ step listener = .next listener :=
  ⟨by decide +kernel, rfl, rfl⟩

end Sys2Proof.Tests
end

section
/-! The reset values, and what the part does while RESET# is asserted (R20, R118, R165, R171 to R173). -/

namespace Sys2Proof.Machine

open Sys2Proof

/-! ### The blocks right after reset -/

@[simp] theorem State.afterReset_stream (x : Straps) (k : StreamNo) :
    (State.afterReset x).streams[k.val] = Stream.reset := by
  simp [State.afterReset]

@[simp] theorem State.afterReset_slot (x : Straps) (i : SlotNo) :
    (State.afterReset x).slotMap[i.val] = .free := by
  simp [State.afterReset]

@[simp] theorem State.afterReset_entry (x : Straps) (n : StationNo) :
    (State.afterReset x).rsu.entry n = .absent := by
  simp [State.afterReset, RosterUnit.entry, RosterUnit.reset]

/-- A map whose entries all fail a test counts 0 for it. -/
theorem State.afterReset_count (x : Straps) (p : SlotEntry → Bool) (h : p .free = false) :
    countEntries p (State.afterReset x).slotMap = 0 :=
  countEntries_zero.mpr fun i => by rw [State.afterReset_slot, h]

/-- With no flag Set no summary bit is (R159). -/
theorem State.summary_zero {s : State} (hs : s.stationFlags = 0)
    (hk : ∀ k : StreamNo, s.streams[k.val].flags = 0) : s.summary = 0 := by
  have hbit (k : StreamNo) : s.streams[k].summaryBit = false := by
    simp [Stream.summaryBit, hk k]
  simp only [State.summary, hbit, State.stationSummaryBit, hs]
  simp [allStreams]

theorem State.lintAsserted_reset {s : State} (h : s.resetAsserted = true) :
    s.lintAsserted = false := by
  simp [State.lintAsserted, h]

/-! ### The statements -/

/-- Settles O3, block by block. -/
theorem resetValuesFollowTables : Obligations.ResetValuesFollowTables := by
  intro x s
  have hsum : s.summary = 0 := State.summary_zero rfl fun k => by simp [s, Stream.reset]
  have hstream (k : StreamNo) : s.streams[k] = Stream.reset := State.afterReset_stream x k
  refine ⟨rfl, rfl, ⟨rfl, rfl, rfl, rfl, rfl, rfl, rfl, rfl⟩,
    ⟨rfl, rfl, rfl, rfl, rfl, rfl, rfl, rfl, rfl⟩,
    ⟨rfl, State.afterReset_entry x, rfl, rfl, rfl, rfl, rfl⟩, State.afterReset_slot x,
    ⟨rfl, rfl, rfl, rfl⟩, fun k => ?_, rfl, rfl, rfl, hsum, ?_, rfl, rfl, rfl⟩
  · rw [hstream k]
    have hcfg : Stream.reset.cfg.readConfig = 0 := rfl
    simp only [hcfg]
    simp [Stream.reset, StreamConfig.reset, Walker.reset]
  · simp [State.lintAsserted, hsum]

/-- Settles O60, one invariant after the other. -/
theorem invariantsHoldAfterReset : Obligations.InvariantsHoldAfterReset := by
  intro x s
  have hstream (k : StreamNo) : s.streams[k] = Stream.reset := State.afterReset_stream x k
  have hslot (i : SlotNo) : s.slotMap[i] = .free := State.afterReset_slot x i
  have hcount (p : SlotEntry → Bool) (h : p .free = false) : countEntries p s.slotMap = 0 :=
    State.afterReset_count x p h
  have hheld : HeldCountsMatch s := fun k => by
    rw [hstream k]
    exact (hcount _ rfl).symm
  have hown : OwnWithinLimit s := by
    simp [OwnWithinLimit, ownTotal, hcount _ (show SlotEntry.isOwn .free = false from rfl)]
  have hforeign : HeldEntriesForeign s := fun i _ _ _ h => by
    rw [hslot i] at h
    exact absurd h (by simp)
  have hentry : OwnEntryFollows s := by
    refine ⟨State.afterReset_entry x 0, fun _ => (State.afterReset_entry x _).trans ?_⟩
    have : s.rsu.membership = .listening ∨ s.rsu.membership = .dormant := by
      simp only [s, State.afterReset, RosterUnit.reset]
      split <;> simp
    rcases this with h | h <;> simp [h]
  have hqueue : MapQueueAgree s :=
    ⟨by simp [s, State.afterReset, CellQueue.reset],
      fun i h => by rw [hslot i] at h; exact absurd h (by simp [SlotEntry.isQueued]),
      by simp [s, State.afterReset, CellQueue.reset], by simp [s, State.afterReset, CellQueue.reset]⟩
  have hsilent : ListenOnlySilent s := fun h => by
    have h0 : x.stn = 0 := h
    exact ⟨by simp [s, State.afterReset, RosterUnit.reset, h0], fun i => by rw [hslot i]; rfl,
      rfl, rfl, rfl⟩
  have hcommit : CommitWithinLimit s := by
    have : (List.finRange 8).filter (fun k => s.streams[k].isTalk && s.streams[k].state != .stopped)
        = [] := by
      rw [List.filter_eq_nil_iff]
      intro k _
      rw [hstream k]
      decide
    unfold CommitWithinLimit
    rw [this]
    exact Nat.zero_le 16
  have hfifos : FifosWithinLimit s := fun k => by
    rw [hstream k]
    constructor <;> decide
  exact ⟨hheld, hown, hforeign, hentry, ⟨Nat.zero_le 8, List.nodup_nil⟩, hqueue,
    fun k => by rw [hstream k]; exact .inl rfl, hsilent, hcommit, hfifos⟩

/-- While RESET# is asserted a delivery, reply or expiry changes nothing, and an access to the window
changes its response alone (R20, R118, R164, R165). -/
theorem exec_during_reset (c : Instr) {s : State} (h : s.resetAsserted = true)
    (hc : c.isReset = false) :
    exec c s = .next (if c.isTargetAccess then { s with targetResponse := .error } else s) := by
  cases c with
  | hardwareReset | resetRelease _ => exact Bool.noConfusion hc
  | readyWrite _ _ | join _ | leave _ | start _ | stop _ | pause _ | resume _ | resetStream _
  | clearCounters _ | badCommand _ _ | configWrite _ _ _ | flagWrite _ _ | enableWrite _ _
  | registerWrite _ _ => exact targetWrite_reset _ h
  | targetAccessDuringReset _ _ => simp [exec, execTargetAccessDuringReset, h, Instr.isTargetAccess]
  | cleanClaim _ _ _ _ => unfold exec execCleanClaim; exact event_reset _ h
  | cleanRelease _ _ _ _ => unfold exec execCleanRelease; exact event_reset _ h
  | backoffExpiry _ => unfold exec execBackoffExpiry; exact event_reset _ h
  | _ => exact event_reset _ h

/-- RESET_RELEASE starts every block from its reset values, with the straps sampled (R171, R172). -/
theorem exec_resetRelease (x : Straps) {s : State} (h : s.resetAsserted = true) :
    exec (.resetRelease x) s = .next { State.afterReset x with
      pending := s.pending, freeDraws := s.freeDraws, targetResponse := s.targetResponse } := by
  simp [exec, execResetRelease, h]

/-- Settles O4. -/
theorem hardwareResetAndRelease : Obligations.HardwareResetAndRelease := by
  refine ⟨fun s => ⟨⟨_, rfl, rfl, State.lintAsserted_reset rfl, rfl, rfl, fun k => ?_, ?_⟩,
    fun x => ⟨fun h => ⟨_, exec_resetRelease x h, rfl, rfl, ?_⟩, fun h => ?_⟩⟩,
    fun index written s h => exec_during_reset (.targetAccessDuringReset index written) h rfl,
    fun c s h hc => exec_during_reset c h hc⟩
  · simp [Stream.reset, Walker.reset]
  · intro p hp
    cases p <;> first | rfl | exact absurd (by decide) hp
  · intro p hp
    cases p <;> first | rfl | exact absurd (by decide) hp
  · simp [exec, execResetRelease, h]

end Sys2Proof.Machine
end

section
/-! The Line Unit's tests as the statements phrase them: where an onset falls, the mark window, what may
anchor, and when a MARK request is taken (R8, R9, R16 to R18). -/

namespace Sys2Proof.Machine

open Sys2Proof

/-! ### Two cases of a field -/

theorem LineUnit.isSynced_iff (l : LineUnit) : l.isSynced = true ↔ l.sync = .synced := by
  simp [LineUnit.isSynced]

theorem LineUnit.isSynced_false (l : LineUnit) : l.isSynced = false ↔ l.sync = .unsynced := by
  cases h : l.sync <;> simp [LineUnit.isSynced, h]

theorem State.onDuty_iff (s : State) : s.rsu.membership.onLine = true ↔ s.onDuty := by
  cases h : s.rsu.membership <;> simp [Membership.onLine, State.onDuty, h]

/-! ### Onsets (R9, R16, R17) -/

/-- The onset `d - 16` bit times after the anchor opens a candidate for this position of the Round. -/
theorem onsetPlace_iff (a o : Nat) (p : Position) :
    onsetPlace a o = some (p, true) ↔
      match p with
      | .outside => False
      | .dataSlot i => a + (1 + i.val) * 96 ≤ o + 16 ∧ o ≤ a + (1 + i.val) * 96 + 16
      | .openSlot w => a + (if w = .a then 49 else 50) * 96 ≤ o + 16
          ∧ o ≤ a + (if w = .a then 49 else 50) * 96 + 16
      | .markField => a + 51 * 96 ≤ o + 16 ∧ o ≤ a + 51 * 96 + 8 * 96 := by
  obtain ⟨d, hd⟩ : ∃ d : Nat, d = o + 16 - a := ⟨_, rfl⟩
  have e : onsetPlace a o =
      if d / 96 = 0 then none
      else if h : d / 96 - 1 < 48 then some (Position.dataSlot ⟨d / 96 - 1, h⟩, decide (d % 96 ≤ 32))
      else if d / 96 = 49 then some (Position.openSlot .a, decide (d % 96 ≤ 32))
      else if d / 96 = 50 then some (Position.openSlot .b, decide (d % 96 ≤ 32))
      else if o ≤ a + 51 * 96 + 8 * 96 then some (Position.markField, true)
      else none := by subst hd; rfl
  rw [e]
  cases p with
  | dataSlot i => split_ifs <;> simp [Fin.ext_iff] <;> omega
  | openSlot w => cases w <;> split_ifs <;> simp <;> omega
  | markField => split_ifs <;> simp <;> omega
  | outside => split_ifs <;> simp

/-- The Line Unit opens a candidate for a position exactly where R9, R16 or R17 has it do so. -/
theorem State.opens_iff (s : State) (onset : Instant) (p : Position) :
    s.lnu.opens onset = some p ↔ s.opensCandidate onset p := by
  unfold LineUnit.opens
  cases hs : s.lnu.sync with
  | unsynced =>
    rw [(LineUnit.isSynced_false _).mpr hs]
    cases p <;> simp [State.opensCandidate, hs]
  | synced =>
    rw [(LineUnit.isSynced_iff _).mpr hs]
    cases ha : s.lnu.anchor with
    | none => cases p <;> simp [State.opensCandidate, hs, ha]
    | some a =>
      have hp := onsetPlace_iff a onset p
      have hmap : ((onsetPlace a onset).filter Prod.snd).map Prod.fst = some p ↔
          onsetPlace a onset = some (p, true) := by
        rcases onsetPlace a onset with _ | ⟨q, _ | _⟩ <;> simp
      simp only [Bool.not_true, Bool.false_eq_true, if_false, hmap, hp]
      cases p <;> simp [State.opensCandidate, hs, ha]

/-! ### The mark window (R16 to R18) -/

theorem State.inMarkWindow_iff (s : State) (onset : Instant) :
    s.lnu.inMarkWindow onset = true ↔ s.inMarkWindow onset := by
  unfold LineUnit.inMarkWindow State.inMarkWindow
  cases s.lnu.expected with
  | none => simp
  | some e =>
    simp only [Option.any_some, Bool.and_eq_true, Option.some.injEq, exists_eq_left']
    exact and_congr decide_eq_true_iff decide_eq_true_iff

theorem State.anchors_iff (s : State) (onset : Instant) :
    s.lnu.anchors onset = true ↔ s.canAnchor onset := by
  simp [LineUnit.anchors, State.canAnchor, LineUnit.isSynced_false, State.inMarkWindow_iff]

theorem State.ofMarkWindow_iff (s : State) (onset : Instant) :
    s.lnu.ofMarkWindow onset = true ↔ s.deliversGarble onset := by
  simp [LineUnit.ofMarkWindow, State.deliversGarble, LineUnit.isSynced_false, State.inMarkWindow_iff]

/-- A MARK request is refused exactly where something blocks it (R8). -/
theorem State.takesMark_false (s : State) (carrier : Bool) :
    s.lnu.takesMark carrier = false ↔ s.markBlocked carrier := by
  unfold LineUnit.takesMark State.markBlocked
  cases carrier <;> cases s.lnu.tx <;> cases s.lnu.windowOpen <;> cases hs : s.lnu.sync <;>
    simp [LineUnit.isSynced, hs]

end Sys2Proof.Machine
end

section
/-! Carrier onsets, withheld MARK requests, garbled Marks and markless Rounds (O5, O8, O15, O16). -/

namespace Sys2Proof.Machine

open Sys2Proof

/-! ### Carrier onsets -/

/-- The candidate that an onset opens, if any. -/
def LineUnit.opened (onset : Instant) (l : LineUnit) : List OpenCandidate :=
  ((l.opens onset).map fun p => ⟨p, onset⟩).toList

theorem State.mem_opened (s : State) (onset : Instant) (c : OpenCandidate) :
    c ∈ s.lnu.opened onset ↔ c.onset = onset ∧ s.opensCandidate onset c.position := by
  rw [← State.opens_iff]
  obtain ⟨p, o⟩ := c
  simp only [LineUnit.opened, Option.mem_toList, Option.map_eq_some_iff, OpenCandidate.mk.injEq]
  constructor
  · rintro ⟨q, hq, rfl, rfl⟩
    exact ⟨rfl, hq⟩
  · rintro ⟨rfl, hq⟩
    exact ⟨p, hq, rfl, rfl⟩

/-- A carrier onset at the Line Unit changes its candidates alone. -/
theorem LineUnit.hearOnset_eq (onset : Instant) (l : LineUnit) :
    l.hearOnset onset = { l with candidates :=
      (l.dropEnded onset).candidates ++ l.opened onset } := by
  unfold LineUnit.hearOnset LineUnit.opened
  cases l.opens onset <;> simp [LineUnit.dropEnded]

/-- Settles O5: the candidates opened are the place that `LineUnit.opens` gives, if any. -/
theorem carrierOnsetCancelsAndRestarts : Obligations.CarrierOnsetCancelsAndRestarts := by
  intro onset s hr
  have hexec : exec (.carrierOnset onset) s = .next (s.carrierOnset onset) := event_next _ hr
  refine ⟨fun htx => ?_, fun htx => ⟨_, hexec, ?_⟩⟩
  · have : s.lnu.tx.isSome = true := Option.isSome_iff_ne_none.mpr htx
    rw [hexec, State.carrierOnset, if_pos this]
  have hon : s.carrierOnset onset = (s.onMku (MarkUnit.onset s.straps.stn s.lnu.windowOpen onset)).onLnu
      (LineUnit.hearOnset onset) := by
    simp [State.carrierOnset, htx]
  rw [hon]
  refine ⟨⟨s.lnu.opened onset, ?_, s.mem_opened onset,
    LineUnit.hearOnset_eq onset s.lnu⟩, rfl, rfl, fun h => ?_, fun h => ?_, fun r hp hw => ?_,
    fun h => ?_, rfl, ?_⟩
  · unfold LineUnit.opened
    cases s.lnu.opens onset <;> simp
  · simp [MarkUnit.onset, h]
  · obtain ⟨t, ht⟩ := Option.ne_none_iff_exists'.mp h
    simp [MarkUnit.onset, ht]; rfl
  · simp [MarkUnit.onset, hp, hw]
  · rcases h with h | h
    · simp only [State.onLnu_mku, State.onMku_mku, MarkUnit.onset, h]
      cases s.mku.plan <;> rfl
    · simp [MarkUnit.onset, h]
  · exact (State.onMku_changes _ s).seq (State.onLnu_changes _ _) (by decide) (by decide)

/-! ### MARK requests (R8, R64) -/

/-- A request that membership or the Line Unit does not permit changes nothing. -/
theorem State.requestMark_withheld {k : MarkKind} {carrier : Bool} {s : State} (start : Instant)
    (h : k.permitted s.rsu.membership = false ∨ s.markBlocked carrier) :
    s.requestMark k start carrier = s := by
  rw [← State.takesMark_false] at h
  unfold State.requestMark
  rcases h with h | h <;> simp [h]

/-- A station without MARK duties may not send a duty, takeover or recovery MARK (R64). -/
theorem State.onLine_false {s : State} (h : ¬ s.onDuty) : s.rsu.membership.onLine = false := by
  rw [← State.onDuty_iff] at h
  simpa using h

/-- Settles O8: each request is withheld, so only its plan or wait is left to end. -/
theorem markRequestsWithheld : Obligations.MarkRequestsWithheld := by
  intro s carrier e hr
  refine ⟨fun hp he h => ?_, fun k hp he h => ?_, fun hw h => ?_, fun hw hm => ?_,
    fun hw hm hb => ?_⟩
  · have hreq : s.requestMark .duty e carrier = s :=
      State.requestMark_withheld e (h.symm.imp_left State.onLine_false)
    show event (State.dutyMark carrier) s = _
    rw [event_next _ hr, State.dutyMark, hp, he]
    exact congrArg (fun t => Host.Outcome.next (State.onMku MarkUnit.endPlan t)) hreq
  · show event (State.takeoverMark carrier) s = _
    rw [event_next _ hr, State.takeoverMark, hp, he]
    dsimp only
    split
    · rfl
    · rename_i hseen
      rw [State.requestMark_withheld]
      · rfl
      · rcases h with h | h | h
        · exact .inr h
        · exact .inl (State.onLine_false h)
        · exact absurd h hseen
  · have hreq : s.requestMark .recovery e carrier = s :=
      State.requestMark_withheld e (h.symm.imp_left State.onLine_false)
    show event (State.recoveryExpiry carrier) s = _
    rw [event_next _ hr, State.recoveryExpiry, hw]
    exact congrArg (fun t => Host.Outcome.next
      (State.onMku (fun m => { m with recoveryWait := none }) t)) hreq
  · have hreq : s.requestMark .cold e carrier = s :=
      State.requestMark_withheld e (.inl (by simpa [MarkKind.permitted] using hm))
    show event (State.coldExpiry carrier) s = _
    rw [event_next _ hr, State.coldExpiry, hw]
    dsimp only
    rw [hreq]
    simp [State.onMku, hm]
  · have hreq : s.requestMark .cold e carrier = s := State.requestMark_withheld e (.inr hb)
    have htake := (State.takesMark_false s carrier).mpr hb
    show event (State.coldExpiry carrier) s = _
    rw [event_next _ hr, State.coldExpiry, hw]
    dsimp only
    rw [hreq]
    simp [State.onMku, hm, htake]
    rfl

/-! ### Garbled Marks (R18, R74, R75) -/

/-- Dropping the record of a known own cell (R12). -/
theorem LineUnit.endTx_eq {l : LineUnit} {r : TxRecord} (h : l.tx = some r) :
    l.endTx = { l with
      tx := none, driving := false
      candidates := l.candidates.filter fun c => c.position ≠ r.position } := by
  simp [LineUnit.endTx, h, LineUnit.reported]

theorem LineUnit.ownMark_eq {l : LineUnit} {p : Position} {start : Instant} {x : StationNo}
    {f : MarkFields} {k : Option StreamNo} (h : l.tx = some ⟨p, start, .mark x f, k⟩) :
    l.ownMark? = some (start, f) := by
  simp [LineUnit.ownMark?, h]

/-- Settles O15. -/
theorem garbledMarksStartWaits : Obligations.GarbledMarksStartWaits := by
  intro s hr
  refine ⟨fun onset => ⟨s.garbledMark (onset + 80), event_next _ hr, ?_, fun h => ?_, fun h => ?_,
    State.garbledMark_changes _ s⟩, fun p start x f k htx => ⟨s.markMismatch, event_next _ hr, ?_⟩⟩
  · unfold State.garbledMark
    split <;> rfl
  · have hw : s.lnu.ofMarkWindow (onset + 80 - Config.cellTime) = true :=
      (State.ofMarkWindow_iff s onset).mpr h
    unfold State.garbledMark
    rw [if_pos hw]
    rfl
  · have hw : ¬ s.lnu.ofMarkWindow (onset + 80 - Config.cellTime) = true := fun hw =>
      h ((State.ofMarkWindow_iff s onset).mp hw)
    unfold State.garbledMark
    rw [if_neg hw]
    rfl
  · unfold State.markMismatch
    rw [LineUnit.ownMark_eq htx]
    refine ⟨LineUnit.endTx_eq htx, rfl, fun h => ?_, fun h => ?_, ?_⟩
    · simp only [State.raise_mku, State.onLnu_mku, State.onMku_mku, h]
      rfl
    · simp only [State.raise_mku, State.onLnu_mku, State.onMku_mku, h]
      rfl
    · exact ((State.onMku_changes _ s).seq (State.onLnu_changes _ _) (rs := [.lnu, .mku])
        (by decide) (by decide)).seq (State.raise_changes _ _) (by decide) (by decide)

/-! ### Markless Rounds and sync loss (R18, R19, R94) -/

/-- What isolation leaves of the state, block by block (R94). -/
theorem State.isolate_spec (m : Membership) (e : StationEvent) (s : State) (hm : m.onLine = false) :
    let t := s.isolate m e
    t.rsu.membership = m ∧ t.stationFlags = s.stationFlags ||| (1#9 <<< e.bit)
      ∧ (∀ n : StationNo, t.rsu.entry n = .absent)
      ∧ t.rsu.learnCount = 0 ∧ t.rsu.attempt = 0 ∧ t.rsu.joinTimer = none ∧ t.rsu.intent = .none
      ∧ (∀ i : SlotNo, t.slotMap[i] = .free)
      ∧ (∀ k : StreamNo, t.streams[k].held = 0 ∧
          t.streams[k] = s.streams[k].mapReported s.mku.count s.slotMap t.slotMap k)
      ∧ t.ccq.entries = [] ∧ t.ccq.turnOpen = false := by
  intro t
  have hrsu : t.rsu = s.rsu.forget.rest.setMembership s.straps.stn m := rfl
  have hkeeps := RosterUnit.setMembership_keeps s.straps.stn m s.rsu.forget.rest
  have hfree (i : SlotNo) : t.slotMap[i] = .free := by
    simp [t, State.isolate, State.wipeAll]
  have hstream (k : StreamNo) :
      t.streams[k] = s.streams[k].mapReported s.mku.count s.slotMap t.slotMap k := by
    rw [← reportMap_table]
    simp [t, State.isolate, State.wipeAll, State.setMembership]
  refine ⟨?_, rfl, fun n => ?_, ?_, ?_, ?_, ?_, hfree, fun k => ⟨?_, hstream k⟩, rfl, rfl⟩
  · rw [hrsu, RosterUnit.setMembership_membership]
  · rw [hrsu, RosterUnit.setMembership_entry, hm]
    simp [RosterUnit.entry, RosterUnit.rest, RosterUnit.forget]
  · rw [hrsu, hkeeps]; rfl
  · rw [hrsu, hkeeps]; rfl
  · rw [hrsu, hkeeps]; rfl
  · rw [hrsu, hkeeps]; rfl
  · rw [hstream k, ← reportMap_table, reportMap_held]
    exact mineCount_zero fun i => by
      rw [show t.slotMap[i.val] = .free from hfree i]
      rfl

/-- Settles O16. -/
theorem marklessRoundAndSyncLoss : Obligations.MarklessRoundAndSyncLoss := by
  intro s hr
  refine ⟨fun hw => ⟨s.markless, event_next _ hr, ?_⟩, fun hs => ⟨s.syncLoss, event_next _ hr, ?_⟩⟩
  · unfold State.markless
    rw [if_pos hw]
    exact ⟨rfl, rfl, (State.onLnu_changes _ s).seq (State.onMku_changes _ _) (by decide) (by decide)⟩
  · have hloss : s.syncLoss = s.markSyncLoss.rosterSyncLoss := by
      rw [State.syncLoss, if_neg (by simp [(LineUnit.isSynced_false _).mpr hs])]
    have hmark : s.changesOnly [.lnu, .mku] s.markSyncLoss :=
      (State.onLnu_changes _ s).seq (State.onMku_changes _ _) (by decide) (by decide)
    have hroster := State.rosterSyncLoss_changes s.markSyncLoss
    rw [hloss]
    refine ⟨hroster .lnu (by decide), hroster .mku (by decide), fun h => ?_, fun hd hi => ?_⟩
    · have : s.markSyncLoss.rosterSyncLoss = s.markSyncLoss := by
        rw [State.rosterSyncLoss, show s.markSyncLoss.rsu = s.rsu from rfl]
        rcases h with h | h <;> rw [h]
      rw [this]
      exact hmark
    · have hiso : s.markSyncLoss.rosterSyncLoss = s.markSyncLoss.isolate
          (if s.rsu.membership = .leaving then .dormant else .isolated)
          (if s.rsu.membership = .leaving then .left else .isolated) := by
        rw [State.rosterSyncLoss, show s.markSyncLoss.rsu = s.rsu from rfl]
        cases hm : s.rsu.membership with
        | dormant => exact absurd hm hd
        | isolated => exact absurd hm hi
        | _ => rfl
      rw [hiso]
      obtain ⟨h1, h2, h3, h4, h5, h6, h7, h8, h9, h10, h11⟩ := State.isolate_spec
        (if s.rsu.membership = .leaving then .dormant else .isolated)
        (if s.rsu.membership = .leaving then .left else .isolated) s.markSyncLoss
        (by split <;> rfl)
      refine ⟨h1, h2.trans ?_, h3, h4, h5, h6, h7, h8, h9, h10, h11, ?_⟩
      · split <;> rfl
      · rw [← hiso]
        exact hmark.seq hroster (by decide) (by decide)

end Sys2Proof.Machine
end

section
/-! A clean MARK anchors a Round: the round count, and what the blocks that take it in any order leave
(O10, O11). -/

namespace Sys2Proof.Machine

open Sys2Proof

/-! ### The round count (R67, R68) -/

/-- A MARK moves the count by 1 to 256, to a value with its low 8 bits. -/
theorem countStep_spec (c : Word) (r : BitVec 8) :
    1 ≤ countStep c r ∧ countStep c r ≤ 256 ∧ (c.toNat + countStep c r) % 256 = r.toNat := by
  have hr := r.isLt
  unfold countStep
  dsimp only
  split <;> omega

theorem adoptCount_toNat (c : Word) (r : BitVec 8) :
    (adoptCount c r).toNat = min (2 ^ 32 - 1) (c.toNat + countStep c r) := by
  unfold adoptCount countMax
  rw [BitVec.toNat_ofNat]
  omega

theorem roundCounted_adoptCount (c : Word) (r : BitVec 8) : roundCounted r c (adoptCount c r) := by
  obtain ⟨hpos, hle, hmod⟩ := countStep_spec c r
  have hr := r.isLt
  refine ⟨fun v hlt hmax hv hleast => ?_, fun hnone => ?_⟩ <;> rw [adoptCount_toNat]
  · have hup : c.toNat + countStep c r ≤ v := by omega
    have hdown : ¬ c.toNat + countStep c r < v := fun h =>
      hleast (c.toNat + countStep c r) (by omega) h hmod
    omega
  · have : ¬ c.toNat + countStep c r ≤ 2 ^ 32 - 1 := fun h =>
      hnone (c.toNat + countStep c r) (by omega) h hmod
    omega

theorem MarkUnit.slips_iff (r : BitVec 8) (m : MarkUnit) :
    m.slips r = true ↔ roundSlipped m (adoptCount m.count r) := by
  simp only [MarkUnit.slips, Bool.and_eq_true, decide_eq_true_iff, bne_iff_ne, and_assoc]
  exact Iff.rfl

/-! ### Blocks that take a MARK in any order (R13; log 6) -/

/-- A reading of the state that no element of a list changes. -/
theorem foldl_keeps {α β γ : Type} (φ : α → γ) (f : α → β → α) (h : ∀ s t, φ (f s t) = φ s)
    (l : List β) (s : α) : φ (l.foldl f s) = φ s := by
  induction l generalizing s with
  | nil => rfl
  | cons t l ih => rw [List.foldl_cons, ih, h]

/-- A reading of the state that one element of a list alone changes, by `g`, is changed by `g` as often as
that element occurs. -/
theorem foldl_acts {α β γ : Type} [DecidableEq β] (φ : α → γ) (f : α → β → α) (P : α → Prop) (b : β)
    (g : γ → γ) (hP : ∀ s t, P s → P (f s t)) (hb : ∀ s, P s → φ (f s b) = g (φ s))
    (h : ∀ s t, t ≠ b → P s → φ (f s t) = φ s) (l : List β) (s : α) (hs : P s) :
    φ (l.foldl f s) = g^[l.count b] (φ s) := by
  induction l generalizing s with
  | nil => rfl
  | cons t l ih =>
    rw [List.foldl_cons, ih _ (hP s t hs)]
    by_cases ht : t = b
    · subst ht
      rw [hb s hs, List.count_cons_self, Function.iterate_succ_apply]
    · rw [h s t ht hs, List.count_cons_of_ne ht]

/-- Each of the four takes a MARK once, whatever the order. -/
theorem markOrder_count (o : Fin 24) (t : MarkTask) : (markOrder o).count t = 1 := by
  revert o
  cases t <;> decide

theorem State.offerAll_streams (is : List SlotNo) (s : State) :
    (s.offerAll is).streams = s.streams := rfl

/-- The Slot Agent's work at a Mark leaves every configuration alone. -/
theorem State.slotAgentMark_cfg (s : State) (k : StreamNo) :
    s.slotAgentMark.streams[k.val].cfg = s.streams[k.val].cfg := by
  have hclaim (s : State) (j : StreamNo) :
      (s.autoClaim j).streams[k.val].cfg = s.streams[k.val].cfg := by
    unfold State.autoClaim
    split
    · split
      · rfl
      · rw [State.onStream_get]
        split <;> simp_all
    · rfl
  have hfold := foldl_keeps (fun s : State => s.streams[k.val].cfg) State.autoClaim hclaim allStreams
    ((s.mapEntries SlotEntry.tickBackoff).onStreams fun _ => Stream.tickPause)
  unfold State.slotAgentMark
  rw [State.offerAll_streams]
  exact hfold.trans (by simp)

theorem State.markTask_cfg (own : Bool) (x : StationNo) (b : Word) (y : Option StationNo)
    (k : StreamNo) (s : State) (t : MarkTask) :
    (s.markTask own x b y t).streams[k.val].cfg = s.streams[k.val].cfg := by
  have hsame (u : State) (h : s.changesOnly rosterParts u) : u.streams[k.val].cfg =
      s.streams[k.val].cfg := by
    rw [show u.streams = s.streams from h .streams (by decide)]
  cases t with
  | miss => cases y <;> rfl
  | roster =>
    unfold State.markTask
    dsimp only
    split
    · exact hsame _ s.rosterOwnMark_changes
    · exact hsame _ (State.rosterMark_changes _ _ s)
  | slotAgent => exact s.slotAgentMark_cfg k
  | queue => rfl

/-- The own MARK at the Roster Unit raises JOINED for an ISOLATED station and nothing else. -/
theorem State.rosterOwnMark_flags (s : State) :
    s.rosterOwnMark.stationFlags =
      s.stationFlags ||| (if s.rsu.membership = .isolated then 1#9 else 0#9) := by
  unfold State.rosterOwnMark
  split
  · simp [*]
  · simp [*]
  · unfold State.learnMark State.learnDone State.offerJoin
    split <;> simp [*]
  · simp [*]
  · simp [*]
  · simp [*, StationEvent.bit]

/-- No block that takes a MARK touches ROUND_SLIP; the Mark Unit alone raises it. -/
theorem State.markTask_slipFlag (own : Bool) (x : StationNo) (b : Word) (y : Option StationNo)
    (s : State) (t : MarkTask) :
    (s.markTask own x b y t).stationFlags.getLsbD 6 = s.stationFlags.getLsbD 6 := by
  cases t with
  | miss => cases y <;> rfl
  | roster =>
    unfold State.markTask
    dsimp only
    split
    · rw [State.rosterOwnMark_flags, BitVec.getLsbD_or]
      split <;> simp
    · rw [State.rosterMark, State.membershipMark_flags, BitVec.getLsbD_or]
      split_ifs <;> simp
  | slotAgent => rw [show (s.markTask own x b y .slotAgent).stationFlags = s.stationFlags from
      s.slotAgentMark_changes .stationFlags (by decide)]
  | queue => rfl

/-- The Mark Unit's part of a clean MARK: the count moves, and a slip raises ROUND_SLIP (R67, R68). -/
theorem State.countMark_flag (f : MarkFields) (s : State) :
    (s.countMark f).stationFlags.getLsbD 6 = true ↔
      s.stationFlags.getLsbD 6 = true ∨ roundSlipped s.mku (adoptCount s.mku.count f.round) := by
  rw [← MarkUnit.slips_iff]
  unfold State.countMark
  dsimp only
  split
  · rename_i h
    simp [h, StationEvent.bit]
  · rename_i h
    simp [h]

theorem State.countMark_mku (f : MarkFields) (s : State) :
    (s.countMark f).mku = s.mku.takeMark f := by
  unfold State.countMark
  dsimp only
  split <;> rfl

/-- What a MARK that anchors leaves of the Line Unit, the Mark Unit, ROUND_SLIP and the Listen Streams
(R3, R17, R19, R67, R68, R144). -/
theorem State.anchorMark_spec (own : Bool) (onset : Instant) (x : StationNo) (f : MarkFields)
    (o : Fin 24) (s : State) :
    let t := s.anchorMark own onset x f o
    t.lnu = s.lnu.anchorAt onset ∧ t.mku = s.mku.takeMark f
      ∧ (t.stationFlags.getLsbD 6 = true ↔ s.stationFlags.getLsbD 6 = true
          ∨ roundSlipped s.mku (adoptCount s.mku.count f.round))
      ∧ ∀ k : StreamNo, s.streams[k].isTalk = false →
          t.streams[k].sources = [] ∧ t.streams[k].multiRaised = false := by
  intro t
  let u := (s.onLnu (LineUnit.anchorAt onset)).countMark f
  let task := State.markTask own x f.bitmap (s.mku.missedBy s.straps.stn x f.takeover)
  let v := (markOrder o).foldl task u
  have hu : (s.onLnu (LineUnit.anchorAt onset)).changesOnly [.mku, .stationFlags] u :=
    State.countMark_changes f _
  have hv : u.changesOnly markParts v :=
    State.changesOnly.foldl _ (State.markTask_changes _ _ _ _) _ _
  have ht : t = v.onStreams fun _ => Stream.newRound := rfl
  refine ⟨(hv .lnu (by decide)).trans (hu .lnu (by decide)),
    (hv .mku (by decide)).trans (State.countMark_mku f _), ?_, fun k hk => ?_⟩
  · have hflag : v.stationFlags.getLsbD 6 = u.stationFlags.getLsbD 6 :=
      foldl_keeps (fun s : State => s.stationFlags.getLsbD 6) task
        (State.markTask_slipFlag _ _ _ _) _ _
    exact (iff_of_eq (congrArg (· = true) hflag)).trans (State.countMark_flag f _)
  · have hcfg : v.streams[k.val].cfg = u.streams[k.val].cfg :=
      foldl_keeps (fun s : State => s.streams[k.val].cfg) task
        (State.markTask_cfg _ _ _ _ k) _ _
    have hstreams : u.streams = s.streams := hu .streams (by decide)
    have hlisten : v.streams[k.val].isTalk = false :=
      (Stream.isTalk_congr (hcfg.trans (by rw [hstreams]; rfl))).trans hk
    simp [ht, Stream.newRound, hlisten]

/-- Settles O10. -/
theorem cleanMarkAnchorsRound : Obligations.CleanMarkAnchorsRound := by
  intro onset x f o s hr hx hstn hnext
  have hexec : exec (.cleanMark (.other onset x f) o) s = .next (s.otherMarkHeard onset x f o) :=
    event_next _ hr
  refine ⟨fun h => ?_, fun h => ⟨_, hexec, ?_⟩⟩
  · rw [← State.anchors_iff, Bool.not_eq_true] at h
    rw [hexec, State.otherMarkHeard, h]
    rfl
  · have ht : s.otherMarkHeard onset x f o = s.anchorMark false onset x f o := by
      simp only [State.otherMarkHeard, (State.anchors_iff s onset).mpr h, Bool.not_true,
        Bool.false_eq_true, if_false]
      rw [if_neg (not_or.mpr ⟨hx, hnext⟩), if_neg hstn]
    rw [ht]
    obtain ⟨hlnu, hmku, hflag, hstreams⟩ := State.anchorMark_spec false onset x f o s
    refine ⟨hlnu, ?_, ?_, ?_, hstreams, State.anchorMark_changes _ _ _ _ _ s⟩
    · rw [hmku]; rfl
    · rw [hmku]; exact roundCounted_adoptCount _ _
    · rw [hmku]; exact hflag

end Sys2Proof.Machine
end

section
/-! The own MARK heard back (O11): what it leaves of the Roster Unit, in whatever order the blocks take
it. -/

namespace Sys2Proof.Machine

open Sys2Proof

/-- Membership, learn count, attempt, join timer and intent: what a MARK moves of the Roster Unit beside
its entries. -/
abbrev Course : Type := Membership × Nat × Nat × Option Nat × ControlIntent

def RosterUnit.course (u : RosterUnit) : Course :=
  (u.membership, u.learnCount, u.attempt, u.joinTimer, u.intent)

/-- The course after the own MARK (R88, R95; log 31). -/
def ownMarkCourse : Course → Course
  | (.listening, n, a, j, i) => if n = 0 then (.listening, 1, a, j, i) else (.joining, 2, 1, j, .join)
  | (.isolated, r) => (.member, r)
  | c => c

/-- A further offer of a JOIN or LEAVE that was refused changes no field of the course. -/
theorem State.reoffer_course (s : State) : s.reoffer.rsu.course = s.rsu.course := by
  unfold State.reoffer
  split
  · rfl
  · split
    · rfl
    · rename_i h
      simp [RosterUnit.course, State.offerJoin, h]
    · rename_i h
      simp [RosterUnit.course, State.offerLeave, h]

theorem State.offerControl_course (i : ControlIntent) (c : QueueCell) (s : State) :
    (s.offerControl i c).rsu.course =
      (s.rsu.membership, s.rsu.learnCount, s.rsu.attempt, s.rsu.joinTimer, i) := by
  simp [RosterUnit.course]

theorem State.setMembership_course (m : Membership) (s : State) :
    (s.setMembership m).rsu.course = (m, s.rsu.course.2) := by
  rw [State.setMembership_rsu, RosterUnit.setMembership_keeps]
  rfl

theorem State.rosterOwnMark_course (s : State) :
    s.rosterOwnMark.rsu.course = ownMarkCourse s.rsu.course := by
  unfold State.rosterOwnMark
  split
  · rename_i h
    simp [RosterUnit.course, ownMarkCourse, h]
  · rename_i h
    simp [RosterUnit.course, ownMarkCourse, h]
  · rename_i h
    unfold State.learnMark
    split
    · rename_i h0
      simp [RosterUnit.course, ownMarkCourse, h, h0]
    · rename_i h0
      rw [State.learnDone, State.offerJoin, State.offerControl_course, State.setMembership_rsu,
        RosterUnit.setMembership_keeps]
      simp [RosterUnit.course, ownMarkCourse, h, h0]
  · rename_i h
    rw [State.reoffer_course]
    simp [RosterUnit.course, ownMarkCourse, h]
  · rename_i h
    rw [State.reoffer_course]
    simp [RosterUnit.course, ownMarkCourse, h]
  · rename_i h
    rw [State.raise_rsu, State.setMembership_course]
    simp [RosterUnit.course, ownMarkCourse, h]

/-- The own MARK refreshes no entry of another station and adopts no bitmap (R85). -/
theorem State.rosterOwnMark_entry (s : State) (n : StationNo) (hn : n ≠ s.straps.stn) :
    s.rosterOwnMark.rsu.entry n = s.rsu.entry n := by
  unfold State.rosterOwnMark
  split
  · rfl
  · rfl
  · unfold State.learnMark State.learnDone State.offerJoin
    split <;> simp [hn] <;> exact RosterUnit.entry_congr rfl n
  · simp
  · simp
  · simp [hn]

/-! ### The blocks in any order -/

theorem State.markTask_slotAgent (own : Bool) (x : StationNo) (b : Word) (y : Option StationNo)
    (s : State) : s.markTask own x b y .slotAgent = s.slotAgentMark := rfl

/-- The missed holder of the own MARK, at the entry of another station (R70, R84). -/
theorem State.missTask_entry (own : Bool) (x : StationNo) (b : Word) (y : Option StationNo)
    (n : StationNo) (s : State) (h0 : n ≠ 0) (hn : n ≠ s.straps.stn) :
    (s.markTask own x b y .miss).rsu.entry n =
      if y = some n then missTable (s.rsu.entry n) else s.rsu.entry n := by
  cases y with
  | none => rfl
  | some y =>
    simp only [State.markTask, State.onRsu_rsu, RosterUnit.missed, RosterUnit.onOther_entry,
      RosterEntry.miss_eq, Option.some.injEq]
    by_cases h : n = y
    · subst h
      rw [if_pos ⟨rfl, h0, hn⟩, if_pos rfl]
    · simp [h, Ne.symm h]

/-- The own MARK at the four: one entry of another station changes by the miss alone. -/
theorem State.ownTasks_entry (x : StationNo) (b : Word) (y : Option StationNo) (o : Fin 24)
    (n : StationNo) (s : State) (h0 : n ≠ 0) (hn : n ≠ s.straps.stn) :
    ((markOrder o).foldl (State.markTask true x b y) s).rsu.entry n =
      if y = some n then missTable (s.rsu.entry n) else s.rsu.entry n := by
  have hstraps (u : State) (t : MarkTask) : (u.markTask true x b y t).straps = u.straps :=
    State.markTask_changes true x b y u t .straps (by decide)
  have hacts := foldl_acts
    (fun u : State => (u.rsu.entry n, u.straps.stn)) (State.markTask true x b y)
    (fun u => n ≠ u.straps.stn) .miss
    (fun e => (if y = some n then missTable e.1 else e.1, e.2))
    (fun u t h => by rwa [hstraps]) (fun u h => by rw [hstraps, State.missTask_entry _ _ _ _ _ _ h0 h])
    (fun u t ht hu => ?_) (markOrder o) s hn
  · rw [markOrder_count] at hacts
    exact congrArg Prod.fst hacts
  · rw [hstraps]
    cases t with
    | miss => exact absurd rfl ht
    | roster => rw [show u.markTask true x b y .roster = u.rosterOwnMark from rfl,
        State.rosterOwnMark_entry u n hu]
    | slotAgent => 
      rw [State.markTask_slotAgent, show u.slotAgentMark.rsu = u.rsu from
        u.slotAgentMark_changes .rsu (by decide)]
    | queue => rfl

/-- The own MARK at the four: the course and the station flags change by the Roster Unit's step alone. -/
theorem State.ownTasks_course (x : StationNo) (b : Word) (y : Option StationNo) (o : Fin 24)
    (s : State) :
    let t := (markOrder o).foldl (State.markTask true x b y) s
    t.rsu.course = ownMarkCourse s.rsu.course ∧
      t.stationFlags = s.stationFlags ||| (if s.rsu.membership = .isolated then 1#9 else 0#9) := by
  intro t
  have hacts := foldl_acts
    (fun u : State => (u.rsu.course, u.stationFlags)) (State.markTask true x b y)
    (fun _ => True) .roster
    (fun e => (ownMarkCourse e.1, e.2 ||| (if e.1.1 = .isolated then 1#9 else 0#9)))
    (fun _ _ _ => trivial)
    (fun u _ => Prod.ext u.rosterOwnMark_course u.rosterOwnMark_flags)
    (fun u t ht _ => ?_) (markOrder o) s trivial
  · rw [markOrder_count] at hacts
    exact Prod.ext_iff.mp hacts
  · cases t with
    | roster => exact absurd rfl ht
    | miss =>
      cases y with
      | none => rfl
      | some y =>
        refine Prod.ext ?_ rfl
        show (u.rsu.onOther u.straps.stn y RosterEntry.miss).course = _
        rw [RosterUnit.onOther_keeps]
        rfl
    | slotAgent =>
      have hrsu : u.slotAgentMark.rsu = u.rsu := u.slotAgentMark_changes .rsu (by decide)
      have hflags : u.slotAgentMark.stationFlags = u.stationFlags :=
        u.slotAgentMark_changes .stationFlags (by decide)
      rw [State.markTask_slotAgent, hrsu, hflags]
    | queue => rfl

/-- What the own MARK that anchors leaves of the Roster Unit (R70, R84, R85, R88, R95). -/
theorem State.anchorMark_own (start : Instant) (f : MarkFields) (o : Fin 24) (s : State) :
    let t := s.anchorMark true start s.straps.stn f o
    (∀ n : StationNo, n ≠ 0 → n ≠ s.straps.stn → t.rsu.entry n =
        if s.mku.holder = some n then missTable (s.rsu.entry n) else s.rsu.entry n)
      ∧ t.rsu.course = ownMarkCourse s.rsu.course
      ∧ (s.rsu.membership = .isolated → t.stationFlags.getLsbD 0 = true) := by
  intro t
  let u := (s.onLnu (LineUnit.anchorAt start)).countMark f
  let y := s.mku.missedBy s.straps.stn s.straps.stn f.takeover
  have hu : (s.onLnu (LineUnit.anchorAt start)).changesOnly [.mku, .stationFlags] u :=
    State.countMark_changes f _
  have hrsu : u.rsu = s.rsu := hu .rsu (by decide)
  have hstraps : u.straps = s.straps := hu .straps (by decide)
  obtain ⟨hcourse, hflags⟩ := State.ownTasks_course s.straps.stn f.bitmap y o u
  refine ⟨fun n h0 hn => ?_, ?_, fun hm => ?_⟩
  · have hmiss : y = some n ↔ s.mku.holder = some n := by
      simp only [y, MarkUnit.missedBy, Option.filter_eq_some_iff]
      constructor
      · exact fun h => h.1
      · exact fun h => ⟨h, by simp [hn, Ne.symm hn]⟩
    have hentry := State.ownTasks_entry s.straps.stn f.bitmap y o n u h0 (hstraps ▸ hn)
    simp only [hmiss, hrsu] at hentry
    exact hentry
  · rw [hrsu] at hcourse
    exact hcourse
  · have : t.stationFlags = u.stationFlags ||| 1#9 := by
      rw [hrsu, if_pos hm] at hflags
      exact hflags
    simp [this]

/-- The course after the own MARK, by the membership state before it (R88, R95). -/
theorem ownMarkCourse_cases {u v : RosterUnit} (h : v.course = ownMarkCourse u.course) :
    (u.membership = .isolated → v.membership = .member) ∧
    (u.membership = .listening → sameCounts (countsTable u true) v
      ∧ v.membership = (if u.learnCount = 0 then .listening else .joining)) ∧
    (u.membership ≠ .listening → sameCounts u v) ∧
    (u.membership ≠ .listening → u.membership ≠ .isolated → v.membership = u.membership) := by
  simp only [RosterUnit.course] at h
  cases hm : u.membership with
  | listening =>
    by_cases h0 : u.learnCount = 0 <;>
      simp_all [ownMarkCourse, countsTable, sameCounts]
  | _ => simp_all [ownMarkCourse, sameCounts]

/-- Settles O11. -/
theorem ownMarkAnchorsRound : Obligations.OwnMarkAnchorsRound := by
  intro p start x f k o s hr htx
  have hexec : exec (.cleanMark .own o) s = .next (s.ownMarkHeard o) := event_next _ hr
  let u := (s.onLnu LineUnit.endTx).onMku fun m => { m with ownMark := .none }
  have hu : s.changesOnly [.lnu, .mku] u :=
    (State.onLnu_changes _ s).seq (State.onMku_changes _ _) (by decide) (by decide)
  have hheard : s.ownMarkHeard o =
      if s.lnu.anchors start then u.anchorMark true start u.straps.stn f o else u := by
    rw [State.ownMarkHeard, LineUnit.ownMark_eq htx]
    rfl
  refine ⟨fun h => ⟨_, hexec, ?_⟩, fun h => ⟨_, hexec, ?_⟩⟩
  · rw [← State.anchors_iff] at h
    rw [hheard, if_neg h]
    exact ⟨LineUnit.endTx_eq htx, rfl, hu⟩
  · rw [hheard, if_pos ((State.anchors_iff s start).mpr h)]
    obtain ⟨hlnu, hmku, hslip, -⟩ := State.anchorMark_spec true start u.straps.stn f o u
    obtain ⟨hentry, hcourse, hjoined⟩ := State.anchorMark_own start f o u
    obtain ⟨hisolated, hlistening, hcounts, hstays⟩ := ownMarkCourse_cases hcourse
    refine ⟨hlnu, ?_, ?_, ?_, hentry, fun hm => ⟨hisolated hm, hjoined hm⟩, hlistening, hcounts,
      fun hm => hstays ?_ ?_, hu.seq (State.anchorMark_changes _ _ _ _ _ u) (by decide) (by decide)⟩
    · rw [hmku]; rfl
    · rw [hmku]; exact roundCounted_adoptCount _ _
    · rw [hmku]; exact hslip
    · intro (h : s.rsu.membership = .listening)
      simp [State.onDuty, h] at hm
    · intro (h : s.rsu.membership = .isolated)
      simp [State.onDuty, h] at hm

end Sys2Proof.Machine
end

section
/-! The start of a Data Slot (O18): the cell the part sends, what the engine's answer leaves of its stream,
and the expectation of every Listen Stream. -/

namespace Sys2Proof.Machine

open Sys2Proof

/-! ### The engine's answer (R124, R125) -/

theorem Stream.answer_kind (st : Stream) : st.answer.1 = slotKindTable st := by
  unfold Stream.answer slotKindTable
  by_cases hs : st.state = .running ∨ st.state = .acquiring
  · cases hp : st.priming
    · cases hf : st.fifo with
      | nil => cases hc : st.walker.caughtUp <;> simp [hs]
      | cons e es => simp [hs]
    · simp [hs]
  · simp [hs]

/-- The answer leaves every configuration alone. -/
theorem Stream.answer_cfg (st : Stream) : st.answer.2.cfg = st.cfg := st.steady_answer.cfg

/-- What each answer leaves of its stream: the word-on-the-line mark for DATA, the underrun for FILL. -/
theorem Stream.answer_table (st : Stream) :
    match slotKindTable st with
    | .data _ _ => st.answer.2 = { st with wordOnLine := true }
    | .keep => st.answer.2 = st
    | .fill => countsOne st.fills st.answer.2.fills
        ∧ countsOne st.walker.tally st.answer.2.walker.tally
        ∧ st.answer.2 = { st with
            fills := st.answer.2.fills
            flags := st.flags ||| 0x04#8
            walker := { st.walker with tally := st.answer.2.walker.tally } } := by
  unfold Stream.answer slotKindTable
  by_cases hs : st.state = .running ∨ st.state = .acquiring
  · cases hp : st.priming
    · cases hf : st.fifo with
      | nil =>
        cases hc : st.walker.caughtUp
        · simp only [hs, and_self, if_true, Bool.false_eq_true, if_false, Stream.raise,
            Stream.onWalker, Walker.addTally, hc]
          exact ⟨countsOne_satAdd _, countsOne_satAdd _, rfl⟩
        · simp [hs]
      | cons e es => simp [hs]
    · simp [hs]
  · simp [hs]

theorem State.graceExpired_iff (s : State) (k : StreamNo) :
    s.streams[k].graceExpired s.mku.count = true ↔ s.graceOut k := by
  simp [Stream.graceExpired, State.graceOut, and_assoc]

/-! ### A release trigger and the other streams -/

/-- What a release trigger of stream `k` leaves of stream `j`: the report of the changed map, and for `k`
itself SHORT Cleared and, where it had no own entry, the report that none remain (R39, R40). -/
theorem State.releaseTrigger_get (k j : StreamNo) (s : State) :
    (s.releaseTrigger k).streams[j.val] =
      let r := reportMap s.mku.count s.slotMap (s.mapEntries (SlotEntry.trigger k)).slotMap j
        s.streams[j.val]
      let r' : Stream := { r with short := false }
      if j = k then (if ownCount s.slotMap k = 0 then r'.onNoneRemain else r') else r := by
  let v := (allSlots.filter fun i => s.slotMap[i].isClaimingFor k).foldl
    (fun s i => s.withdrawIfQueued i .gone) s
  let u := (v.mapEntries (SlotEntry.trigger k)).onStream k fun st => { st with short := false }
  have he : s.releaseTrigger k =
      if ownCount s.slotMap k == 0 then
        (u.offerAll (allSlots.filter fun i => s.slotMap[i].isMineFor k)).onStream k
          Stream.onNoneRemain
      else u.offerAll (allSlots.filter fun i => s.slotMap[i].isMineFor k) := rfl
  obtain ⟨hmap, hmku⟩ := withdrawFold_keeps
    (allSlots.filter fun i => s.slotMap[i].isClaimingFor k) .gone s
  have hstreams : v.streams = s.streams := withdrawFold_streams _ .gone s
  have hslot : (v.mapEntries (SlotEntry.trigger k)).slotMap =
      (s.mapEntries (SlotEntry.trigger k)).slotMap :=
    congrArg (fun m : Vector SlotEntry 48 => Vector.ofFn fun i : SlotNo => m[i].trigger k) hmap
  have hv : (v.mapEntries (SlotEntry.trigger k)).streams[j.val] =
      reportMap s.mku.count s.slotMap (s.mapEntries (SlotEntry.trigger k)).slotMap j
        s.streams[j.val] := by
    rw [State.mapEntries_stream, hslot, hmap, hmku, hstreams]
  rw [he]
  simp only [beq_iff_eq]
  by_cases hj : j = k
  · subst hj
    split <;> simp only [State.onStream_get, State.offerAll_streams, u, if_true, hv]
  · split <;> simp only [State.onStream_get, State.offerAll_streams, u, hj, if_false, hv]

theorem State.releaseTrigger_cfg (k j : StreamNo) (s : State) :
    (s.releaseTrigger k).streams[j.val].cfg = s.streams[j.val].cfg := by
  rw [State.releaseTrigger_get]
  dsimp only
  split_ifs <;> simp

theorem State.stopTalk_cfg (k j : StreamNo) (c : StopCause) (s : State) :
    (s.stopTalk k c).streams[j.val].cfg = s.streams[j.val].cfg := by
  rw [State.stopTalk, State.releaseTrigger_cfg, State.onStream_get]
  split <;> simp [*]

/-- The stop request of a Talk Stream leaves its FIFO alone. -/
theorem Stream.stopRequest_fifo {st : Stream} (ht : st.isTalk = true) :
    st.stopRequest.fifo = st.fifo := by
  have hsettle (st : Stream) (ht : st.isTalk = true) : st.settle.fifo = st.fifo := by
    unfold Stream.settle
    simp only [ht]
    split_ifs <;> simp_all
  unfold Stream.stopRequest
  split
  · simp
  · rfl
  · exact hsettle _ ht
  · exact hsettle _ ht

theorem Stream.beginStop_table (c : StopCause) {st : Stream} (ht : st.isTalk = true) :
    (st.beginStop c).cause = c ∧ (st.beginStop c).fifo = [] ∧ (st.beginStop c).priming = false := by
  unfold Stream.beginStop
  refine ⟨by simp, ?_, by simp⟩
  rw [Stream.stopRequest_fifo]
  · rfl
  · exact ht

/-- What a stop leaves of its own stream beside its state: the cause, and nothing in the FIFO (R129). -/
theorem State.stopTalk_stream (k : StreamNo) (c : StopCause) (s : State)
    (ht : s.streams[k].isTalk = true) :
    let st := (s.stopTalk k c).streams[k.val]
    st.cause = c ∧ st.fifo = [] ∧ st.priming = false := by
  obtain ⟨hcause, hfifo, hpriming⟩ := Stream.beginStop_table c ht
  simp only [Fin.getElem_fin] at hcause hfifo hpriming
  intro st
  have hst : st = _ := State.releaseTrigger_get k k (s.onStream k (Stream.beginStop c))
  rw [hst]
  simp only [State.onStream_get, if_true]
  split <;> simp [hcause, hfifo, hpriming]

/-! ### The cell of a Data Slot (R24) -/

/-- The cell of a Data Slot on the line, as the statements write it. -/
theorem State.sendSlotCell_lnu (i : SlotNo) (a : Instant) (g : Tag) (d : DataKind)
    (k : Option StreamNo) (s : State) :
    (s.sendSlotCell i a g d k).lnu = { s.lnu with
      tx := some ⟨.dataSlot i, a + (1 + i.val) * 96, .inSlot s.straps.stn g d, k⟩
      driving := true } := rfl

/-- A stream whose grace has run out is asked nothing: it sends KEEP (R129). -/
theorem State.graceOut_keep {s : State} {k : StreamNo} (h : s.graceOut k) :
    slotKindTable s.streams[k] = .keep := by
  have hs : ¬ ((s.streams[k].state = .running ∨ s.streams[k].state = .acquiring)
      ∧ s.streams[k].priming = false) := by
    rw [h.2.1]
    simp
  exact if_neg hs

theorem State.askEngine_grace {s : State} {k : StreamNo} (i : SlotNo) (a : Instant) (g : Tag)
    (h : s.graceOut k) :
    s.askEngine i a g k = (s.sendSlotCell i a g .keep (some k)).stopTalk k .drain := by
  rw [State.askEngine, if_pos ((State.graceExpired_iff s k).mpr h)]

theorem State.askEngine_answer {s : State} {k : StreamNo} (i : SlotNo) (a : Instant) (g : Tag)
    (h : ¬ s.graceOut k) :
    s.askEngine i a g k = (s.sendSlotCell i a g (slotKindTable s.streams[k]) (some k)).onStream k
      fun st => st.answer.2 := by
  rw [State.askEngine, if_neg fun hg => h ((State.graceExpired_iff s k).mp hg), Stream.answer_kind]

theorem State.askEngine_lnu (i : SlotNo) (a : Instant) (g : Tag) (k : StreamNo) (s : State) :
    (s.askEngine i a g k).lnu =
      (s.sendSlotCell i a g (slotKindTable s.streams[k]) (some k)).lnu := by
  by_cases h : s.graceOut k
  · rw [State.askEngine_grace i a g h, State.graceOut_keep h]
    exact State.stopTalk_changes k .drain _ .lnu (by decide)
  · rw [State.askEngine_answer i a g h]
    rfl

/-- Handing a cell leaves every configuration alone. -/
theorem State.handSlotCell_cfg (i : SlotNo) (a : Instant) (j : StreamNo) (s : State) :
    (s.handSlotCell i a).streams[j.val].cfg = s.streams[j.val].cfg := by
  unfold State.handSlotCell
  split
  · rename_i g k _
    by_cases h : s.graceOut k
    · rw [State.askEngine_grace i a g h, State.stopTalk_cfg]
      rfl
    · rw [State.askEngine_answer i a g h, State.onStream_get]
      split
      · rename_i hj
        rw [Stream.answer_cfg, hj]
        rfl
      · rfl
  all_goals rfl

theorem Stream.setExpect_talk {e : SlotEntry} {st : Stream} (h : st.isTalk = true) :
    st.setExpect e = st := if_pos h

theorem Stream.setExpect_listen {e : SlotEntry} {st : Stream} (h : st.isTalk = false) :
    ((st.setExpect e).expect = true ↔ ∃ x g n, e = .held x g n ∧ st.cfg.passes g = true)
      ∧ st.setExpect e = { st with expect := (st.setExpect e).expect } := by
  unfold Stream.setExpect
  rw [if_neg (by simp [h])]
  exact ⟨by cases e <;> simp, rfl⟩

theorem State.handSlotCell_none {i : SlotNo} {s : State} (a : Instant)
    (hmine : ∀ g k, s.slotMap[i] ≠ .mine g k) (hrel : ∀ g k q, s.slotMap[i] ≠ .releasing g k q) :
    s.handSlotCell i a = s := by
  unfold State.handSlotCell
  split
  · rename_i h
    exact absurd h (hmine _ _)
  · rename_i h
    exact absurd h (hrel _ _ _)
  all_goals rfl

theorem State.handSlotCell_releasing {i : SlotNo} {s : State} (a : Instant) {g : Tag} {k : StreamNo}
    {q : Bool} (h : s.slotMap[i] = .releasing g k q) :
    s.handSlotCell i a = s.sendSlotCell i a g .keep none := by
  rw [State.handSlotCell, h]

theorem State.handSlotCell_mine {i : SlotNo} {s : State} (a : Instant) {g : Tag} {k : StreamNo}
    (h : s.slotMap[i] = .mine g k) : s.handSlotCell i a = s.askEngine i a g k := by
  rw [State.handSlotCell, h]

/-- Only the engine's answer reaches a stream: where the entry is not MINE each is as before. -/
theorem State.handSlotCell_streams {i : SlotNo} {s : State} (a : Instant)
    (hmine : ∀ g k, s.slotMap[i] ≠ .mine g k) : (s.handSlotCell i a).streams = s.streams := by
  unfold State.handSlotCell
  split
  · rename_i h
    exact absurd h (hmine _ _)
  all_goals rfl

/-- The start of a Data Slot in a Round: the cell handed, then the expectations (R24, R145). -/
theorem State.dataSlotStart_eq {s : State} {a : Instant} (i : SlotNo) (hs : s.lnu.sync = .synced)
    (hw : s.lnu.windowOpen = false) (ha : s.lnu.anchor = some a) :
    s.dataSlotStart i = (s.handSlotCell i a).onStreams fun _ => Stream.setExpect s.slotMap[i] := by
  have hround : s.lnu.inRound = true := by
    simp [LineUnit.inRound, (LineUnit.isSynced_iff _).mpr hs, hw]
  rw [State.dataSlotStart, hround, ha]

/-- What the start of a Data Slot leaves of a MINE entry's stream and of the state, while its grace has
not run out (R124, R125). -/
theorem State.askEngine_stream {s : State} {k : StreamNo} (i : SlotNo) (a : Instant) (g : Tag)
    (h : ¬ s.graceOut k) :
    (s.askEngine i a g k).streams[k] = s.streams[k].answer.2
      ∧ s.changesOnly [.lnu, .streams] (s.askEngine i a g k) := by
  rw [State.askEngine_answer i a g h]
  refine ⟨?_, (State.onLnu_changes _ s).seq (State.onStream_changes _ _ _) (by decide) (by decide)⟩
  rw [Fin.getElem_fin, State.onStream_get, if_pos rfl]
  rfl

/-- Settles O18: the entry decides the cell, and the stream it names takes the answer. -/
theorem dataSlotStartSendsAndExpects : Obligations.DataSlotStartSendsAndExpects := by
  intro i a s hr hs hw ha
  refine ⟨s.dataSlotStart i, event_next _ hr, ?_⟩
  rw [State.dataSlotStart_eq i hs hw ha]
  generalize hu : s.handSlotCell i a = u
  have hget (j : StreamNo) : (u.onStreams fun _ => Stream.setExpect s.slotMap[i]).streams[j] =
      u.streams[j].setExpect s.slotMap[i] := State.onStreams_get j _ u
  have hcfg (j : StreamNo) : u.streams[j].cfg = s.streams[j].cfg :=
    hu ▸ State.handSlotCell_cfg i a j s
  have hexpect {ps qs : List StatePart} (h : s.changesOnly ps u) (hp : ps ⊆ qs)
      (hq : StatePart.streams ∈ qs) :
      s.changesOnly qs (u.onStreams fun _ => Stream.setExpect s.slotMap[i]) :=
    h.seq (State.onStreams_changes _ _) hp (by simpa using hq)
  refine ⟨fun hmine hrel => ?_, fun g k q he => ?_, fun g k he => ⟨?_, fun hg => ?_,
    fun hg ht => ?_, fun hg => ?_⟩, fun j hj => ?_⟩
  · rw [State.handSlotCell_none a hmine hrel] at hu
    subst hu
    exact hexpect (State.changesOnly.refl [] s) (by decide) (by decide)
  · rw [State.handSlotCell_releasing a he] at hu
    subst hu
    exact ⟨rfl, hexpect (State.onLnu_changes _ s) (by decide) (by decide)⟩
  · rw [State.handSlotCell_mine a he] at hu
    exact hu ▸ State.askEngine_lnu i a g k s
  · rw [State.handSlotCell_mine a he] at hu
    exact hexpect (hu ▸ (State.askEngine_stream i a g hg).2) (by decide) (by decide)
  · rw [State.handSlotCell_mine a he] at hu
    have hk : u.streams[k] = s.streams[k].answer.2 := hu ▸ (State.askEngine_stream i a g hg).1
    rw [hget k, Stream.setExpect_talk ((Stream.isTalk_congr (hcfg k)).trans ht), hk]
    exact Stream.answer_table s.streams[k]
  · rw [State.handSlotCell_mine a he, State.askEngine_grace i a g hg] at hu
    have hk := hget k
    rw [Stream.setExpect_talk ((Stream.isTalk_congr (hcfg k)).trans hg.1)] at hk
    subst hu
    obtain ⟨hcause, hfifo, hpriming⟩ :=
      State.stopTalk_stream k .drain (s.sendSlotCell i a g .keep (some k)) hg.1
    obtain ⟨hmap, hheld, hshort⟩ := State.releaseTrigger_released k
      ((s.sendSlotCell i a g .keep (some k)).onStream k (Stream.beginStop .drain))
    rw [hk]
    refine ⟨hcause, State.stopTalk_begun k (s.sendSlotCell i a g .keep (some k)) .drain hg.1,
      hfifo, hpriming, ⟨hmap, ?_, ?_⟩, ?_⟩
    · rw [hk]; exact hheld
    · rw [hk]; exact hshort
    · exact hexpect ((State.onLnu_changes _ s).seq (State.stopTalk_changes _ _ _)
        (rs := [.lnu, .slotMap, .ccq, .streams]) (by decide) (by decide)) (by decide) (by decide)
  · obtain ⟨hiff, heq⟩ := Stream.setExpect_listen (e := s.slotMap[i])
      ((Stream.isTalk_congr (hcfg j)).trans hj)
    rw [hget j]
    refine ⟨by rw [hiff, hcfg j], fun hmine => ?_⟩
    have hsame : u.streams[j] = s.streams[j] := by
      rw [← hu, State.handSlotCell_streams a hmine]
    rw [← hsame]
    exact heq

end Sys2Proof.Machine
end

section
/-! A duplicate-address sighting (O33): the garbled position, the wipe of the own entries, and the faults
of the Talk Streams. -/

namespace Sys2Proof.Machine

open Sys2Proof

/-! ### One Talk Stream at the duplicate notice (R135) -/

/-- The walker's stop in FAULTED changes neither the engine's state nor its flags. -/
theorem Stream.stopRequest_faulted {st : Stream} (ht : st.isTalk = true) (hs : st.state = .faulted) :
    st.stopRequest.state = .faulted ∧ st.stopRequest.flags = st.flags := by
  have hdone (st : Stream) (ht : st.isTalk = true) (hs : st.state = .faulted) :
      st.onStopDone.state = .faulted ∧ st.onStopDone.flags = st.flags := by
    unfold Stream.onStopDone
    rw [if_pos ht, hs]
    exact ⟨rfl, rfl⟩
  have hsettle (st : Stream) (ht : st.isTalk = true) (hs : st.state = .faulted) :
      st.settle.state = .faulted ∧ st.settle.flags = st.flags := by
    unfold Stream.settle
    simp only [ht, Bool.not_true, Bool.false_eq_true, false_and, if_false, if_true]
    split
    · split
      · exact hdone _ ht hs
      · exact ⟨hs, rfl⟩
    · exact ⟨hs, rfl⟩
  unfold Stream.stopRequest
  split
  · exact hdone st ht hs
  · exact ⟨hs, rfl⟩
  · exact hsettle _ ht hs
  · exact hsettle _ ht hs

/-- FAULT raised is flag 6. -/
theorem Stream.raise_fault (st : Stream) : (st.raise .fault).flags.getLsbD 6 = true := by
  simp [Stream.raise, StreamEvent.bit]

/-- A Talk Stream at the duplicate notice: FAULTED with cause DUPLICATE, with FAULT raised, and an empty
FIFO where it was started (R135). -/
theorem Stream.duplicateFault_table {st : Stream} (ht : st.isTalk = true)
    (h0 : st.state ≠ .stopped) (hf : st.state ≠ .faulted) :
    let r := st.duplicateFault
    r.state = .faulted ∧ r.cause = .duplicate ∧ r.flags.getLsbD 6 = true
      ∧ (st.state ≠ .stopping → r.fifo = []) := by
  let x : Stream := ({ st.emptyFifo with
    state := .faulted, cause := .duplicate, priming := false, walkerQuiet := false }).raise .fault
  have hxt : x.isTalk = true := ht
  have started (he : st.duplicateFault = x.stopRequest) : let r := st.duplicateFault
      r.state = .faulted ∧ r.cause = .duplicate ∧ r.flags.getLsbD 6 = true
        ∧ (st.state ≠ .stopping → r.fifo = []) := by
    obtain ⟨hs, hflags⟩ := Stream.stopRequest_faulted hxt rfl
    dsimp only
    rw [he]
    exact ⟨hs, by simp [x], by rw [hflags]; exact Stream.raise_fault _,
      fun _ => (Stream.stopRequest_fifo hxt).trans rfl⟩
  cases hs : st.state with
  | stopped => exact absurd hs h0
  | faulted => exact absurd hs hf
  | stopping =>
    have he : st.duplicateFault =
        ({ st with state := .faulted, cause := .duplicate } : Stream).raise .fault := by
      simp [Stream.duplicateFault, ht, hs]
    rw [he]
    exact ⟨rfl, rfl, Stream.raise_fault _, fun h => absurd rfl h⟩
  | _ =>
    rw [← hs]
    exact started (by simp [Stream.duplicateFault, ht, hs, x])

/-- The duplicate notice with the release trigger that finds no entry, at one stream (R39, R135). -/
def Stream.duplicateNotice (st : Stream) : Stream :=
  if st.isTalk ∧ st.state ≠ .stopped ∧ st.state ≠ .faulted then
    ({ st.duplicateFault with short := false } : Stream).onNoneRemain
  else st

theorem Stream.duplicateNotice_faults {st : Stream} (ht : st.isTalk = true)
    (h0 : st.state ≠ .stopped) (hf : st.state ≠ .faulted) :
    let r := st.duplicateNotice
    r.state = .faulted ∧ r.cause = .duplicate ∧ r.flags.getLsbD 6 = true
      ∧ (st.state ≠ .stopping → r.fifo = []) := by
  obtain ⟨hs, hrest⟩ := Stream.duplicateFault_table ht h0 hf
  have hnone : ({ st.duplicateFault with short := false } : Stream).onNoneRemain =
      { st.duplicateFault with short := false } := by
    rw [Stream.onNoneRemain, if_neg]
    simp [hs]
  dsimp only
  rw [Stream.duplicateNotice, if_pos ⟨ht, h0, hf⟩, hnone]
  exact ⟨hs, hrest⟩

theorem Stream.duplicateNotice_rest {st : Stream} (h : st.state = .stopped ∨ st.state = .faulted) :
    st.duplicateNotice = st := by
  rw [Stream.duplicateNotice, if_neg]
  rcases h with h | h <;> simp [h]

theorem Stream.duplicateNotice_held (st : Stream) : st.duplicateNotice.held = st.held := by
  unfold Stream.duplicateNotice
  split <;> simp

/-! ### The notices after the wipe -/

/-- No own entry is left, and every held count says so. -/
def State.Emptied (s : State) : Prop :=
  (∀ i : SlotNo, s.slotMap[i.val].isOwn = false) ∧ ∀ k : StreamNo, s.streams[k.val].held = 0

theorem SlotEntry.stream_none {e : SlotEntry} (h : e.isOwn = false) : e.stream? = none := by
  simpa [SlotEntry.isOwn] using h

/-- Without own entries no entry is counted for a stream. -/
theorem State.Emptied.counts {s : State} (h : s.Emptied) (k : StreamNo) :
    mineCount s.slotMap k = 0 ∧ ownCount s.slotMap k = 0 := by
  refine ⟨mineCount_zero fun i => ?_, (ownCount_zero _ _).mpr fun i => ?_⟩
  · have hi := h.1 i
    revert hi
    cases s.slotMap[i.val] <;> simp [SlotEntry.isOwn, SlotEntry.stream?, SlotEntry.isMineFor]
  · rw [Fin.getElem_fin, SlotEntry.stream_none (h.1 i)]
    simp

/-- A release trigger leaves entries that are not own alone. -/
theorem SlotEntry.trigger_foreign {e : SlotEntry} (k : StreamNo) (h : e.isOwn = false) :
    e.trigger k = e := by
  cases e <;> simp_all [SlotEntry.isOwn, SlotEntry.stream?, SlotEntry.trigger]

theorem State.offerAll_nil (s : State) : s.offerAll [] = s := rfl

/-- A release trigger that finds no own entry reaches its own stream alone (R39, R40). -/
theorem State.Emptied.releaseTrigger {s : State} (h : s.Emptied) (k : StreamNo) :
    (s.releaseTrigger k).slotMap = s.slotMap ∧ (s.releaseTrigger k).ccq = s.ccq
      ∧ ∀ j : StreamNo, (s.releaseTrigger k).streams[j.val] =
          if j = k then ({ s.streams[j.val] with short := false } : Stream).onNoneRemain
          else s.streams[j.val] := by
  have hforeign (p : SlotEntry → Bool) (hp : ∀ e, e.isOwn = false → p e = false) :
      (allSlots.filter fun i => p s.slotMap[i]) = [] := by
    rw [List.filter_eq_nil_iff]
    intro i _
    simp [hp _ (h.1 i)]
  have hclaims := hforeign (·.isClaimingFor k) (fun e he => by
    cases e <;> simp_all [SlotEntry.isOwn, SlotEntry.stream?, SlotEntry.isClaimingFor])
  have hmine := hforeign (·.isMineFor k) (fun e he => by
    cases e <;> simp_all [SlotEntry.isOwn, SlotEntry.stream?, SlotEntry.isMineFor])
  have hmap : (s.mapEntries (SlotEntry.trigger k)).slotMap = s.slotMap := by
    refine Vector.ext fun i hi => ?_
    have hi' := State.mapEntries_get (SlotEntry.trigger k) ⟨i, hi⟩ s
    exact hi'.trans (SlotEntry.trigger_foreign k (h.1 ⟨i, hi⟩))
  have hreport (j : StreamNo) :
      reportMap s.mku.count s.slotMap s.slotMap j s.streams[j.val] = s.streams[j.val] := by
    obtain ⟨hm, ho⟩ := h.counts j
    simp [reportMap, hm, ho, h.2 j]
  refine ⟨?_, ?_, fun j => ?_⟩
  · unfold State.releaseTrigger
    simp only [hclaims, hmine, List.foldl_nil, State.offerAll_nil]
    split <;> simp only [State.onStream_slotMap, hmap]
  · unfold State.releaseTrigger
    simp only [hclaims, hmine, List.foldl_nil, State.offerAll_nil]
    split <;> simp only [State.onStream_ccq, State.mapEntries_ccq]
  · rw [State.releaseTrigger_get, hmap, hreport j, (h.counts k).2]
    simp

/-- The duplicate notice at one stream, once no own entry is left. -/
theorem State.Emptied.faultDuplicate {s : State} (h : s.Emptied) (k : StreamNo) :
    (s.faultDuplicate k).slotMap = s.slotMap ∧ (s.faultDuplicate k).ccq = s.ccq
      ∧ ∀ j : StreamNo, (s.faultDuplicate k).streams[j.val] =
          if j = k then s.streams[j.val].duplicateNotice else s.streams[j.val] := by
  unfold State.faultDuplicate
  dsimp only
  split
  · rename_i hk
    have hfault : (s.onStream k Stream.duplicateFault).Emptied :=
      ⟨h.1, fun j => by rw [State.onStream_get]; split <;> simp [*, h.2]⟩
    obtain ⟨hmap, hccq, hstreams⟩ := hfault.releaseTrigger k
    refine ⟨hmap, hccq, fun j => ?_⟩
    rw [hstreams j, State.onStream_get]
    by_cases hj : j = k
    · subst hj
      rw [if_pos rfl, if_pos rfl, if_pos rfl, Stream.duplicateNotice]
      exact (if_pos hk).symm
    · rw [if_neg hj, if_neg hj, if_neg hj]
  · rename_i hk
    refine ⟨rfl, rfl, fun j => ?_⟩
    by_cases hj : j = k
    · subst hj
      rw [if_pos rfl, Stream.duplicateNotice]
      exact (if_neg hk).symm
    · rw [if_neg hj]

theorem State.Emptied.faultDuplicate_emptied {s : State} (h : s.Emptied) (k : StreamNo) :
    (s.faultDuplicate k).Emptied := by
  obtain ⟨hmap, -, hstreams⟩ := h.faultDuplicate k
  refine ⟨fun i => by rw [hmap]; exact h.1 i, fun j => ?_⟩
  rw [hstreams j]
  split
  · rw [Stream.duplicateNotice_held]; exact h.2 j
  · exact h.2 j

/-- The notices to all streams: each takes its own once, and map and queue stay. -/
theorem State.Emptied.notices {s : State} (h : s.Emptied) (k : StreamNo) :
    let t := allStreams.foldl State.faultDuplicate s
    t.slotMap = s.slotMap ∧ t.ccq = s.ccq ∧ t.streams[k.val] = s.streams[k.val].duplicateNotice := by
  intro t
  have hacts := foldl_acts (fun u : State => (u.slotMap, u.ccq, u.streams[k.val]))
    State.faultDuplicate State.Emptied k (fun x => (x.1, x.2.1, x.2.2.duplicateNotice))
    (fun u j hu => hu.faultDuplicate_emptied j)
    (fun u hu => by
      obtain ⟨hmap, hccq, hstreams⟩ := hu.faultDuplicate k
      rw [hmap, hccq, hstreams k, if_pos rfl])
    (fun u j hj hu => by
      obtain ⟨hmap, hccq, hstreams⟩ := hu.faultDuplicate j
      rw [hmap, hccq, hstreams k, if_neg (Ne.symm hj)])
    allStreams s h
  have hcount : allStreams.count k = 1 :=
    List.count_eq_one_of_mem (List.nodup_finRange 8) (List.mem_finRange k)
  rw [hcount] at hacts
  simpa [Prod.ext_iff] using hacts

end Sys2Proof.Machine
end

section
/-! A duplicate-address sighting, the statement (O33). -/

namespace Sys2Proof.Machine

open Sys2Proof

/-! ### What the reports of the map leave of a Talk Stream's stage -/

/-- From `a` to `b` a stream stays started, STOPPING, or at rest, with its stop cause and its walker's
stop mark. -/
structure Stream.SameStage (a b : Stream) : Prop where
  cfg : b.cfg = a.cfg
  cause : b.cause = a.cause
  quiet : b.walkerQuiet = a.walkerQuiet
  started : a.state.started → b.state.started
  stopping : a.state = .stopping → a.walkerQuiet = false → b.state = .stopping
  ended : a.state = .stopped ∨ a.state = .faulted → b.state = a.state

theorem Stream.SameStage.refl (a : Stream) : a.SameStage a :=
  ⟨rfl, rfl, rfl, id, fun h _ => h, fun _ => rfl⟩

theorem Stream.SameStage.trans {a b c : Stream} (h₁ : a.SameStage b) (h₂ : b.SameStage c) :
    a.SameStage c where
  cfg := h₂.cfg.trans h₁.cfg
  cause := h₂.cause.trans h₁.cause
  quiet := h₂.quiet.trans h₁.quiet
  started h := h₂.started (h₁.started h)
  stopping h hq := h₂.stopping (h₁.stopping h hq) (h₁.quiet.trans hq)
  ended h := (h₂.ended (by rwa [h₁.ended h])).trans (h₁.ended h)

/-- A held-count report moves a stream among its started states only (R127). -/
theorem Stream.sameStage_onHeld (c : Word) (n : Nat) (st : Stream) : st.SameStage (st.onHeld c n) := by
  have moved (x : Stream) (hx : x.cfg = st.cfg ∧ x.cause = st.cause ∧ x.walkerQuiet = st.walkerQuiet)
      (h₁ : st.state.started) (h₂ : x.state.started) : st.SameStage x := by
    refine ⟨hx.1, hx.2.1, hx.2.2, fun _ => h₂, fun h => absurd h h₁.2.1, fun h => ?_⟩
    rcases h with h | h
    · exact absurd h h₁.1
    · exact absurd h h₁.2.2
  have stays : st.SameStage { st with
      held := n, short := st.short && n != st.cfg.wanted.toNat } :=
    ⟨rfl, rfl, rfl, id, fun h _ => h, fun _ => rfl⟩
  unfold Stream.onHeld
  dsimp only
  split
  · exact stays
  · split
    · rename_i h
      refine moved _ (by simp) (by simp [h.2.2, StreamState.started]) ?_
      unfold Stream.runOrDrain
      split <;> simp [StreamState.started]
    · split
      · rename_i h
        refine moved _ ⟨rfl, rfl, rfl⟩ ?_ (by simp [StreamState.started])
        rcases h.2.2 with h | h <;> simp [h, StreamState.started]
      · exact stays

/-- The report that none remain ends a stop only where the walker is quiet (R133). -/
theorem Stream.sameStage_onNoneRemain (st : Stream) : st.SameStage st.onNoneRemain := by
  unfold Stream.onNoneRemain
  split
  · rename_i h
    refine ⟨by simp, by simp, by simp, fun hs => absurd h.2 hs.2.1, fun hs hq => ?_, fun hs => ?_⟩
    · simp [Stream.finishStop, hq, hs]
    · rcases hs with hs | hs <;> simp [hs] at h
  · exact .refl st

theorem Stream.sameStage_reportMap (c : Word) (m m' : Vector SlotEntry 48) (k : StreamNo)
    (st : Stream) : st.SameStage (reportMap c m m' k st) := by
  have hheld : st.SameStage
      (if mineCount m' k = st.held then st else st.onHeld c (mineCount m' k)) := by
    split
    · exact .refl st
    · exact st.sameStage_onHeld c _
  unfold reportMap
  dsimp only
  split
  · exact hheld.trans (Stream.sameStage_onNoneRemain _)
  · exact hheld

/-! ### The garbled position of a sighting (R14, R29) -/

/-- A missed Data Slot touches a HELD entry of its own slot at most, and moves no stream's stage. -/
theorem State.missSlot_spec (i : SlotNo) (g : Bool) (s : State) :
    (∀ j : SlotNo, j ≠ i ∨ s.slotMap[j.val].isOwn = true →
        (s.missSlot i g).slotMap[j.val] = s.slotMap[j.val]) ∧
    ∀ k : StreamNo, s.streams[k.val].SameStage (s.missSlot i g).streams[k.val] := by
  let s₁ := if g then s.onCounters StationCounters.addCheckErr else s
  have hmap : s₁.slotMap = s.slotMap := by simp only [s₁]; split <;> rfl
  have hstreams : s₁.streams = s.streams := by simp only [s₁]; split <;> rfl
  have hset (e : SlotEntry) (h : s.slotMap[i.val].isOwn = false) :
      (∀ j : SlotNo, j ≠ i ∨ s.slotMap[j.val].isOwn = true →
        (s₁.setEntry i e).slotMap[j.val] = s.slotMap[j.val]) ∧
      ∀ k : StreamNo, s.streams[k.val].SameStage (s₁.setEntry i e).streams[k.val] := by
    refine ⟨fun j hj => ?_, fun k => ?_⟩
    · rw [State.setEntry_get, hmap, if_neg]
      rintro rfl
      simp [h] at hj
    · rw [State.setEntry_stream, hstreams]
      exact Stream.sameStage_reportMap _ _ _ _ _
  have hkeep : (∀ j : SlotNo, j ≠ i ∨ s.slotMap[j.val].isOwn = true →
        s₁.slotMap[j.val] = s.slotMap[j.val]) ∧
      ∀ k : StreamNo, s.streams[k.val].SameStage s₁.streams[k.val] :=
    ⟨fun j _ => by rw [hmap], fun k => by rw [hstreams]; exact .refl _⟩
  unfold State.missSlot
  dsimp only
  split
  · rename_i x t n he
    have hi : s.slotMap[i.val].isOwn = false := by
      have he' : s₁.slotMap[i.val] = .held x t n := he
      rw [hmap] at he'
      rw [he']
      rfl
    split
    · rename_i hn
      have hage : s₁.ageOut i =
          (s₁.setEntry i .free).onCounters StationCounters.addAged := by
        rw [State.ageOut]
        have he' : s₁.slotMap[i] = .held x t n := he
        rw [he']
        exact if_pos hn
      show (∀ j : SlotNo, j ≠ i ∨ s.slotMap[j.val].isOwn = true →
          (s₁.ageOut i).slotMap[j.val] = s.slotMap[j.val]) ∧
        ∀ k : StreamNo, s.streams[k.val].SameStage (s₁.ageOut i).streams[k.val]
      rw [hage]
      exact hset .free hi
    · exact hset _ hi
  · exact hkeep

theorem Stream.hearNothing_talk (c : Word) {st : Stream} (h : st.isTalk = true) :
    st.hearNothing c = st := if_pos h

/-- The fields that a garbled position changes. -/
abbrev garbleParts : List StatePart := [.lnu, .mku, .slotMap, .ccq, .streams, .counters]

theorem State.missedSlot_changes (i : SlotNo) (g : Bool) (s : State) :
    s.changesOnly garbleParts (s.missedSlot i g) :=
  ((State.missSlot_changes i g s).seq (State.onStreams_changes _ _) (rs := garbleParts) (by decide)
    (by decide)).trans ((State.onLnu_changes _ _).mono (by decide))

theorem State.garbledAt_changes (ended : Instant) (p : Position) (s : State) :
    s.changesOnly garbleParts (s.garbledAt ended p) := by
  cases p with
  | dataSlot i => exact State.missedSlot_changes i true s
  | markField => exact (State.garbledMark_changes ended s).mono (by decide)
  | openSlot w => exact (State.onLnu_changes _ s).mono (by decide)
  | outside => exact (State.onLnu_changes _ s).mono (by decide)

/-- What the garbled position of a sighting leaves of the map, of the own cell on the line and of a Talk
Stream's stage (R14, R29). -/
theorem State.garbledAt_spec (ended : Instant) (p : Position) (s : State) :
    let u := s.garbledAt ended p
    u.lnu.tx = s.lnu.tx ∧
    (∀ j : SlotNo, p ≠ .dataSlot j ∨ s.slotMap[j.val].isOwn = true →
      u.slotMap[j.val] = s.slotMap[j.val]) ∧
    ∀ k : StreamNo, s.streams[k.val].isTalk = true →
      s.streams[k.val].SameStage u.streams[k.val] := by
  intro u
  have hsame (hmap : u.slotMap = s.slotMap) (hstreams : u.streams = s.streams) :
      (∀ j : SlotNo, p ≠ .dataSlot j ∨ s.slotMap[j.val].isOwn = true →
        u.slotMap[j.val] = s.slotMap[j.val]) ∧
      ∀ k : StreamNo, s.streams[k.val].isTalk = true →
        s.streams[k.val].SameStage u.streams[k.val] :=
    ⟨fun j _ => by rw [hmap], fun k _ => by rw [hstreams]; exact .refl _⟩
  cases p with
  | dataSlot i =>
    obtain ⟨hmap, hstreams⟩ := State.missSlot_spec i true s
    refine ⟨?_, fun j hj => ?_, fun k hk => ?_⟩
    · have hlnu : (s.missSlot i true).lnu = s.lnu := State.missSlot_changes i true s .lnu (by decide)
      show (s.missSlot i true).lnu.tx = s.lnu.tx
      rw [hlnu]
    · exact hmap j (hj.imp_left fun h e => h (by rw [e]))
    · have hst := hstreams k
      have hget : u.streams[k.val] =
          (s.missSlot i true).streams[k.val].hearNothing s.mku.count := by
        simp [u, State.garbledAt, State.missedSlot]
      rw [hget, Stream.hearNothing_talk _ ((Stream.isTalk_congr hst.cfg).trans hk)]
      exact hst
  | markField =>
    have h := State.garbledMark_changes ended s
    refine ⟨?_, hsame (h .slotMap (by decide)) (h .streams (by decide))⟩
    show (s.garbledMark ended).lnu.tx = s.lnu.tx
    unfold State.garbledMark
    split <;> rfl
  | openSlot w => exact ⟨rfl, hsame rfl rfl⟩
  | outside => exact ⟨rfl, hsame rfl rfl⟩

/-! ### The sighting (R14, R96) -/

/-- The wipe and the notices of a sighting, block by block (R43, R58, R96, R135). -/
theorem State.duplicateSeen_spec (s : State) :
    let t := s.duplicateSeen
    (∀ i : SlotNo, t.slotMap[i.val] = s.slotMap[i.val].freeOwn)
      ∧ (∀ k : StreamNo, t.streams[k.val].held = 0)
      ∧ t.ccq.entries = [] ∧ t.ccq.turnOpen = false
      ∧ t.rsu = s.rsu.rest.setMembership s.straps.stn .dormant
      ∧ t.stationFlags = s.stationFlags ||| 0x20#9 ∧ t.lnu = s.lnu
      ∧ ∀ k : StreamNo, ∃ st, s.streams[k.val].SameStage st ∧
          t.streams[k.val] = st.duplicateNotice := by
  intro t
  obtain ⟨v, hv⟩ : ∃ v, v = ((s.onRsu RosterUnit.rest).setMembership .dormant).raise .duplicate :=
    ⟨_, rfl⟩
  obtain ⟨w, hwv⟩ : ∃ w, w = v.wipeOwn := ⟨_, rfl⟩
  have ht : t = allStreams.foldl State.faultDuplicate w := by rw [hwv, hv]; rfl
  clear_value t
  have hfree (i : SlotNo) : w.slotMap[i.val] = s.slotMap[i.val].freeOwn := by
    rw [hwv, State.wipeOwn, State.onCcq_slotMap, State.mapEntries_get, hv]
    rfl
  have hstream (k : StreamNo) : w.streams[k.val] = reportMap s.mku.count s.slotMap w.slotMap k
      s.streams[k.val] := by
    rw [hwv, State.wipeOwn, State.onCcq_slotMap, State.onCcq_streams, State.mapEntries_stream, hv]
    rfl
  have hnone (i : SlotNo) : w.slotMap[i.val].isOwn = false := by
    rw [hfree, SlotEntry.freeOwn]
    split
    · rfl
    · rename_i h
      simpa using h
  have hmine (k : StreamNo) : mineCount w.slotMap k = 0 := mineCount_zero fun i => by
    have hi := hnone i
    revert hi
    cases w.slotMap[i.val] <;> simp [SlotEntry.isOwn, SlotEntry.stream?, SlotEntry.isMineFor]
  have hw : w.Emptied := ⟨hnone, fun k => by rw [hstream k, reportMap_held, hmine k]⟩
  have hwt : w.changesOnly [.slotMap, .ccq, .streams] t := by
    rw [ht]
    exact State.changesOnly.foldl State.faultDuplicate State.faultDuplicate_changes allStreams w
  have hnotices (k : StreamNo) : t.slotMap = w.slotMap ∧ t.ccq = w.ccq ∧
      t.streams[k.val] = w.streams[k.val].duplicateNotice := by
    rw [ht]
    exact hw.notices k
  obtain ⟨hmap, hccq, -⟩ := hnotices 0
  refine ⟨fun i => by rw [hmap]; exact hfree i, fun k => ?_, by rw [hccq, hwv]; rfl,
    by rw [hccq, hwv]; rfl, (hwt .rsu (by decide)).trans (by rw [hwv, hv]; rfl),
    (hwt .stationFlags (by decide)).trans (by rw [hwv, hv]; rfl),
    (hwt .lnu (by decide)).trans (by rw [hwv, hv]; rfl), fun k => ?_⟩
  · rw [(hnotices k).2.2, Stream.duplicateNotice_held]
    exact hw.2 k
  · exact ⟨_, hstream k ▸ Stream.sameStage_reportMap _ _ _ _ _, (hnotices k).2.2⟩

/-- A sighting where it can be heard: the garbled position, then the Roster Unit (R14). -/
theorem State.sightingAt_eq {p : Position} {kind : CellKind} {ended : Instant} {s : State}
    (hstn : s.straps.stn ≠ 0) (htx : s.lnu.tx = none) (hkind : kind.allowedAt p = true)
    (hslot : (∃ i, p = .dataSlot i) ∨ (∃ w, p = .openSlot w) → s.lnu.sync = .synced)
    (hmark : p = .markField ∨ p = .outside → ∃ onset, ended = onset + 80 ∧ s.canAnchor onset) :
    s.sightingAt p kind ended = (s.garbledAt ended p).duplicateSeen := by
  have hanchor (h : p = .markField ∨ p = .outside) :
      s.lnu.anchors (ended - Config.cellTime) = true := by
    obtain ⟨onset, rfl, h⟩ := hmark h
    exact (State.anchors_iff s onset).mpr h
  have hpos : s.lnu.hasPosition ended p = true := by
    cases p with
    | dataSlot i => exact (LineUnit.isSynced_iff _).mpr (hslot (.inl ⟨i, rfl⟩))
    | openSlot w => exact (LineUnit.isSynced_iff _).mpr (hslot (.inr ⟨w, rfl⟩))
    | markField => exact hanchor (.inl rfl)
    | outside => exact hanchor (.inr rfl)
  rw [State.sightingAt, hpos, if_neg (by simp), if_pos hkind, State.sighting, if_neg]
  rw [htx]
  simpa using hstn

/-- Settles O33. -/
theorem duplicateSilencesStation : Obligations.DuplicateSilencesStation := by
  intro p kind ended s hr hstn htx hkind hslot hmark
  have hexec : exec (.duplicateAddressSighting p kind ended) s =
      .next (s.sightingAt p kind ended) := event_next _ hr
  refine ⟨_, hexec, ?_⟩
  rw [State.sightingAt_eq hstn htx hkind hslot hmark]
  obtain ⟨htx', hmap, hstages⟩ := State.garbledAt_spec ended p s
  have hsame := State.garbledAt_changes ended p s
  have hrsu : (s.garbledAt ended p).rsu = s.rsu := hsame .rsu (by decide)
  have hstraps : (s.garbledAt ended p).straps = s.straps := hsame .straps (by decide)
  have hflags : (s.garbledAt ended p).stationFlags = s.stationFlags :=
    hsame .stationFlags (by decide)
  obtain ⟨hfree, hheld, hentries, hturn, hroster, hraised, hlnu, hnotices⟩ :=
    State.duplicateSeen_spec (s.garbledAt ended p)
  rw [hrsu, hstraps] at hroster
  have hkeeps := RosterUnit.setMembership_keeps s.straps.stn .dormant s.rsu.rest
  have hnotice (k : StreamNo) (hk : s.streams[k].isTalk = true) : ∃ st,
      s.streams[k].SameStage st ∧
      (s.garbledAt ended p).duplicateSeen.streams[k] = st.duplicateNotice := by
    obtain ⟨st, hst, heq⟩ := hnotices k
    exact ⟨st, (hstages k hk).trans hst, heq⟩
  refine ⟨?_, ?_, fun n hn => ?_, ?_, ?_, ?_, ?_, ?_, fun i hi => ?_, fun i hi hp => ?_, hheld,
    hentries, hturn, fun k hk hs => ?_, fun k hk hs hq => ?_, fun k hk hs => ?_, ?_⟩
  · rw [hroster, RosterUnit.setMembership_membership]
  · rw [hroster, RosterUnit.setMembership_entry, if_pos ⟨rfl, hstn⟩]
    rfl
  · rw [hroster, RosterUnit.setMembership_entry, if_neg fun h => hn h.1]
    rfl
  · rw [hroster, hkeeps]; rfl
  · rw [hroster, hkeeps]; rfl
  · rw [hroster, hkeeps]; rfl
  · rw [hroster, hkeeps]; rfl
  · rw [hraised, hflags]
  · rw [Fin.getElem_fin, hfree i, hmap i (.inr hi), SlotEntry.freeOwn]
    exact if_pos hi
  · rw [Fin.getElem_fin, hfree i, hmap i (.inl hp), SlotEntry.freeOwn]
    exact if_neg (by simpa using hi)
  · obtain ⟨st, hst, heq⟩ := hnotice k hk
    have hstarted : st.state.started := hst.started (by
      rcases hs with hs | hs | hs | hs <;> simp only [StreamState.started, hs] <;> decide)
    obtain ⟨h1, h2, h3, h4⟩ := Stream.duplicateNotice_faults
      ((Stream.isTalk_congr hst.cfg).trans hk) hstarted.1 hstarted.2.2
    rw [heq]
    exact ⟨h1, h2, h3, h4 hstarted.2.1⟩
  · obtain ⟨st, hst, heq⟩ := hnotice k hk
    have hstopping := hst.stopping hs hq
    obtain ⟨h1, h2, h3, -⟩ := Stream.duplicateNotice_faults
      ((Stream.isTalk_congr hst.cfg).trans hk) (by simp [hstopping]) (by simp [hstopping])
    rw [heq]
    exact ⟨h1, h2, h3⟩
  · obtain ⟨st, hst, heq⟩ := hnotice k hk
    have hended := hst.ended hs.symm
    rw [heq, Stream.duplicateNotice_rest (by rw [hended]; exact hs.symm)]
    exact ⟨hended, hst.cause⟩
  · rw [hlnu, htx', htx]

end Sys2Proof.Machine
end

section
/-! The check as a polynomial remainder (O52, R6). -/

namespace Sys2Proof

open Polynomial

/-! ### Bits as polynomials over the field of two elements -/

/-- The polynomial whose coefficients are the low `n` bits of a number. -/
noncomputable def bitsPoly (n v : Nat) : (ZMod 2)[X] :=
  ∑ i ∈ Finset.range n, if v.testBit i then X ^ i else 0

/-- A bit as a coefficient. -/
noncomputable def bitPoly (b : Bool) : (ZMod 2)[X] := if b then 1 else 0

/-- The generator of R6. -/
noncomputable def crcGenerator : (ZMod 2)[X] := X ^ 8 + X ^ 2 + X + 1

theorem two_eq_zero_poly : (2 : (ZMod 2)[X]) = 0 := CharTwo.two_eq_zero

theorem bitPoly_xor (a b : Bool) : bitPoly (a ^^ b) = bitPoly a + bitPoly b := by
  cases a <;> cases b <;> simp [bitPoly, CharTwo.add_self_eq_zero]

theorem bitsPoly_bits {w : Nat} (n : Nat) (v : BitVec w) :
    bitsPoly n v.toNat = ∑ i ∈ Finset.range n, bitPoly (v.getLsbD i) * X ^ i := by
  refine Finset.sum_congr rfl fun i _ => ?_
  rw [BitVec.testBit_toNat, bitPoly]
  split <;> simp

theorem crcGenerator_monic : crcGenerator.Monic := by
  unfold crcGenerator
  monicity!

theorem crcGenerator_degree : crcGenerator.degree = 8 := by
  unfold crcGenerator
  compute_degree!

theorem bitsPoly_degree (n v : Nat) : (bitsPoly n v).degree < n := by
  refine lt_of_le_of_lt (degree_sum_le _ _) ((Finset.sup_lt_iff (WithBot.bot_lt_coe n)).mpr ?_)
  intro i hi
  split
  · rw [degree_X_pow]
    exact Nat.cast_lt.mpr (Finset.mem_range.mp hi)
  · rw [degree_zero]
    exact WithBot.bot_lt_coe n

/-! ### One bit into the check -/

/-- Bit `i` of the check after one more bit: the bit below it, and the generator's where it is taken
off. -/
theorem crcStep_getLsbD (r : BitVec 8) (b : Bool) (i : Nat) (hi : i < 8) :
    (crcStep r b).getLsbD i =
      ((decide (0 < i) && r.getLsbD (i - 1)) ^^ ((r.msb ^^ b) && (0x07#8).getLsbD i)) := by
  unfold crcStep
  cases r.msb ^^ b <;> interval_cases i <;> simp

/-- One bit into the check multiplies by X, adds the bit at X^8 and takes the generator off where the
result has degree 8 (R6). -/
theorem crcStep_poly (r : BitVec 8) (b : Bool) :
    bitsPoly 8 (crcStep r b).toNat =
      X * bitsPoly 8 r.toNat + bitPoly b * X ^ 8 + bitPoly (r.msb ^^ b) * crcGenerator := by
  have hmsb : r.msb = r.getLsbD 7 := rfl
  have hstep (i : Nat) (hi : i < 8) := crcStep_getLsbD r b i hi
  simp only [bitsPoly_bits, Finset.sum_range_succ, Finset.sum_range_zero]
  rw [hstep 0 (by decide), hstep 1 (by decide), hstep 2 (by decide), hstep 3 (by decide),
    hstep 4 (by decide), hstep 5 (by decide), hstep 6 (by decide), hstep 7 (by decide)]
  simp only [lt_self_iff_false, decide_false, zero_tsub, Nat.ofNat_pos, BitVec.getLsbD_eq_getElem,
    Bool.false_and, hmsb, Nat.lt_add_one, BitVec.reduceGetElem, Bool.and_true, Bool.false_bne,
    bitPoly_xor, pow_zero, mul_one, zero_add, Order.lt_one_iff, decide_true, tsub_self, Bool.true_and,
    Nat.one_lt_ofNat, pow_one, Order.lt_two_iff, zero_le, Nat.add_one_sub_one, Nat.reduceLT,
    Bool.and_false, Bool.bne_false, crcGenerator]
  linear_combination (-(bitPoly r[7] + bitPoly b) * X ^ 8) * two_eq_zero_poly

/-! ### The whole content -/

/-- The polynomial of a list of bits, the first the highest term. -/
noncomputable def highFirst : List Bool → (ZMod 2)[X]
  | [] => 0
  | b :: bs => bitPoly b * X ^ bs.length + highFirst bs

/-- The bits of a number from the highest down are its polynomial. -/
theorem highFirst_range (f : Nat → Bool) (n : Nat) :
    highFirst ((List.range n).map fun i => f (n - 1 - i)) =
      ∑ i ∈ Finset.range n, bitPoly (f i) * X ^ i := by
  induction n with
  | zero => simp [highFirst]
  | succ n ih =>
    have htail : ((List.range n).map Nat.succ).map (fun i => f (n + 1 - 1 - i)) =
        (List.range n).map fun i => f (n - 1 - i) := by
      rw [List.map_map]
      refine List.map_congr_left fun i _ => congrArg f ?_
      simp only [Nat.succ_eq_add_one]
      omega
    rw [List.range_succ_eq_map, List.map_cons, htail, highFirst, ih, Finset.sum_range_succ]
    simp [add_comm]

/-- Bits taken into the check one by one: a multiple of the generator away from the bits times X^8, with
the check before them moved up. -/
theorem crcFold_poly (bs : List Bool) (r : BitVec 8) :
    ∃ q : (ZMod 2)[X], bitsPoly 8 (bs.foldl crcStep r).toNat + crcGenerator * q =
      bitsPoly 8 r.toNat * X ^ bs.length + highFirst bs * X ^ 8 := by
  induction bs generalizing r with
  | nil => exact ⟨0, by simp [highFirst]⟩
  | cons b bs ih =>
    obtain ⟨q, hq⟩ := ih (crcStep r b)
    refine ⟨q - bitPoly (r.msb ^^ b) * X ^ bs.length, ?_⟩
    rw [crcStep_poly] at hq
    rw [List.foldl_cons, List.length_cons, highFirst]
    linear_combination hq

theorem crc8_poly (c : BitVec 64) :
    bitsPoly 8 (crc8 c).toNat = (bitsPoly 64 c.toNat * X ^ 8) % crcGenerator := by
  obtain ⟨q, hq⟩ := crcFold_poly (contentBits c) 0
  have hcontent : highFirst (contentBits c) = bitsPoly 64 c.toNat := by
    rw [bitsPoly_bits]
    exact highFirst_range (fun i => c.getLsbD i) 64
  have hzero : bitsPoly 8 (0 : BitVec 8).toNat = 0 := by
    simp [bitsPoly]
  rw [hcontent, hzero, zero_mul, zero_add] at hq
  rw [← modByMonic_eq_mod _ crcGenerator_monic]
  refine (div_modByMonic_unique q _ crcGenerator_monic ⟨hq, ?_⟩).2.symm
  rw [crcGenerator_degree]
  exact bitsPoly_degree 8 _

/-! ### Linearity -/

theorem crcStep_xor (r t : BitVec 8) (a b : Bool) :
    crcStep (r ^^^ t) (a ^^ b) = crcStep r a ^^^ crcStep t b := by
  refine BitVec.eq_of_getLsbD_eq fun i hi => ?_
  rw [BitVec.getLsbD_xor, crcStep_getLsbD _ _ i hi, crcStep_getLsbD _ _ i hi,
    crcStep_getLsbD _ _ i hi, BitVec.getLsbD_xor, BitVec.msb_xor]
  simp only [Bool.and_xor_distrib_left, Bool.and_xor_distrib_right, Bool.xor_assoc,
    Bool.xor_left_comm]

/-- The check of an exclusive-OR, over any positions of the two contents (R6). -/
theorem crcFold_xor (a b : BitVec 64) (is : List Nat) (r t : BitVec 8) :
    (is.map fun i => (a ^^^ b).getLsbD i).foldl crcStep (r ^^^ t) =
      (is.map fun i => a.getLsbD i).foldl crcStep r ^^^
        (is.map fun i => b.getLsbD i).foldl crcStep t := by
  induction is generalizing r t with
  | nil => rfl
  | cons i is ih =>
    simp only [List.map_cons, List.foldl_cons]
    rw [BitVec.getLsbD_xor, crcStep_xor, ih]

theorem crc8_xor (a b : BitVec 64) : crc8 (a ^^^ b) = crc8 a ^^^ crc8 b := by
  have hbits (c : BitVec 64) :
      contentBits c = ((List.range 64).map (63 - ·)).map fun i => c.getLsbD i := by
    rw [List.map_map]
    rfl
  unfold crc8
  rw [hbits, hbits, hbits]
  exact crcFold_xor a b _ 0 0

/-- By linearity the check of 0 is 00h. -/
theorem crc8_zero : crc8 0 = 0 := by
  have h := crc8_xor 0 0
  rwa [BitVec.xor_self, BitVec.xor_self] at h

/-- Settles O52. -/
theorem checkIsPolynomialRemainder : Obligations.CheckIsPolynomialRemainder := by
  refine ⟨crc8_poly, crc8_xor, crc8_zero, by decide, fun _ => rfl, fun p k h => ?_⟩
  have hne : (k.bits.extractLsb' 0 8 != crc8 k.content) = true := bne_iff_ne.mpr h
  simp [Candidate.clean, Candidate.sound, hne]

end Sys2Proof
end

section
/-! What the onsets of a line are, and what a position hears (R9). -/

namespace Sys2Proof

/-! ### The onsets of a stretch -/

@[simp] theorem Waveform.mem_onsets (w : Waveform) (lo hi h : Nat) :
    h ∈ w.onsets lo hi ↔ (lo ≤ h ∧ h < hi) ∧ w.onset h = true := by
  rw [Waveform.onsets, List.mem_filter, List.mem_range'_1]
  refine and_congr_left fun _ => ?_
  omega

theorem Waveform.onsets_increasing (w : Waveform) (lo hi : Nat) :
    (w.onsets lo hi).Pairwise (· < ·) :=
  List.Pairwise.filter _ List.pairwise_lt_range'

theorem Waveform.onsets_eq_nil (w : Waveform) (lo hi : Nat) :
    w.onsets lo hi = [] ↔ ∀ h, lo ≤ h → h < hi → w.onset h = false := by
  simp [List.eq_nil_iff_forall_not_mem]

theorem Waveform.onsets_ne_nil (w : Waveform) (lo hi : Nat) :
    (w.onsets lo hi != []) = true ↔ ∃ h, lo ≤ h ∧ h < hi ∧ w.onset h = true := by
  simp [Waveform.onsets_eq_nil]

/-- The onset with none before it is the first. -/
theorem Waveform.onsets_eq_cons (w : Waveform) (lo hi h : Nat) (hlo : lo ≤ h) (hhi : h < hi)
    (honset : w.onset h = true) (hfirst : ∀ h', lo ≤ h' → h' < h → w.onset h' = false) :
    ∃ rest, w.onsets lo hi = h :: rest := by
  have hmem : h ∈ w.onsets lo hi := (w.mem_onsets lo hi h).mpr ⟨⟨hlo, hhi⟩, honset⟩
  have hsorted := w.onsets_increasing lo hi
  have hof := fun h' => (w.mem_onsets lo hi h').mp
  cases hlist : w.onsets lo hi with
  | nil => simp [hlist] at hmem
  | cons x rest =>
    rw [hlist] at hmem hsorted hof
    obtain ⟨⟨hx, -⟩, hon⟩ := hof x List.mem_cons_self
    rcases List.mem_cons.mp hmem with rfl | hin
    · exact ⟨rest, rfl⟩
    · rw [hfirst x hx (List.rel_of_pairwise_cons hsorted hin)] at hon
      cases hon

/-- The last onset is the one with none after it. -/
theorem Waveform.getLast?_onsets (w : Waveform) (lo hi h : Nat) :
    (w.onsets lo hi).getLast? = some h ↔
      ((lo ≤ h ∧ h < hi) ∧ w.onset h = true) ∧ ∀ h', h < h' → h' < hi → w.onset h' = false := by
  have hsorted := w.onsets_increasing lo hi
  have hof := w.mem_onsets lo hi
  constructor
  · intro hlast
    obtain ⟨before, hlist⟩ := List.getLast?_eq_some_iff.mp hlast
    have hh := (hof h).mp (List.mem_of_getLast? hlast)
    refine ⟨hh, fun h' hlt hhi => Bool.eq_false_iff.mpr fun hon => ?_⟩
    have hin := (hof h').mpr ⟨⟨le_trans hh.1.1 hlt.le, hhi⟩, hon⟩
    rw [hlist] at hin hsorted
    rcases List.mem_append.mp hin with hb | hb
    · have := (List.pairwise_append.mp hsorted).2.2 h' hb h (List.mem_singleton_self h)
      omega
    · have := List.mem_singleton.mp hb
      omega
  · rintro ⟨hh, hnone⟩
    have hin := (hof h).mpr hh
    cases hlast : (w.onsets lo hi).getLast? with
    | none => simp [List.getLast?_eq_none_iff.mp hlast] at hin
    | some y =>
      obtain ⟨before, hlist⟩ := List.getLast?_eq_some_iff.mp hlast
      obtain ⟨⟨-, hyhi⟩, hyon⟩ := (hof y).mp (List.mem_of_getLast? hlast)
      rw [hlist] at hin hsorted
      rcases List.mem_append.mp hin with hb | hb
      · have hlt := (List.pairwise_append.mp hsorted).2.2 h hb y (List.mem_singleton_self y)
        rw [hnone y hlt hyhi] at hyon
        cases hyon
      · rw [List.mem_singleton.mp hb]

/-! ### The capture span -/

theorem Waveform.runsIn_iff (w : Waveform) (start : Instant) :
    w.runsIn start = true ↔
      w.carrier (spanOpens start) = true ∧ w.carrier (spanOpens start - 1) = true :=
  Bool.and_eq_true_iff

/-- Carrier runs over from the previous position when its last onset lay within the alignment there. -/
theorem Waveform.runsFromPrevious_iff (w : Waveform) (start : Nat) (hs : 112 ≤ start) :
    w.runsFromPrevious start = true ↔
      ∃ h, w.onset h = true ∧ 2 * (start - 112) ≤ h ∧ h ≤ 2 * (start - 80) ∧
        ∀ h', h < h' → h' < 2 * (start - 16) → w.onset h' = false := by
  have hlo : spanOpens (start - Config.slotTime) = 2 * (start - 112) := by
    simp only [spanOpens, Config.slotTime, Config.guardTime]
    omega
  have hal : 2 * (start - Config.slotTime + Config.guardTime) = 2 * (start - 80) := by
    simp only [Config.slotTime, Config.guardTime]
    omega
  have hhi : spanOpens start = 2 * (start - 16) := rfl
  unfold Waveform.runsFromPrevious
  simp only [hlo, hal, hhi, Option.any_eq_true, Waveform.getLast?_onsets, decide_eq_true_eq]
  constructor
  · rintro ⟨h, ⟨⟨⟨hopens, -⟩, hon⟩, hnone⟩, hle⟩
    exact ⟨h, hon, hopens, hle, hnone⟩
  · rintro ⟨h, hon, hopens, hle, hnone⟩
    exact ⟨h, ⟨⟨⟨hopens, by omega⟩, hon⟩, hnone⟩, hle⟩

/-- Carrier present when the span opens, other than the previous position's candidate (R9). -/
def Waveform.startsTaken (w : Waveform) (start : Instant) : Prop :=
  w.runsIn start = true ∧ w.runsFromPrevious start = false

theorem Waveform.heardIn_of_taken {w : Waveform} {start : Instant} (reported : Instant)
    (h : w.startsTaken start) : w.heardIn start reported = .misplaced := by
  obtain ⟨hruns, hprev⟩ := h
  simp [Waveform.heardIn, hruns, hprev]

theorem Waveform.not_startsTaken_iff (w : Waveform) (start : Instant) :
    ¬ w.startsTaken start ↔ (w.runsIn start && !w.runsFromPrevious start) = false := by
  simp [Waveform.startsTaken]

theorem Waveform.heardIn_of_quiet {w : Waveform} {start : Instant} (reported : Instant)
    (htaken : ¬ w.startsTaken start)
    (hnone : ∀ h, spanOpens start ≤ h → h < spanEnds start → w.onset h = false) :
    w.heardIn start reported = .quiet := by
  have hfree := (w.not_startsTaken_iff start).mp htaken
  simp [Waveform.heardIn, hfree, (w.onsets_eq_nil _ _).mpr hnone]

/-- The first onset of the span decides what is heard there. -/
theorem Waveform.heardIn_of_onset {w : Waveform} {start : Instant} (reported : Instant) {h : Nat}
    (htaken : ¬ w.startsTaken start) (hlo : spanOpens start ≤ h) (hhi : h < spanEnds start)
    (honset : w.onset h = true)
    (hfirst : ∀ h', spanOpens start ≤ h' → h' < h → w.onset h' = false) :
    w.heardIn start reported =
      if h ≤ 2 * (start + Config.guardTime) then
        w.heardFrom h (min (spanEnds start) (2 * reported))
      else .misplaced := by
  have hfree := (w.not_startsTaken_iff start).mp htaken
  obtain ⟨rest, hlist⟩ := w.onsets_eq_cons _ _ h hlo hhi honset hfirst
  simp [Waveform.heardIn, hfree, hlist]

end Sys2Proof

namespace Sys2Proof.Machine
open Sys2Proof

/-! ### The report of a position (O53) -/

theorem LineUnit.echoed_of_no_tx {p : Position} {onset : Instant} {l : LineUnit} (h : l.tx = none) :
    l.echoed p onset = none := by
  unfold LineUnit.echoed
  cases p <;> simp [h]

/-- In the mark window and outside any position, an own cell that starts later is not echoed (R17). -/
theorem LineUnit.echoed_of_later {p : Position} {onset : Instant} {l : LineUnit} {own : TxRecord}
    (hp : p = .markField ∨ p = .outside) (htx : l.tx = some own) (hlater : onset < own.start) :
    l.echoed p onset = none := by
  rcases hp with rfl | rfl <;> simpa [LineUnit.echoed, htx] using hlater

theorem LineUnit.echoed_of_tx {p : Position} {onset : Instant} {l : LineUnit} {own : TxRecord}
    (htx : l.tx = some own) (hstart : p = .markField ∨ p = .outside → own.start ≤ onset) :
    l.echoed p onset = some own := by
  cases p with
  | dataSlot i => exact htx
  | openSlot w => exact htx
  | markField => simp [LineUnit.echoed, htx, hstart (.inl rfl)]
  | outside => simp [LineUnit.echoed, htx, hstart (.inr rfl)]

section
variable (stn : StationNo) {p : Position} {onset : Instant} {h : Heard} (first : Bool) (o : Fin 24)
  {l : LineUnit} (hecho : l.echoed p onset = none)
include hecho

theorem LineUnit.report_of_own {c : Cell} (hc : classify p h = .clean c) (hx : c.sender = stn) :
    l.report stn p onset h first o =
      some (.duplicateAddressSighting p c.kind (onset + Config.cellTime)) := by
  simp [LineUnit.report, hecho, hc, hx]

theorem LineUnit.report_of_clean {c : Cell} (hc : classify p h = .clean c) (hx : c.sender ≠ stn) :
    l.report stn p onset h first o = cleanReport p onset o c := by
  simp [LineUnit.report, hecho, hc, hx]

theorem LineUnit.report_of_garbled (hc : classify p h = .garbled) :
    l.report stn p onset h first o = unclean p true (onset + Config.cellTime) := by
  simp [LineUnit.report, hecho, hc]

theorem LineUnit.report_of_silent (hc : classify p h = .silent) :
    l.report stn p onset h first o = unclean p false (onset + Config.cellTime) := by
  simp [LineUnit.report, hecho, hc]

end

theorem LineUnit.report_of_echoed (stn : StationNo) {onset : Instant} (h : Heard)
    (first : Bool) (o : Fin 24) {l : LineUnit} {tx : TxRecord}
    (hecho : l.echoed tx.position onset = some tx) :
    l.report stn tx.position onset h first o = some (tx.report h first o) := by
  rw [LineUnit.report, hecho]
  exact if_pos rfl

/-- A match is a clean echo with the content sent (R12). -/
theorem echoMatches_iff (p : Position) (c : Cell) (h : Heard) :
    echoMatches p c h = true ↔
      ∃ b, h = .candidate b false ∧ classify p h ≠ .garbled ∧ b.content = c.encode := by
  match h with
  | .quiet | .misplaced | .candidate b true => simp [echoMatches]
  | .candidate b false => cases hb : b.clean p <;> simp [echoMatches, classify, hb]

/-- Settles O53. -/
theorem lineReportsWhatItHears : Obligations.LineReportsWhatItHears := by
  refine ⟨?notEchoed, ?echoed, ?heard⟩
  case notEchoed =>
    intro stn p onset h first o l hown
    have hecho : l.echoed p onset = none := by
      rcases hown with hnone | ⟨hp, own, htx, hlater⟩
      · exact LineUnit.echoed_of_no_tx hnone
      · exact LineUnit.echoed_of_later hp htx hlater
    refine ⟨?own, ?mark, ?data, ?claim, ?release, ?join, ?leave, ?garbledSlot, ?silentSlot,
      ?garbledMark, ?nothing⟩
    case own =>
      intro c hc hsender
      exact LineUnit.report_of_own stn first o hecho hc hsender
    case mark =>
      intro x m hc hx
      exact LineUnit.report_of_clean stn first o hecho hc hx
    case data =>
      rintro i x g d rfl hc hx
      exact LineUnit.report_of_clean stn first o hecho hc hx
    case claim =>
      rintro w x g i rfl hc hx
      exact LineUnit.report_of_clean stn first o hecho hc hx
    case release =>
      rintro w x g i rfl hc hx
      exact LineUnit.report_of_clean stn first o hecho hc hx
    case join =>
      rintro w x rfl hc hx
      exact LineUnit.report_of_clean stn first o hecho hc hx
    case leave =>
      rintro w x rfl hc hx
      exact LineUnit.report_of_clean stn first o hecho hc hx
    case garbledSlot =>
      rintro i rfl hc
      exact LineUnit.report_of_garbled stn first o hecho hc
    case silentSlot =>
      rintro i rfl hc
      exact LineUnit.report_of_silent stn first o hecho hc
    case garbledMark =>
      rintro rfl hc
      exact LineUnit.report_of_garbled stn first o hecho hc
    case nothing =>
      rintro w hp (hc | hc)
      · rw [LineUnit.report_of_silent stn first o hecho hc]
        rcases hp with rfl | rfl <;> rfl
      · rw [LineUnit.report_of_garbled stn first o hecho hc]
        rcases hp with rfl | rfl <;> rfl
  case echoed =>
    intro stn p onset start c k h first o l htx hstart
    have hreport := LineUnit.report_of_echoed stn h first o (LineUnit.echoed_of_tx htx hstart)
    have hmatch := echoMatches_iff p c h
    refine ⟨?_, ?_, ?_⟩
    · rintro i rfl
      exact ⟨_, hreport, hmatch⟩
    · rintro w rfl
      exact ⟨_, hreport, hmatch⟩
    · intro hp
      have hmark : l.report stn p onset h first o =
          some (if echoMatches p c h then .cleanMark .own o else .markEchoMismatch) := by
        rcases hp with rfl | rfl <;> exact hreport
      rw [hmark]
      exact ⟨fun hsame => by rw [if_pos (hmatch.mpr hsame)],
        fun hnot => by rw [if_neg (mt hmatch.mp hnot)]⟩
  case heard =>
    intro w start reported hstart opens ends present excepted
    have hpresent : w.runsIn start = true ↔ present := w.runsIn_iff start
    have hexcepted : w.runsFromPrevious start = true ↔ excepted := w.runsFromPrevious_iff start hstart
    have hfree (h : ¬ present ∨ excepted) : ¬ w.startsTaken start := by
      rintro ⟨hruns, hprev⟩
      rcases h with h | h
      · exact h (hpresent.mp hruns)
      · rw [hexcepted.mpr h] at hprev
        cases hprev
    refine ⟨fun h hnone => w.heardIn_of_quiet reported (hfree h) hnone, fun hp he => ?_, ?_⟩
    · exact w.heardIn_of_taken reported
        ⟨hpresent.mpr hp, Bool.eq_false_iff.mpr (mt hexcepted.mp he)⟩
    · intro hopen h hlo hhi hon hfirst
      have hheard := w.heardIn_of_onset reported (hfree hopen) hlo hhi hon hfirst
      refine ⟨fun hal => ⟨_, hheard.trans (if_pos hal), ?_⟩, fun hlate => ?_⟩
      · rw [w.onsets_ne_nil]
        simp only [lt_min_iff, and_assoc]
        rfl
      · exact hheard.trans (if_neg (Nat.not_le_of_lt hlate))

end Sys2Proof.Machine
end

section
/-! A sent cell read back from its bits and from its levels (O51, R4, R9). -/

namespace Sys2Proof

/-! ### The fields of a content -/

section
variable (k : BitVec 4) (x : StationNo) (b t c : Bool) (g : BitVec 8) (a : BitVec 12) (p : Word)

/-- The layout of R4, bit by bit. -/
theorem content_getLsbD (i : Nat) : (content k x b t c g a p).getLsbD i =
    if i < 32 then p.getLsbD i else if i < 44 then a.getLsbD (i - 32)
    else if i < 52 then g.getLsbD (i - 44) else if i = 52 then c else if i = 53 then t
    else if i = 54 then b else if i < 60 then x.getLsbD (i - 55) else k.getLsbD (i - 60) := by
  unfold content
  rw [BitVec.getLsbD_append]
  grind

@[simp] theorem content_kind : (content k x b t c g a p).extractLsb' 60 4 = k := by
  ext i hi
  rw [BitVec.getElem_extractLsb', content_getLsbD]
  grind

@[simp] theorem content_sender : (content k x b t c g a p).extractLsb' 55 5 = x := by
  ext i hi
  rw [BitVec.getElem_extractLsb', content_getLsbD]
  grind

theorem content_boundary : (content k x b t c g a p).getLsbD 54 = b :=
  content_getLsbD k x b t c g a p 54

theorem content_takeover : (content k x b t c g a p).getLsbD 53 = t :=
  content_getLsbD k x b t c g a p 53

theorem content_cold : (content k x b t c g a p).getLsbD 52 = c :=
  content_getLsbD k x b t c g a p 52

@[simp] theorem content_tag : (content k x b t c g a p).extractLsb' 44 8 = g := by
  ext i hi
  rw [BitVec.getElem_extractLsb', content_getLsbD]
  grind

theorem content_aux (lo n : Nat) (h : lo + n ≤ 12) :
    (content k x b t c g a p).extractLsb' (32 + lo) n = a.extractLsb' lo n := by
  ext i hi
  rw [BitVec.getElem_extractLsb', BitVec.getElem_extractLsb', content_getLsbD]
  grind

@[simp] theorem content_payload : (content k x b t c g a p).extractLsb' 0 32 = p := by
  ext i hi
  rw [BitVec.getElem_extractLsb', content_getLsbD]
  grind

/-- The slot number of a CLAIM or RELEASE comes back. -/
theorem slotOf_content (i : SlotNo) : slotOf (content k x b t c g (slotAux i) p) = some i := by
  have hnumber : ((content k x b t c g (slotAux i) p).extractLsb' 32 6).toNat = i.val := by
    rw [content_aux k x b t c g (slotAux i) p 0 6 (by decide), slotAux, BitVec.extractLsb'_toNat,
      BitVec.toNat_ofNat, Nat.shiftRight_zero]
    omega
  unfold slotOf
  rw [dif_pos (by omega)]
  exact congrArg some (Fin.ext hnumber)

end

/-- Bit 0 of the bitmap is sent as 0 and read as 0, so a bitmap without it comes back. -/
theorem bitmap_mask (v : Word) (h : v.getLsbD 0 = false) : v &&& 0xFFFFFFFE#32 = v := by
  refine BitVec.eq_of_getLsbD_eq fun i hi => ?_
  have hmask : ∀ j < 32, 0 < j → (0xFFFFFFFE#32).getLsbD j = true := by decide
  rw [BitVec.getLsbD_and]
  rcases Nat.eq_zero_or_pos i with rfl | hpos
  · rw [h, Bool.false_and]
  · rw [hmask i hi hpos, Bool.and_true]

theorem Cell.decode_encode_mark (x : StationNo) (m : MarkFields) (h : (Cell.mark x m).wf = true) :
    Cell.decode (Cell.mark x m).encode = some (.mark x m) := by
  obtain ⟨round, takeover, cold, rank, next, bitmap⟩ := m
  simp only [Cell.wf, MarkFields.wf, Bool.and_eq_true, bne_iff_ne, ne_eq, Bool.not_eq_true'] at h
  obtain ⟨hx, hnext, hbit⟩ := h
  have hn : (next ++ rank ++ 0#4 : BitVec 12).extractLsb' 7 5 = next := by
    ext i hi
    grind
  have hr : (next ++ rank ++ 0#4 : BitVec 12).extractLsb' 4 3 = rank := by
    ext i hi
    grind
  have hnextField (p : Word) := content_aux 0 x false takeover cold round (next ++ rank ++ 0#4) p 7 5
    (by decide)
  have hrankField (p : Word) := content_aux 0 x false takeover cold round (next ++ rank ++ 0#4) p 4 3
    (by decide)
  simp only [Nat.reduceAdd, hn, hr] at hnextField hrankField
  simp only [Cell.decode, Cell.encode, content_kind, content_sender, content_tag, content_takeover,
    content_cold, content_payload, hnextField, hrankField, bitmap_mask bitmap hbit, if_neg hx]
  exact if_neg hnext

/-- Every cell a sender can form comes back from its content (R4, R5). -/
theorem Cell.decode_encode (c : Cell) (h : c.wf = true) : Cell.decode c.encode = some c := by
  cases c with
  | mark x m => exact Cell.decode_encode_mark x m h
  | inSlot x t d =>
    simp only [Cell.wf, Bool.and_eq_true, bne_iff_ne, ne_eq] at h
    obtain ⟨hx, ht⟩ := h
    cases d with
    | data b w =>
      simp only [Cell.decode, Cell.encode, content_kind, content_sender, content_tag,
        content_boundary, content_payload, if_neg hx]
      exact if_neg ht
    | fill | keep =>
      simp only [Cell.decode, Cell.encode, content_kind, content_sender, content_tag, if_neg hx]
      exact if_neg ht
  | join x | leave x =>
    simp only [Cell.wf, bne_iff_ne, ne_eq] at h
    simp only [Cell.decode, Cell.encode, content_kind, content_sender, if_neg h]
    rfl
  | claim x t i | release x t i =>
    simp only [Cell.wf, Bool.and_eq_true, bne_iff_ne, ne_eq] at h
    obtain ⟨hx, ht⟩ := h
    simp only [Cell.decode, Cell.encode, content_kind, content_sender, content_tag, slotOf_content,
      if_neg hx]
    exact if_neg ht

/-! ### The 80 bits of a cell -/

theorem frameOf_getLsbD (c : BitVec 64) (i : Nat) : (frameOf c).getLsbD i =
    if i < 8 then (crc8 c).getLsbD i else if i < 72 then c.getLsbD (i - 8)
    else preamble.getLsbD (i - 72) := by
  unfold frameOf
  rw [BitVec.getLsbD_append]
  grind

theorem frameOf_preamble (c : BitVec 64) : (frameOf c).extractLsb' 72 8 = preamble := by
  ext i hi
  rw [BitVec.getElem_extractLsb', frameOf_getLsbD]
  grind

theorem frameOf_content (c : BitVec 64) : (frameOf c).extractLsb' 8 64 = c := by
  ext i hi
  rw [BitVec.getElem_extractLsb', frameOf_getLsbD]
  grind

theorem frameOf_check (c : BitVec 64) : (frameOf c).extractLsb' 0 8 = crc8 c := by
  ext i hi
  rw [BitVec.getElem_extractLsb', frameOf_getLsbD]
  grind

/-- The first bit sent is a 1: that of the preamble. -/
theorem frameOf_first (c : BitVec 64) : (frameOf c).getMsbD 0 = true := by
  rw [BitVec.getMsbD_eq_getLsbD, frameOf_getLsbD]
  rfl

/-- A whole frame of a cell a sender can form is clean where its kind is allowed (R10, R11). -/
theorem Cell.clean_frame {c : Cell} {p : Position} (hwf : c.wf = true)
    (hp : c.kind.allowedAt p = true) :
    Candidate.clean p ⟨frameOf c.encode, false⟩ = some c := by
  have hsound : Candidate.sound ⟨frameOf c.encode, false⟩ = some c := by
    simp [Candidate.sound, Candidate.content, frameOf_preamble, frameOf_content, frameOf_check,
      Cell.decode_encode c hwf]
  simp [Candidate.clean, hsound, hp]

/-! ### The levels of a cell -/

/-- The two halves of bit `i` of those sent one after another. -/
theorem bitLevels_getD (f : Nat → Bool) (n i : Nat) (hi : i < n) :
    ((List.range n).flatMap fun i => bitLevels (f i)).getD (2 * i) true = !f i ∧
    ((List.range n).flatMap fun i => bitLevels (f i)).getD (2 * i + 1) true = f i := by
  induction n generalizing f i with
  | zero => omega
  | succ n ih =>
    rw [List.range_succ_eq_map, List.flatMap_cons, List.flatMap_map]
    cases i with
    | zero => exact ⟨rfl, rfl⟩
    | succ i => exact ih (fun j => f (j + 1)) i (Nat.lt_of_succ_lt_succ hi)

theorem frameLevels_length (f : BitVec 80) : (frameLevels f).length = 160 := by
  simp [frameLevels, bitLevels]

theorem Waveform.level_at (w : Waveform) (j : Nat) :
    w.level (w.start + j) = w.levels.getD j true := by
  rw [Waveform.level, if_neg (by omega), Nat.add_sub_cancel_left]

section
variable (c : Cell) (start : Nat)

theorem Cell.level_before {h : Nat} (hh : h < 2 * start) : (c.waveform start).level h = true :=
  if_pos hh

theorem Cell.level_after {h : Nat} (hh : 2 * start + 160 ≤ h) :
    (c.waveform start).level h = true := by
  obtain ⟨j, rfl⟩ := Nat.exists_eq_add_of_le hh
  rw [Nat.add_assoc]
  refine ((c.waveform start).level_at (160 + j)).trans (List.getD_eq_default _ _ ?_)
  exact (frameLevels_length _).le.trans (Nat.le_add_right 160 j)

theorem Cell.level_halves {i : Nat} (hi : i < 80) :
    (c.waveform start).level (2 * start + 2 * i) = !(frameOf c.encode).getMsbD i ∧
    (c.waveform start).level (2 * start + 2 * i + 1) = (frameOf c.encode).getMsbD i := by
  obtain ⟨hfirst, hsecond⟩ := bitLevels_getD (frameOf c.encode).getMsbD 80 i hi
  exact ⟨((c.waveform start).level_at (2 * i)).trans hfirst,
    ((c.waveform start).level_at (2 * i + 1)).trans hsecond⟩

/-! ### Where the levels change -/

theorem Waveform.change_succ (w : Waveform) (h : Nat) :
    w.change (h + 1) = (w.level (h + 1) != w.level h) := rfl

theorem Cell.change_before {h : Nat} (hh : h < 2 * start) :
    (c.waveform start).change h = false := by
  cases h with
  | zero => simp [Waveform.change, c.level_before start hh]
  | succ h =>
    rw [Waveform.change_succ, c.level_before start hh, c.level_before start (by omega)]
    rfl

theorem Cell.change_after {h : Nat} (hh : 2 * start + 160 < h) :
    (c.waveform start).change h = false := by
  obtain ⟨j, rfl⟩ := Nat.exists_eq_add_one_of_ne_zero (show h ≠ 0 by omega)
  rw [Waveform.change_succ, c.level_after start (by omega), c.level_after start (by omega)]
  rfl

/-- Every bit time of the cell has a change at its middle. -/
theorem Cell.change_middle {i : Nat} (hi : i < 80) :
    (c.waveform start).change (2 * start + 2 * i + 1) = true := by
  obtain ⟨hfirst, hsecond⟩ := c.level_halves start hi
  rw [Waveform.change_succ, hfirst, hsecond]
  cases (frameOf c.encode).getMsbD i <;> rfl

theorem Cell.change_start (hs : 16 ≤ start) : (c.waveform start).change (2 * start) = true := by
  have hfirst := (c.level_halves start (i := 0) (by decide)).1
  obtain ⟨j, hj⟩ := Nat.exists_eq_add_one_of_ne_zero (show 2 * start ≠ 0 by omega)
  rw [frameOf_first, Nat.mul_zero, Nat.add_zero] at hfirst
  rw [hj] at hfirst ⊢
  rw [Waveform.change_succ, hfirst, c.level_before start (by omega)]
  rfl

theorem Waveform.quiet_iff (w : Waveform) (h : Nat) :
    w.quiet h = true ↔ ∀ j < 4, j ≤ h → w.change (h - j) = false := by
  simp only [Waveform.quiet, List.all_eq_true, List.mem_range, Bool.or_eq_true, decide_eq_true_eq,
    Bool.not_eq_true']
  refine forall₂_congr fun j _ => ?_
  rw [← not_lt, imp_iff_not_or, not_not]

/-- A change within the last 2 bit times ends the quiet. -/
theorem Waveform.not_quiet_of_change (w : Waveform) {h g : Nat} (hle : g ≤ h) (hnear : h < g + 4)
    (hchange : w.change g = true) : w.quiet h = false := by
  refine Bool.eq_false_iff.mpr fun hq => ?_
  have := (w.quiet_iff h).mp hq (h - g) (by omega) (by omega)
  rw [Nat.sub_sub_self hle, hchange] at this
  cases this

theorem Cell.quiet_before {h : Nat} (hh : h < 2 * start) : (c.waveform start).quiet h = true :=
  ((c.waveform start).quiet_iff h).mpr fun _ _ _ => c.change_before start (by omega)

/-- While the cell is sent, and up to the release of the line after it, the line is not quiet. -/
theorem Cell.not_quiet_during {h : Nat} (hlo : 2 * start ≤ h) (hhi : h < 2 * start + 160)
    (hs : 16 ≤ start) : (c.waveform start).quiet h = false := by
  obtain ⟨j, rfl⟩ := Nat.exists_eq_add_of_le hlo
  rcases Nat.eq_zero_or_pos j with rfl | hpos
  · exact (c.waveform start).not_quiet_of_change le_rfl (by omega) (c.change_start start hs)
  · exact (c.waveform start).not_quiet_of_change (by omega) (by omega)
      (c.change_middle start (i := (j - 1) / 2) (by omega))

/-- The cell has one onset, its start (R4). -/
theorem Cell.onset_iff (hs : 16 ≤ start) (h : Nat) :
    (c.waveform start).onset h = true ↔ h = 2 * start := by
  have honset : (c.waveform start).onset h = true ↔
      (c.waveform start).change h = true ∧ (h = 0 ∨ (c.waveform start).quiet (h - 1) = true) := by
    simp [Waveform.onset]
  rw [honset]
  constructor
  · rintro ⟨hchange, hquiet⟩
    by_contra hne
    have hlo : 2 * start < h := by
      by_contra hle
      rw [c.change_before start (by omega)] at hchange
      cases hchange
    have hhi : h ≤ 2 * start + 160 := by
      by_contra hgt
      rw [c.change_after start (by omega)] at hchange
      cases hchange
    rw [c.not_quiet_during start (by omega) (by omega) hs] at hquiet
    rcases hquiet with hzero | hfalse
    · omega
    · cases hfalse
  · rintro rfl
    exact ⟨c.change_start start hs, .inr (c.quiet_before start (by omega))⟩

theorem Cell.onset_false (hs : 16 ≤ start) {h : Nat} (hne : h ≠ 2 * start) :
    (c.waveform start).onset h = false :=
  Bool.eq_false_iff.mpr (mt (c.onset_iff start hs h).mp hne)

/-! ### What a position hears of the cell -/

/-- The candidate at the start of the cell is its frame, without a violation (R4). -/
theorem Cell.candidate_start :
    (c.waveform start).candidate (2 * start) = ⟨frameOf c.encode, false⟩ := by
  have hbits : (BitVec.ofFnBE fun i : Fin 80 =>
      (c.waveform start).level (2 * start + 2 * i.val + 1)) = frameOf c.encode := by
    refine BitVec.eq_of_getMsbD_eq fun i hi => ?_
    rw [BitVec.getMsbD_ofFnBE, dif_pos hi]
    exact (c.level_halves start hi).2
  have hviolation : ((List.range 80).any fun i =>
      (c.waveform start).level (2 * start + 2 * i) ==
        (c.waveform start).level (2 * start + 2 * i + 1)) = false := by
    refine List.any_eq_false.mpr fun i hi => ?_
    obtain ⟨hfirst, hsecond⟩ := c.level_halves start (List.mem_range.mp hi)
    rw [hfirst, hsecond]
    simp
  exact congrArg₂ Candidate.mk hbits hviolation

theorem Cell.heardIn_waveform (hs : 16 ≤ start) (reported : Nat) :
    (c.waveform start).heardIn start reported = .candidate ⟨frameOf c.encode, false⟩ false := by
  have hopens : spanOpens start < 2 * start := by
    simp only [spanOpens, Config.guardTime]
    omega
  have hends : 2 * start < spanEnds start ∧ spanEnds start = 2 * start + 2 * Config.cellTime := by
    simp only [spanEnds, Config.cellTime]
    omega
  have hfree : ¬ (c.waveform start).startsTaken start := by
    rintro ⟨hruns, -⟩
    have hquiet := (((c.waveform start).runsIn_iff start).mp hruns).1
    rw [Waveform.carrier, c.quiet_before start hopens] at hquiet
    cases hquiet
  have hnosecond : (c.waveform start).onsets (2 * start + 2 * Config.cellTime)
      (min (spanEnds start) (2 * reported)) = [] := by
    refine ((c.waveform start).onsets_eq_nil _ _).mpr fun h hlo hhi => ?_
    have := lt_of_lt_of_le hhi (min_le_left _ _)
    omega
  rw [Waveform.heardIn_of_onset reported hfree hopens.le hends.1 ((c.onset_iff start hs _).mpr rfl)
      (fun h _ hlt => c.onset_false start hs hlt.ne),
    if_pos (Nat.mul_le_mul_left 2 (Nat.le_add_right _ _)), Waveform.heardFrom, hnosecond,
    c.candidate_start start]
  rfl

end

/-- Settles O51. -/
theorem sentCellsReadBack : Obligations.SentCellsReadBack := by
  intro c hwf
  refine ⟨c.decode_encode hwf, fun p hp => ?_, fun start hs =>
    ⟨fun i hi => c.level_halves start hi, c.onset_iff start hs, c.heardIn_waveform start hs⟩⟩
  have hclean := Cell.clean_frame hwf hp
  constructor
  · simp [classify, hclean]
  · simp [echoMatches, hclean, Candidate.content, frameOf_content]

end Sys2Proof
end

section
/-! The start of an Open Slot at the Control Cell Queue: the conditions of R50, the withdrawal check of R51,
and the head handed or dropped (O27). -/

namespace Sys2Proof.Machine

open Sys2Proof

/-! ### Whether the head contends (R50) -/

/-- Conditions 1 to 3 of R50, as the statements phrase them. -/
theorem CellQueue.ready_iff (stn : StationNo) (w : OpenSlot) (e : QueueEntry) (q : CellQueue) :
    q.ready stn w e = true ↔ q.turnOpen = true ∧ e.wait = 0 ∧ q.onLine = false
      ∧ w = if (stn.toNat + e.attempt) % 2 = 0 then .a else .b := by
  simp only [CellQueue.ready, chosenSlot, Bool.and_eq_true, beq_iff_eq, Bool.not_eq_true', and_assoc,
    @eq_comm _ w]

theorem CellQueue.contender_cons {stn : StationNo} {w : OpenSlot} {q : CellQueue} {e : QueueEntry}
    {es : List QueueEntry} (hq : q.entries = e :: es) :
    q.contender stn w = if q.ready stn w e then some e else none := by
  rw [CellQueue.contender, hq]

theorem State.contend_empty {s : State} (w : OpenSlot) (a : Instant) (hq : s.ccq.entries = []) :
    s.contend w a = s := by
  rw [State.contend, CellQueue.contender, hq]

theorem State.contend_sitsOut {s : State} {e : QueueEntry} {es : List QueueEntry} {w : OpenSlot}
    (a : Instant) (hq : s.ccq.entries = e :: es) (hr : s.ccq.ready s.straps.stn w e = false) :
    s.contend w a = s := by
  rw [State.contend, CellQueue.contender_cons hq, hr]
  rfl

theorem State.contend_ready {s : State} {e : QueueEntry} {es : List QueueEntry} {w : OpenSlot}
    (a : Instant) (hq : s.ccq.entries = e :: es) (hr : s.ccq.ready s.straps.stn w e = true) :
    s.contend w a = s.handHead w a e.cell := by
  rw [State.contend, CellQueue.contender_cons hq, hr]
  rfl

/-! ### The slot start on time and late (R50, R51) -/

theorem LineUnit.inRound_iff (l : LineUnit) :
    l.inRound = true ↔ l.sync = .synced ∧ l.windowOpen = false := by
  simp [LineUnit.inRound, LineUnit.isSynced_iff]

theorem State.openSlotStart_onTime {s : State} {a : Instant} (w : OpenSlot)
    (hround : s.lnu.inRound = true) (ha : s.lnu.anchor = some a) :
    s.openSlotStart (.onTime w) = (s.onCcq CellQueue.forgetPassed).contend w a := by
  rw [State.openSlotStart, hround, ha]
  rfl

theorem State.openSlotStart_late {s : State} {a : Instant} {place : Nat} {e : QueueEntry}
    (w : OpenSlot) (hround : s.lnu.inRound = true) (ha : s.lnu.anchor = some a)
    (hp : s.ccq.passedOver[place]? = some e) :
    s.openSlotStart (.late w place) = s.onCcq (CellQueue.metPassed s.straps.stn w e) := by
  have hhead : s.ccq.passedHead (.late w place) = some e := hp
  rw [State.openSlotStart, hround, ha]
  dsimp only
  rw [hhead]
  rfl

/-- A late start that met a head which was to contend closes the turn. -/
theorem CellQueue.metPassed_ready {stn : StationNo} {w : OpenSlot} {e : QueueEntry} {q : CellQueue}
    (h : q.ready stn w e = true) :
    q.metPassed stn w e = { q with passedOver := [], turnOpen := false } := by
  simp [CellQueue.metPassed, CellQueue.forgetPassed, h]

/-- A late start that met any other head leaves the turn. -/
theorem CellQueue.metPassed_sitsOut {stn : StationNo} {w : OpenSlot} {e : QueueEntry}
    {q : CellQueue} (h : q.ready stn w e = false) : q.metPassed stn w e = q.forgetPassed := by
  simp [CellQueue.metPassed, CellQueue.forgetPassed, h]

/-! ### The withdrawal check (R51, R52) -/

theorem SlotEntry.isClaimingFor_iff (k : StreamNo) (e : SlotEntry) :
    e.isClaimingFor k = true ↔ ∃ g q, e = .claiming g k q := by
  cases e <;> simp [SlotEntry.isClaimingFor]

/-- The outcome of a CLAIM that fails the check finds the map changed already: it changes nothing. -/
theorem State.claimOutcome_failed (i : SlotNo) (e : SlotEntry) (s : State) :
    s.claimOutcome i e.failedClaim = s := by
  cases e <;> rfl

theorem State.releaseOutcome_gone (i : SlotNo) (s : State) : s.releaseOutcome i .gone = s := rfl

theorem State.handHead_claim {s : State} {i : SlotNo} {k : StreamNo} (w : OpenSlot) (a : Instant)
    (g : Tag) (h : ∃ g' q, s.slotMap[i] = .claiming g' k q) :
    s.handHead w a (.claim i g k) = s.sendControl w a (.claim s.straps.stn g i) :=
  if_pos ((SlotEntry.isClaimingFor_iff k _).mpr h)

theorem State.handHead_claim_failed {s : State} {i : SlotNo} {k : StreamNo} (w : OpenSlot)
    (a : Instant) (g : Tag) (h : ∀ g' q, s.slotMap[i] ≠ .claiming g' k q) :
    s.handHead w a (.claim i g k) = s.onCcq CellQueue.dropHead := by
  have hfails : ¬ s.slotMap[i].isClaimingFor k = true := fun hc =>
    let ⟨g', q, he⟩ := (SlotEntry.isClaimingFor_iff k _).mp hc
    h g' q he
  exact (if_neg hfails).trans (State.claimOutcome_failed i _ _)

theorem State.handHead_release {s : State} {i : SlotNo} {k : StreamNo} (w : OpenSlot) (a : Instant)
    {g : Tag} {q : Bool} (h : s.slotMap[i] = .releasing g k q) :
    s.handHead w a (.release i k) = s.sendControl w a (.release s.straps.stn g i) := by
  simp only [State.handHead, h, if_true]

theorem State.handHead_release_failed {s : State} {i : SlotNo} {k : StreamNo} (w : OpenSlot)
    (a : Instant) (h : ∀ g q, s.slotMap[i] ≠ .releasing g k q) :
    s.handHead w a (.release i k) = s.onCcq CellQueue.dropHead := by
  simp only [State.handHead, State.releaseOutcome_gone]
  split
  · rename_i g j q he
    have hj : ¬ j = k := fun hj => h g q (hj ▸ he)
    rw [if_neg hj]
  · rfl

/-! ### What the two ends leave of the state -/

theorem openSlotStart_eq (a : Instant) (w : OpenSlot) :
    openSlotStart a w = a + (if w = .a then 49 else 50) * 96 := by
  cases w <;> rfl

/-- A head sent after the heads passed over are forgotten: the cell on the line, and the turn CLOSED. -/
theorem State.sendControl_forgetPassed (w : OpenSlot) (a : Instant) (c : Cell) (s : State) :
    (s.onCcq CellQueue.forgetPassed).sendControl w a c = { s with
      lnu := { s.lnu with
        tx := some ⟨.openSlot w, a + (if w = .a then 49 else 50) * 96, c, none⟩, driving := true }
      ccq := { s.ccq with passedOver := [], turnOpen := false, onLine := true } } := by
  rw [← openSlotStart_eq]
  rfl

/-- A head dropped after the heads passed over are forgotten: the rest of the queue, the turn CLOSED. -/
theorem State.dropHead_forgetPassed {s : State} {e : QueueEntry} {es : List QueueEntry}
    (hq : s.ccq.entries = e :: es) :
    (s.onCcq CellQueue.forgetPassed).onCcq CellQueue.dropHead = { s with
      ccq := { s.ccq with entries := es, passedOver := [], turnOpen := false } } := by
  simp [State.onCcq, CellQueue.dropHead, CellQueue.forgetPassed, hq]

/-- Settles O27: the conditions of R50 decide whether the head contends, and its cell which check it
meets. -/
theorem openSlotSendsQueueHead : Obligations.OpenSlotSendsQueueHead := by
  intro w a s hr hs hw ha
  have hround : s.lnu.inRound = true := (LineUnit.inRound_iff _).mpr ⟨hs, hw⟩
  have hexec (start : SlotStart) : exec (.openSlotStart start) s = .next (s.openSlotStart start) :=
    event_next _ hr
  have hready (e : QueueEntry) := CellQueue.ready_iff s.straps.stn w e s.ccq
  let u := s.onCcq CellQueue.forgetPassed
  refine ⟨fun hq => ?_, fun e es hq => ⟨fun hf => ?_, fun hf => ?_⟩,
    fun place e hp => ⟨fun hf => ?_, fun hf => ?_⟩⟩
  · have hout : u.contend w a = u := State.contend_empty w a hq
    rw [hexec, State.openSlotStart_onTime w hround ha, hout]
    rfl
  · have hout : u.contend w a = u :=
      State.contend_sitsOut a hq (Bool.eq_false_iff.mpr fun h => hf ((hready e).mp h))
    rw [hexec, State.openSlotStart_onTime w hround ha, hout]
    rfl
  · have hhead : u.contend w a = u.handHead w a e.cell :=
      State.contend_ready a hq ((hready e).mpr hf)
    have hsent (c : Cell) := State.sendControl_forgetPassed w a c s
    rw [hexec, State.openSlotStart_onTime w hround ha, hhead]
    cases e.cell with
    | join => exact congrArg _ (hsent _)
    | leave => exact congrArg _ (hsent _)
    | claim i g k =>
      refine ⟨fun h => ?_, fun h => ?_⟩
      · rw [State.handHead_claim w a g (s := u) h]
        exact congrArg _ (hsent _)
      · rw [State.handHead_claim_failed w a g (s := u) h, State.dropHead_forgetPassed hq]
    | release i k =>
      refine ⟨fun g q h => ?_, fun h => ?_⟩
      · rw [State.handHead_release w a (s := u) h]
        exact congrArg _ (hsent _)
      · rw [State.handHead_release_failed w a (s := u) h, State.dropHead_forgetPassed hq]
  · rw [hexec, State.openSlotStart_late w hround ha hp]
    exact congrArg (fun q => Host.Outcome.next { s with ccq := q })
      (CellQueue.metPassed_ready ((hready e).mpr hf))
  · rw [hexec, State.openSlotStart_late w hround ha hp]
    exact congrArg (fun q => Host.Outcome.next { s with ccq := q })
      (CellQueue.metPassed_sitsOut (Bool.eq_false_iff.mpr fun h => hf ((hready e).mp h)))

end Sys2Proof.Machine
end

section
/-! The JOIN and LEAVE commands: their results, and what an accepted one makes of the Roster Unit and the
queue (O41). -/

namespace Sys2Proof.Machine

open Sys2Proof

/-! ### A write to the COMMAND word (R169) -/

theorem commandWord_eq (code index : BitVec 4) :
    commandWord code index = BitVec.ofNat 32 (index.toNat * 256 + code.toNat) := by
  refine BitVec.eq_of_toNat_eq ?_
  have hc := code.isLt
  have hi := index.isLt
  simp only [commandWord, BitVec.toNat_append, BitVec.toNat_ofNat, Nat.zero_mod, Nat.zero_shiftLeft,
    Nat.zero_or]
  rw [← Nat.shiftLeft_add_eq_or_of_lt (by omega), Nat.shiftLeft_eq]
  omega

/-- A posted command changes what its block changed, and the words of the command. -/
theorem State.posted_changes {ps qs : List StatePart} {code index : BitVec 4} {run : State → Commanded}
    {s : State} (h : s.changesOnly ps (run s).1) (hps : ps ⊆ qs)
    (hqs : [.command, .result, .targetResponse] ⊆ qs) :
    s.changesOnly qs { s.post code index run with targetResponse := .answered } := by
  refine h.seq (qs := [.command, .result, .targetResponse]) ?_ hps hqs
  intro p hp
  cases p <;> first | rfl | exact absurd (by decide) hp

/-- A refused command changes only the words of the command. -/
theorem State.posted_refused {code index : BitVec 4} {run : State → Commanded} {s : State}
    (h : (run s).1 = s) : s.changesOnly [.command, .result, .targetResponse]
      { s.post code index run with targetResponse := .answered } :=
  State.posted_changes (ps := []) (h.symm ▸ State.changesOnly.refl [] s) (by decide) (by decide)

/-! ### Offers and withdrawals of a JOIN or LEAVE (R46, R47) -/

theorem CellQueue.offer_taken {c : QueueCell} {q : CellQueue} (hl : q.entries.length < 8)
    (hs : ∀ e ∈ q.entries, e.cell.slot? ≠ c.slot?) :
    q.offer c = some { q with entries := q.entries ++ [⟨c, 0, 0, none⟩] } := by
  refine if_pos ⟨hl, ?_⟩
  simp only [Bool.not_eq_true', List.any_eq_false, QueueCell.conflicts, beq_iff_eq]
  exact fun e he hc => hs e he hc.symm

theorem CellQueue.offer_full {q : CellQueue} (c : QueueCell) (hl : 8 ≤ q.entries.length) :
    q.offer c = none :=
  if_neg fun h => absurd h.1 (Nat.not_lt.mpr hl)

/-- A withdrawal while no own cell is on the line removes the entry meant. -/
theorem CellQueue.withdraw_offLine {q : CellQueue} (w : Option SlotNo) (why : Withdrawal)
    (hl : q.onLine = false) :
    (q.withdraw w why).entries = q.entries.eraseP fun e => e.cell.slot? == w := by
  unfold CellQueue.withdraw
  cases hq : q.entries with
  | nil => simp [hq]
  | cons e es =>
    by_cases he : e.cell.slot? = w
    · simp [he, hl]
    · simp [he]

/-- A withdrawal of the head while its cell is on the line marks it. -/
theorem CellQueue.withdraw_onLine {q : CellQueue} {e : QueueEntry} {es : List QueueEntry}
    {w : Option SlotNo} (why : Withdrawal) (hl : q.onLine = true) (hq : q.entries = e :: es)
    (he : e.cell.slot? = w) :
    (q.withdraw w why).entries = { e with withdrawn := some (e.withdrawn.getD why) } :: es := by
  simp [CellQueue.withdraw, hq, he, hl]

theorem State.offerControl_taken {i : ControlIntent} {c : QueueCell} {q : CellQueue} {s : State}
    (h : s.ccq.offer c = some q) :
    s.offerControl i c = { s with ccq := q, rsu := { s.rsu with intent := i, queued := true } } := by
  rw [State.offerControl, h]

theorem State.offerControl_refused {i : ControlIntent} {c : QueueCell} {s : State}
    (h : s.ccq.offer c = none) :
    s.offerControl i c = s.onRsu fun u => { u with intent := i, queued := false } := by
  rw [State.offerControl, h]

theorem State.withdrawJoin_ccq (s : State) :
    s.withdrawJoin.ccq = if s.rsu.queued then s.ccq.withdraw none .gone else s.ccq := by
  unfold State.withdrawJoin
  split <;> rfl

/-! ### What a membership change leaves of the Roster Unit (R82) -/

@[simp] theorem RosterUnit.setMembership_learnCount (stn : StationNo) (m : Membership) (u : RosterUnit) :
    (u.setMembership stn m).learnCount = u.learnCount := by
  rw [RosterUnit.setMembership_keeps]

@[simp] theorem RosterUnit.setMembership_attempt (stn : StationNo) (m : Membership) (u : RosterUnit) :
    (u.setMembership stn m).attempt = u.attempt := by
  rw [RosterUnit.setMembership_keeps]

@[simp] theorem RosterUnit.setMembership_joinTimer (stn : StationNo) (m : Membership) (u : RosterUnit) :
    (u.setMembership stn m).joinTimer = u.joinTimer := by
  rw [RosterUnit.setMembership_keeps]

/-! ### JOIN (R88) -/

theorem State.commandJoin_result (s : State) :
    s.commandJoin.2 = if s.straps.stn = 0 then .badConfig
      else if s.rsu.membership = .dormant then .ok else .badState := by
  unfold State.commandJoin
  split
  · rfl
  · cases s.rsu.membership <;> rfl

theorem State.commandJoin_refused {s : State} (h : s.commandJoin.2 ≠ .ok) : s.commandJoin.1 = s := by
  unfold State.commandJoin at h ⊢
  split
  · rfl
  · rename_i hn
    rw [if_neg hn] at h
    cases hm : s.rsu.membership with
    | dormant => exact absurd (by rw [hm]) h
    | _ => rfl

theorem State.commandJoin_accepted {s : State} (h : s.commandJoin.2 = .ok) :
    s.commandJoin.1 =
      (s.onRsu fun u => { u with learnCount := 0, attempt := 0 }).setMembership .listening := by
  unfold State.commandJoin at h ⊢
  split
  · rename_i hn
    rw [if_pos hn] at h
    cases h
  · rename_i hn
    rw [if_neg hn] at h
    cases hm : s.rsu.membership with
    | dormant => rfl
    | _ => rw [hm] at h; cases h

/-! ### LEAVE (R92) -/

theorem State.talkStarted_iff (s : State) :
    s.talkStarted = true ↔
      ∃ k : StreamNo, s.streams[k].isTalk = true ∧ s.streams[k].state ≠ .stopped := by
  simp [State.talkStarted, allStreams]

theorem State.commandLeave_badState {s : State}
    (hm : s.rsu.membership = .dormant ∨ s.rsu.membership = .leaving) :
    s.commandLeave = (s, .badState) := by
  unfold State.commandLeave
  rcases hm with hm | hm <;> rw [hm]

theorem State.commandLeave_busy {s : State}
    (hm : ¬ (s.rsu.membership = .dormant ∨ s.rsu.membership = .leaving))
    (hb : s.talkStarted = true) : s.commandLeave = (s, .busy) := by
  unfold State.commandLeave
  cases hs : s.rsu.membership with
  | dormant => exact absurd (.inl hs) hm
  | leaving => exact absurd (.inr hs) hm
  | _ => simp [hb]

section

variable {s : State} (hb : s.talkStarted = false)
include hb

theorem State.commandLeave_member (hm : s.rsu.membership = .member) :
    s.commandLeave = ((s.setMembership .leaving).offerLeave, .ok) := by
  simp [State.commandLeave, hm, hb]

theorem State.commandLeave_joining (hm : s.rsu.membership = .joining) :
    s.commandLeave = (((s.withdrawJoin.onRsu fun u => { u with joinTimer := none, attempt := 0
      }).setMembership .dormant).raise .left, .ok) := by
  simp [State.commandLeave, hm, hb]

theorem State.commandLeave_listening (hm : s.rsu.membership = .listening) :
    s.commandLeave =
      (((s.onRsu fun u => { u with learnCount := 0 }).setMembership .dormant).raise .left, .ok) := by
  simp [State.commandLeave, hm, hb]

theorem State.commandLeave_isolated (hm : s.rsu.membership = .isolated) :
    s.commandLeave = ((s.setMembership .dormant).raise .left, .ok) := by
  simp [State.commandLeave, hm, hb]

end

/-- The result of LEAVE: out of the two states that refuse it, a Talk Stream not STOPPED alone keeps the
station. -/
theorem State.commandLeave_result (s : State) :
    s.commandLeave.2 = if s.rsu.membership = .dormant ∨ s.rsu.membership = .leaving then .badState
      else if s.talkStarted then .busy else .ok := by
  split_ifs with hm hb
  · rw [State.commandLeave_badState hm]
  · rw [State.commandLeave_busy hm hb]
  · have hb := Bool.eq_false_iff.mpr hb
    cases hs : s.rsu.membership with
    | dormant => exact absurd (.inl hs) hm
    | leaving => exact absurd (.inr hs) hm
    | member => rw [State.commandLeave_member hb hs]
    | joining => rw [State.commandLeave_joining hb hs]
    | listening => rw [State.commandLeave_listening hb hs]
    | isolated => rw [State.commandLeave_isolated hb hs]

theorem State.commandLeave_accepted {s : State} (h : s.commandLeave.2 = .ok) :
    s.rsu.membership ≠ .dormant ∧ s.rsu.membership ≠ .leaving ∧ s.talkStarted = false := by
  rw [State.commandLeave_result] at h
  split_ifs at h with hm hb
  obtain ⟨hd, hl⟩ := not_or.mp hm
  exact ⟨hd, hl, Bool.eq_false_iff.mpr hb⟩

theorem State.commandLeave_refused {s : State} (h : s.commandLeave.2 ≠ .ok) :
    s.commandLeave.1 = s := by
  by_cases hm : s.rsu.membership = .dormant ∨ s.rsu.membership = .leaving
  · rw [State.commandLeave_badState hm]
  · have hb : s.talkStarted = true := by
      by_contra hb
      exact h (s.commandLeave_result.trans (by rw [if_neg hm, if_neg hb]))
    rw [State.commandLeave_busy hm hb]

/-- An accepted LEAVE of a station that is no MEMBER ends in DORMANT with LEFT, and only a JOINING one
has a queue entry to withdraw (R92). -/
theorem State.commandLeave_departs {s : State} (h : s.commandLeave.2 = .ok)
    (hm : s.rsu.membership ≠ .member) :
    ∃ u, s.commandLeave.1 = (u.setMembership .dormant).raise .left ∧ s.changesOnly [.rsu, .ccq] u
      ∧ (s.rsu.membership ≠ .joining → u.ccq = s.ccq) := by
  obtain ⟨hdormant, hleaving, hb⟩ := State.commandLeave_accepted h
  cases hs : s.rsu.membership with
  | dormant => exact absurd hs hdormant
  | leaving => exact absurd hs hleaving
  | member => exact absurd hs hm
  | listening =>
    exact ⟨_, congrArg Prod.fst (State.commandLeave_listening hb hs),
      (State.onRsu_changes _ s).mono (by decide), fun _ => rfl⟩
  | joining =>
    exact ⟨_, congrArg Prod.fst (State.commandLeave_joining hb hs),
      s.withdrawJoin_changes.seq (State.onRsu_changes _ _) (by decide) (by decide),
      fun hj => absurd rfl hj⟩
  | isolated =>
    exact ⟨s, congrArg Prod.fst (State.commandLeave_isolated hb hs), State.changesOnly.refl _ s,
      fun _ => rfl⟩

/-- A MEMBER that leaves offers its LEAVE: the queue takes it where it is short of 8 entries and holds no
other JOIN or LEAVE, and refuses it where it is full (R46, R92). -/
theorem State.commandLeave_offers {s : State} (hb : s.talkStarted = false)
    (hm : s.rsu.membership = .member) :
    let t := s.commandLeave.1
    t.rsu.membership = .leaving ∧ t.rsu.intent = .leave
      ∧ (s.ccq.entries.length < 8 → (∀ e ∈ s.ccq.entries, e.cell.slot? ≠ none) →
          t.rsu.queued = true
            ∧ t.ccq = { s.ccq with entries := s.ccq.entries ++ [⟨.leave, 0, 0, none⟩] })
      ∧ (8 ≤ s.ccq.entries.length → t.rsu.queued = false ∧ t.ccq = s.ccq) := by
  intro t
  have ht : t = (s.setMembership .leaving).offerControl .leave .leave :=
    congrArg Prod.fst (State.commandLeave_member hb hm)
  obtain ⟨-, -, -, -, hintent, -⟩ :=
    State.offerControl_keeps .leave .leave (s.setMembership .leaving)
  rw [ht]
  refine ⟨by simp, hintent, fun hl hs => ?_, fun hl => ?_⟩
  · rw [State.offerControl_taken (s := s.setMembership .leaving)
      (CellQueue.offer_taken (c := .leave) hl hs)]
    exact ⟨rfl, rfl⟩
  · rw [State.offerControl_refused (s := s.setMembership .leaving) (CellQueue.offer_full _ hl)]
    exact ⟨rfl, rfl⟩

/-- A JOINING station that leaves withdraws its JOIN where the queue holds it, and rests the join timer
and the attempt (R47, R92). -/
theorem State.commandLeave_withdraws {s : State} (hb : s.talkStarted = false)
    (hm : s.rsu.membership = .joining) :
    let t := s.commandLeave.1
    t.rsu.joinTimer = none ∧ t.rsu.attempt = 0
      ∧ t.ccq = if s.rsu.queued then s.ccq.withdraw none .gone else s.ccq := by
  intro t
  have ht : t = _ := congrArg Prod.fst (State.commandLeave_joining hb hm)
  rw [ht]
  exact ⟨by simp, by simp, s.withdrawJoin_ccq⟩

/-! ### The statement -/

/-- The JOIN command posted (R88, R169). -/
theorem exec_join (index : BitVec 4) {s : State} (hr : s.resetAsserted = false) :
    exec (.join index) s = .next { s.post CommandCode.join.code index State.commandJoin with
      targetResponse := .answered } := targetWrite_next _ hr

/-- The LEAVE command posted (R92, R169). -/
theorem exec_leave (index : BitVec 4) {s : State} (hr : s.resetAsserted = false) :
    exec (.leave index) s = .next { s.post CommandCode.leave.code index State.commandLeave with
      targetResponse := .answered } := targetWrite_next _ hr

/-- Settles O41: the result of each command, then the change it posts when the result is OK. -/
theorem joinAndLeaveCommands : Obligations.JoinAndLeaveCommands := by
  intro index s hr m busy
  have hbusy : s.talkStarted = true ↔ busy := s.talkStarted_iff
  refine ⟨⟨_, exec_join index hr, rfl, commandWord_eq _ _, s.commandJoin_result,
    fun h => State.posted_refused (State.commandJoin_refused h), fun h => ?_⟩,
    _, exec_leave index hr, rfl, commandWord_eq _ _, fun h => ?_, fun hd hl h => ?_,
    fun hd hl h => ?_, fun h => State.posted_refused (State.commandLeave_refused h),
    fun h hm => ?_, fun h hm => ?_, fun h hm => ?_, fun h hj hm => ?_, fun h hm => ?_⟩
  · have he := State.commandJoin_accepted h
    refine ⟨(congrArg (·.rsu.membership) he).trans (by simp),
      (congrArg (·.rsu.learnCount) he).trans (by simp),
      (congrArg (·.rsu.attempt) he).trans (by simp), ?_⟩
    refine State.posted_changes (ps := [.rsu]) ?_ (by decide) (by decide)
    rw [he]
    exact (State.onRsu_changes _ s).trans (State.setMembership_changes _ _)
  · exact s.commandLeave_result.trans (if_pos h)
  · refine s.commandLeave_result.trans ?_
    rw [if_neg (not_or.mpr ⟨hd, hl⟩), if_pos (hbusy.mpr h)]
  · refine s.commandLeave_result.trans ?_
    rw [if_neg (not_or.mpr ⟨hd, hl⟩), if_neg fun hb => h (hbusy.mp hb)]
  · obtain ⟨-, -, hb⟩ := State.commandLeave_accepted h
    obtain ⟨hmember, hintent, htaken, hfull⟩ := State.commandLeave_offers hb hm
    refine ⟨hmember, hintent, htaken, hfull, ?_⟩
    refine State.posted_changes (ps := [.rsu, .ccq]) ?_ (by decide) (by decide)
    rw [State.commandLeave_member hb hm]
    exact (State.setMembership_changes _ s).seq (State.offerControl_changes _ _ _) (by decide)
      (by decide)
  · obtain ⟨-, -, hb⟩ := State.commandLeave_accepted h
    obtain ⟨htimer, hattempt, hccq⟩ := State.commandLeave_withdraws hb hm
    refine ⟨htimer, hattempt, fun hq hl => ?_, fun hq hl e es hes hcell => ?_, fun hq => ?_⟩
    · rw [if_pos hq] at hccq
      exact (congrArg CellQueue.entries hccq).trans (CellQueue.withdraw_offLine none .gone hl)
    · rw [if_pos hq] at hccq
      exact (congrArg CellQueue.entries hccq).trans (CellQueue.withdraw_onLine .gone hl hes hcell)
    · rwa [hq] at hccq
  · obtain ⟨-, -, hb⟩ := State.commandLeave_accepted h
    have he := congrArg Prod.fst (State.commandLeave_listening hb hm)
    refine (congrArg (·.rsu.learnCount) he).trans ?_
    simp
  · obtain ⟨u, he, -, hccq⟩ := State.commandLeave_departs h hm
    exact (congrArg State.ccq he).trans (hccq hj)
  · obtain ⟨u, he, hu, -⟩ := State.commandLeave_departs h hm
    have hflags : u.stationFlags = s.stationFlags := hu .stationFlags (by decide)
    refine ⟨(congrArg (·.rsu.membership) he).trans (by simp), ?_, ?_⟩
    · rw [← hflags]
      exact congrArg State.stationFlags he
    · refine State.posted_changes (ps := [.rsu, .ccq, .stationFlags]) ?_ (by decide) (by decide)
      rw [he]
      exact (hu.seq (State.setMembership_changes _ u) (rs := [.rsu, .ccq]) (by decide)
        (by decide)).seq (State.raise_changes _ _) (by decide) (by decide)

end Sys2Proof.Machine
end

section
/-! The window plan and the content of the own MARK (O6, O9): the stations in cyclic order after one of
them, and the bits of a bitmap. -/

namespace Sys2Proof.Machine

open Sys2Proof

/-! ### The stations after another (R66, R71) -/

theorem stationNo_ne_zero (n : StationNo) : n ≠ 0 ↔ n.toNat ≠ 0 := (BitVec.toNat_inj (y := 0)).not.symm

theorem stationsOn_zero {h n : StationNo} (hh : h ≠ 0) (hn : n ≠ 0) : stationsOn h n = 0 ↔ n = h := by
  rw [stationNo_ne_zero] at hh hn
  rw [← BitVec.toNat_inj]
  have := h.isLt
  have := n.isLt
  unfold stationsOn
  omega

/-- The station at place `i` of the cyclic order after `h`. -/
def stationAt (h : StationNo) (i : Nat) : StationNo := BitVec.ofNat 5 ((h.toNat + i) % 31 + 1)

theorem stationsAfter_eq (h : StationNo) : stationsAfter h = (List.range 30).map (stationAt h) := rfl

/-- The station at place `i` after `h` stands `i + 1` stations on from it. -/
theorem stationAt_iff {h n : StationNo} {i : Nat} (hi : i < 30) :
    stationAt h i = n ↔ n ≠ 0 ∧ stationsOn h n = i + 1 := by
  rw [stationAt, stationNo_ne_zero, ← BitVec.toNat_inj, BitVec.toNat_ofNat]
  have := h.isLt
  have := n.isLt
  unfold stationsOn
  omega

theorem mem_stationsAfter {h n : StationNo} (hh : h ≠ 0) : n ∈ stationsAfter h ↔ n ≠ 0 ∧ n ≠ h := by
  simp only [stationsAfter_eq, List.mem_map, List.mem_range]
  constructor
  · rintro ⟨i, hi, hn⟩
    obtain ⟨h0, hon⟩ := (stationAt_iff hi).mp hn
    exact ⟨h0, fun he => by rw [(stationsOn_zero hh h0).mpr he] at hon; omega⟩
  · rintro ⟨h0, hne⟩
    have hpos := (stationsOn_zero hh h0).not.mpr hne
    have hlt : stationsOn h n < 31 := Nat.mod_lt _ (by decide)
    exact ⟨stationsOn h n - 1, by omega, (stationAt_iff (by omega)).mpr ⟨h0, by omega⟩⟩

/-- The cyclic order after `h`, cut at station `n`: before it stand the stations between the two. -/
theorem stationsAfter_split {h n : StationNo} (hh : h ≠ 0) (hn : n ≠ 0) (hne : n ≠ h) :
    ∃ before after, stationsAfter h = before ++ n :: after ∧ before.Nodup ∧
      ∀ m, m ∈ before ↔ m ≠ 0 ∧ 0 < stationsOn h m ∧ stationsOn h m < stationsOn h n := by
  have hpos := (stationsOn_zero hh hn).not.mpr hne
  have hlt : stationsOn h n < 31 := Nat.mod_lt _ (by decide)
  obtain ⟨d, hd⟩ : ∃ d, stationsOn h n = d + 1 := ⟨stationsOn h n - 1, by omega⟩
  have hcut : List.range 30 = List.range d ++ d :: (List.range (29 - d)).map (d + 1 + ·) := by
    rw [show 30 = d + 1 + (29 - d) by omega, List.range_add, List.range_succ, List.append_assoc]
    rfl
  refine ⟨(List.range d).map (stationAt h),
    ((List.range (29 - d)).map (d + 1 + ·)).map (stationAt h), ?_, ?_, fun m => ?_⟩
  · rw [stationsAfter_eq, hcut, List.map_append, List.map_cons,
      (stationAt_iff (by omega)).mpr ⟨hn, hd⟩]
  · refine List.nodup_range.map_on fun i hi j hj he => ?_
    rw [List.mem_range] at hi hj
    have := ((stationAt_iff (by omega)).mp he).2
    have := ((stationAt_iff (h := h) (i := j) (by omega)).mp rfl).2
    omega
  · simp only [List.mem_map, List.mem_range]
    constructor
    · rintro ⟨i, hi, hm⟩
      obtain ⟨h0, hon⟩ := (stationAt_iff (by omega)).mp hm
      exact ⟨h0, by omega, by omega⟩
    · rintro ⟨h0, hm, hmn⟩
      exact ⟨stationsOn h m - 1, by omega, (stationAt_iff (by omega)).mpr ⟨h0, by omega⟩⟩

/-! ### The next holder and the bitmap (R65, R66) -/

theorem RosterUnit.nextHolder_alone {u : RosterUnit} {stn : StationNo} (h0 : stn ≠ 0)
    (h : ∀ n : StationNo, n ≠ 0 → n ≠ stn → u.entry n ≠ .present) : u.nextHolder stn = stn := by
  have hnone : (stationsAfter stn).find? (fun n => u.entry n == .present) = none := by
    rw [List.find?_eq_none]
    intro n hn
    obtain ⟨hn0, hns⟩ := (mem_stationsAfter h0).mp hn
    simpa using h n hn0 hns
  rw [RosterUnit.nextHolder, hnone, Option.getD_none]

theorem RosterUnit.nextHolder_first {u : RosterUnit} {stn n : StationNo} (h0 : stn ≠ 0) (hn0 : n ≠ 0)
    (hns : n ≠ stn) (hn : u.entry n = .present)
    (hfirst : ∀ m : StationNo, m ≠ 0 → 0 < stationsOn stn m → stationsOn stn m < stationsOn stn n →
      u.entry m ≠ .present) : u.nextHolder stn = n := by
  obtain ⟨before, after, hsplit, -, hbefore⟩ := stationsAfter_split h0 hn0 hns
  have hfind : (stationsAfter stn).find? (fun n => u.entry n == .present) = some n := by
    rw [List.find?_eq_some_iff_append]
    refine ⟨by simp [hn], before, after, hsplit, fun m hm => ?_⟩
    obtain ⟨hm0, hpos, hlt⟩ := (hbefore m).mp hm
    simpa using hfirst m hm0 hpos hlt
  rw [RosterUnit.nextHolder, hfind, Option.getD_some]

/-- Bit `i` of a word built up by setting the bits of the stations that satisfy `p`. -/
theorem foldl_setBits (p : Fin 32 → Prop) [DecidablePred p] (i : Fin 32) (l : List (Fin 32))
    (w : Word) :
    (l.foldl (fun acc n => if p n then acc ||| (1#32 <<< n.val) else acc) w).getLsbD i.val = true ↔
      w.getLsbD i.val = true ∨ i ∈ l ∧ p i := by
  induction l generalizing w with
  | nil => simp
  | cons n l ih =>
    have hbit : (1#32 <<< n.val).getLsbD i.val = true ↔ i = n := by
      have := i.isLt
      simp only [← BitVec.twoPow_eq, BitVec.getLsbD_twoPow, n.isLt, decide_true, Bool.true_and,
        decide_eq_true_iff, Fin.ext_iff]
      exact eq_comm
    rw [List.foldl_cons, ih, List.mem_cons]
    by_cases hp : p n
    · rw [if_pos hp, BitVec.getLsbD_or, Bool.or_eq_true, hbit]
      constructor
      · rintro ((h | rfl) | ⟨hi, hpi⟩)
        · exact .inl h
        · exact .inr ⟨.inl rfl, hp⟩
        · exact .inr ⟨.inr hi, hpi⟩
      · rintro (h | ⟨rfl | hi, hpi⟩)
        · exact .inl (.inl h)
        · exact .inl (.inr rfl)
        · exact .inr ⟨hi, hpi⟩
    · rw [if_neg hp]
      have hne : p i → i ≠ n := fun hpi he => hp (he ▸ hpi)
      constructor
      · exact Or.imp_right fun ⟨hi, hpi⟩ => ⟨.inr hi, hpi⟩
      · exact Or.imp_right fun ⟨hi, hpi⟩ => ⟨hi.resolve_left (hne hpi), hpi⟩

theorem RosterUnit.sentBitmap_bit (u : RosterUnit) (stn n : StationNo) :
    (u.sentBitmap stn).getLsbD n.toNat = true ↔ n ≠ 0 ∧ (u.entry n = .present ∨ n = stn) := by
  refine (foldl_setBits _ n.toFin (List.finRange 32) 0).trans ?_
  have hzero : (n.toFin : Fin 32).val ≠ 0 ↔ n ≠ 0 := (stationNo_ne_zero n).symm
  rw [hzero, toFin_inj]
  simp [RosterUnit.entry]

/-- Settles O9. -/
theorem ownMarkNamesPresentStations : Obligations.OwnMarkNamesPresentStations := by
  intro u stn h0
  exact ⟨u.sentBitmap_bit stn, RosterUnit.nextHolder_alone h0,
    fun n hn0 hns hn hfirst => RosterUnit.nextHolder_first h0 hn0 hns hn hfirst⟩

/-! ### The rank of a station (R71) -/

theorem idxOf?_append_cons {α : Type} [BEq α] [LawfulBEq α] {a : α} {l r : List α} (h : a ∉ l) :
    (l ++ a :: r).idxOf? a = some l.length := by
  rw [List.idxOf?_eq_some_iff]
  refine ⟨by simp, by simp, fun j hj he => h ?_⟩
  rw [List.getElem_append_left hj] at he
  exact he ▸ List.getElem_mem hj

/-- The stations not ABSENT among those between `h` and `n`, counted by their numbers. -/
theorem RosterUnit.between_length (u : RosterUnit) (h n : StationNo) {before : List StationNo}
    (hnodup : before.Nodup)
    (hmem : ∀ m, m ∈ before ↔ m ≠ 0 ∧ 0 < stationsOn h m ∧ stationsOn h m < stationsOn h n) :
    ((List.range 32).filter fun i => i ≠ 0 ∧ u.entry (BitVec.ofNat 5 i) ≠ .absent
        ∧ 0 < stationsOn h (BitVec.ofNat 5 i)
        ∧ stationsOn h (BitVec.ofNat 5 i) < stationsOn h n).length =
      (before.filter fun m => u.entry m != .absent).length := by
  have hofNat {i : Nat} (hi : i < 32) : (BitVec.ofNat 5 i).toNat = i := by
    rw [BitVec.toNat_ofNat, Nat.mod_eq_of_lt hi]
  rw [← List.length_map (f := BitVec.ofNat 5)]
  refine List.Perm.length_eq ((List.perm_ext_iff_of_nodup ?_ (hnodup.filter _)).mpr fun m => ?_)
  · refine (List.nodup_range.filter _).map_on fun i hi j hj he => ?_
    rw [List.mem_filter, List.mem_range] at hi hj
    rw [← hofNat hi.1, he, hofNat hj.1]
  · simp only [List.mem_map, List.mem_filter, List.mem_range, decide_eq_true_iff, hmem, bne_iff_ne]
    constructor
    · rintro ⟨i, ⟨hi, h0, habsent, hbetween⟩, rfl⟩
      exact ⟨⟨fun he => h0 (by rw [← hofNat hi, he]; rfl), hbetween⟩, habsent⟩
    · rintro ⟨⟨h0, hbetween⟩, habsent⟩
      refine ⟨m.toNat, ⟨m.isLt, (stationNo_ne_zero m).mp h0, ?_⟩, BitVec.ofNat_toNat ..⟩
      rw [BitVec.ofNat_toNat, BitVec.setWidth_eq]
      exact ⟨habsent, hbetween⟩

/-- The place of `n` in the ranking after `h` is the number of stations not ABSENT between the two. -/
theorem RosterUnit.ranked_idxOf (u : RosterUnit) {h n : StationNo} (hh : h ≠ 0) (hn0 : n ≠ 0)
    (hne : n ≠ h) (hn : u.entry n = .present) :
    (u.ranked h).idxOf? n = some ((List.range 32).filter fun i =>
      i ≠ 0 ∧ u.entry (BitVec.ofNat 5 i) ≠ .absent ∧ 0 < stationsOn h (BitVec.ofNat 5 i)
        ∧ stationsOn h (BitVec.ofNat 5 i) < stationsOn h n).length := by
  obtain ⟨before, after, hsplit, hnodup, hmem⟩ := stationsAfter_split hh hn0 hne
  have hnot : n ∉ before.filter fun m => u.entry m != .absent := fun h =>
    absurd ((hmem n).mp (List.mem_of_mem_filter h)).2.2 (Nat.lt_irrefl _)
  rw [u.between_length h n hnodup hmem, RosterUnit.ranked, hsplit, List.filter_append,
    List.filter_cons_of_pos (by simp [hn]), idxOf?_append_cons hnot]

/-! ### The opening of the mark window (R71) -/

theorem State.windowPlan_none {s : State} (h : s.mku.holder = none ∨ ¬ s.onDuty) :
    s.windowPlan = .none := by
  unfold State.windowPlan
  rcases h with h | h
  · rw [h]
  · have := (State.onDuty_iff s).not.mpr h
    cases s.mku.holder <;> simp [this]

theorem State.windowPlan_duty {s : State} (hd : s.onDuty) (h : s.mku.holder = some s.straps.stn) :
    s.windowPlan = .duty := by
  simp [State.windowPlan, h, (State.onDuty_iff s).mpr hd]

theorem State.windowPlan_ranked {s : State} {h : StationNo} {i : Nat} (hd : s.onDuty)
    (hh : s.mku.holder = some h) (hne : h ≠ s.straps.stn)
    (hi : (s.rsu.ranked h).idxOf? s.straps.stn = some i) :
    s.windowPlan = if i + 1 ≤ 7 then .takeover (BitVec.ofNat 3 (i + 1)) else .none := by
  simp [State.windowPlan, hh, (State.onDuty_iff s).mpr hd, hne, hi]

/-- Settles O6: the plan is `State.windowPlan`, whose place in the ranking counts the stations between. -/
theorem windowOpeningPlansByRank : Obligations.WindowOpeningPlansByRank := by
  intro s hr hs hw
  have hround : s.lnu.inRound = true := (LineUnit.inRound_iff _).mpr ⟨hs, hw⟩
  have hexec : exec .markWindowOpen s = .next s.openWindow :=
    (event_next _ hr).trans (by rw [if_pos hround])
  refine ⟨_, hexec, rfl, rfl,
    (State.onLnu_changes _ s).seq (State.onMku_changes _ _) (by decide) (by decide),
    State.windowPlan_none, State.windowPlan_duty, fun h hd hh h0 hne hs0 hp => ?_⟩
  have hplan := State.windowPlan_ranked hd hh hne (s.rsu.ranked_idxOf h0 hs0 (Ne.symm hne) hp)
  rw [Nat.add_comm _ 1] at hplan
  exact ⟨fun hle => hplan.trans (if_pos hle), fun hlt => hplan.trans (if_neg (Nat.not_le.mpr hlt))⟩

end Sys2Proof.Machine
end

section
/-! The own MARKs that go out (O7): a request that is taken, its round number and its content. -/

namespace Sys2Proof.Machine

open Sys2Proof

/-! ### A request that is taken (R8, R64, R65) -/

/-- The round number of an own MARK is that of the next Round (R65). -/
theorem State.nextRound_sent (s : State) : s.roundSent s.mku.nextRound := by
  unfold State.roundSent MarkUnit.nextRound countMax
  refine ⟨fun h => if_pos h, fun h => ?_⟩
  rw [if_neg h, BitVec.toNat_add, BitVec.toNat_setWidth]
  show (s.mku.count.toNat % 256 + 1) % 256 = _
  omega

theorem ownBitOnly_eq {stn : StationNo} (h : stn ≠ 0) :
    ownBitOnly stn = BitVec.ofNat 32 (2 ^ stn.toNat) := by
  revert stn
  decide

/-- The own MARK of this kind on the line from `start` on. -/
theorem State.sendMark_lnu (k : MarkKind) (start : Instant) (s : State) :
    (s.sendMark k start).lnu = { s.lnu with
      tx := some ⟨if s.lnu.windowOpen then .markField else .outside, start,
        .mark s.straps.stn (s.markFields k), none⟩
      driving := true } := by
  unfold State.sendMark
  dsimp only
  split <;> rfl

theorem State.sendMark_mku (k : MarkKind) (start : Instant) (s : State) :
    (s.sendMark k start).mku = { s.mku with ownMark := k.inFlight } := by
  unfold State.sendMark
  dsimp only
  split <;> rfl

theorem State.sendMark_counters (k : MarkKind) (start : Instant) (s : State) :
    (s.sendMark k start).counters = if k.counted then s.counters.addTakeover else s.counters := by
  unfold State.sendMark
  dsimp only
  split <;> rfl

/-- A MARK that is not counted changes the Line Unit and the Mark Unit alone. -/
theorem State.sendMark_uncounted {k : MarkKind} (hk : k.counted = false) (start : Instant) (s : State) :
    s.changesOnly [.lnu, .mku] (s.sendMark k start) := by
  intro p hp
  by_cases hc : p = .counters
  · subst hc
    exact (s.sendMark_counters k start).trans (if_neg (by simp [hk]))
  · exact s.sendMark_changes k start p (by simpa [hc] using hp)

/-- A takeover or recovery MARK counts one more in TAKEOVER (R73, R76). -/
theorem State.sendMark_counted {k : MarkKind} (hk : k.counted = true) (start : Instant) (s : State) :
    countsOne s.counters.takeover (s.sendMark k start).counters.takeover ∧
      (s.sendMark k start).counters =
        { s.counters with takeover := (s.sendMark k start).counters.takeover } := by
  have h : (s.sendMark k start).counters = s.counters.addTakeover :=
    (s.sendMark_counters k start).trans (if_pos hk)
  rw [h]
  exact ⟨countsOne_satAdd _, rfl⟩

theorem State.takesMark_true {s : State} {carrier : Bool} (h : ¬ s.markBlocked carrier) :
    s.lnu.takesMark carrier = true := by
  rwa [← State.takesMark_false, Bool.not_eq_false] at h

theorem State.requestMark_taken {k : MarkKind} {s : State} (start : Instant)
    (hk : k.permitted s.rsu.membership = true) (hb : ¬ s.markBlocked false) :
    s.requestMark k start false = s.sendMark k start := by
  rw [State.requestMark, hk, State.takesMark_true hb]
  rfl

/-! ### The four requests (R72, R73, R76, R79) -/

section

variable {s : State} {e : Instant}

theorem exec_dutyMark_taken (hr : s.resetAsserted = false) (hb : ¬ s.markBlocked false)
    (hd : s.onDuty) (he : s.lnu.expected = some e) (hp : s.mku.plan = .duty) :
    exec (.dutyMark false) s = .next ((s.sendMark .duty e).onMku MarkUnit.endPlan) := by
  have hreq : s.requestMark .duty e false = s.sendMark .duty e :=
    State.requestMark_taken e ((State.onDuty_iff s).mpr hd) hb
  refine (event_next (State.dutyMark false) hr).trans ?_
  rw [State.dutyMark, hp, he, ← hreq]

theorem exec_takeoverMark_taken {k : BitVec 3} (hr : s.resetAsserted = false)
    (hb : ¬ s.markBlocked false) (hd : s.onDuty) (he : s.lnu.expected = some e)
    (hp : s.mku.plan = .takeover k) (hc : s.mku.carrierSeen = false) :
    exec (.takeoverMark false) s =
      .next ((s.sendMark (.takeover k) (e + k.toNat * 96)).onMku MarkUnit.endPlan) := by
  have hreq : s.requestMark (.takeover k) (e + k.toNat * Config.slotTime) false =
      s.sendMark (.takeover k) (e + k.toNat * 96) :=
    State.requestMark_taken _ ((State.onDuty_iff s).mpr hd) hb
  refine (event_next (State.takeoverMark false) hr).trans ?_
  rw [State.takeoverMark, hp, he, ← hreq]
  dsimp only
  rw [if_neg (by simp [hc])]

theorem exec_recoveryWaitExpiry_taken (hr : s.resetAsserted = false) (hb : ¬ s.markBlocked false)
    (hd : s.onDuty) (hw : s.mku.recoveryWait = some e) :
    exec (.recoveryWaitExpiry false) s =
      .next ((s.sendMark .recovery e).onMku fun m => { m with recoveryWait := none }) := by
  have hreq : s.requestMark .recovery e false = s.sendMark .recovery e :=
    State.requestMark_taken e ((State.onDuty_iff s).mpr hd) hb
  refine (event_next (State.recoveryExpiry false) hr).trans ?_
  rw [State.recoveryExpiry, hw, ← hreq]

/-- A cold MARK that is taken does not start its wait again. -/
theorem exec_coldStartWaitExpiry_taken (hr : s.resetAsserted = false) (hb : ¬ s.markBlocked false)
    (hm : s.rsu.membership = .isolated) (hw : s.mku.coldWait = some e) :
    exec (.coldStartWaitExpiry false) s =
      .next ((s.sendMark .cold e).onMku fun m => { m with coldWait := none }) := by
  have hreq : s.requestMark .cold e false = s.sendMark .cold e :=
    State.requestMark_taken e (by simp [MarkKind.permitted, hm]) hb
  refine (event_next (State.coldExpiry false) hr).trans ?_
  rw [State.coldExpiry, hw, ← hreq]
  simp [State.takesMark_true hb]

end

/-- Settles O7: each request is taken, and its plan or wait ends with it. -/
theorem ownMarksGoOut : Obligations.OwnMarksGoOut := by
  intro s e hr hb sent next bitmap
  have hround : s.roundSent s.mku.nextRound := s.nextRound_sent
  refine ⟨fun hd he hp => ?_, fun k hd he hp hc => ?_, fun hd hw => ?_, fun hm h0 hw => ?_⟩
  · refine ⟨_, s.mku.nextRound, exec_dutyMark_taken hr hb hd he hp, hround, s.sendMark_lnu _ _, ?_,
      (State.sendMark_uncounted rfl e s).trans ((State.onMku_changes _ _).mono (by decide))⟩
    rw [State.onMku_mku, State.sendMark_mku]
    rfl
  · obtain ⟨hcount, hcounters⟩ := State.sendMark_counted (k := .takeover k) rfl (e + k.toNat * 96) s
    refine ⟨_, s.mku.nextRound, exec_takeoverMark_taken hr hb hd he hp hc, hround,
      s.sendMark_lnu _ _, ?_, hcount, hcounters,
      (s.sendMark_changes _ _).trans ((State.onMku_changes _ _).mono (by decide))⟩
    rw [State.onMku_mku, State.sendMark_mku]
    rfl
  · obtain ⟨hcount, hcounters⟩ := State.sendMark_counted (k := .recovery) rfl e s
    refine ⟨_, s.mku.nextRound, exec_recoveryWaitExpiry_taken hr hb hd hw, hround,
      s.sendMark_lnu _ _, ?_, hcount, hcounters,
      (s.sendMark_changes _ _).trans ((State.onMku_changes _ _).mono (by decide))⟩
    rw [State.onMku_mku, State.sendMark_mku]
    rfl
  · refine ⟨_, s.mku.nextRound, exec_coldStartWaitExpiry_taken hr hb hm hw, hround, ?_, ?_,
      (State.sendMark_uncounted rfl e s).trans ((State.onMku_changes _ _).mono (by decide))⟩
    · rw [State.onMku_lnu, State.sendMark_lnu, ← ownBitOnly_eq h0]
      rfl
    · rw [State.onMku_mku, State.sendMark_mku]
      rfl

end Sys2Proof.Machine
end

section
/-! Another station's MARK at the Roster Unit (O12): the entries in either order of miss and bitmap, and the
course of the joining. -/

namespace Sys2Proof.Machine

open Sys2Proof

/-! ### One entry, in either order of miss and bitmap (R84, R85; log 6) -/

/-- A reading of the state that each element of a list changes by `g` is folded by `g`. -/
theorem foldl_reads {α β γ : Type} (φ : α → γ) (f : α → β → α) (g : γ → β → γ) (P : α → Prop)
    (hP : ∀ s t, P s → P (f s t)) (h : ∀ s t, P s → φ (f s t) = g (φ s) t) (l : List β) (s : α)
    (hs : P s) : φ (l.foldl f s) = l.foldl g (φ s) := by
  induction l generalizing s with
  | nil => rfl
  | cons t l ih => rw [List.foldl_cons, List.foldl_cons, ih _ (hP s t hs), h s t hs]

/-- What each of the four that take a MARK makes of the entry of another station. -/
def entryTask (missed : Prop) [Decidable missed] (mark : RosterEntry → RosterEntry) (e : RosterEntry) :
    MarkTask → RosterEntry
  | .miss => if missed then missTable e else e
  | .roster => mark e
  | .slotAgent | .queue => e

theorem markOrder_entryTask (missed : Prop) [Decidable missed] (mark : RosterEntry → RosterEntry)
    (o : Fin 24) (e : RosterEntry) :
    (markOrder o).foldl (entryTask missed mark) e =
      if ¬ missed then mark e
      else if (markOrder o).idxOf .miss < (markOrder o).idxOf .roster then mark (missTable e)
      else missTable (mark e) := by
  have hskip : entryTask missed mark = fun e t =>
      if (t == .miss || t == .roster) = true then entryTask missed mark e t else e := by
    funext e t
    cases t <;> rfl
  have hpair : ∀ o, (markOrder o).filter (fun t => t == .miss || t == .roster) =
      if (markOrder o).idxOf .miss < (markOrder o).idxOf .roster then [.miss, .roster]
      else [.roster, .miss] := by decide
  rw [hskip, ← List.foldl_filter, hpair]
  by_cases hm : missed <;> split <;> simp [entryTask, hm]

/-- The MARK at one of the four, at the entry of another station (R83 to R85). -/
theorem State.markTask_entry (x : StationNo) (b : Word) (y : Option StationNo) (n : StationNo)
    (s : State) (t : MarkTask) (h0 : n ≠ 0) (hn : n ≠ s.straps.stn) :
    (s.markTask false x b y t).rsu.entry n =
      entryTask (y = some n) (bitmapTable (n = x) (b.getLsbD n.toNat)) (s.rsu.entry n) t := by
  cases t with
  | miss => exact State.missTask_entry false x b y n s h0 hn
  | roster =>
    exact (State.membershipMark_entry _ (s.onRsu _) n hn).trans (RosterUnit.mark_entry _ x n b _ h0 hn)
  | slotAgent =>
    rw [State.markTask_slotAgent, show s.slotAgentMark.rsu = s.rsu from
      s.slotAgentMark_changes .rsu (by decide)]
    rfl
  | queue => rfl

theorem State.markTasks_entry (x : StationNo) (b : Word) (y : Option StationNo) (o : Fin 24)
    (n : StationNo) (s : State) (h0 : n ≠ 0) (hn : n ≠ s.straps.stn) :
    ((markOrder o).foldl (State.markTask false x b y) s).rsu.entry n =
      (markOrder o).foldl
        (entryTask (y = some n) (bitmapTable (n = x) (b.getLsbD n.toNat))) (s.rsu.entry n) := by
  refine foldl_reads (fun s : State => s.rsu.entry n) _ _ (fun s => n ≠ s.straps.stn)
    (fun u t hu => ?_) (fun u t hu => State.markTask_entry x b y n u t h0 hu) (markOrder o) s hn
  rwa [show (u.markTask false x b y t).straps = u.straps from
    State.markTask_changes false x b y u t .straps (by decide)]

/-! ### The course of the joining (R88 to R91, R95) -/

/-- The course after another station's MARK, as the two tables give it. -/
def markCourse (u : RosterUnit) (ownBit : Bool) : Course :=
  (membershipTable u ownBit, (countsTable u ownBit).course.2)

/-- The tables read no entry of the roster. -/
theorem markCourse_forget (u : RosterUnit) (b : Bool) : markCourse u.forget b = markCourse u b := by
  refine Prod.ext rfl ?_
  obtain ⟨m, r, n, a, j, i, q⟩ := u
  cases m with
  | listening =>
    by_cases h0 : n = 0 <;> simp [markCourse, countsTable, RosterUnit.forget, RosterUnit.course, h0]
  | joining =>
    cases b with
    | true => rfl
    | false =>
      cases j with
      | none => rfl
      | some t =>
        by_cases h2 : 2 ≤ t
        · simp [markCourse, countsTable, RosterUnit.forget, RosterUnit.course, h2]
        · by_cases h4 : a < 4 <;>
            simp [markCourse, countsTable, RosterUnit.forget, RosterUnit.course, h2, h4]
  | dormant | leaving => rfl
  | member | isolated => cases b <;> rfl

theorem State.attemptEnds_course (s : State) :
    s.attemptEnds.rsu.course =
      if s.rsu.attempt < 4 then
        (s.rsu.membership, s.rsu.learnCount, s.rsu.attempt + 1, s.rsu.joinTimer, .join)
      else (.dormant, s.rsu.learnCount, 0, s.rsu.joinTimer, s.rsu.intent) := by
  unfold State.attemptEnds Config.joinAttempts
  split
  · exact State.offerControl_course _ _ _
  · exact State.setMembership_course _ _

theorem State.learnMark_course {s : State} (hm : s.rsu.membership = .listening) (b : Bool) :
    s.learnMark.rsu.course = markCourse s.rsu b := by
  have h := s.rosterOwnMark_course
  rw [State.rosterOwnMark, hm] at h
  refine h.trans ?_
  simp only [RosterUnit.course, ownMarkCourse, hm, markCourse, membershipTable, countsTable]
  split <;> rfl

theorem State.joined_course {s : State} (hm : s.rsu.membership = .joining) :
    s.joined.rsu.course = markCourse s.rsu true := by
  rw [State.joined, State.raise_rsu, State.setMembership_course]
  simp [RosterUnit.course, markCourse, membershipTable, countsTable, hm]

theorem State.joinWait_course {s : State} (hm : s.rsu.membership = .joining) :
    s.joinWait.rsu.course = markCourse s.rsu false := by
  unfold State.joinWait
  split
  · rename_i ht
    rw [State.reoffer_course]
    simp [RosterUnit.course, markCourse, membershipTable, countsTable, hm, ht]
  · rename_i t ht
    by_cases h2 : 2 ≤ t
    · have h1 : ¬ t ≤ 1 := by omega
      rw [if_neg h1]
      simp [RosterUnit.course, markCourse, membershipTable, countsTable, hm, ht, h1, h2]
    · have h1 : t ≤ 1 := by omega
      rw [if_pos h1, State.joinTimerDone, State.attemptEnds_course]
      by_cases h4 : s.rsu.attempt < 4 <;>
        simp [RosterUnit.course, markCourse, membershipTable, countsTable, hm, ht, h1, h2, h4]

theorem State.expelled_course {s : State} (hm : s.rsu.membership = .member) :
    s.expelled.rsu.course = markCourse s.rsu false := by
  rw [State.expelled, State.raise_rsu, State.offerJoin, State.offerControl_course]
  simp [RosterUnit.course, markCourse, membershipTable, countsTable, hm]

theorem State.membershipMark_course (b : Bool) (s : State) :
    (s.membershipMark b).rsu.course = markCourse s.rsu b := by
  unfold State.membershipMark
  split
  · rename_i hm
    simp [RosterUnit.course, markCourse, membershipTable, countsTable, hm]
  · rename_i hm
    exact State.learnMark_course hm b
  · rename_i hm
    cases b
    · exact State.joinWait_course hm
    · exact State.joined_course hm
  · rename_i hm
    cases b
    · exact State.expelled_course hm
    · simp [RosterUnit.course, markCourse, membershipTable, countsTable, hm]
  · rename_i hm
    rw [State.reoffer_course]
    simp [RosterUnit.course, markCourse, membershipTable, countsTable, hm]
  · rename_i hm
    cases b
    · rw [if_neg (by decide), State.setMembership_course]
      simp [RosterUnit.course, markCourse, membershipTable, countsTable, hm]
    · rw [if_pos rfl, State.raise_rsu, State.setMembership_course]
      simp [RosterUnit.course, markCourse, membershipTable, countsTable, hm]

end Sys2Proof.Machine
end

section
/-! Another station's MARK among the blocks that take it (O12): the JOIN in the queue, what the other blocks
leave alone, the events of the membership state, and the statement. -/

namespace Sys2Proof.Machine

open Sys2Proof

/-! ### The JOIN in the queue (R45, R46, R89) -/

/-- A withdrawal of the JOIN while no own cell is on the line leaves no JOIN or LEAVE. -/
theorem CellQueue.withdraw_join {q : CellQueue} (why : Withdrawal) (hl : q.onLine = false)
    (hn : (q.entries.map fun e => e.cell.slot?).Nodup) :
    ∀ e ∈ (q.withdraw none why).entries, e.cell.slot? ≠ none := by
  have herase : (q.withdraw none why).entries.map (fun e => e.cell.slot?) =
      (q.entries.map fun e => e.cell.slot?).erase none := by
    rw [CellQueue.withdraw_offLine none why hl, List.erase_eq_eraseP, List.eraseP_map]
    congr 2
    funext e
    exact BEq.comm
  intro e he hs
  have hmem : none ∈ (q.withdraw none why).entries.map fun e => e.cell.slot? :=
    List.mem_map.mpr ⟨e, he, hs⟩
  exact hn.not_mem_erase (herase ▸ hmem)

theorem State.joined_ccq (s : State) :
    s.joined.ccq = if s.rsu.queued then s.ccq.withdraw none .gone else s.ccq :=
  (s.onRsu fun u => { u with joinTimer := none, attempt := 0 }).withdrawJoin_ccq

/-- What holds of the queue and survives each offer of a cell with a slot holds after the offers of slots. -/
theorem offerSlots_keeps (P : CellQueue → Prop)
    (h : ∀ q q' c, c.slot? ≠ none → q.offer c = some q' → P q → P q') (is : List SlotNo)
    (m : Vector SlotEntry 48) (q : CellQueue) (hq : P q) : P (offerSlots is (m, q)).2 := by
  induction is generalizing m q with
  | nil => exact hq
  | cons i is ih =>
    unfold offerSlots
    cases ho : m[i].offer i with
    | none => exact ih m q hq
    | some c =>
      have hslot : c.slot? = some i := (SlotEntry.offer_named (m := m) ho).1
      dsimp only
      cases hc : q.offer c with
      | none => exact hq
      | some q' => exact ih _ _ (h q q' c (by simp [hslot]) hc hq)

theorem State.offerAll_ccq (is : List SlotNo) (s : State) :
    (s.offerAll is).ccq = (offerSlots is (s.slotMap, s.ccq)).2 := rfl

/-- The Slot Agent at a MARK touches the queue by its offers alone (R33, R36). -/
theorem State.slotAgentMark_ccq (s : State) :
    ∃ m, s.slotAgentMark.ccq = (offerSlots allSlots (m, s.ccq)).2 := by
  let u := (s.mapEntries SlotEntry.tickBackoff).onStreams fun _ => Stream.tickPause
  have hu : u.ccq = s.ccq := by rw [State.onStreams_ccq, State.mapEntries_ccq]
  have hclaims : u.changesOnly [.slotMap, .streams] (allStreams.foldl State.autoClaim u) :=
    State.changesOnly.foldl State.autoClaim State.autoClaim_changes allStreams u
  refine ⟨(allStreams.foldl State.autoClaim u).slotMap, ?_⟩
  rw [← hu, ← show (allStreams.foldl State.autoClaim u).ccq = u.ccq from hclaims .ccq (by decide)]
  exact State.offerAll_ccq allSlots _

theorem CellQueue.onMark_slots (q : CellQueue) :
    (q.onMark.entries.map fun e => e.cell.slot?) = q.entries.map fun e => e.cell.slot? := by
  unfold CellQueue.onMark
  split
  · rfl
  · split
    · rfl
    · rename_i hq _
      simp [hq]

theorem CellQueue.onMark_onLine (q : CellQueue) : q.onMark.onLine = q.onLine := by
  unfold CellQueue.onMark
  split
  · rfl
  · split <;> rfl

/-- The queue after one of the other blocks took the MARK: as sound as before, and no JOIN or LEAVE
new. -/
structure CellQueue.Served (q r : CellQueue) : Prop where
  onLine : r.onLine = q.onLine
  sound : q.entries.length ≤ 8 ∧ (q.entries.map fun e => e.cell.slot?).Nodup →
    r.entries.length ≤ 8 ∧ (r.entries.map fun e => e.cell.slot?).Nodup
  slots : (∀ e ∈ q.entries, e.cell.slot? ≠ none) → ∀ e ∈ r.entries, e.cell.slot? ≠ none

theorem CellQueue.Served.refl (q : CellQueue) : q.Served q := ⟨rfl, id, id⟩

theorem CellQueue.Served.trans {q r t : CellQueue} (h₁ : q.Served r) (h₂ : r.Served t) : q.Served t :=
  ⟨h₂.onLine.trans h₁.onLine, h₂.sound ∘ h₁.sound, h₂.slots ∘ h₁.slots⟩

theorem CellQueue.served_offer {q q' : CellQueue} {c : QueueCell} (hc : c.slot? ≠ none)
    (h : q.offer c = some q') : q.Served q' := by
  obtain ⟨rfl, hlen, hnew⟩ := CellQueue.offer_some h
  refine ⟨rfl, fun ⟨_, hn⟩ => ⟨by simpa using hlen, ?_⟩, fun hs e he => ?_⟩
  · rw [List.map_append, List.map_singleton, List.nodup_append]
    refine ⟨hn, List.nodup_singleton _, fun a ha b hb => ?_⟩
    obtain ⟨e, he, rfl⟩ := List.mem_map.mp ha
    exact (List.mem_singleton.mp hb) ▸ hnew e he
  · rcases List.mem_append.mp he with he | he
    · exact hs e he
    · rw [List.mem_singleton.mp he]
      exact hc

theorem CellQueue.served_onMark (q : CellQueue) : q.Served q.onMark := by
  have hlen : q.onMark.entries.length = q.entries.length := by
    simpa using congrArg List.length q.onMark_slots
  refine ⟨q.onMark_onLine, fun h => by rwa [hlen, q.onMark_slots], fun h e he hs => ?_⟩
  have hmem : none ∈ q.onMark.entries.map fun e => e.cell.slot? := List.mem_map.mpr ⟨e, he, hs⟩
  rw [q.onMark_slots] at hmem
  obtain ⟨d, hd, hds⟩ := List.mem_map.mp hmem
  exact h d hd hds

/-! ### The blocks before and after the Roster Unit -/

/-- What the three other takers of a MARK leave alone: the station flags, the Roster Unit apart from its
entries, and what the queue holds of a JOIN or LEAVE. -/
structure State.RosterWaits (s t : State) : Prop where
  straps : t.straps = s.straps
  flags : t.stationFlags = s.stationFlags
  forget : t.rsu.forget = s.rsu.forget
  queue : s.ccq.Served t.ccq

theorem State.RosterWaits.membership {s t : State} (h : s.RosterWaits t) :
    t.rsu.membership = s.rsu.membership := by
  simpa [RosterUnit.forget] using congrArg RosterUnit.membership h.forget

theorem State.RosterWaits.queued {s t : State} (h : s.RosterWaits t) :
    t.rsu.queued = s.rsu.queued := by
  simpa [RosterUnit.forget] using congrArg RosterUnit.queued h.forget

theorem State.RosterWaits.course {s t : State} (h : s.RosterWaits t) :
    t.rsu.course = s.rsu.course := by
  simpa [RosterUnit.forget, RosterUnit.course] using congrArg RosterUnit.course h.forget

theorem State.RosterWaits.refl (s : State) : s.RosterWaits s := ⟨rfl, rfl, rfl, .refl _⟩

theorem State.RosterWaits.trans {s t u : State} (h₁ : s.RosterWaits t) (h₂ : t.RosterWaits u) :
    s.RosterWaits u :=
  ⟨h₂.straps.trans h₁.straps, h₂.flags.trans h₁.flags, h₂.forget.trans h₁.forget,
    h₁.queue.trans h₂.queue⟩

theorem RosterUnit.onOther_forget (stn x : StationNo) (f : RosterEntry → RosterEntry)
    (u : RosterUnit) : (u.onOther stn x f).forget = u.forget := by
  rw [RosterUnit.onOther_keeps]
  rfl

theorem RosterUnit.adoptBitmap_forget (stn : StationNo) (b : Word) (u : RosterUnit) :
    (u.adoptBitmap stn b).forget = u.forget := by
  simp only [RosterUnit.adoptBitmap, RosterUnit.forget]

theorem State.markTask_rosterWaits (own : Bool) (x : StationNo) (b : Word) (y : Option StationNo)
    (s : State) {t : MarkTask} (ht : t ≠ .roster) : s.RosterWaits (s.markTask own x b y t) := by
  cases t with
  | roster => exact absurd rfl ht
  | miss =>
    cases y with
    | none => exact .refl s
    | some y => exact ⟨rfl, rfl, RosterUnit.onOther_forget _ _ _ _, .refl _⟩
  | slotAgent =>
    have hkeeps := s.slotAgentMark_changes
    obtain ⟨m, hm⟩ := s.slotAgentMark_ccq
    refine ⟨hkeeps .straps (by decide), hkeeps .stationFlags (by decide),
      congrArg RosterUnit.forget (hkeeps .rsu (by decide)), ?_⟩
    rw [State.markTask_slotAgent, hm]
    exact offerSlots_keeps (s.ccq.Served ·)
      (fun _ _ _ hc ho h => h.trans (CellQueue.served_offer hc ho)) allSlots m s.ccq (.refl _)
  | queue => exact ⟨rfl, rfl, rfl, s.ccq.served_onMark⟩

theorem State.markTasks_rosterWaits (own : Bool) (x : StationNo) (b : Word) (y : Option StationNo)
    {l : List MarkTask} (hl : .roster ∉ l) (s : State) :
    s.RosterWaits (l.foldl (State.markTask own x b y) s) :=
  List.foldlRecOn (motive := s.RosterWaits) l _ (.refl s) fun _ h _ ht =>
    h.trans (State.markTask_rosterWaits own x b y _ fun he => hl (he ▸ ht))

/-- The Roster Unit has its turn once in every order. -/
theorem markOrder_split (o : Fin 24) : ∃ before after, markOrder o = before ++ .roster :: after ∧
    .roster ∉ before ∧ .roster ∉ after := by
  have hcount := markOrder_count o .roster
  obtain ⟨before, after, hsplit, hbefore⟩ :=
    List.eq_append_cons_of_mem (List.count_pos_iff.mp (by omega : 0 < (markOrder o).count .roster))
  refine ⟨before, after, hsplit, hbefore, ?_⟩
  rw [hsplit, List.count_append, List.count_cons_self] at hcount
  exact List.count_eq_zero.mp (by omega)

/-- Another station's MARK at the Roster Unit itself, its entries apart (R88 to R91, R93, R95). -/
structure State.RosterMarked (ownBit : Bool) (s t : State) : Prop where
  course : t.rsu.course = markCourse s.rsu ownBit
  flags : t.stationFlags = s.stationFlags |||
    (if ownBit = true ∧ (s.rsu.membership = .joining ∨ s.rsu.membership = .isolated) then 1#9 else
      if ownBit = false ∧ s.rsu.membership = .member then 2#9 else
      if s.rsu.membership = .joining ∧ t.rsu.membership = .dormant then 4#9 else 0#9)
  unqueued : s.rsu.membership = .joining → ownBit = true → t.rsu.queued = false
  withdrawn : s.rsu.membership = .joining → ownBit = true → s.rsu.queued = true →
    s.ccq.onLine = false → QueueSound s → ∀ e ∈ t.ccq.entries, e.cell.slot? ≠ none

theorem State.joined_queued (s : State) : s.joined.rsu.queued = false := by
  rw [State.joined, State.raise_rsu, State.setMembership_rsu, RosterUnit.setMembership_keeps,
    (State.withdrawJoin_keeps _).2.2]

theorem State.membershipMark_joined {s : State} (hm : s.rsu.membership = .joining) :
    s.membershipMark true = s.joined := by
  rw [State.membershipMark, hm]
  rfl

theorem State.membershipMark_marked (b : Bool) (s : State) : s.RosterMarked b (s.membershipMark b) := by
  refine ⟨s.membershipMark_course b, s.membershipMark_flags b, fun hm hb => ?_,
    fun hm hb hq hl hs => ?_⟩ <;> subst hb <;> rw [State.membershipMark_joined hm]
  · exact s.joined_queued
  · rw [State.joined_ccq, if_pos hq]
    exact CellQueue.withdraw_join .gone hl hs.2

/-- Changes before and after that leave the Roster Unit waiting change nothing of its answer. -/
theorem State.RosterMarked.around {b : Bool} {s u v t : State} (h₁ : s.RosterWaits u)
    (h : u.RosterMarked b v) (h₂ : v.RosterWaits t) : s.RosterMarked b t := by
  refine ⟨?_, ?_, fun hm hb => ?_, fun hm hb hq hl hs => ?_⟩
  · calc t.rsu.course = v.rsu.course := h₂.course
      _ = markCourse u.rsu b := h.course
      _ = markCourse s.rsu b := by rw [← markCourse_forget, h₁.forget, markCourse_forget]
  · rw [h₂.flags, h.flags, h₁.flags, h₁.membership, h₂.membership]
  · exact h₂.queued.trans (h.unqueued (h₁.membership.trans hm) hb)
  · exact h₂.queue.slots (h.withdrawn (h₁.membership.trans hm) hb (h₁.queued.trans hq)
      (h₁.queue.onLine.trans hl) (h₁.queue.sound hs))

/-- The sender's refresh and the bitmap change entries alone (R83, R85). -/
theorem State.refresh_rosterWaits (x : StationNo) (b : Word) (s : State) :
    s.RosterWaits (s.onRsu fun u => (u.heard s.straps.stn x).adoptBitmap s.straps.stn b) :=
  ⟨rfl, rfl, by rw [State.onRsu_rsu, RosterUnit.adoptBitmap_forget, RosterUnit.heard,
    RosterUnit.onOther_forget], .refl _⟩

/-- Another station's MARK at the four, in any order. -/
theorem State.markTasks_marked (x : StationNo) (b : Word) (y : Option StationNo) (o : Fin 24)
    (s : State) : s.RosterMarked (b.getLsbD s.straps.stn.toNat)
      ((markOrder o).foldl (State.markTask false x b y) s) := by
  obtain ⟨before, after, hsplit, hbefore, hafter⟩ := markOrder_split o
  let u := before.foldl (State.markTask false x b y) s
  have hu : s.RosterWaits u := State.markTasks_rosterWaits false x b y hbefore s
  have hmark := State.membershipMark_marked (b.getLsbD u.straps.stn.toNat)
    (u.onRsu fun r => (r.heard u.straps.stn x).adoptBitmap u.straps.stn b)
  rw [hsplit, List.foldl_append, List.foldl_cons, ← hu.straps]
  exact hmark.around (hu.trans (u.refresh_rosterWaits x b))
    (State.markTasks_rosterWaits false x b y hafter _)

/-! ### The events of the membership state (R90, R91, R95) -/

theorem State.RosterMarked.membership {b : Bool} {s t : State} (h : s.RosterMarked b t) :
    t.rsu.membership = membershipTable s.rsu b := congrArg Prod.fst h.course

theorem State.RosterMarked.counts {b : Bool} {s t : State} (h : s.RosterMarked b t) :
    sameCounts (countsTable s.rsu b) t.rsu := by
  have hcourse := congrArg Prod.snd h.course
  simpa [RosterUnit.course, markCourse] using hcourse

theorem State.RosterMarked.flag_joined {b : Bool} {s t : State} (h : s.RosterMarked b t) :
    t.stationFlags.getLsbD 0 = true ↔ s.stationFlags.getLsbD 0 = true ∨
      (b = true ∧ (s.rsu.membership = .joining ∨ s.rsu.membership = .isolated)) := by
  rw [h.flags, BitVec.getLsbD_or, Bool.or_eq_true]
  refine or_congr_right ?_
  split_ifs <;> simp_all

theorem State.RosterMarked.flag_expelled {b : Bool} {s t : State} (h : s.RosterMarked b t) :
    t.stationFlags.getLsbD 1 = true ↔ s.stationFlags.getLsbD 1 = true ∨
      (b = false ∧ s.rsu.membership = .member) := by
  rw [h.flags, BitVec.getLsbD_or, Bool.or_eq_true]
  refine or_congr_right ?_
  split_ifs <;> simp_all

theorem State.RosterMarked.flag_joinFailed {b : Bool} {s t : State} (h : s.RosterMarked b t) :
    t.stationFlags.getLsbD 2 = true ↔ s.stationFlags.getLsbD 2 = true ∨
      (s.rsu.membership = .joining ∧ t.rsu.membership = .dormant) := by
  have hadmitted (hb : b = true) (hm : s.rsu.membership = .joining) : t.rsu.membership = .member := by
    rw [h.membership, membershipTable, hm, hb]
    rfl
  rw [h.flags, BitVec.getLsbD_or, Bool.or_eq_true]
  refine or_congr_right ?_
  split_ifs <;> simp_all

theorem State.RosterMarked.flag_other {b : Bool} {s t : State} (h : s.RosterMarked b t) {i : Nat}
    (hi : 2 < i) : t.stationFlags.getLsbD i = s.stationFlags.getLsbD i := by
  have hpow : 2 ^ 3 ≤ 2 ^ i := Nat.pow_le_pow_right (by decide) hi
  have hbit (v : BitVec 9) (hv : v.toNat < 2 ^ 3) : v.getLsbD i = false :=
    Nat.testBit_lt_two_pow (Nat.lt_of_lt_of_le hv hpow)
  rw [h.flags, BitVec.getLsbD_or, hbit (ite _ _ _) ?_, Bool.or_false]
  split_ifs <;> decide

/-- The Mark Unit raises ROUND_SLIP and no other event (R68). -/
theorem State.countMark_flag_other (f : MarkFields) (s : State) {i : Nat} (hi : i ≠ 6) :
    (s.countMark f).stationFlags.getLsbD i = s.stationFlags.getLsbD i := by
  have hbit : (1#9 <<< StationEvent.roundSlip.bit).getLsbD i = false := by
    rw [← BitVec.twoPow_eq, BitVec.getLsbD_twoPow]
    simp [StationEvent.bit, Ne.symm hi]
  unfold State.countMark
  dsimp only
  split
  · rw [State.raise_stationFlags, BitVec.getLsbD_or, hbit, Bool.or_false]
    rfl
  · rfl

/-! ### The statement -/

/-- The holder that another station's MARK shows missed, where it is a station other than this one (R70). -/
theorem MarkUnit.missedBy_iff (m : MarkUnit) (stn x n : StationNo) (takeover : Bool) (hn : n ≠ stn) :
    m.missedBy stn x takeover = some n ↔ m.holder = some n ∧ (takeover = true ∨ x ≠ n) := by
  rw [MarkUnit.missedBy, Option.filter_eq_some_iff]
  simp [hn]

/-- What another station's MARK that anchors leaves of the Roster Unit, the order of miss and bitmap
apart. -/
theorem State.anchorMark_other (onset : Instant) (x : StationNo) (f : MarkFields) (o : Fin 24)
    (s : State) :
    let u := (s.onLnu (LineUnit.anchorAt onset)).countMark f
    u.RosterMarked (f.bitmap.getLsbD s.straps.stn.toNat) (s.anchorMark false onset x f o) ∧
      ∀ n : StationNo, n ≠ 0 → n ≠ s.straps.stn →
        (s.anchorMark false onset x f o).rsu.entry n =
          (markOrder o).foldl (entryTask (s.mku.missedBy s.straps.stn x f.takeover = some n)
            (bitmapTable (n = x) (f.bitmap.getLsbD n.toNat))) (s.rsu.entry n) := by
  intro u
  have hu : (s.onLnu (LineUnit.anchorAt onset)).changesOnly [.mku, .stationFlags] u :=
    State.countMark_changes f _
  have hrsu : u.rsu = s.rsu := hu .rsu (by decide)
  have hstraps : u.straps = s.straps := hu .straps (by decide)
  have hmarked := State.markTasks_marked x f.bitmap (s.mku.missedBy s.straps.stn x f.takeover) o u
  rw [hstraps] at hmarked
  refine ⟨hmarked.around (.refl u) ⟨rfl, rfl, rfl, .refl _⟩, fun n h0 hn => ?_⟩
  have hentry := State.markTasks_entry x f.bitmap (s.mku.missedBy s.straps.stn x f.takeover) o n u h0
    (hstraps ▸ hn)
  rw [hrsu] at hentry
  exact hentry

/-- A MARK of another station that may anchor is taken as an anchor (R16, R17). -/
theorem State.otherMarkHeard_anchors {onset : Instant} {x : StationNo} {f : MarkFields} {s : State}
    (o : Fin 24) (hx : x ≠ 0) (hstn : x ≠ s.straps.stn) (hnext : f.next ≠ 0)
    (h : s.canAnchor onset) :
    s.otherMarkHeard onset x f o = s.anchorMark false onset x f o := by
  simp only [State.otherMarkHeard, (State.anchors_iff s onset).mpr h, Bool.not_true,
    Bool.false_eq_true, if_false]
  rw [if_neg (not_or.mpr ⟨hx, hnext⟩), if_neg hstn]

/-- Settles O12: the Roster Unit's one turn decides everything but the entries, and those take the miss and
the bitmap in the order's order. -/
theorem rosterUnitFollowsMark : Obligations.RosterUnitFollowsMark := by
  intro onset x f o s hr hx hstn hnext hanchor
  let u := (s.onLnu (LineUnit.anchorAt onset)).countMark f
  have hu : (s.onLnu (LineUnit.anchorAt onset)).changesOnly [.mku, .stationFlags] u :=
    State.countMark_changes f _
  have hrsu : u.rsu = s.rsu := hu .rsu (by decide)
  have hccq : u.ccq = s.ccq := hu .ccq (by decide)
  have hflag {i : Nat} (hi : i ≠ 6) : u.stationFlags.getLsbD i = s.stationFlags.getLsbD i :=
    State.countMark_flag_other f _ hi
  obtain ⟨hmarked, hentry⟩ := State.anchorMark_other onset x f o s
  refine ⟨s.anchorMark false onset x f o, (event_next _ hr).trans ?_, fun n h0 hn => ?_, ?_, ?_,
    fun hm hb => ⟨hmarked.unqueued (hrsu ▸ hm) hb, fun hq hl hs => ?_⟩, ?_, ?_, ?_, fun i hi hi6 => ?_⟩
  · exact congrArg Host.Outcome.next (State.otherMarkHeard_anchors o hx hstn hnext hanchor)
  · have hmissed := s.mku.missedBy_iff s.straps.stn x n f.takeover hn
    rw [hentry n h0 hn, markOrder_entryTask]
    exact ⟨fun h => if_pos (hmissed.not.mpr h), fun h => if_neg (not_not.mpr (hmissed.mpr h))⟩
  · exact hrsu ▸ hmarked.membership
  · exact hrsu ▸ hmarked.counts
  · exact hmarked.withdrawn (hrsu ▸ hm) hb (hrsu ▸ hq) (hccq ▸ hl)
      (by rwa [QueueSound, hccq])
  · exact hflag (i := 0) (by decide) ▸ hrsu ▸ hmarked.flag_joined
  · exact hflag (i := 1) (by decide) ▸ hrsu ▸ hmarked.flag_expelled
  · exact hflag (i := 2) (by decide) ▸ hrsu ▸ hmarked.flag_joinFailed
  · exact (hmarked.flag_other hi).trans (hflag hi6)

end Sys2Proof.Machine
end

section
/-! What each command may change of the state, and how an invariant of some of its parts passes a command
and a step. -/

namespace Sys2Proof.Machine

open Sys2Proof

/-! ### Statements about some parts of the state -/

/-- What `P` says of a state is decided by these parts of it. -/
def DependsOn (ps : List StatePart) (P : State → Prop) : Prop :=
  ∀ ⦃s t : State⦄, (∀ p ∈ ps, StatePart.same s t p) → P s → P t

/-- A change of other parts keeps the statement. -/
theorem DependsOn.frame {ps qs : List StatePart} {P : State → Prop} {s t : State}
    (hP : DependsOn ps P) (hs : P s) (h : s.changesOnly qs t) (hd : ∀ p ∈ ps, p ∉ qs) : P t :=
  hP (fun p hp => h p (hd p hp)) hs

/-- What a delivery keeps, whether it is taken or dropped during reset. -/
theorem event_keeps {P : State → Prop} {f : State → State} {s t : State} (hs : P s) (hf : P (f s))
    (h : event f s = .next t) : P t := by
  cases hr : s.resetAsserted
  · rw [event_next f hr] at h
    cases h
    exact hf
  · rw [event_reset f hr] at h
    cases h
    exact hs

/-- What an access to the register window keeps, where the response is no part of it. -/
theorem targetWrite_keeps {ps : List StatePart} {P : State → Prop} {f : State → State} {s t : State}
    (hP : DependsOn ps P) (hp : .targetResponse ∉ ps) (hs : P s) (hf : P (f s))
    (h : targetWrite f s = .next t) : P t := by
  have hresponse (u : State) (r : TargetResponse) (hu : P u) : P { u with targetResponse := r } :=
    hP.frame (qs := [.targetResponse]) hu
      (fun p hq => by cases p <;> first | rfl | exact absurd (by decide) hq)
      (fun p hm he => hp (List.mem_singleton.mp he ▸ hm))
  cases hr : s.resetAsserted
  · rw [targetWrite_next f hr] at h
    cases h
    exact hresponse _ _ hf
  · rw [targetWrite_reset f hr] at h
    cases h
    exact hresponse _ _ hs

/-- What every command keeps every step keeps, where the waiting commands are no part of it. -/
theorem step_keeps {ps : List StatePart} {P : State → Prop} (hP : DependsOn ps P)
    (hp : .pending ∉ ps) (hexec : ∀ (c : Instr) (s t : State), P s → exec c s = .next t → P t)
    {s t : State} (hs : P s) (h : step s = .next t) : P t := by
  unfold step at h
  split at h
  · cases h
    exact hs
  · rename_i c cs _
    refine hexec c { s with pending := cs } t (hP.frame (qs := [.pending]) hs ?_ ?_) h
    · intro p hq
      cases p <;> first | rfl | exact absurd (by decide) hq
    · exact fun p hm he => hp (List.mem_singleton.mp he ▸ hm)

/-- What a reset keeps, where it holds of the blocks right after reset and the fields that outlast them
are no part of it (R171, R172; log 17). -/
theorem exec_reset_keeps {ps : List StatePart} {P : State → Prop} (hP : DependsOn ps P)
    (hd : ∀ p ∈ ps, p ∉ [StatePart.resetAsserted, .pending, .freeDraws, .targetResponse])
    (hreset : ∀ x, P (State.afterReset x)) {c : Instr} (hc : c.isReset = true) {s t : State} (hs : P s)
    (h : exec c s = .next t) : P t := by
  cases c with
  | hardwareReset =>
    cases h
    refine hP.frame (hreset s.straps) (fun p hp => ?_) hd
    cases p <;> first | rfl | exact absurd (by decide) hp
  | resetRelease x =>
    cases hr : s.resetAsserted
    · simp only [exec, execResetRelease, hr] at h
      cases h
      exact hs
    · rw [exec_resetRelease x hr] at h
      cases h
      refine hP.frame (hreset x) (fun p hp => ?_) hd
      cases p <;> first | rfl | exact absurd (by decide) hp
  | _ => exact Bool.noConfusion hc

theorem event_changes {ps : List StatePart} {f : State → State} {s t : State}
    (hf : s.changesOnly ps (f s)) (h : event f s = .next t) : s.changesOnly ps t :=
  event_keeps (P := s.changesOnly ps) (.refl ps s) hf h

theorem targetWrite_changes {ps : List StatePart} {f : State → State} {s t : State}
    (hf : s.changesOnly ps (f s)) (h : targetWrite f s = .next t) :
    s.changesOnly (.targetResponse :: ps) t := by
  cases hr : s.resetAsserted
  · rw [targetWrite_next f hr] at h
    cases h
    exact State.answered_changes hf
  · rw [targetWrite_reset f hr] at h
    cases h
    intro p hp
    cases p <;> first | rfl | exact absurd List.mem_cons_self hp

/-- A change made under a condition. -/
theorem State.changesOnly.ite {ps : List StatePart} {c : Prop} [Decidable c] {s t : State}
    (h : s.changesOnly ps t) : s.changesOnly ps (if c then t else s) := by
  split
  · exact h
  · exact .refl ps s

/-! ### Data Slots and Open Slots -/

theorem State.dataSlotStart_changes (i : SlotNo) (s : State) :
    s.changesOnly [.lnu, .slotMap, .ccq, .streams] (s.dataSlotStart i) := by
  have hsend (a : Instant) (t : Tag) (d : DataKind) (k : Option StreamNo) :
      s.changesOnly [.lnu] (s.sendSlotCell i a t d k) := State.onLnu_changes _ s
  have hask (a : Instant) (t : Tag) (k : StreamNo) :
      s.changesOnly [.lnu, .slotMap, .ccq, .streams] (s.askEngine i a t k) := by
    unfold State.askEngine
    dsimp only
    split
    · exact (hsend _ _ _ _).seq (State.stopTalk_changes _ _ _) (by decide) (by decide)
    · exact (hsend _ _ _ _).seq (State.onStream_changes _ _ _) (by decide) (by decide)
  have hhand (a : Instant) :
      s.changesOnly [.lnu, .slotMap, .ccq, .streams] (s.handSlotCell i a) := by
    unfold State.handSlotCell
    split
    · exact hask _ _ _
    · exact (hsend _ _ _ _).mono (by decide)
    all_goals exact .refl _ s
  unfold State.dataSlotStart
  split
  · exact (hhand _).trans ((State.onStreams_changes _ _).mono (by decide))
  · exact .refl _ s

theorem State.engineEcho_changes (d : DataKind) (k : Option StreamNo) (s : State) :
    s.changesOnly agentParts (s.engineEcho d k) := by
  unfold State.engineEcho
  split
  · exact (State.onStream_changes _ _ s).mono (by decide)
  · exact .refl _ s

theorem State.slotEcho_changes (matched : Bool) (i : SlotNo) (s : State) :
    s.changesOnly agentParts (s.slotEcho matched i) := by
  unfold State.slotEcho
  split
  · exact .refl _ s
  · exact State.collide_changes i s

theorem State.dataSlotEcho_changes (matched first : Bool) (s : State) :
    s.changesOnly (.lnu :: agentParts) (s.dataSlotEcho matched first) := by
  unfold State.dataSlotEcho
  split
  · exact .refl _ s
  · rename_i i t d k _
    dsimp only
    have hechoes : s.changesOnly (.lnu :: agentParts)
        (if first then ((s.onLnu LineUnit.endTx).slotEcho matched i).engineEcho d k
          else ((s.onLnu LineUnit.endTx).engineEcho d k).slotEcho matched i) := by
      refine ((State.onLnu_changes LineUnit.endTx s).mono (by decide)).trans ?_
      split
      · exact (State.slotEcho_changes _ _ _).seq (State.engineEcho_changes _ _ _) (by decide)
          (by decide)
      · exact (State.engineEcho_changes _ _ _).seq (State.slotEcho_changes _ _ _) (by decide)
          (by decide)
    split
    · exact hechoes.trans ((State.onStreams_changes _ _).mono (by decide))
    · exact hechoes

theorem State.handHead_changes (w : OpenSlot) (a : Instant) (c : QueueCell) (s : State) :
    s.changesOnly [.lnu, .slotMap, .ccq, .streams] (s.handHead w a c) := by
  have hsend (c : Cell) : s.changesOnly [.lnu, .slotMap, .ccq, .streams] (s.sendControl w a c) :=
    (State.onLnu_changes _ s).seq (State.onCcq_changes _ _) (by decide) (by decide)
  have hclaim (i : SlotNo) (o : CellOutcome) : s.changesOnly [.lnu, .slotMap, .ccq, .streams]
      ((s.onCcq CellQueue.dropHead).claimOutcome i o) :=
    (State.onCcq_changes _ s).seq (State.claimOutcome_changes i o _) (by decide) (by decide)
  have hrelease (i : SlotNo) (o : CellOutcome) : s.changesOnly [.lnu, .slotMap, .ccq, .streams]
      ((s.onCcq CellQueue.dropHead).releaseOutcome i o) :=
    (State.onCcq_changes _ s).seq (State.releaseOutcome_changes i o _) (by decide) (by decide)
  unfold State.handHead
  dsimp only
  split
  · exact hsend _
  · exact hsend _
  · split
    · exact hsend _
    · exact hclaim _ _
  · split
    · split
      · exact hsend _
      · exact hrelease _ _
    · exact hrelease _ _

theorem State.openSlotStart_changes (w : SlotStart) (s : State) :
    s.changesOnly [.lnu, .slotMap, .ccq, .streams] (s.openSlotStart w) := by
  unfold State.openSlotStart
  split
  · split
    · exact (State.onCcq_changes _ s).mono (by decide)
    · refine ((State.onCcq_changes CellQueue.forgetPassed s).mono (by decide)).trans ?_
      unfold State.contend
      split
      · exact State.handHead_changes _ _ _ _
      · exact .refl _ _
  · exact .refl _ s

/-- The fields that a delivery of the line may change. -/
abbrev lineParts : List StatePart :=
  [.lnu, .mku, .rsu, .slotMap, .ccq, .streams, .stationFlags, .counters]

theorem State.takeOutcome_changes (c : QueueCell) (o : CellOutcome) (s : State) :
    s.changesOnly lineParts (s.takeOutcome c o) := by
  cases c with
  | join => exact (State.joinOutcome_changes o s).mono (by decide)
  | leave => exact (State.leaveOutcome_changes o s).mono (by decide)
  | claim i _ _ => exact (State.claimOutcome_changes i o s).mono (by decide)
  | release i _ => exact (State.releaseOutcome_changes i o s).mono (by decide)

theorem State.openSlotEcho_changes (matched : Bool) (s : State) :
    s.changesOnly lineParts (s.openSlotEcho matched) := by
  unfold State.openSlotEcho
  split
  · dsimp only
    have hcount : s.changesOnly lineParts (if matched then s.onLnu LineUnit.endTx
        else (s.onLnu LineUnit.endTx).onCounters StationCounters.addContend) := by
      refine ((State.onLnu_changes LineUnit.endTx s).mono (by decide)).trans ?_
      split
      · exact .refl _ _
      · exact (State.onCounters_changes _ _).mono (by decide)
    have hqueue := fun q => hcount.trans ((State.onCcq_changes (fun _ => q) _).mono (by decide))
    split
    · exact (hqueue _).trans (State.takeOutcome_changes _ _ _)
    · exact hqueue _
  · exact .refl _ s

theorem State.sighting_changes {g : State → State} {s : State} (hg : s.changesOnly lineParts (g s)) :
    s.changesOnly lineParts (s.sighting g) := by
  unfold State.sighting
  split
  · exact .refl _ s
  · exact hg.trans ((State.duplicateSeen_changes _).mono (by decide))

theorem State.cleanSlotCell_changes (i : SlotNo) (x : StationNo) (t : Tag) (d : DataKind) (s : State) :
    s.changesOnly lineParts (s.cleanSlotCell i x t d) := by
  have hmissed : s.changesOnly lineParts (s.missedSlot i true) :=
    (State.missedSlot_changes i true s).mono (by decide)
  unfold State.cleanSlotCell
  split
  · exact .refl _ s
  split
  · exact hmissed
  split
  · exact State.sighting_changes hmissed
  · exact (((State.learn_changes i x t s).seq (State.onRsu_changes _ _) (rs := lineParts) (by decide)
      (by decide)).trans ((State.onStreams_changes _ _).mono (by decide))).trans
      ((State.onLnu_changes _ _).mono (by decide))

theorem State.cleanControl_changes (w : OpenSlot) (x : StationNo) {f : State → State} {s : State}
    (hf : s.changesOnly lineParts (f s)) : s.changesOnly lineParts (s.cleanControl w x f) := by
  have hreport (u : State) : u.changesOnly lineParts
      (u.onLnu (LineUnit.reported (.openSlot w))) := (State.onLnu_changes _ u).mono (by decide)
  unfold State.cleanControl
  split
  · exact .refl _ s
  split
  · exact hreport s
  split
  · exact State.sighting_changes (hreport s)
  · exact hf.trans (hreport _)

/-- A control cell that names a tag: garbled with a tag of 0, so that no block hears it. -/
theorem State.taggedControl_changes (w : OpenSlot) (x : StationNo) (t : Tag) {f : State → State}
    {s : State} (hf : s.changesOnly lineParts (f s)) : s.changesOnly lineParts
      (if t = 0 then s.onLnu (LineUnit.reported (.openSlot w)) else s.cleanControl w x f) := by
  split
  · exact (State.onLnu_changes _ s).mono (by decide)
  · exact State.cleanControl_changes w x hf

theorem State.sightingAt_changes (p : Position) (c : CellKind) (ended : Instant) (s : State) :
    s.changesOnly lineParts (s.sightingAt p c ended) := by
  have hgarbled := (State.garbledAt_changes ended p s).mono (qs := lineParts) (by decide)
  unfold State.sightingAt
  split
  · exact .refl _ s
  split
  · exact State.sighting_changes hgarbled
  · exact hgarbled

/-! ### Marks -/

theorem State.carrierOnset_changes (onset : Instant) (s : State) :
    s.changesOnly [.lnu, .mku] (s.carrierOnset onset) := by
  unfold State.carrierOnset
  split
  · exact .refl _ s
  · exact (State.onMku_changes _ s).seq (State.onLnu_changes _ _) (by decide) (by decide)

theorem State.openWindow_changes (s : State) : s.changesOnly [.lnu, .mku] s.openWindow :=
  (State.onLnu_changes _ s).seq (State.onMku_changes _ _) (by decide) (by decide)

/-- A MARK request and what ends with it at the Mark Unit. -/
theorem State.requestEnds_changes (k : MarkKind) (start : Instant) (carrier : Bool)
    (f : MarkUnit → MarkUnit) (s : State) :
    s.changesOnly [.lnu, .mku, .counters] ((s.requestMark k start carrier).onMku f) :=
  (State.requestMark_changes k start carrier s).trans ((State.onMku_changes f _).mono (by decide))

theorem State.dutyMark_changes (carrier : Bool) (s : State) :
    s.changesOnly [.lnu, .mku, .counters] (s.dutyMark carrier) := by
  unfold State.dutyMark
  split
  · exact State.requestEnds_changes _ _ _ _ s
  · exact .refl _ s

theorem State.takeoverMark_changes (carrier : Bool) (s : State) :
    s.changesOnly [.lnu, .mku, .counters] (s.takeoverMark carrier) := by
  unfold State.takeoverMark
  split
  · dsimp only
    split
    · exact (State.onMku_changes _ s).mono (by decide)
    · exact State.requestEnds_changes _ _ _ _ s
  · exact .refl _ s

theorem State.recoveryExpiry_changes (carrier : Bool) (s : State) :
    s.changesOnly [.lnu, .mku, .counters] (s.recoveryExpiry carrier) := by
  unfold State.recoveryExpiry
  split
  · exact .refl _ s
  · exact State.requestEnds_changes _ _ _ _ s

theorem State.coldExpiry_changes (carrier : Bool) (s : State) :
    s.changesOnly [.lnu, .mku, .counters] (s.coldExpiry carrier) := by
  unfold State.coldExpiry
  split
  · exact .refl _ s
  · exact State.requestEnds_changes _ _ _ _ s

theorem State.markMismatch_changes (s : State) :
    s.changesOnly [.lnu, .mku, .stationFlags] s.markMismatch := by
  unfold State.markMismatch
  split
  · exact .refl _ s
  · exact ((State.onMku_changes _ s).seq (State.onLnu_changes _ _) (rs := [.lnu, .mku, .stationFlags])
      (by decide) (by decide)).trans ((State.raise_changes _ _).mono (by decide))

theorem State.markless_changes (s : State) : s.changesOnly [.lnu, .mku] s.markless := by
  unfold State.markless
  split
  · exact (State.onLnu_changes _ s).seq (State.onMku_changes _ _) (by decide) (by decide)
  · exact .refl _ s

theorem State.syncLoss_changes (s : State) : s.changesOnly lineParts s.syncLoss := by
  unfold State.syncLoss
  split
  · exact .refl _ s
  · exact ((State.onLnu_changes _ s).seq (State.onMku_changes _ _) (rs := lineParts) (by decide)
      (by decide)).trans ((State.rosterSyncLoss_changes _).mono (by decide))

theorem State.cleanMark_changes (heard : MarkHeard) (o : Fin 24) (s : State) :
    s.changesOnly lineParts (s.cleanMark heard o) := by
  have hanchor (own : Bool) (t : Instant) (x : StationNo) (f : MarkFields) (u : State) :
      u.changesOnly lineParts (u.anchorMark own t x f o) :=
    (State.anchorMark_changes own t x f o u).mono (by decide)
  cases heard with
  | own =>
    show s.changesOnly lineParts (s.ownMarkHeard o)
    unfold State.ownMarkHeard
    split
    · exact .refl _ s
    · have hended : s.changesOnly lineParts
          ((s.onLnu LineUnit.endTx).onMku fun m => { m with ownMark := .none }) :=
        (State.onLnu_changes _ s).seq (State.onMku_changes _ _) (by decide) (by decide)
      dsimp only
      split
      · exact hended.trans (hanchor _ _ _ _ _)
      · exact hended
  | other onset x f =>
    have hgarbled : s.changesOnly lineParts (s.garbledMark (onset + Config.cellTime)) :=
      (State.garbledMark_changes _ s).mono (by decide)
    show s.changesOnly lineParts (s.otherMarkHeard onset x f o)
    unfold State.otherMarkHeard
    dsimp only
    split
    · exact .refl _ s
    split
    · exact hgarbled
    split
    · exact State.sighting_changes hgarbled
    · exact hanchor _ _ _ _ s

/-! ### The local bus and the register window -/

theorem State.accessIssue_changes (s : State) :
    s.changesOnly [.streams, .nextGrant, .freeDraws] s.accessIssue := by
  unfold State.accessIssue
  split
  · exact .refl _ s
  split
  · exact .refl _ s
  · intro p hp
    cases p <;> first | rfl | exact absurd (by decide) hp

theorem State.accessError_changes (k : StreamNo) (s : State) :
    s.changesOnly [.slotMap, .ccq, .streams] (s.accessError k) := by
  unfold State.accessError
  dsimp only
  split
  · exact .refl _ s
  split
  · exact ((State.onStream_changes _ _ s).mono (by decide)).trans (State.releaseTrigger_changes _ _)
  · exact (State.onStream_changes _ _ s).mono (by decide)

theorem State.commandStart_changes (k : StreamNo) (s : State) :
    s.changesOnly [.streams] (s.commandStart k).1 := by
  unfold State.commandStart
  split
  · exact (State.onStream_changes _ _ s).ite
  · exact (State.onStream_changes _ _ s).ite

theorem State.commandStop_changes (k : StreamNo) (s : State) :
    s.changesOnly [.slotMap, .ccq, .streams] (s.commandStop k).1 := by
  have hstop : s.changesOnly [.slotMap, .ccq, .streams]
      (if s.streams[k].isTalk then s.stopTalk k .command else s.onStream k Stream.stopListen) := by
    split
    · exact State.stopTalk_changes _ _ s
    · exact (State.onStream_changes _ _ s).mono (by decide)
  unfold State.commandStop
  dsimp only
  split <;> first | exact .refl _ s | exact hstop

theorem State.commandPause_changes (k : StreamNo) (s : State) :
    s.changesOnly [.streams] (s.commandPause k).1 := by
  unfold State.commandPause
  dsimp only
  split <;> first | exact .refl _ s | exact State.onStream_changes _ _ s

theorem State.commandResume_changes (k : StreamNo) (s : State) :
    s.changesOnly [.streams] (s.commandResume k).1 := by
  unfold State.commandResume
  dsimp only
  split <;> first | exact .refl _ s | exact State.onStream_changes _ _ s

theorem State.commandResetStream_changes (k : StreamNo) (s : State) :
    s.changesOnly [.streams] (s.commandResetStream k).1 := by
  unfold State.commandResetStream
  split
  · exact State.onStream_changes _ _ s
  · exact .refl _ s

theorem State.commandClearCounters_changes (s : State) :
    s.changesOnly [.counters, .streams] s.commandClearCounters.1 :=
  (State.onCounters_changes _ s).seq (State.onStreams_changes _ _) (by decide) (by decide)

theorem State.commandJoin_changes (s : State) : s.changesOnly rosterParts s.commandJoin.1 := by
  unfold State.commandJoin
  split
  · exact .refl _ s
  split
  · exact (State.onRsu_changes _ s).seq (State.setMembership_changes _ _) (by decide) (by decide)
  all_goals exact .refl _ s

theorem State.commandLeave_changes (s : State) : s.changesOnly rosterParts s.commandLeave.1 := by
  have hleft (u : State) :
      u.changesOnly rosterParts ((u.setMembership .dormant).raise .left) :=
    (State.setMembership_changes _ u).seq (State.raise_changes _ _) (by decide) (by decide)
  unfold State.commandLeave
  split
  · exact .refl _ s
  · exact .refl _ s
  · split
    · exact .refl _ s
    split
    · exact (State.setMembership_changes _ s).seq (State.offerControl_changes _ _ _) (by decide)
        (by decide)
    · exact (s.withdrawJoin_changes.seq (State.onRsu_changes _ _) (rs := rosterParts) (by decide)
        (by decide)).trans (hleft _)
    · exact ((State.onRsu_changes _ s).mono (by decide)).trans (hleft _)
    · exact hleft s
    all_goals exact .refl _ s

/-- What a COMMAND word can do: JOIN, LEAVE, STOP, or something to streams and counters alone (R169). -/
theorem State.decodeCommand_cases (code index : BitVec 4) (s : State) :
    (s.decodeCommand code index).1 = s.commandJoin.1 ∨
    (s.decodeCommand code index).1 = s.commandLeave.1 ∨
    (∃ k, (s.decodeCommand code index).1 = (s.commandStop k).1) ∨
    s.changesOnly [.counters, .streams] (s.decodeCommand code index).1 := by
  have hstream (run : StreamNo → State → Commanded)
      (hrun : ∀ k, s.changesOnly [.streams] (run k s).1) :
      s.changesOnly [.counters, .streams] (s.streamCommand index run).1 := by
    unfold State.streamCommand
    split
    · exact (hrun _).mono (by decide)
    · exact .refl _ s
  unfold State.decodeCommand
  split
  · exact .inr (.inr (.inr (.refl _ s)))
  · exact .inl rfl
  · exact .inr (.inl rfl)
  · exact .inr (.inr (.inr (hstream _ fun k => s.commandStart_changes k)))
  · unfold State.streamCommand
    split
    · exact .inr (.inr (.inl ⟨_, rfl⟩))
    · exact .inr (.inr (.inr (.refl _ s)))
  · exact .inr (.inr (.inr (hstream _ fun k => s.commandPause_changes k)))
  · exact .inr (.inr (.inr (hstream _ fun k => s.commandResume_changes k)))
  · exact .inr (.inr (.inr (hstream _ fun k => s.commandResetStream_changes k)))
  · exact .inr (.inr (.inr s.commandClearCounters_changes))

theorem State.post_changes (code index : BitVec 4) (run : State → Commanded) {ps : List StatePart}
    {s : State} (h : s.changesOnly ps (run s).1) :
    s.changesOnly (.command :: .result :: ps) (s.post code index run) := by
  intro p hp
  have hp' : p ∉ ps := fun hm => hp (List.mem_cons_of_mem _ (List.mem_cons_of_mem _ hm))
  have hsame := h p hp'
  cases p <;> first | exact hsame | exact absurd (by simp) hp

/-- The fields that the commands of the COMMAND word change. -/
abbrev commandParts : List StatePart := [.rsu, .slotMap, .ccq, .streams, .stationFlags, .counters]

theorem State.decodeCommand_changes (code index : BitVec 4) (s : State) :
    s.changesOnly commandParts (s.decodeCommand code index).1 := by
  obtain h | h | ⟨k, h⟩ | h := s.decodeCommand_cases code index
  · exact h ▸ s.commandJoin_changes.mono (by decide)
  · exact h ▸ s.commandLeave_changes.mono (by decide)
  · exact h ▸ (s.commandStop_changes k).mono (by decide)
  · exact h.mono (by decide)

theorem State.writeCommand_changes (code index : BitVec 4) (s : State) :
    s.changesOnly (.command :: .result :: commandParts) (s.writeCommand code index) :=
  State.post_changes code index _ (s.decodeCommand_changes code index)

theorem State.clearFlags_changes (e : EventScope) (w : Word) (s : State) :
    s.changesOnly [.streams, .stationFlags] (s.clearFlags e w) := by
  cases e with
  | station => intro p hp; cases p <;> first | rfl | exact absurd (by decide) hp
  | stream k => exact (State.onStream_changes k _ s).mono (by decide)

theorem State.writeEnables_changes (e : EventScope) (w : Word) (s : State) :
    s.changesOnly [.streams, .stationEnables] (s.writeEnables e w) := by
  cases e with
  | station => intro p hp; cases p <;> first | rfl | exact absurd (by decide) hp
  | stream k => exact (State.onStream_changes k _ s).mono (by decide)

theorem State.writeConfig_changes (k : StreamNo) (c : ConfigWord) (w : Word) (s : State) :
    s.changesOnly [.streams, .stationFlags] (s.writeConfig k c w) := by
  unfold State.writeConfig
  split
  · exact (State.onStream_changes _ _ s).mono (by decide)
  · exact (State.raise_changes _ s).mono (by decide)

/-- A write to the window is a COMMAND word, or reaches streams and event words alone (R165). -/
theorem State.writeWord_cases (index : BitVec 8) (w : Word) (s : State) :
    (∃ code i, s.writeWord index w = s.writeCommand code i) ∨
    s.changesOnly [.streams, .stationFlags, .stationEnables] (s.writeWord index w) := by
  have hflags (e : EventScope) := (s.clearFlags_changes e w).mono
    (qs := [.streams, .stationFlags, .stationEnables]) (by decide)
  have henables (e : EventScope) := (s.writeEnables_changes e w).mono
    (qs := [.streams, .stationFlags, .stationEnables]) (by decide)
  have hconfig (k : StreamNo) (c : ConfigWord) := (s.writeConfig_changes k c w).mono
    (qs := [.streams, .stationFlags, .stationEnables]) (by decide)
  unfold State.writeWord
  dsimp only
  split
  · exact .inl ⟨_, _, rfl⟩
  refine .inr ?_
  split
  · exact hflags _
  split
  · exact henables _
  split
  · exact hflags _
  split
  · exact henables _
  split
  · split
    · exact hconfig _ _
    · exact hconfig _ _
    · exact hconfig _ _
    · exact (State.onStream_changes _ _ s).mono (by decide)
    · exact .refl _ s
  · exact .refl _ s

/-- The fields that a write to the window may change, the response apart. -/
abbrev windowParts : List StatePart := .stationEnables :: .command :: .result :: commandParts

theorem State.writeWord_changes (index : BitVec 8) (w : Word) (s : State) :
    s.changesOnly windowParts (s.writeWord index w) := by
  obtain ⟨code, i, h⟩ | h := s.writeWord_cases index w
  · exact h ▸ (s.writeCommand_changes code i).mono (by decide)
  · exact h.mono (by decide)

/-! ### The table -/

/-- The fields that a reset sets, the straps apart: the waiting commands and the free values stay (R172;
log 17). -/
abbrev resetParts : List StatePart :=
  [.resetAsserted, .lnu, .mku, .rsu, .slotMap, .ccq, .streams, .nextGrant, .stationFlags,
    .stationEnables, .counters, .command, .result, .targetResponse]

/-- The parts of the state that a command may change. -/
def changedParts : Instr → List StatePart
  | .hardwareReset => resetParts
  | .resetRelease _ => .straps :: resetParts
  | .carrierOnset _ | .markWindowOpen | .garbledMarkField _ | .marklessRound => [.lnu, .mku]
  | .dutyMark _ | .takeoverMark _ | .recoveryWaitExpiry _ | .coldStartWaitExpiry _ =>
      [.lnu, .mku, .counters]
  | .markEchoMismatch => [.lnu, .mku, .stationFlags]
  | .dataSlotStart _ | .openSlotStart _ => [.lnu, .slotMap, .ccq, .streams]
  | .dataSlotEcho _ _ => .lnu :: agentParts
  | .garbledOrSilentDataSlot _ _ => garbleParts
  | .aging _ => agentParts
  | .backoffExpiry _ => [.slotMap, .streams]
  | .cleanDataCell _ _ _ _ | .openSlotEcho _ | .cleanClaim _ _ _ _ | .cleanRelease _ _ _ _
  | .cleanLeave _ _ | .cleanJoin _ _ | .duplicateAddressSighting _ _ _ | .cleanMark _ _
  | .syncLoss => lineParts
  | .learnCountDone | .joinTimerExpiry => rosterParts
  | .headWaitExpiry => [.ccq]
  | .graceExpiry _ | .accessError _ => [.slotMap, .ccq, .streams]
  | .pauseTimerExpiry _ | .descriptorFetchReply _ _ _ | .bufferReadReply _ _ | .bufferWriteAck _
  | .recordWriteAck _ => [.streams]
  | .accessIssue => [.streams, .nextGrant, .freeDraws]
  | .readyWrite _ _ => [.targetResponse, .streams]
  | .join _ | .leave _ => .targetResponse :: .command :: .result :: rosterParts
  | .start _ | .pause _ | .resume _ | .resetStream _ => [.targetResponse, .command, .result, .streams]
  | .stop _ => [.targetResponse, .command, .result, .slotMap, .ccq, .streams]
  | .clearCounters _ => [.targetResponse, .command, .result, .counters, .streams]
  | .badCommand _ _ => .targetResponse :: .command :: .result :: commandParts
  | .configWrite _ _ _ | .flagWrite _ _ => [.targetResponse, .streams, .stationFlags]
  | .enableWrite _ _ => [.targetResponse, .streams, .stationEnables]
  | .registerWrite _ _ => .targetResponse :: windowParts
  | .targetAccessDuringReset _ _ => [.targetResponse]

theorem execHardwareReset_changes {s t : State} (h : execHardwareReset s = .next t) :
    s.changesOnly resetParts t := by
  cases h
  intro p hp
  cases p <;> first | rfl | exact absurd (by decide) hp

theorem execResetRelease_changes (x : Straps) {s t : State} (h : execResetRelease x s = .next t) :
    s.changesOnly (.straps :: resetParts) t := by
  cases h
  refine State.changesOnly.ite fun p hp => ?_
  cases p <;> first | rfl | exact absurd (by decide) hp

theorem execTargetAccess_changes (index : BitVec 8) (written : Option Word) {s t : State}
    (h : execTargetAccessDuringReset index written s = .next t) :
    s.changesOnly [.targetResponse] t := by
  cases h
  refine State.changesOnly.ite fun p hp => ?_
  cases p <;> first | rfl | exact absurd (by decide) hp

/-- No command changes more than its parts. -/
theorem exec_changes (c : Instr) {s t : State} (h : exec c s = .next t) :
    s.changesOnly (changedParts c) t := by
  cases c with
  | hardwareReset => exact execHardwareReset_changes h
  | resetRelease x => exact execResetRelease_changes x h
  | carrierOnset onset => exact event_changes (s.carrierOnset_changes onset) h
  | dataSlotStart i => exact event_changes (s.dataSlotStart_changes i) h
  | graceExpiry k => exact event_changes (s.stopTalk_changes k .drain).ite h
  | dataSlotEcho matched first => exact event_changes (s.dataSlotEcho_changes matched first) h
  | cleanDataCell i x t d => exact event_changes (s.cleanSlotCell_changes i x t d) h
  | garbledOrSilentDataSlot i g => exact event_changes (s.missedSlot_changes i g).ite h
  | aging i => exact event_changes (s.ageOut_changes i) h
  | openSlotStart w => exact event_changes (s.openSlotStart_changes w) h
  | openSlotEcho matched => exact event_changes (s.openSlotEcho_changes matched) h
  | cleanClaim w x i t =>
    unfold exec execCleanClaim at h
    refine event_changes ?_ h
    exact State.taggedControl_changes w x t ((s.hearClaim_changes i x t).seq
      (State.onRsu_changes _ _) (by decide) (by decide))
  | cleanRelease w x i t =>
    unfold exec execCleanRelease at h
    refine event_changes ?_ h
    exact State.taggedControl_changes w x t ((s.hearRelease_changes i x).seq
      (State.onRsu_changes _ _) (by decide) (by decide))
  | cleanLeave w x =>
    refine event_changes ?_ h
    exact State.cleanControl_changes w x ((State.mapEntries_changes (SlotEntry.leave x) s).seq
      (State.onRsu_changes _ _) (by decide) (by decide))
  | cleanJoin w x =>
    refine event_changes ?_ h
    exact State.cleanControl_changes w x ((State.onRsu_changes _ s).mono (by decide))
  | duplicateAddressSighting p d ended => exact event_changes (s.sightingAt_changes p d ended) h
  | markWindowOpen => exact event_changes s.openWindow_changes.ite h
  | dutyMark carrier => exact event_changes (s.dutyMark_changes carrier) h
  | takeoverMark carrier => exact event_changes (s.takeoverMark_changes carrier) h
  | recoveryWaitExpiry carrier => exact event_changes (s.recoveryExpiry_changes carrier) h
  | coldStartWaitExpiry carrier => exact event_changes (s.coldExpiry_changes carrier) h
  | cleanMark heard o => exact event_changes (s.cleanMark_changes heard o) h
  | learnCountDone => exact event_changes s.learnDone_changes.ite h
  | joinTimerExpiry => exact event_changes s.joinTimerDone_changes.ite h
  | backoffExpiry i =>
    unfold exec execBackoffExpiry at h
    refine event_changes ?_ h
    split
    · exact (State.setEntry_changes i _ s).ite
    · exact .refl _ s
  | pauseTimerExpiry k => exact event_changes (State.onStream_changes k _ s).ite h
  | headWaitExpiry => exact event_changes (State.onCcq_changes _ s).ite h
  | garbledMarkField ended => exact event_changes (s.garbledMark_changes ended) h
  | markEchoMismatch => exact event_changes s.markMismatch_changes h
  | marklessRound => exact event_changes s.markless_changes h
  | syncLoss => exact event_changes s.syncLoss_changes h
  | readyWrite k w => exact targetWrite_changes (State.onStream_changes k _ s) h
  | accessIssue => exact event_changes s.accessIssue_changes h
  | descriptorFetchReply k _ _ | bufferReadReply k _ | bufferWriteAck k | recordWriteAck k =>
    exact event_changes (State.onStream_changes k _ s) h
  | accessError k => exact event_changes (s.accessError_changes k) h
  | join _ => exact targetWrite_changes (State.post_changes _ _ _ s.commandJoin_changes) h
  | leave _ => exact targetWrite_changes (State.post_changes _ _ _ s.commandLeave_changes) h
  | start k => exact targetWrite_changes (State.post_changes _ _ _ (s.commandStart_changes k)) h
  | stop k => exact targetWrite_changes (State.post_changes _ _ _ (s.commandStop_changes k)) h
  | pause k => exact targetWrite_changes (State.post_changes _ _ _ (s.commandPause_changes k)) h
  | resume k => exact targetWrite_changes (State.post_changes _ _ _ (s.commandResume_changes k)) h
  | resetStream k =>
    exact targetWrite_changes (State.post_changes _ _ _ (s.commandResetStream_changes k)) h
  | clearCounters _ =>
    exact targetWrite_changes (State.post_changes _ _ _ s.commandClearCounters_changes) h
  | badCommand code index => exact targetWrite_changes (s.writeCommand_changes code index) h
  | configWrite k c w => exact targetWrite_changes (s.writeConfig_changes k c w) h
  | flagWrite e w => exact targetWrite_changes (s.clearFlags_changes e w) h
  | enableWrite e w => exact targetWrite_changes (s.writeEnables_changes e w) h
  | registerWrite index w => exact targetWrite_changes (s.writeWord_changes index w) h
  | targetAccessDuringReset index written => exact execTargetAccess_changes index written h

/-- The straps are sampled by RESET_RELEASE alone (R171). -/
theorem exec_straps {c : Instr} (hc : c.isReset = false) {s t : State} (h : exec c s = .next t) :
    t.straps = s.straps := by
  refine exec_changes c h .straps ?_
  cases c with
  | resetRelease _ => exact Bool.noConfusion hc
  | _ => simp [changedParts]

end Sys2Proof.Machine
end

section
/-! The own roster entry follows the membership state (O55): membership changes in one place, which writes
the own entry with it, and evidence on other stations passes that entry over (R82). -/

namespace Sys2Proof.Machine

open Sys2Proof

/-! ### At the Roster Unit -/

/-- `OwnEntryFollows`, as a statement about the Roster Unit alone. -/
def RosterUnit.OwnFollows (stn : StationNo) (u : RosterUnit) : Prop :=
  u.entry 0 = .absent ∧ (stn ≠ 0 → u.entry stn =
    if u.membership = .member ∨ u.membership = .leaving then .present else .absent)

theorem ownEntryFollows_iff (s : State) : OwnEntryFollows s ↔ s.rsu.OwnFollows s.straps.stn := Iff.rfl

theorem ownEntryFollows_depends : DependsOn [.straps, .rsu] OwnEntryFollows := by
  intro s t hsame h
  have hstraps : t.straps = s.straps := hsame .straps (by decide)
  have hrsu : t.rsu = s.rsu := hsame .rsu (by decide)
  rw [ownEntryFollows_iff, hstraps, hrsu]
  exact h

/-- Only the membership state and these two entries count. -/
theorem RosterUnit.OwnFollows.congr {stn : StationNo} {u v : RosterUnit} (h : u.OwnFollows stn)
    (hm : v.membership = u.membership) (h0 : v.entry 0 = u.entry 0)
    (hs : stn ≠ 0 → v.entry stn = u.entry stn) : v.OwnFollows stn := by
  obtain ⟨hzero, hown⟩ := h
  refine ⟨h0.trans hzero, fun hstn => (hs hstn).trans ?_⟩
  rw [hm]
  exact hown hstn

/-- A membership change sets the own entry right, whatever it was. -/
theorem RosterUnit.setMembership_ownFollows {u : RosterUnit} (h0 : u.entry 0 = .absent)
    (stn : StationNo) (m : Membership) : (u.setMembership stn m).OwnFollows stn := by
  refine ⟨?_, fun hstn => ?_⟩
  · rw [RosterUnit.setMembership_entry, if_neg fun h => h.2 h.1.symm]
    exact h0
  · rw [RosterUnit.setMembership_entry, if_pos ⟨rfl, hstn⟩, RosterUnit.setMembership_membership]
    cases m <;> rfl

/-- Evidence on another station's entry leaves the own one and place 0 alone. -/
theorem RosterUnit.OwnFollows.onOther {stn : StationNo} {u : RosterUnit} (h : u.OwnFollows stn)
    (x : StationNo) (f : RosterEntry → RosterEntry) : (u.onOther stn x f).OwnFollows stn := by
  refine h.congr ?_ ?_ fun _ => ?_
  · rw [RosterUnit.onOther_keeps]
  · rw [RosterUnit.onOther_entry, if_neg fun c => c.2.1 c.1.symm]
  · rw [RosterUnit.onOther_entry, if_neg fun c => c.2.2 c.1.symm]

theorem RosterUnit.OwnFollows.adoptBitmap {stn : StationNo} {u : RosterUnit} (h : u.OwnFollows stn)
    (b : Word) : (u.adoptBitmap stn b).OwnFollows stn := by
  have hkept (n : StationNo) (hn : n = 0 ∨ n = stn) :
      (u.adoptBitmap stn b).entry n = u.entry n := by
    have hfin : (n.toFin : Fin 32).val = 0 ∨ (n.toFin : Fin 32) = stn.toFin :=
      hn.imp (fun h => by rw [h]; rfl) fun h => by rw [h]
    simp only [RosterUnit.entry, RosterUnit.adoptBitmap, Fin.getElem_fin, Vector.getElem_ofFn]
    rw [if_pos hfin]
  have hm : (u.adoptBitmap stn b).membership = u.membership := by simp only [RosterUnit.adoptBitmap]
  exact h.congr hm (hkept 0 (.inl rfl)) fun _ => hkept stn (.inr rfl)

/-! ### The operations on the state -/

section
variable {s : State}

/-- A change of the Roster Unit's counts, timer and intent. -/
theorem OwnEntryFollows.onRsu (h : OwnEntryFollows s) {f : RosterUnit → RosterUnit}
    (hm : (f s.rsu).membership = s.rsu.membership) (hr : (f s.rsu).roster = s.rsu.roster) :
    OwnEntryFollows (s.onRsu f) :=
  RosterUnit.OwnFollows.congr h hm (RosterUnit.entry_congr hr 0) fun _ =>
    RosterUnit.entry_congr hr _

theorem setMembership_ownEntryFollows (h : s.rsu.entry 0 = .absent) (m : Membership) :
    OwnEntryFollows (s.setMembership m) :=
  RosterUnit.setMembership_ownFollows h s.straps.stn m

theorem OwnEntryFollows.setMembership (h : OwnEntryFollows s) (m : Membership) :
    OwnEntryFollows (s.setMembership m) := setMembership_ownEntryFollows h.1 m

theorem OwnEntryFollows.frame {qs : List StatePart} {t : State} (h : OwnEntryFollows s)
    (hc : s.changesOnly qs t) (hd : ∀ p ∈ [StatePart.straps, .rsu], p ∉ qs) : OwnEntryFollows t :=
  ownEntryFollows_depends.frame h hc hd

theorem OwnEntryFollows.raise (h : OwnEntryFollows s) (e : StationEvent) :
    OwnEntryFollows (s.raise e) := h.frame (State.raise_changes e s) (by decide)

theorem OwnEntryFollows.offerControl (h : OwnEntryFollows s) (i : ControlIntent) (c : QueueCell) :
    OwnEntryFollows (s.offerControl i c) := by
  obtain ⟨hstraps, -, hm, -, -, -, -, hentry⟩ := State.offerControl_keeps i c s
  rw [ownEntryFollows_iff, hstraps]
  exact RosterUnit.OwnFollows.congr h hm (hentry 0) fun _ => hentry _

theorem OwnEntryFollows.reoffer (h : OwnEntryFollows s) : OwnEntryFollows s.reoffer := by
  obtain ⟨hstraps, -, hm, hentry⟩ := s.reoffer_keeps
  rw [ownEntryFollows_iff, hstraps]
  exact RosterUnit.OwnFollows.congr h hm (hentry 0) fun _ => hentry _

theorem OwnEntryFollows.withdrawJoin (h : OwnEntryFollows s) : OwnEntryFollows s.withdrawJoin := by
  obtain ⟨hstraps, -, hrsu⟩ := s.withdrawJoin_keeps
  rw [ownEntryFollows_iff, hstraps, hrsu]
  exact RosterUnit.OwnFollows.congr h rfl rfl fun _ => rfl

theorem OwnEntryFollows.attemptEnds (h : OwnEntryFollows s) : OwnEntryFollows s.attemptEnds := by
  unfold State.attemptEnds
  split
  · exact (h.onRsu rfl rfl).offerControl _ _
  · exact ((h.onRsu rfl rfl).setMembership _).raise _

theorem OwnEntryFollows.learnDone (h : OwnEntryFollows s) : OwnEntryFollows s.learnDone :=
  ((h.onRsu rfl rfl).setMembership _).offerControl _ _

theorem OwnEntryFollows.learnMark (h : OwnEntryFollows s) : OwnEntryFollows s.learnMark := by
  unfold State.learnMark
  split
  · exact h.onRsu rfl rfl
  · exact h.learnDone

theorem OwnEntryFollows.joinTimerDone (h : OwnEntryFollows s) : OwnEntryFollows s.joinTimerDone :=
  (h.onRsu rfl rfl).attemptEnds

theorem OwnEntryFollows.joinWait (h : OwnEntryFollows s) : OwnEntryFollows s.joinWait := by
  unfold State.joinWait
  split
  · exact h.reoffer
  · split
    · exact h.joinTimerDone
    · exact h.onRsu rfl rfl

theorem OwnEntryFollows.membershipMark (h : OwnEntryFollows s) (b : Bool) :
    OwnEntryFollows (s.membershipMark b) := by
  unfold State.membershipMark
  split
  · exact h
  · exact h.learnMark
  · split
    · exact ((h.onRsu rfl rfl).withdrawJoin.setMembership _).raise _
    · exact h.joinWait
  · split
    · exact h
    · exact (((h.onRsu rfl rfl).setMembership _).offerControl _ _).raise _
  · exact h.reoffer
  · split
    · exact (h.setMembership _).raise _
    · exact (h.onRsu rfl rfl).setMembership _

theorem OwnEntryFollows.rosterMark (h : OwnEntryFollows s) (x : StationNo) (b : Word) :
    OwnEntryFollows (s.rosterMark x b) :=
  have hentries : OwnEntryFollows
      (s.onRsu fun u => (u.heard s.straps.stn x).adoptBitmap s.straps.stn b) :=
    (RosterUnit.OwnFollows.onOther h x _).adoptBitmap b
  hentries.membershipMark _

theorem OwnEntryFollows.rosterOwnMark (h : OwnEntryFollows s) : OwnEntryFollows s.rosterOwnMark := by
  unfold State.rosterOwnMark
  split
  · exact h
  · exact h
  · exact h.learnMark
  · exact h.reoffer
  · exact h.reoffer
  · exact (h.setMembership _).raise _

theorem OwnEntryFollows.joinOutcome (h : OwnEntryFollows s) (o : CellOutcome) :
    OwnEntryFollows (s.joinOutcome o) := by
  unfold State.joinOutcome
  split
  · exact h.onRsu rfl rfl
  · exact (h.onRsu rfl rfl).attemptEnds
  · exact h

theorem OwnEntryFollows.leaveOutcome (h : OwnEntryFollows s) (o : CellOutcome) :
    OwnEntryFollows (s.leaveOutcome o) := by
  have hleft := ((h.onRsu (f := RosterUnit.dropIntent) rfl rfl).setMembership .dormant).raise .left
  unfold State.leaveOutcome
  split
  · exact hleft
  · exact hleft
  · exact h

/-- Isolation forgets every entry before the membership change writes the own one (R94). -/
theorem isolate_ownEntryFollows (m : Membership) (e : StationEvent) (s : State) :
    OwnEntryFollows (s.isolate m e) := by
  have hzero : (s.onRsu fun u => u.forget.rest).rsu.entry 0 = .absent := by
    simp [RosterUnit.forget, RosterUnit.rest, RosterUnit.entry]
  exact ((setMembership_ownEntryFollows hzero m).raise e).frame (State.wipeAll_changes _) (by decide)

theorem OwnEntryFollows.rosterSyncLoss (h : OwnEntryFollows s) : OwnEntryFollows s.rosterSyncLoss := by
  unfold State.rosterSyncLoss
  split <;> first | exact h | exact isolate_ownEntryFollows _ _ s

theorem OwnEntryFollows.duplicateSeen (h : OwnEntryFollows s) : OwnEntryFollows s.duplicateSeen := by
  have hdormant := ((h.onRsu (f := RosterUnit.rest) rfl rfl).setMembership .dormant).raise .duplicate
  exact (hdormant.frame (State.wipeOwn_changes _) (by decide)).frame
    (State.changesOnly.foldl State.faultDuplicate State.faultDuplicate_changes allStreams _) (by decide)

theorem OwnEntryFollows.sighting {g : State → State} (h : OwnEntryFollows s)
    (hg : OwnEntryFollows (g s)) : OwnEntryFollows (s.sighting g) := by
  unfold State.sighting
  split
  · exact h
  · exact hg.duplicateSeen

/-! ### What is heard -/

theorem OwnEntryFollows.missedSlot (h : OwnEntryFollows s) (i : SlotNo) (g : Bool) :
    OwnEntryFollows (s.missedSlot i g) := h.frame (State.missedSlot_changes i g s) (by decide)

theorem OwnEntryFollows.garbledMark (h : OwnEntryFollows s) (ended : Instant) :
    OwnEntryFollows (s.garbledMark ended) := h.frame (State.garbledMark_changes ended s) (by decide)

theorem OwnEntryFollows.onLnu (h : OwnEntryFollows s) (f : LineUnit → LineUnit) :
    OwnEntryFollows (s.onLnu f) := h.frame (State.onLnu_changes f s) (by decide)

theorem OwnEntryFollows.rosterHeard (h : OwnEntryFollows s) (x : StationNo) :
    OwnEntryFollows (s.rosterHeard x) := RosterUnit.OwnFollows.onOther h x _

theorem OwnEntryFollows.cleanSlotCell (h : OwnEntryFollows s) (i : SlotNo) (x : StationNo) (t : Tag)
    (d : DataKind) : OwnEntryFollows (s.cleanSlotCell i x t d) := by
  have hlearnt : OwnEntryFollows (s.learn i x t) := h.frame (State.learn_changes i x t s) (by decide)
  have hstraps : (s.learn i x t).straps = s.straps := State.learn_changes i x t s .straps (by decide)
  have hheard : OwnEntryFollows ((s.learn i x t).onRsu (RosterUnit.heard s.straps.stn x)) :=
    hstraps ▸ hlearnt.rosterHeard x
  unfold State.cleanSlotCell
  split
  · exact h
  split
  · exact h.missedSlot i true
  split
  · exact h.sighting (h.missedSlot i true)
  · exact (hheard.frame (State.onStreams_changes _ _) (by decide)).onLnu _

theorem OwnEntryFollows.cleanControl (h : OwnEntryFollows s) (w : OpenSlot) (x : StationNo)
    {f : State → State} (hf : OwnEntryFollows (f s)) : OwnEntryFollows (s.cleanControl w x f) := by
  unfold State.cleanControl
  split
  · exact h
  split
  · exact h.onLnu _
  split
  · exact h.sighting (h.onLnu _)
  · exact hf.onLnu _

theorem OwnEntryFollows.sightingAt (h : OwnEntryFollows s) (p : Position) (c : CellKind)
    (ended : Instant) : OwnEntryFollows (s.sightingAt p c ended) := by
  have hgarbled : OwnEntryFollows (s.garbledAt ended p) :=
    h.frame (State.garbledAt_changes ended p s) (by decide)
  unfold State.sightingAt
  split
  · exact h
  split
  · exact h.sighting hgarbled
  · exact hgarbled

theorem OwnEntryFollows.openSlotEcho (h : OwnEntryFollows s) (matched : Bool) :
    OwnEntryFollows (s.openSlotEcho matched) := by
  have houtcome {u : State} (hu : OwnEntryFollows u) (c : QueueCell) (o : CellOutcome) :
      OwnEntryFollows (u.takeOutcome c o) := by
    cases c with
    | join => exact hu.joinOutcome o
    | leave => exact hu.leaveOutcome o
    | claim i _ _ => exact hu.frame (State.claimOutcome_changes i o u) (by decide)
    | release i _ => exact hu.frame (State.releaseOutcome_changes i o u) (by decide)
  have hcounted : OwnEntryFollows (if matched then s.onLnu LineUnit.endTx
      else (s.onLnu LineUnit.endTx).onCounters StationCounters.addContend) := by
    split
    · exact h.onLnu _
    · exact (h.onLnu _).frame (State.onCounters_changes _ _) (by decide)
  have hqueue := fun q => hcounted.frame (State.onCcq_changes (fun _ => q) _) (by decide)
  unfold State.openSlotEcho
  split
  · dsimp only
    split
    · exact houtcome (hqueue _) _ _
    · exact hqueue _
  · exact h

/-! ### A clean MARK -/

theorem OwnEntryFollows.markTask (h : OwnEntryFollows s) (own : Bool) (x : StationNo) (b : Word)
    (y : Option StationNo) (t : MarkTask) : OwnEntryFollows (s.markTask own x b y t) := by
  cases t with
  | miss =>
    cases y with
    | none => exact h
    | some y => exact RosterUnit.OwnFollows.onOther h y _
  | roster =>
    cases own with
    | true => exact h.rosterOwnMark
    | false => exact h.rosterMark x b
  | slotAgent => exact h.frame s.slotAgentMark_changes (by decide)
  | queue => exact h.frame (State.onCcq_changes _ s) (by decide)

theorem OwnEntryFollows.anchorMark (h : OwnEntryFollows s) (own : Bool) (t : Instant)
    (x : StationNo) (f : MarkFields) (o : Fin 24) : OwnEntryFollows (s.anchorMark own t x f o) := by
  have hcounted : OwnEntryFollows ((s.onLnu (LineUnit.anchorAt t)).countMark f) :=
    (h.onLnu _).frame (State.countMark_changes f _) (by decide)
  have htasks := List.foldlRecOn (motive := OwnEntryFollows) (markOrder o)
    (State.markTask own x f.bitmap (s.mku.missedBy s.straps.stn x f.takeover)) hcounted
    fun _ hu task _ => hu.markTask own x f.bitmap _ task
  exact htasks.frame (State.onStreams_changes _ _) (by decide)

theorem OwnEntryFollows.cleanMark (h : OwnEntryFollows s) (heard : MarkHeard) (o : Fin 24) :
    OwnEntryFollows (s.cleanMark heard o) := by
  cases heard with
  | own =>
    show OwnEntryFollows (s.ownMarkHeard o)
    unfold State.ownMarkHeard
    split
    · exact h
    · have hended := (h.onLnu LineUnit.endTx).frame
        (State.onMku_changes (fun m => { m with ownMark := .none }) _) (by decide)
      dsimp only
      split
      · exact hended.anchorMark _ _ _ _ _
      · exact hended
  | other onset x f =>
    show OwnEntryFollows (s.otherMarkHeard onset x f o)
    unfold State.otherMarkHeard
    dsimp only
    split
    · exact h
    split
    · exact h.garbledMark _
    split
    · exact h.sighting (h.garbledMark _)
    · exact h.anchorMark _ _ _ _ _

theorem OwnEntryFollows.syncLoss (h : OwnEntryFollows s) : OwnEntryFollows s.syncLoss := by
  unfold State.syncLoss
  split
  · exact h
  · exact ((h.onLnu _).frame (State.onMku_changes _ _) (by decide)).rosterSyncLoss

/-! ### JOIN, LEAVE and the window -/

theorem OwnEntryFollows.commandJoin (h : OwnEntryFollows s) : OwnEntryFollows s.commandJoin.1 := by
  unfold State.commandJoin
  split
  · exact h
  split
  · exact (h.onRsu rfl rfl).setMembership _
  all_goals exact h

theorem OwnEntryFollows.commandLeave (h : OwnEntryFollows s) : OwnEntryFollows s.commandLeave.1 := by
  unfold State.commandLeave
  split
  · exact h
  · exact h
  · split
    · exact h
    split
    · exact (h.setMembership _).offerControl _ _
    · exact ((h.withdrawJoin.onRsu rfl rfl).setMembership _).raise _
    · exact ((h.onRsu rfl rfl).setMembership _).raise _
    · exact (h.setMembership _).raise _
    all_goals exact h

theorem OwnEntryFollows.writeCommand (h : OwnEntryFollows s) (code index : BitVec 4) :
    OwnEntryFollows (s.writeCommand code index) := by
  show OwnEntryFollows (s.decodeCommand code index).1
  obtain hc | hc | ⟨k, hc⟩ | hc := s.decodeCommand_cases code index
  · exact hc ▸ h.commandJoin
  · exact hc ▸ h.commandLeave
  · exact hc ▸ h.frame (s.commandStop_changes k) (by decide)
  · exact h.frame hc (by decide)

theorem OwnEntryFollows.writeWord (h : OwnEntryFollows s) (index : BitVec 8) (w : Word) :
    OwnEntryFollows (s.writeWord index w) := by
  obtain ⟨code, i, hc⟩ | hc := s.writeWord_cases index w
  · exact hc ▸ h.writeCommand code i
  · exact h.frame hc (by decide)

end

/-! ### The statement -/

theorem afterReset_ownEntryFollows (x : Straps) : OwnEntryFollows (State.afterReset x) := by
  obtain ⟨-, -, -, hown, -⟩ := invariantsHoldAfterReset x
  exact hown

theorem exec_keeps_ownEntryFollows (c : Instr) (s t : State) (hs : OwnEntryFollows s)
    (h : exec c s = .next t) : OwnEntryFollows t := by
  have hwrite {f : State → State} (hf : OwnEntryFollows (f s)) (h : targetWrite f s = .next t) :
      OwnEntryFollows t := targetWrite_keeps ownEntryFollows_depends (by decide) hs hf h
  cases c with
  | hardwareReset | resetRelease _ =>
    exact exec_reset_keeps ownEntryFollows_depends (by decide) afterReset_ownEntryFollows rfl hs h
  | cleanDataCell i x t d => exact event_keeps hs (hs.cleanSlotCell i x t d) h
  | openSlotEcho matched => exact event_keeps hs (hs.openSlotEcho matched) h
  | cleanClaim w x i t =>
    unfold exec execCleanClaim at h
    refine event_keeps hs ?_ h
    split
    · exact hs.onLnu _
    · exact hs.cleanControl w x ((hs.frame (s.hearClaim_changes i x t) (by decide)).rosterHeard x)
  | cleanRelease w x i t =>
    unfold exec execCleanRelease at h
    refine event_keeps hs ?_ h
    split
    · exact hs.onLnu _
    · exact hs.cleanControl w x ((hs.frame (s.hearRelease_changes i x) (by decide)).rosterHeard x)
  | cleanLeave w x =>
    refine event_keeps hs ?_ h
    exact hs.cleanControl w x (RosterUnit.OwnFollows.onOther
      (hs.frame (State.mapEntries_changes (SlotEntry.leave x) s) (by decide)) x _)
  | cleanJoin w x => exact event_keeps hs (hs.cleanControl w x (hs.rosterHeard x)) h
  | duplicateAddressSighting p d ended => exact event_keeps hs (hs.sightingAt p d ended) h
  | cleanMark heard o => exact event_keeps hs (hs.cleanMark heard o) h
  | learnCountDone =>
    refine event_keeps hs ?_ h
    split
    · exact hs.learnDone
    · exact hs
  | joinTimerExpiry =>
    refine event_keeps hs ?_ h
    split
    · exact hs.joinTimerDone
    · exact hs
  | syncLoss => exact event_keeps hs hs.syncLoss h
  | join index => exact hwrite (f := State.post _ index State.commandJoin) hs.commandJoin h
  | leave index => exact hwrite (f := State.post _ index State.commandLeave) hs.commandLeave h
  | badCommand code index => exact hwrite (hs.writeCommand code index) h
  | registerWrite index w => exact hwrite (hs.writeWord index w) h
  | _ => exact hs.frame (exec_changes _ h) (by simp [changedParts])

/-- Settles O55: every command keeps it, and the queue of waiting commands is no part of it. -/
theorem stepKeepsOwnRosterEntry : Obligations.StepKeepsOwnRosterEntry := fun _ _ hs h =>
  step_keeps ownEntryFollows_depends (by decide) exec_keeps_ownEntryFollows hs h

end Sys2Proof.Machine
end

section
/-! A station strapped with number 0 stays silent (O58): it is DORMANT and stays so, since JOIN is refused
and no delivery moves a DORMANT station, so it never claims, offers, or sends (R97, R171). -/

namespace Sys2Proof.Machine

open Sys2Proof

/-! ### The silent state -/

/-- A station strapped with number 0 as `ListenOnlySilent` has it. -/
structure State.Silent (s : State) : Prop where
  stn : s.straps.stn = 0
  dormant : s.rsu.membership = .dormant
  foreign : ∀ i : SlotNo, s.slotMap[i.val].isOwn = false
  unqueued : s.ccq.entries = []
  idle : s.lnu.tx = none
  released : s.lnu.driving = false

theorem listenOnlySilent_iff (s : State) : ListenOnlySilent s ↔ (s.straps.stn = 0 → s.Silent) := by
  constructor
  · intro h hstn
    obtain ⟨hdormant, hforeign, hunqueued, hidle, hreleased⟩ := h hstn
    exact ⟨hstn, hdormant, hforeign, hunqueued, hidle, hreleased⟩
  · intro h hstn
    exact ⟨(h hstn).dormant, (h hstn).foreign, (h hstn).unqueued, (h hstn).idle, (h hstn).released⟩

/-- The parts that decide whether a state is silent. -/
abbrev silentParts : List StatePart := [.straps, .lnu, .rsu, .slotMap, .ccq]

theorem silent_depends : DependsOn silentParts State.Silent := by
  intro s t hsame h
  have hstraps : t.straps = s.straps := hsame .straps (by decide)
  have hlnu : t.lnu = s.lnu := hsame .lnu (by decide)
  have hrsu : t.rsu = s.rsu := hsame .rsu (by decide)
  have hmap : t.slotMap = s.slotMap := hsame .slotMap (by decide)
  have hccq : t.ccq = s.ccq := hsame .ccq (by decide)
  exact ⟨hstraps ▸ h.stn, hrsu ▸ h.dormant, hmap ▸ h.foreign, hccq ▸ h.unqueued, hlnu ▸ h.idle,
    hlnu ▸ h.released⟩

/-! ### Entries that are not own -/

theorem SlotEntry.isQueued_foreign {e : SlotEntry} (h : e.isOwn = false) : e.isQueued = false := by
  cases e <;> first | rfl | exact Bool.noConfusion h

theorem SlotEntry.offer_foreign {e : SlotEntry} (i : SlotNo) (h : e.isOwn = false) :
    e.offer i = none := by
  cases e <;> first | rfl | exact Bool.noConfusion h

theorem SlotEntry.tickBackoff_foreign {e : SlotEntry} (h : e.isOwn = false) : e.tickBackoff = e := by
  cases e <;> first | rfl | exact Bool.noConfusion h

theorem SlotEntry.leave_foreign (x : StationNo) {e : SlotEntry} (h : e.isOwn = false) :
    (e.leave x).isOwn = false := by
  cases e with
  | held y t n =>
    show (if y = x then SlotEntry.free else .held y t n).isOwn = false
    split <;> rfl
  | _ => exact h

/-- Offers from a map without own entries: none is made. -/
theorem offerSlots_foreign (is : List SlotNo) {m : Vector SlotEntry 48} (q : CellQueue)
    (h : ∀ i : SlotNo, m[i.val].isOwn = false) : offerSlots is (m, q) = (m, q) := by
  induction is with
  | nil => rfl
  | cons i is ih =>
    have hnone : m[i].offer i = none := SlotEntry.offer_foreign i (h i)
    rw [offerSlots, hnone]
    exact ih

/-! ### The named updates -/

namespace State.Silent

section
variable {s : State}

theorem frame {qs : List StatePart} {t : State} (h : s.Silent) (hc : s.changesOnly qs t)
    (hd : ∀ p ∈ silentParts, p ∉ qs) : t.Silent := silent_depends.frame h hc hd

theorem onLnu (h : s.Silent) {f : LineUnit → LineUnit} (htx : (f s.lnu).tx = s.lnu.tx)
    (hdriving : (f s.lnu).driving = s.lnu.driving) : (s.onLnu f).Silent :=
  ⟨h.stn, h.dormant, h.foreign, h.unqueued, htx.trans h.idle, hdriving.trans h.released⟩

theorem onRsu (h : s.Silent) {f : RosterUnit → RosterUnit}
    (hm : (f s.rsu).membership = s.rsu.membership) : (s.onRsu f).Silent :=
  ⟨h.stn, hm.trans h.dormant, h.foreign, h.unqueued, h.idle, h.released⟩

theorem onCcq (h : s.Silent) {f : CellQueue → CellQueue} (hq : (f s.ccq).entries = s.ccq.entries) :
    (s.onCcq f).Silent :=
  ⟨h.stn, h.dormant, h.foreign, hq.trans h.unqueued, h.idle, h.released⟩

theorem onMku (h : s.Silent) (f : MarkUnit → MarkUnit) : (s.onMku f).Silent :=
  h.frame (State.onMku_changes f s) (by decide)

theorem onStream (h : s.Silent) (k : StreamNo) (f : Stream → Stream) : (s.onStream k f).Silent :=
  h.frame (State.onStream_changes k f s) (by decide)

theorem onStreams (h : s.Silent) (f : StreamNo → Stream → Stream) : (s.onStreams f).Silent :=
  h.frame (State.onStreams_changes f s) (by decide)

theorem onCounters (h : s.Silent) (f : StationCounters → StationCounters) : (s.onCounters f).Silent :=
  h.frame (State.onCounters_changes f s) (by decide)

theorem installMap (h : s.Silent) {m : Vector SlotEntry 48}
    (hm : ∀ i : SlotNo, m[i.val].isOwn = false) : (s.installMap m).Silent :=
  ⟨h.stn, h.dormant, hm, h.unqueued, h.idle, h.released⟩

theorem setEntry (h : s.Silent) (i : SlotNo) {e : SlotEntry} (he : e.isOwn = false) :
    (s.setEntry i e).Silent := by
  refine h.installMap fun j => ?_
  rw [slotMap_set_get]
  split
  · exact he
  · exact h.foreign j

theorem mapEntries (h : s.Silent) {f : SlotEntry → SlotEntry}
    (hf : ∀ e : SlotEntry, e.isOwn = false → (f e).isOwn = false) : (s.mapEntries f).Silent := by
  refine h.installMap fun i => ?_
  rw [Vector.getElem_ofFn]
  exact hf _ (h.foreign i)

/-! ### The Slot Agent -/

theorem withdrawIfQueued (h : s.Silent) (i : SlotNo) (why : Withdrawal) :
    s.withdrawIfQueued i why = s := by
  have hq : s.slotMap[i].isQueued = false := SlotEntry.isQueued_foreign (h.foreign i)
  rw [State.withdrawIfQueued, hq]
  rfl

theorem withdrawSet (h : s.Silent) (i : SlotNo) (why : Withdrawal) {e : SlotEntry}
    (he : e.isOwn = false) : ((s.withdrawIfQueued i why).setEntry i e).Silent := by
  rw [h.withdrawIfQueued]
  exact h.setEntry i he

theorem offerAll (h : s.Silent) (is : List SlotNo) : s.offerAll is = s := by
  rw [State.offerAll, offerSlots_foreign is s.ccq h.foreign]

theorem learn (h : s.Silent) (i : SlotNo) (x : StationNo) (t : Tag) : (s.learn i x t).Silent := by
  unfold State.learn
  split
  · exact h.setEntry i rfl
  · dsimp only
    split
    · exact h.setEntry i rfl
    · exact (h.setEntry i rfl).onCounters _
  · exact h.withdrawSet i _ rfl
  · exact h.setEntry i rfl
  all_goals exact h

theorem ageOut (h : s.Silent) (i : SlotNo) : (s.ageOut i).Silent := by
  unfold State.ageOut
  split
  · split
    · exact (h.setEntry i rfl).onCounters _
    · exact h
  · exact h

theorem missSlot (h : s.Silent) (i : SlotNo) (g : Bool) : (s.missSlot i g).Silent := by
  have hcounted : State.Silent (if g then s.onCounters StationCounters.addCheckErr else s) := by
    split
    · exact h.onCounters _
    · exact h
  unfold State.missSlot
  dsimp only
  split
  · split
    · exact hcounted.ageOut i
    · exact hcounted.setEntry i rfl
  · exact hcounted

theorem hearClaim (h : s.Silent) (i : SlotNo) (x : StationNo) (t : Tag) :
    (s.hearClaim i x t).Silent := by
  unfold State.hearClaim
  split
  · exact h.setEntry i rfl
  · exact h.withdrawSet i _ rfl
  all_goals exact h

theorem hearRelease (h : s.Silent) (i : SlotNo) (x : StationNo) : (s.hearRelease i x).Silent := by
  unfold State.hearRelease
  split
  · split
    · exact h.setEntry i rfl
    · exact h
  · exact h

/-- A DORMANT station claims nothing (R34). -/
theorem autoClaim (h : s.Silent) (k : StreamNo) : s.autoClaim k = s := by
  have hno : s.mayClaim k = false := by
    simp [State.mayClaim, h.dormant]
  rw [State.autoClaim, hno]
  rfl

theorem slotAgentMark (h : s.Silent) : s.slotAgentMark.Silent := by
  have hticked := (h.mapEntries (f := SlotEntry.tickBackoff) fun e he => by
    rw [SlotEntry.tickBackoff_foreign he]; exact he).onStreams fun _ => Stream.tickPause
  have hclaims := List.foldlRecOn (motive := State.Silent) allStreams State.autoClaim hticked
    fun u hu k _ => (hu.autoClaim k).symm ▸ hu
  unfold State.slotAgentMark
  dsimp only
  rw [hclaims.offerAll]
  exact hclaims

/-- A release trigger finds no own entry, so it withdraws and offers nothing (R39). -/
theorem releaseTrigger (h : s.Silent) (k : StreamNo) : (s.releaseTrigger k).Silent := by
  have hwithdrawn (l : List SlotNo) :
      (l.foldl (fun s i => s.withdrawIfQueued i .gone) s).Silent :=
    List.foldlRecOn (motive := State.Silent) l _ h fun u hu i _ => (hu.withdrawIfQueued i _).symm ▸ hu
  have htriggered (l : List SlotNo) := ((hwithdrawn l).mapEntries (f := SlotEntry.trigger k)
    fun e he => by rw [SlotEntry.trigger_foreign k he]; exact he).onStream k
    fun st => { st with short := false }
  unfold State.releaseTrigger
  dsimp only
  rw [(htriggered _).offerAll]
  split
  · exact (htriggered _).onStream _ _
  · exact htriggered _

theorem stopTalk (h : s.Silent) (k : StreamNo) (c : StopCause) : (s.stopTalk k c).Silent :=
  (h.onStream k _).releaseTrigger k

/-! ### Slots -/

/-- No entry is own, so no cell is handed for a Data Slot (R24). -/
theorem handSlotCell (h : s.Silent) (i : SlotNo) (a : Instant) : s.handSlotCell i a = s := by
  have hi : s.slotMap[i].isOwn = false := h.foreign i
  unfold State.handSlotCell
  split
  · simp [*, SlotEntry.isOwn, SlotEntry.stream?] at hi
  · simp [*, SlotEntry.isOwn, SlotEntry.stream?] at hi
  all_goals rfl

theorem dataSlotStart (h : s.Silent) (i : SlotNo) : (s.dataSlotStart i).Silent := by
  unfold State.dataSlotStart
  split
  · rw [h.handSlotCell]
    exact h.onStreams _
  · exact h

theorem dataSlotEcho (h : s.Silent) (matched first : Bool) : s.dataSlotEcho matched first = s := by
  have hnone : s.lnu.ownSlotCell? = none := by rw [LineUnit.ownSlotCell?, h.idle]
  rw [State.dataSlotEcho, hnone]

theorem openSlotEcho (h : s.Silent) (matched : Bool) : s.openSlotEcho matched = s := by
  have hnone : s.lnu.ownControlCell = false := by rw [LineUnit.ownControlCell, h.idle]
  rw [State.openSlotEcho, hnone]
  rfl

/-- The queue has no head, so nothing contends (R50). -/
theorem openSlotStart (h : s.Silent) (w : SlotStart) : (s.openSlotStart w).Silent := by
  unfold State.openSlotStart
  split
  · split
    · exact h.onCcq rfl
    · have hforgot : (s.onCcq CellQueue.forgetPassed).Silent := h.onCcq rfl
      have hnone : (s.onCcq CellQueue.forgetPassed).ccq.contender
          (s.onCcq CellQueue.forgetPassed).straps.stn (openSlotOf w) = none := by
        rw [CellQueue.contender, hforgot.unqueued]
      rw [State.contend, hnone]
      exact hforgot
  · exact h

/-- A station with number 0 makes no sighting (R14). -/
theorem sighting (h : s.Silent) (g : State → State) : s.sighting g = s := if_pos (.inl h.stn)

theorem missedSlot (h : s.Silent) (i : SlotNo) (g : Bool) : (s.missedSlot i g).Silent :=
  ((h.missSlot i g).onStreams _).onLnu rfl rfl

theorem heard (h : s.Silent) (stn x : StationNo) : (s.onRsu (RosterUnit.heard stn x)).Silent :=
  h.onRsu (by rw [RosterUnit.heard, RosterUnit.onOther_keeps])

theorem cleanSlotCell (h : s.Silent) (i : SlotNo) (x : StationNo) (t : Tag) (d : DataKind) :
    (s.cleanSlotCell i x t d).Silent := by
  unfold State.cleanSlotCell
  split
  · exact h
  split
  · exact h.missedSlot i true
  split
  · rw [h.sighting]
    exact h
  · exact (((h.learn i x t).heard _ x).onStreams _).onLnu rfl rfl

theorem cleanControl (h : s.Silent) (w : OpenSlot) (x : StationNo) {f : State → State}
    (hf : (f s).Silent) : (s.cleanControl w x f).Silent := by
  unfold State.cleanControl
  split
  · exact h
  split
  · exact h.onLnu rfl rfl
  split
  · rw [h.sighting]
    exact h
  · exact hf.onLnu rfl rfl

/-! ### Marks -/

theorem carrierOnset (h : s.Silent) (onset : Instant) : (s.carrierOnset onset).Silent := by
  unfold State.carrierOnset
  split
  · exact h
  · exact (h.onMku _).onLnu (by rw [LineUnit.hearOnset_eq]) (by rw [LineUnit.hearOnset_eq])

theorem openWindow (h : s.Silent) : s.openWindow.Silent := by
  have hopen : (s.onLnu LineUnit.openWindow).Silent := h.onLnu rfl rfl
  exact hopen.frame (State.onMku_changes _ _) (by decide)

/-- A DORMANT station may send no MARK (R64). -/
theorem requestMark (h : s.Silent) (k : MarkKind) (start : Instant) (carrier : Bool) :
    s.requestMark k start carrier = s :=
  State.requestMark_withheld start (.inl (by rw [h.dormant]; cases k <;> rfl))

theorem dutyMark (h : s.Silent) (carrier : Bool) : (s.dutyMark carrier).Silent := by
  unfold State.dutyMark
  split
  · rw [h.requestMark]
    exact h.onMku _
  · exact h

theorem takeoverMark (h : s.Silent) (carrier : Bool) : (s.takeoverMark carrier).Silent := by
  unfold State.takeoverMark
  split
  · rw [h.requestMark, ite_self]
    exact h.onMku _
  · exact h

theorem recoveryExpiry (h : s.Silent) (carrier : Bool) : (s.recoveryExpiry carrier).Silent := by
  unfold State.recoveryExpiry
  split
  · exact h
  · rw [h.requestMark]
    exact h.onMku _

theorem coldExpiry (h : s.Silent) (carrier : Bool) : (s.coldExpiry carrier).Silent := by
  unfold State.coldExpiry
  split
  · exact h
  · rw [h.requestMark]
    exact h.onMku _

theorem noOwnMark (h : s.Silent) : s.lnu.ownMark? = none := by rw [LineUnit.ownMark?, h.idle]

theorem markMismatch (h : s.Silent) : s.markMismatch = s := by
  rw [State.markMismatch, h.noOwnMark]

theorem garbledMark (h : s.Silent) (ended : Instant) : (s.garbledMark ended).Silent := by
  unfold State.garbledMark
  split
  · exact (h.onMku _).onLnu rfl rfl
  · exact h.onLnu rfl rfl

theorem garbledAt (h : s.Silent) (ended : Instant) (p : Position) : (s.garbledAt ended p).Silent := by
  cases p with
  | dataSlot i => exact h.missedSlot i true
  | markField => exact h.garbledMark ended
  | openSlot _ | outside => exact h.onLnu rfl rfl

theorem sightingAt (h : s.Silent) (p : Position) (c : CellKind) (ended : Instant) :
    (s.sightingAt p c ended).Silent := by
  unfold State.sightingAt
  split
  · exact h
  split
  · rw [h.sighting]
    exact h
  · exact h.garbledAt ended p

/-- A MARK moves no DORMANT station (R88 to R95). -/
theorem rosterMark (h : s.Silent) (x : StationNo) (b : Word) : (s.rosterMark x b).Silent := by
  have hentries : (s.onRsu fun u => (u.heard s.straps.stn x).adoptBitmap s.straps.stn b).Silent :=
    (h.heard s.straps.stn x).onRsu (f := RosterUnit.adoptBitmap s.straps.stn b)
      (by simp only [RosterUnit.adoptBitmap])
  unfold State.rosterMark
  dsimp only
  rw [State.membershipMark, hentries.dormant]
  exact hentries

theorem rosterOwnMark (h : s.Silent) : s.rosterOwnMark = s := by
  rw [State.rosterOwnMark, h.dormant]

theorem onMark (h : s.Silent) : (s.onCcq CellQueue.onMark).Silent := by
  have hslots := s.ccq.onMark_slots
  rw [h.unqueued, List.map_nil, List.map_eq_nil_iff] at hslots
  exact h.onCcq (hslots.trans h.unqueued.symm)

theorem markTask (h : s.Silent) (own : Bool) (x : StationNo) (b : Word) (y : Option StationNo)
    (t : MarkTask) : (s.markTask own x b y t).Silent := by
  cases t with
  | miss =>
    cases y with
    | none => exact h
    | some y => exact h.onRsu (by rw [RosterUnit.missed, RosterUnit.onOther_keeps])
  | roster =>
    cases own with
    | true =>
      show s.rosterOwnMark.Silent
      rw [h.rosterOwnMark]
      exact h
    | false => exact h.rosterMark x b
  | slotAgent => exact h.slotAgentMark
  | queue => exact h.onMark

theorem anchorMark (h : s.Silent) (own : Bool) (t : Instant) (x : StationNo) (f : MarkFields)
    (o : Fin 24) : (s.anchorMark own t x f o).Silent := by
  have hcounted : ((s.onLnu (LineUnit.anchorAt t)).countMark f).Silent :=
    (h.onLnu rfl rfl).frame (State.countMark_changes f _) (by decide)
  exact (List.foldlRecOn (motive := State.Silent) (markOrder o) _ hcounted
    fun _ hu task _ => hu.markTask own x f.bitmap _ task).onStreams _

theorem cleanMark (h : s.Silent) (heard : MarkHeard) (o : Fin 24) : (s.cleanMark heard o).Silent := by
  cases heard with
  | own =>
    show (s.ownMarkHeard o).Silent
    rw [State.ownMarkHeard, h.noOwnMark]
    exact h
  | other onset x f =>
    show (s.otherMarkHeard onset x f o).Silent
    unfold State.otherMarkHeard
    dsimp only
    split
    · exact h
    split
    · exact h.garbledMark _
    split
    · rw [h.sighting]
      exact h
    · exact h.anchorMark _ _ _ _ _

theorem markless (h : s.Silent) : s.markless.Silent := by
  unfold State.markless
  split
  · exact (h.onLnu rfl rfl).onMku _
  · exact h

theorem syncLoss (h : s.Silent) : s.syncLoss.Silent := by
  have hreference : (s.onLnu LineUnit.syncLost).Silent := h.onLnu rfl rfl
  have hmark : s.markSyncLoss.Silent := hreference.frame (State.onMku_changes _ _) (by decide)
  unfold State.syncLoss
  split
  · exact h
  · rw [State.rosterSyncLoss, hmark.dormant]
    exact hmark

/-! ### Commands -/

/-- JOIN is refused at a station with number 0 (R88). -/
theorem commandJoin (h : s.Silent) : s.commandJoin.1 = s := by
  rw [State.commandJoin, if_pos h.stn]

theorem commandLeave (h : s.Silent) : s.commandLeave.1 = s := by
  rw [State.commandLeave, h.dormant]

theorem commandStop (h : s.Silent) (k : StreamNo) : (s.commandStop k).1.Silent := by
  have hstop : State.Silent
      (if s.streams[k].isTalk then s.stopTalk k .command else s.onStream k Stream.stopListen) := by
    split
    · exact h.stopTalk k _
    · exact h.onStream k _
  unfold State.commandStop
  dsimp only
  split <;> first | exact h | exact hstop

theorem post (code index : BitVec 4) {run : State → Commanded} (hrun : (run s).1.Silent) :
    (s.post code index run).Silent :=
  hrun.frame (qs := [.command, .result])
    (fun p hp => by cases p <;> first | rfl | exact absurd (by decide) hp) (by decide)

theorem writeCommand (h : s.Silent) (code index : BitVec 4) : (s.writeCommand code index).Silent := by
  refine post code index ?_
  obtain hc | hc | ⟨k, hc⟩ | hc := s.decodeCommand_cases code index
  · rw [hc, h.commandJoin]
    exact h
  · rw [hc, h.commandLeave]
    exact h
  · exact hc ▸ h.commandStop k
  · exact h.frame hc (by decide)

theorem writeWord (h : s.Silent) (index : BitVec 8) (w : Word) : (s.writeWord index w).Silent := by
  obtain ⟨code, i, hc⟩ | hc := s.writeWord_cases index w
  · exact hc ▸ h.writeCommand code i
  · exact h.frame hc (by decide)

theorem accessError (h : s.Silent) (k : StreamNo) : (s.accessError k).Silent := by
  unfold State.accessError
  dsimp only
  split
  · exact h
  split
  · exact (h.onStream k _).releaseTrigger k
  · exact h.onStream k _

end

end State.Silent

/-! ### The statement -/

/-- Every command but a reset keeps a silent station silent. -/
theorem exec_keeps_silent {c : Instr} (hc : c.isReset = false) {s t : State} (hs : s.Silent)
    (h : exec c s = .next t) : t.Silent := by
  have hwrite {f : State → State} (hf : (f s).Silent) (h : targetWrite f s = .next t) :
      t.Silent := targetWrite_keeps silent_depends (by decide) hs hf h
  cases c with
  | hardwareReset | resetRelease x => exact Bool.noConfusion hc
  | carrierOnset onset => exact event_keeps hs (hs.carrierOnset onset) h
  | dataSlotStart i => exact event_keeps hs (hs.dataSlotStart i) h
  | graceExpiry k =>
    refine event_keeps hs ?_ h
    split
    · exact hs.stopTalk k .drain
    · exact hs
  | dataSlotEcho matched first => exact event_keeps hs ((hs.dataSlotEcho matched first).symm ▸ hs) h
  | cleanDataCell i x t d => exact event_keeps hs (hs.cleanSlotCell i x t d) h
  | garbledOrSilentDataSlot i g =>
    refine event_keeps hs ?_ h
    split
    · exact hs.missedSlot i g
    · exact hs
  | aging i => exact event_keeps hs (hs.ageOut i) h
  | openSlotStart w => exact event_keeps hs (hs.openSlotStart w) h
  | openSlotEcho matched => exact event_keeps hs ((hs.openSlotEcho matched).symm ▸ hs) h
  | cleanClaim w x i t =>
    unfold exec execCleanClaim at h
    refine event_keeps hs ?_ h
    split
    · exact hs.onLnu rfl rfl
    · exact hs.cleanControl w x ((hs.hearClaim i x t).heard _ x)
  | cleanRelease w x i t =>
    unfold exec execCleanRelease at h
    refine event_keeps hs ?_ h
    split
    · exact hs.onLnu rfl rfl
    · exact hs.cleanControl w x ((hs.hearRelease i x).heard _ x)
  | cleanLeave w x =>
    refine event_keeps hs ?_ h
    refine hs.cleanControl w x ((hs.mapEntries fun _ => SlotEntry.leave_foreign x).onRsu ?_)
    rw [RosterUnit.heardLeave, RosterUnit.onOther_keeps]
  | cleanJoin w x => exact event_keeps hs (hs.cleanControl w x (hs.heard _ x)) h
  | duplicateAddressSighting p d ended => exact event_keeps hs (hs.sightingAt p d ended) h
  | markWindowOpen =>
    refine event_keeps hs ?_ h
    split
    · exact hs.openWindow
    · exact hs
  | dutyMark carrier => exact event_keeps hs (hs.dutyMark carrier) h
  | takeoverMark carrier => exact event_keeps hs (hs.takeoverMark carrier) h
  | recoveryWaitExpiry carrier => exact event_keeps hs (hs.recoveryExpiry carrier) h
  | coldStartWaitExpiry carrier => exact event_keeps hs (hs.coldExpiry carrier) h
  | cleanMark heard o => exact event_keeps hs (hs.cleanMark heard o) h
  | learnCountDone => exact event_keeps hs (by simp [hs.dormant, hs]) h
  | joinTimerExpiry => exact event_keeps hs (by simp [hs.dormant, hs]) h
  | backoffExpiry i =>
    unfold exec execBackoffExpiry at h
    refine event_keeps hs ?_ h
    split
    · split
      · exact hs.setEntry i rfl
      · exact hs
    · exact hs
  | headWaitExpiry =>
    refine event_keeps hs ?_ h
    split
    · exact hs.onMark
    · exact hs
  | garbledMarkField ended => exact event_keeps hs (hs.garbledMark ended) h
  | markEchoMismatch => exact event_keeps hs (hs.markMismatch.symm ▸ hs) h
  | marklessRound => exact event_keeps hs hs.markless h
  | syncLoss => exact event_keeps hs hs.syncLoss h
  | accessError k => exact event_keeps hs (hs.accessError k) h
  | join index =>
    exact hwrite (f := State.post _ index State.commandJoin)
      (State.Silent.post _ _ (hs.commandJoin.symm ▸ hs)) h
  | leave index =>
    exact hwrite (f := State.post _ index State.commandLeave)
      (State.Silent.post _ _ (hs.commandLeave.symm ▸ hs)) h
  | stop k =>
    exact hwrite (f := State.post _ _ (State.commandStop k))
      (State.Silent.post _ _ (hs.commandStop k)) h
  | badCommand code index => exact hwrite (hs.writeCommand code index) h
  | registerWrite index w => exact hwrite (hs.writeWord index w) h
  | _ => exact hs.frame (exec_changes _ h) (by simp [changedParts])

theorem afterReset_listenOnlySilent (x : Straps) : ListenOnlySilent (State.afterReset x) := by
  obtain ⟨-, -, -, -, -, -, -, hsilent, -⟩ := invariantsHoldAfterReset x
  exact hsilent

theorem listenOnlySilent_depends : DependsOn silentParts ListenOnlySilent := by
  intro s t hsame h
  have hstraps : t.straps = s.straps := hsame .straps (by decide)
  rw [listenOnlySilent_iff, hstraps]
  exact fun hstn => silent_depends hsame ((listenOnlySilent_iff s).mp h hstn)

theorem exec_keeps_listenOnlySilent (c : Instr) (s t : State) (hs : ListenOnlySilent s)
    (h : exec c s = .next t) : ListenOnlySilent t := by
  cases hc : c.isReset
  · rw [listenOnlySilent_iff, exec_straps hc h]
    exact fun hstn => exec_keeps_silent hc ((listenOnlySilent_iff s).mp hs hstn) h
  · exact exec_reset_keeps listenOnlySilent_depends (by decide) afterReset_listenOnlySilent hc hs h

/-- Settles O58: a silent station stays silent, and a reset with number 0 makes a silent one. -/
theorem stepKeepsListenOnlySilent : Obligations.StepKeepsListenOnlySilent := fun _ _ hs h =>
  step_keeps listenOnlySilent_depends (by decide) exec_keeps_listenOnlySilent hs h

end Sys2Proof.Machine
end

section
/-! What a command makes of the stream contexts (O57, O59): it keeps the bounds of each and its fetch
index near C, but for an accepted START and a configuration word of a STOPPED stream. -/

namespace Sys2Proof.Machine

open Sys2Proof

/-! ### The relation -/

/-- From `a` to `b` the bounds and the fetch index are kept, and the stream is not begun or
configured. -/
structure Stream.Kept (a b : Stream) : Prop where
  steady : a.Steady b
  near : a.walker.near → b.walker.near

theorem Stream.Kept.refl (a : Stream) : a.Kept a := ⟨.refl a, id⟩

theorem Stream.Kept.trans {a b c : Stream} (h₁ : a.Kept b) (h₂ : b.Kept c) : a.Kept c :=
  ⟨h₁.steady.trans h₂.steady, fun h => h₂.near (h₁.near h)⟩

/-- A steady change that leaves the walker alone. -/
theorem Stream.Kept.sameWalker {a b : Stream} (h : a.Steady b) (hw : b.walker = a.walker) :
    a.Kept b :=
  ⟨h, fun hn => hw ▸ hn⟩

/-- Every stream context is kept. -/
def State.Kept (s t : State) : Prop := ∀ k : StreamNo, s.streams[k].Kept t.streams[k]

theorem State.Kept.refl (s : State) : s.Kept s := fun _ => .refl _

theorem State.Kept.trans {s t u : State} (h₁ : s.Kept t) (h₂ : t.Kept u) : s.Kept u :=
  fun k => (h₁ k).trans (h₂ k)

/-- A change of other parts of the state. -/
theorem State.Kept.frame {ps : List StatePart} {s t : State} (h : s.changesOnly ps t)
    (hp : .streams ∉ ps) : s.Kept t := by
  have hstreams : t.streams = s.streams := h .streams hp
  intro k
  rw [hstreams]
  exact .refl _

theorem State.Kept.ite {c : Prop} [Decidable c] {s t : State} (h : s.Kept t) :
    s.Kept (if c then t else s) := by
  split
  · exact h
  · exact .refl s

theorem State.Kept.foldl {α : Type} {f : State → α → State} (h : ∀ s a, State.Kept s (f s a))
    (l : List α) (s : State) : s.Kept (l.foldl f s) :=
  List.foldlRecOn (motive := s.Kept) l f (.refl s) fun u hu a _ => hu.trans (h u a)

/-! ### The named updates -/

theorem State.kept_onStream {s : State} {k : StreamNo} {f : Stream → Stream}
    (h : s.streams[k].Kept (f s.streams[k])) : s.Kept (s.onStream k f) := by
  intro j
  show s.streams[j].Kept (s.onStream k f).streams[j.val]
  rw [State.onStream_get]
  split
  · rename_i hj
    exact hj ▸ h
  · exact .refl _

theorem State.kept_onStreams {f : StreamNo → Stream → Stream} (h : ∀ k st, Stream.Kept st (f k st))
    (s : State) : s.Kept (s.onStreams f) := by
  intro j
  show s.streams[j].Kept (s.onStreams f).streams[j.val]
  rw [State.onStreams_get]
  exact h j _

theorem reportMap_kept (c : Word) (m m' : Vector SlotEntry 48) (k : StreamNo) (st : Stream) :
    st.Kept (reportMap c m m' k st) :=
  .sameWalker (reportMap_steady c m m' k) (by simp)

theorem State.kept_installMap (m : Vector SlotEntry 48) (s : State) : s.Kept (s.installMap m) := by
  intro j
  show s.streams[j].Kept (s.installMap m).streams[j.val]
  rw [State.installMap_get]
  exact reportMap_kept _ _ _ _ _

theorem State.kept_setEntry (i : SlotNo) (e : SlotEntry) (s : State) : s.Kept (s.setEntry i e) :=
  State.kept_installMap _ s

theorem State.kept_mapEntries (f : SlotEntry → SlotEntry) (s : State) : s.Kept (s.mapEntries f) :=
  State.kept_installMap _ s

theorem State.kept_onLnu (f : LineUnit → LineUnit) (s : State) : s.Kept (s.onLnu f) :=
  .frame (State.onLnu_changes f s) (by decide)

theorem State.kept_onRsu (f : RosterUnit → RosterUnit) (s : State) : s.Kept (s.onRsu f) :=
  .frame (State.onRsu_changes f s) (by decide)

theorem State.kept_onCcq (f : CellQueue → CellQueue) (s : State) : s.Kept (s.onCcq f) :=
  .frame (State.onCcq_changes f s) (by decide)

theorem State.kept_onCounters (f : StationCounters → StationCounters) (s : State) :
    s.Kept (s.onCounters f) := .frame (State.onCounters_changes f s) (by decide)

/-! ### The Slot Agent -/

theorem State.kept_withdrawSet (i : SlotNo) (why : Withdrawal) (e : SlotEntry) (s : State) :
    s.Kept ((s.withdrawIfQueued i why).setEntry i e) :=
  (State.Kept.frame (s.withdrawIfQueued_changes i why) (by decide)).trans
    (State.kept_setEntry i e _)

theorem State.kept_collide (i : SlotNo) (s : State) : s.Kept (s.collide i) := by
  refine (State.kept_onCounters StationCounters.addCollide s).trans ?_
  unfold State.collide
  dsimp only
  split
  · exact State.kept_setEntry _ _ _
  · exact State.kept_withdrawSet _ _ _ _
  all_goals exact .refl _

theorem State.kept_learn (i : SlotNo) (x : StationNo) (t : Tag) (s : State) :
    s.Kept (s.learn i x t) := by
  unfold State.learn
  split
  · exact State.kept_setEntry _ _ s
  · dsimp only
    split
    · exact State.kept_setEntry _ _ s
    · exact (State.kept_setEntry _ _ s).trans (State.kept_onCounters _ _)
  · exact State.kept_withdrawSet _ _ _ s
  · exact State.kept_setEntry _ _ s
  all_goals exact .refl s

theorem State.kept_ageOut (i : SlotNo) (s : State) : s.Kept (s.ageOut i) := by
  unfold State.ageOut
  split
  · exact ((State.kept_setEntry _ _ s).trans (State.kept_onCounters _ _)).ite
  · exact .refl s

theorem State.kept_missSlot (i : SlotNo) (g : Bool) (s : State) : s.Kept (s.missSlot i g) := by
  have hcounted : s.Kept (if g then s.onCounters StationCounters.addCheckErr else s) :=
    (State.kept_onCounters _ s).ite
  unfold State.missSlot
  dsimp only
  split
  · split
    · exact hcounted.trans (State.kept_ageOut i _)
    · exact hcounted.trans (State.kept_setEntry _ _ _)
  · exact hcounted

theorem State.kept_hearClaim (i : SlotNo) (x : StationNo) (t : Tag) (s : State) :
    s.Kept (s.hearClaim i x t) := by
  unfold State.hearClaim
  split
  · exact State.kept_setEntry _ _ s
  · exact State.kept_withdrawSet _ _ _ s
  all_goals exact .refl s

theorem State.kept_hearRelease (i : SlotNo) (x : StationNo) (s : State) :
    s.Kept (s.hearRelease i x) := by
  unfold State.hearRelease
  split
  · exact (State.kept_setEntry _ _ s).ite
  · exact .refl s

theorem State.kept_autoClaim (s : State) (k : StreamNo) : s.Kept (s.autoClaim k) := by
  unfold State.autoClaim
  refine State.Kept.ite ?_
  split
  · exact .frame (State.putEntry_changes _ _ s) (by decide)
  · exact State.kept_onStream (.sameWalker Stream.steady_setShort (by simp))

theorem State.kept_slotAgentMark (s : State) : s.Kept s.slotAgentMark := by
  have hticked :
      s.Kept ((s.mapEntries SlotEntry.tickBackoff).onStreams fun _ => Stream.tickPause) :=
    (State.kept_mapEntries _ s).trans
      (State.kept_onStreams (fun _ _ => .sameWalker Stream.steady_tickPause rfl) _)
  exact (hticked.trans (State.Kept.foldl State.kept_autoClaim allStreams _)).trans
    (.frame (State.offerAll_changes _ _) (by decide))

theorem State.kept_claimOutcome (i : SlotNo) (o : CellOutcome) (s : State) :
    s.Kept (s.claimOutcome i o) := by
  unfold State.claimOutcome
  split
  · exact State.kept_setEntry _ _ s
  · refine (State.kept_setEntry _ _ s).trans (State.kept_onStream (.sameWalker ?_ rfl))
    exact .raise (.same rfl rfl rfl rfl rfl)
  · exact .refl s

theorem State.kept_releaseOutcome (i : SlotNo) (o : CellOutcome) (s : State) :
    s.Kept (s.releaseOutcome i o) := by
  unfold State.releaseOutcome
  split
  · exact State.kept_setEntry _ _ s
  · exact State.kept_setEntry _ _ s
  · exact .refl s

/-- A release trigger reports a new map and that no entries remain, and Clears SHORT (R39, R40). -/
theorem State.kept_releaseTrigger (k : StreamNo) (s : State) : s.Kept (s.releaseTrigger k) := by
  have hwithdrawn (l : List SlotNo) : s.Kept (l.foldl (fun s i => s.withdrawIfQueued i .gone) s) :=
    .foldl (fun u i => .frame (u.withdrawIfQueued_changes i _) (by decide)) l s
  have htriggered (l is : List SlotNo) : s.Kept
      ((((l.foldl (fun s i => s.withdrawIfQueued i .gone) s).mapEntries
        (SlotEntry.trigger k)).onStream k fun st => { st with short := false }).offerAll is) :=
    (((hwithdrawn l).trans (State.kept_mapEntries _ _)).trans (State.kept_onStream
      (.sameWalker (.same rfl rfl rfl rfl rfl) rfl))).trans
      (.frame (State.offerAll_changes _ _) (by decide))
  unfold State.releaseTrigger
  dsimp only
  split
  · exact (htriggered _ _).trans
      (State.kept_onStream (.sameWalker Stream.steady_onNoneRemain (by simp)))
  · exact htriggered _ _

theorem State.kept_stopTalk (k : StreamNo) (c : StopCause) {s : State}
    (h : s.streams[k].state ≠ .stopped) : s.Kept (s.stopTalk k c) :=
  (State.kept_onStream ⟨Stream.steady_beginStop c h, Stream.near_beginStop c⟩).trans
    (State.kept_releaseTrigger k _)

theorem State.kept_wipeOwn (s : State) : s.Kept s.wipeOwn :=
  (State.kept_mapEntries _ s).trans (State.kept_onCcq _ _)

theorem State.kept_wipeAll (s : State) : s.Kept s.wipeAll :=
  (State.kept_mapEntries _ s).trans (State.kept_onCcq _ _)

/-! ### The duplicate notice and isolation -/

theorem State.kept_faultDuplicate (s : State) (k : StreamNo) : s.Kept (s.faultDuplicate k) :=
  State.Kept.ite ((State.kept_onStream
    ⟨Stream.steady_duplicateFault, Stream.near_duplicateFault⟩).trans
    (State.kept_releaseTrigger k _))

theorem State.kept_duplicateSeen (s : State) : s.Kept s.duplicateSeen := by
  have hdormant : s.Kept (((s.onRsu RosterUnit.rest).setMembership .dormant).raise .duplicate) :=
    ((State.kept_onRsu _ s).trans (State.kept_onRsu _ _)).trans
      (.frame (State.raise_changes _ _) (by decide))
  exact (hdormant.trans (State.kept_wipeOwn _)).trans
    (State.Kept.foldl State.kept_faultDuplicate allStreams _)

theorem State.kept_isolate (m : Membership) (e : StationEvent) (s : State) :
    s.Kept (s.isolate m e) :=
  (((State.kept_onRsu _ s).trans (State.kept_onRsu _ _)).trans
    (.frame (State.raise_changes _ _) (by decide))).trans (State.kept_wipeAll _)

theorem State.kept_syncLoss (s : State) : s.Kept s.syncLoss := by
  have hmark : s.Kept s.markSyncLoss :=
    (State.kept_onLnu _ s).trans (.frame (State.onMku_changes _ _) (by decide))
  unfold State.syncLoss
  split
  · exact .refl s
  · refine hmark.trans ?_
    unfold State.rosterSyncLoss
    split
    · exact State.kept_isolate _ _ _
    · exact State.kept_isolate _ _ _
    · exact State.kept_isolate _ _ _
    · exact State.kept_isolate _ _ _
    all_goals exact .refl _

theorem State.kept_sighting {g : State → State} {s : State} (h : s.Kept (g s)) :
    s.Kept (s.sighting g) := by
  unfold State.sighting
  split
  · exact .refl s
  · exact h.trans (State.kept_duplicateSeen _)

/-! ### Data Slots -/

/-- The grace test passes in DRAINED alone (R129). -/
theorem Stream.drained_of_graceExpired {c : Word} {st : Stream} (h : st.graceExpired c = true) :
    st.state = .drained := by
  simp only [Stream.graceExpired, Bool.and_eq_true, beq_iff_eq] at h
  exact h.1.1.2

theorem State.kept_stopDrained {k : StreamNo} {s : State}
    (h : s.streams[k].graceExpired s.mku.count = true) : s.Kept (s.stopTalk k .drain) :=
  State.kept_stopTalk k _ (by rw [Stream.drained_of_graceExpired h]; simp)

theorem State.kept_askEngine (i : SlotNo) (a : Instant) (t : Tag) (k : StreamNo) (s : State) :
    s.Kept (s.askEngine i a t k) := by
  have hsend (d : DataKind) : s.Kept (s.sendSlotCell i a t d (some k)) := State.kept_onLnu _ s
  unfold State.askEngine
  dsimp only
  split
  · rename_i hgrace
    exact (hsend _).trans (State.kept_stopDrained hgrace)
  · exact (hsend _).trans (State.kept_onStream ⟨Stream.steady_answer, Stream.near_answer⟩)

theorem State.kept_dataSlotStart (i : SlotNo) (s : State) : s.Kept (s.dataSlotStart i) := by
  have hhand (a : Instant) : s.Kept (s.handSlotCell i a) := by
    unfold State.handSlotCell
    split
    · exact State.kept_askEngine _ _ _ _ s
    · exact State.kept_onLnu _ s
    all_goals exact .refl s
  unfold State.dataSlotStart
  split
  · exact (hhand _).trans (State.kept_onStreams
      (fun _ _ => .sameWalker (Stream.steady_setExpect _) (by simp)) _)
  · exact .refl s

theorem State.kept_listenersHear (own : Bool) (t : Tag) (x : StationNo) (d : DataKind) (s : State) :
    s.Kept (s.listenersHear own t x d) :=
  State.kept_onStreams (fun _ _ =>
    ⟨Stream.steady_hearCell _ own t x d, Stream.near_hearCell _ own t x d⟩) s

theorem State.kept_engineEcho (d : DataKind) (k : Option StreamNo) (s : State) :
    s.Kept (s.engineEcho d k) := by
  unfold State.engineEcho
  split
  · exact State.kept_onStream ⟨Stream.steady_dataEcho _, Stream.near_dataEcho _⟩
  · exact .refl s

theorem State.kept_slotEcho (matched : Bool) (i : SlotNo) (s : State) :
    s.Kept (s.slotEcho matched i) := by
  unfold State.slotEcho
  split
  · exact .refl s
  · exact State.kept_collide i s

theorem State.kept_dataSlotEcho (matched first : Bool) (s : State) :
    s.Kept (s.dataSlotEcho matched first) := by
  unfold State.dataSlotEcho
  split
  · exact .refl s
  · rename_i i t d k _
    dsimp only
    have hechoes : s.Kept (if first
        then ((s.onLnu LineUnit.endTx).slotEcho matched i).engineEcho d k
        else ((s.onLnu LineUnit.endTx).engineEcho d k).slotEcho matched i) := by
      refine (State.kept_onLnu LineUnit.endTx s).trans ?_
      split
      · exact (State.kept_slotEcho _ _ _).trans (State.kept_engineEcho _ _ _)
      · exact (State.kept_engineEcho _ _ _).trans (State.kept_slotEcho _ _ _)
    split
    · exact hechoes.trans (State.kept_listenersHear _ _ _ _ _)
    · exact hechoes

theorem State.kept_missedSlot (i : SlotNo) (g : Bool) (s : State) : s.Kept (s.missedSlot i g) :=
  ((State.kept_missSlot i g s).trans (State.kept_onStreams
    (fun _ _ => ⟨Stream.steady_hearNothing _, Stream.near_hearNothing _⟩) _)).trans
    (State.kept_onLnu _ _)

theorem State.kept_cleanSlotCell (i : SlotNo) (x : StationNo) (t : Tag) (d : DataKind) (s : State) :
    s.Kept (s.cleanSlotCell i x t d) := by
  unfold State.cleanSlotCell
  split
  · exact .refl s
  split
  · exact State.kept_missedSlot i true s
  split
  · exact State.kept_sighting (State.kept_missedSlot i true s)
  · exact (((State.kept_learn i x t s).trans (State.kept_onRsu _ _)).trans
      (State.kept_listenersHear _ _ _ _ _)).trans (State.kept_onLnu _ _)

/-! ### Open Slots -/

theorem State.kept_openSlotStart (w : SlotStart) (s : State) : s.Kept (s.openSlotStart w) := by
  have hsend (a : Instant) (c : Cell) (u : State) : u.Kept (u.sendControl (openSlotOf w) a c) :=
    (State.kept_onLnu _ u).trans (State.kept_onCcq _ _)
  have hhead (a : Instant) (c : QueueCell) (u : State) :
      u.Kept (u.handHead (openSlotOf w) a c) := by
    unfold State.handHead
    dsimp only
    split
    · exact hsend _ _ u
    · exact hsend _ _ u
    · split
      · exact hsend _ _ u
      · exact (State.kept_onCcq _ u).trans (State.kept_claimOutcome _ _ _)
    · split
      · split
        · exact hsend _ _ u
        · exact (State.kept_onCcq _ u).trans (State.kept_releaseOutcome _ _ _)
      · exact (State.kept_onCcq _ u).trans (State.kept_releaseOutcome _ _ _)
  unfold State.openSlotStart
  split
  · split
    · exact State.kept_onCcq _ s
    · refine (State.kept_onCcq CellQueue.forgetPassed s).trans ?_
      unfold State.contend
      split
      · exact hhead _ _ _
      · exact .refl _
  · exact .refl s

theorem State.kept_openSlotEcho (matched : Bool) (s : State) : s.Kept (s.openSlotEcho matched) := by
  have houtcome (c : QueueCell) (o : CellOutcome) (u : State) : u.Kept (u.takeOutcome c o) := by
    cases c with
    | join => exact .frame (u.joinOutcome_changes o) (by decide)
    | leave => exact .frame (u.leaveOutcome_changes o) (by decide)
    | claim i _ _ => exact State.kept_claimOutcome i o u
    | release i _ => exact State.kept_releaseOutcome i o u
  unfold State.openSlotEcho
  split
  · dsimp only
    have hcount : s.Kept (if matched then s.onLnu LineUnit.endTx
        else (s.onLnu LineUnit.endTx).onCounters StationCounters.addContend) := by
      refine (State.kept_onLnu LineUnit.endTx s).trans ?_
      split
      · exact .refl _
      · exact State.kept_onCounters _ _
    have hqueue := fun q => hcount.trans (State.kept_onCcq (fun _ => q) _)
    split
    · exact (hqueue _).trans (houtcome _ _ _)
    · exact hqueue _
  · exact .refl s

theorem State.kept_cleanControl (w : OpenSlot) (x : StationNo) {f : State → State} {s : State}
    (h : s.Kept (f s)) : s.Kept (s.cleanControl w x f) := by
  unfold State.cleanControl
  split
  · exact .refl s
  split
  · exact State.kept_onLnu _ s
  split
  · exact State.kept_sighting (State.kept_onLnu _ s)
  · exact h.trans (State.kept_onLnu _ _)

theorem State.kept_taggedControl (w : OpenSlot) (x : StationNo) (t : Tag) {f : State → State}
    {s : State} (h : s.Kept (f s)) : s.Kept
      (if t = 0 then s.onLnu (LineUnit.reported (.openSlot w)) else s.cleanControl w x f) := by
  split
  · exact State.kept_onLnu _ s
  · exact State.kept_cleanControl w x h

theorem State.kept_garbledMark (ended : Instant) (s : State) : s.Kept (s.garbledMark ended) :=
  .frame (s.garbledMark_changes ended) (by decide)

theorem State.kept_sightingAt (p : Position) (c : CellKind) (ended : Instant) (s : State) :
    s.Kept (s.sightingAt p c ended) := by
  have hgarbled : s.Kept (s.garbledAt ended p) := by
    cases p with
    | dataSlot i => exact State.kept_missedSlot i true s
    | markField => exact State.kept_garbledMark ended s
    | openSlot _ | outside => exact State.kept_onLnu _ s
  unfold State.sightingAt
  split
  · exact .refl s
  split
  · exact State.kept_sighting hgarbled
  · exact hgarbled

/-! ### Marks -/

theorem State.kept_anchorMark (own : Bool) (a : Instant) (x : StationNo) (f : MarkFields)
    (o : Fin 24) (s : State) : s.Kept (s.anchorMark own a x f o) := by
  have htask (missed : Option StationNo) (u : State) (task : MarkTask) :
      u.Kept (u.markTask own x f.bitmap missed task) := by
    cases task with
    | miss =>
      cases missed with
      | none => exact .refl u
      | some y => exact State.kept_onRsu _ u
    | roster =>
      cases own with
      | true => exact .frame u.rosterOwnMark_changes (by decide)
      | false => exact .frame (u.rosterMark_changes x f.bitmap) (by decide)
    | slotAgent => exact State.kept_slotAgentMark u
    | queue => exact State.kept_onCcq _ u
  have hcounted : s.Kept ((s.onLnu (LineUnit.anchorAt a)).countMark f) :=
    (State.kept_onLnu _ s).trans (.frame (State.countMark_changes f _) (by decide))
  exact (hcounted.trans (State.Kept.foldl (htask _) (markOrder o) _)).trans
    (State.kept_onStreams (fun _ _ => .sameWalker Stream.steady_newRound (by simp)) _)

theorem State.kept_cleanMark (heard : MarkHeard) (o : Fin 24) (s : State) :
    s.Kept (s.cleanMark heard o) := by
  cases heard with
  | own =>
    show s.Kept (s.ownMarkHeard o)
    unfold State.ownMarkHeard
    split
    · exact .refl s
    · have hended : s.Kept ((s.onLnu LineUnit.endTx).onMku fun m => { m with ownMark := .none }) :=
        (State.kept_onLnu _ s).trans (.frame (State.onMku_changes _ _) (by decide))
      dsimp only
      split
      · exact hended.trans (State.kept_anchorMark _ _ _ _ _ _)
      · exact hended
  | other onset x f =>
    show s.Kept (s.otherMarkHeard onset x f o)
    unfold State.otherMarkHeard
    dsimp only
    split
    · exact .refl s
    split
    · exact State.kept_garbledMark _ s
    split
    · exact State.kept_sighting (State.kept_garbledMark _ s)
    · exact State.kept_anchorMark _ _ _ _ _ s

/-! ### The local bus -/

theorem State.kept_accessIssue (s : State) : s.Kept s.accessIssue := by
  unfold State.accessIssue
  split
  · exact .refl s
  split
  · exact .refl s
  · rename_i k _ c hc
    intro j
    exact State.kept_onStream (f := Stream.present (Config.unfetchedNotify s.freeDraws) c)
      ⟨Stream.steady_present _ c hc, Stream.near_present _ c⟩ j

theorem State.kept_accessError (k : StreamNo) (s : State) : s.Kept (s.accessError k) := by
  have hfault : s.Kept (s.onStream k fun st =>
      if st.isTalk then st.walkerFault.memoryFaultTalk else st.walkerFault.memoryFaultListen) := by
    refine State.kept_onStream ?_
    split
    · exact ⟨Stream.steady_memoryFaultTalk,
        fun _ => Stream.near_memoryFaultTalk Stream.near_walkerFault⟩
    · rename_i htalk
      exact ⟨Stream.steady_memoryFaultListen (by simpa using htalk),
        fun _ => Stream.near_memoryFaultListen Stream.near_walkerFault⟩
  unfold State.accessError
  dsimp only
  split
  · exact .refl s
  split
  · exact hfault.trans (State.kept_releaseTrigger k _)
  · exact hfault

/-! ### Commands -/

theorem State.kept_commandStop (k : StreamNo) (s : State) : s.Kept (s.commandStop k).1 := by
  have hstop (h : s.streams[k].state.started) : s.Kept (if s.streams[k].isTalk
      then s.stopTalk k .command else s.onStream k Stream.stopListen) := by
    split
    · exact State.kept_stopTalk k _ h.1
    · exact State.kept_onStream ⟨Stream.steady_stopListen h, Stream.near_stopListen⟩
  unfold State.commandStop
  dsimp only
  split
  all_goals first
    | exact .refl s
    | (rename_i hstate; exact hstop (by rw [hstate]; simp [StreamState.started]))

theorem State.kept_commandPause (k : StreamNo) (s : State) : s.Kept (s.commandPause k).1 := by
  have hpause (h : s.streams[k].state.started) : s.Kept (s.onStream k fun st =>
      if st.isTalk then st.pauseTalk else { st with state := .paused }) := by
    refine State.kept_onStream ?_
    split
    · exact ⟨Stream.steady_pauseTalk h, Stream.near_pauseTalk⟩
    · exact .sameWalker (.engine rfl rfl rfl rfl h (by simp)) rfl
  unfold State.commandPause
  dsimp only
  split
  all_goals first
    | exact .refl s
    | (rename_i hstate; exact hpause (by rw [hstate]; simp [StreamState.started]))

theorem State.kept_commandResume (k : StreamNo) (s : State) : s.Kept (s.commandResume k).1 := by
  unfold State.commandResume
  dsimp only
  split
  · rename_i hstate
    have hstarted : s.streams[k].state.started := by rw [hstate]; simp [StreamState.started]
    refine State.kept_onStream ?_
    split
    · rename_i htalk
      exact ⟨Stream.steady_resumeTalk _ htalk hstarted, Stream.near_resumeTalk _⟩
    · exact .sameWalker (Stream.steady_resumeListen hstarted) (by simp)
  all_goals exact .refl s

theorem State.kept_commandResetStream (k : StreamNo) (s : State) :
    s.Kept (s.commandResetStream k).1 := by
  unfold State.commandResetStream
  split
  · exact State.kept_onStream ⟨Stream.steady_resetStream, fun _ => Stream.near_resetStream⟩
  · exact .refl s

theorem State.kept_commandClearCounters (s : State) : s.Kept s.commandClearCounters.1 :=
  (State.kept_onCounters _ s).trans
    (State.kept_onStreams (fun _ _ => .sameWalker Stream.steady_clearCounters (by simp)) _)

theorem State.kept_clearFlags (e : EventScope) (w : Word) (s : State) :
    s.Kept (s.clearFlags e w) := by
  cases e with
  | station => exact fun _ => .refl _
  | stream k => exact State.kept_onStream (.sameWalker (.same rfl rfl rfl rfl rfl) rfl)

theorem State.kept_writeEnables (e : EventScope) (w : Word) (s : State) :
    s.Kept (s.writeEnables e w) := by
  cases e with
  | station => exact fun _ => .refl _
  | stream k => exact State.kept_onStream (.sameWalker (.same rfl rfl rfl rfl rfl) rfl)

theorem State.kept_writeReady (k : StreamNo) (w : Word) (s : State) : s.Kept (s.writeReady k w) :=
  State.kept_onStream ⟨Stream.steady_readyWrite _, Stream.near_readyWrite _⟩

end Sys2Proof.Machine
end

section
/-! What a command makes of the stream contexts, the invariants (O57, O59): an accepted START, a
configuration word of a STOPPED stream, and the statements. -/

namespace Sys2Proof.Machine

open Sys2Proof

/-! ### What a command does to the stream contexts -/

/-- A configuration word written (R167). -/
def Stream.configure (which : ConfigWord) (w : Word) (st : Stream) : Stream :=
  { st with cfg := st.cfg.write which w }

/-- What a command other than a reset makes of the stream contexts: it keeps them, begins one that
passed the checks of START (R122, R142), or configures a STOPPED one (R167). -/
inductive State.StreamsGo (s t : State) : Prop
  | kept (h : s.Kept t)
  | begun (k : StreamNo) (hok : (s.commandStart k).2 = .ok)
      (h : t.streams = (s.commandStart k).1.streams)
  | configured (k : StreamNo) (which : ConfigWord) (w : Word)
      (hstopped : s.streams[k].state = .stopped)
      (h : t.streams = (s.onStream k (Stream.configure which w)).streams)

theorem State.StreamsGo.refl (s : State) : s.StreamsGo s := .kept (.refl s)

/-- Only the stream contexts count. -/
theorem State.StreamsGo.congr {s t u : State} (h : s.StreamsGo t) (hu : u.streams = t.streams) :
    s.StreamsGo u := by
  cases h with
  | kept h =>
    refine .kept fun k => ?_
    rw [hu]
    exact h k
  | begun k hok h => exact .begun k hok (hu.trans h)
  | configured k which w hstopped h => exact .configured k which w hstopped (hu.trans h)

theorem streamsGo_depends (s : State) : DependsOn [.streams] s.StreamsGo :=
  fun _ _ hsame h => h.congr (hsame .streams (by decide))

theorem State.commandStart_go (k : StreamNo) (s : State) : s.StreamsGo (s.commandStart k).1 := by
  by_cases hok : (s.commandStart k).2 = .ok
  · exact .begun k hok rfl
  · have hsame : (s.commandStart k).1 = s := by
      unfold State.commandStart at hok ⊢
      split at hok <;> simp_all
    rw [hsame]
    exact .refl s

theorem State.writeConfig_go (k : StreamNo) (which : ConfigWord) (w : Word) (s : State) :
    s.StreamsGo (s.writeConfig k which w) := by
  unfold State.writeConfig
  split
  · rename_i hstopped
    exact .configured k which w hstopped rfl
  · exact .kept (.frame (State.raise_changes _ s) (by decide))

theorem State.decodeCommand_go (code index : BitVec 4) (s : State) :
    s.StreamsGo (s.decodeCommand code index).1 := by
  have hstream (run : StreamNo → State → Commanded) (hrun : ∀ k, s.StreamsGo (run k s).1) :
      s.StreamsGo (s.streamCommand index run).1 := by
    unfold State.streamCommand
    split
    · exact hrun _
    · exact .refl s
  unfold State.decodeCommand
  split
  · exact .refl s
  · exact .kept (.frame s.commandJoin_changes (by decide))
  · exact .kept (.frame s.commandLeave_changes (by decide))
  · exact hstream _ fun k => s.commandStart_go k
  · exact hstream _ fun k => .kept (s.kept_commandStop k)
  · exact hstream _ fun k => .kept (s.kept_commandPause k)
  · exact hstream _ fun k => .kept (s.kept_commandResume k)
  · exact hstream _ fun k => .kept (s.kept_commandResetStream k)
  · exact .kept s.kept_commandClearCounters

theorem State.post_go (code index : BitVec 4) {run : State → Commanded} {s : State}
    (h : s.StreamsGo (run s).1) : s.StreamsGo (s.post code index run) := h.congr rfl

theorem State.writeWord_go (index : BitVec 8) (w : Word) (s : State) :
    s.StreamsGo (s.writeWord index w) := by
  unfold State.writeWord
  dsimp only
  split
  · exact State.post_go _ _ (s.decodeCommand_go _ _)
  split
  · exact .kept (s.kept_clearFlags _ w)
  split
  · exact .kept (s.kept_writeEnables _ w)
  split
  · exact .kept (s.kept_clearFlags _ w)
  split
  · exact .kept (s.kept_writeEnables _ w)
  split
  · split
    · exact s.writeConfig_go _ _ w
    · exact s.writeConfig_go _ _ w
    · exact s.writeConfig_go _ _ w
    · exact .kept (s.kept_writeReady _ w)
    · exact .refl s
  · exact .refl s

/-- Every command but a reset keeps the stream contexts, begins one, or configures a STOPPED one. -/
theorem exec_streamsGo {c : Instr} (hc : c.isReset = false) {s t : State} (h : exec c s = .next t) :
    s.StreamsGo t := by
  have hevent {f : State → State} (hf : s.Kept (f s)) (h : event f s = .next t) : s.StreamsGo t :=
    event_keeps (P := s.StreamsGo) (.refl s) (.kept hf) h
  have hwrite {f : State → State} (hf : s.StreamsGo (f s)) (h : targetWrite f s = .next t) :
      s.StreamsGo t := targetWrite_keeps (streamsGo_depends s) (by decide) (.refl s) hf h
  cases c with
  | hardwareReset | resetRelease _ => exact Bool.noConfusion hc
  | dataSlotStart i => exact hevent (s.kept_dataSlotStart i) h
  | graceExpiry k =>
    unfold exec execGraceExpiry at h
    refine hevent ?_ h
    split
    · rename_i hgrace
      exact State.kept_stopDrained hgrace
    · exact .refl s
  | dataSlotEcho matched first => exact hevent (s.kept_dataSlotEcho matched first) h
  | cleanDataCell i x t d => exact hevent (s.kept_cleanSlotCell i x t d) h
  | garbledOrSilentDataSlot i g => exact hevent (s.kept_missedSlot i g).ite h
  | aging i => exact hevent (s.kept_ageOut i) h
  | openSlotStart w => exact hevent (s.kept_openSlotStart w) h
  | openSlotEcho matched => exact hevent (s.kept_openSlotEcho matched) h
  | cleanClaim w x i t =>
    unfold exec execCleanClaim at h
    refine hevent ?_ h
    exact State.kept_taggedControl w x t ((s.kept_hearClaim i x t).trans (State.kept_onRsu _ _))
  | cleanRelease w x i t =>
    unfold exec execCleanRelease at h
    refine hevent ?_ h
    exact State.kept_taggedControl w x t ((s.kept_hearRelease i x).trans (State.kept_onRsu _ _))
  | cleanLeave w x =>
    refine hevent ?_ h
    exact State.kept_cleanControl w x ((State.kept_mapEntries _ s).trans (State.kept_onRsu _ _))
  | cleanJoin w x => exact hevent (State.kept_cleanControl w x (State.kept_onRsu _ s)) h
  | duplicateAddressSighting p d ended => exact hevent (s.kept_sightingAt p d ended) h
  | cleanMark heard o => exact hevent (s.kept_cleanMark heard o) h
  | backoffExpiry i =>
    unfold exec execBackoffExpiry at h
    refine hevent ?_ h
    split
    · exact (State.kept_setEntry i _ s).ite
    · exact .refl s
  | pauseTimerExpiry k =>
    exact hevent (State.kept_onStream (.sameWalker Stream.steady_tickPause rfl)).ite h
  | syncLoss => exact hevent s.kept_syncLoss h
  | readyWrite k w => exact hwrite (.kept (s.kept_writeReady k w)) h
  | accessIssue => exact hevent s.kept_accessIssue h
  | descriptorFetchReply k w₀ w₄ =>
    exact hevent (State.kept_onStream ⟨Stream.steady_fetchReply _ _, Stream.near_fetchReply _ _⟩) h
  | bufferReadReply k words =>
    exact hevent (State.kept_onStream ⟨Stream.steady_readReply _, Stream.near_readReply _⟩) h
  | bufferWriteAck k =>
    exact hevent (State.kept_onStream ⟨Stream.steady_writeAck _, Stream.near_writeAck _⟩) h
  | recordWriteAck k =>
    exact hevent (State.kept_onStream ⟨Stream.steady_recordAck, Stream.near_recordAck⟩) h
  | accessError k => exact hevent (s.kept_accessError k) h
  | start k => exact hwrite (State.post_go _ _ (s.commandStart_go k)) h
  | stop k => exact hwrite (State.post_go _ _ (.kept (s.kept_commandStop k))) h
  | pause k => exact hwrite (State.post_go _ _ (.kept (s.kept_commandPause k))) h
  | resume k => exact hwrite (State.post_go _ _ (.kept (s.kept_commandResume k))) h
  | resetStream k => exact hwrite (State.post_go _ _ (.kept (s.kept_commandResetStream k))) h
  | clearCounters _ => exact hwrite (State.post_go _ _ (.kept s.kept_commandClearCounters)) h
  | badCommand code index => exact hwrite (State.post_go _ _ (s.decodeCommand_go code index)) h
  | configWrite k which w => exact hwrite (s.writeConfig_go k which w) h
  | flagWrite e w => exact hwrite (.kept (s.kept_clearFlags e w)) h
  | enableWrite e w => exact hwrite (.kept (s.kept_writeEnables e w)) h
  | registerWrite index w => exact hwrite (s.writeWord_go index w) h
  | _ => exact .kept (.frame (exec_changes _ h) (by simp [changedParts]))

/-! ### START and a configuration word -/

/-- An accepted START begins its stream, by the direction, and passed the checks (R122, R142). -/
theorem State.commandStart_ok {k : StreamNo} {s : State} (h : (s.commandStart k).2 = .ok) :
    (s.streams[k].isTalk = true ∧ s.startTalkCheck k = .ok ∧
      (s.commandStart k).1 = s.onStream k Stream.startTalk) ∨
    (s.streams[k].isTalk = false ∧ s.streams[k].startListenCheck = .ok ∧
      (s.commandStart k).1 = s.onStream k Stream.startListen) := by
  unfold State.commandStart at h ⊢
  split at h
  · rename_i htalk
    exact .inl ⟨htalk, h, by rw [if_pos htalk]; exact if_pos h⟩
  · rename_i htalk
    exact .inr ⟨by simpa using htalk, h, by rw [if_neg htalk]; exact if_pos h⟩

/-- A statement about each stream context by itself passes from one state to the next where the
streams are kept, begun and configured within it. -/
theorem State.StreamsGo.each {P : Stream → Prop} {s t : State} (h : s.StreamsGo t)
    (hs : ∀ k : StreamNo, P s.streams[k]) (hkept : ∀ a b : Stream, a.Kept b → P a → P b)
    (htalk : ∀ a : Stream, P a → P a.startTalk)
    (hlisten : ∀ a : Stream, a.isTalk = false → P a → P a.startListen)
    (hconfig : ∀ (a : Stream) (which : ConfigWord) (w : Word), a.state = .stopped → P a →
      P (a.configure which w)) : ∀ k : StreamNo, P t.streams[k] := by
  have hone {k : StreamNo} {f : Stream → Stream} {u : State}
      (hu : u.streams = (s.onStream k f).streams) (hf : P (f s.streams[k])) (j : StreamNo) : P u.streams[j] := by
    rw [hu]
    show P (s.onStream k f).streams[j.val]
    rw [State.onStream_get]
    split
    · exact hf
    · exact hs j
  cases h with
  | kept h => exact fun k => hkept _ _ (h k) (hs k)
  | begun k hok h =>
    obtain ⟨-, -, hstart⟩ | ⟨hdirection, -, hstart⟩ := State.commandStart_ok hok
    · exact hone (hstart ▸ h) (htalk _ (hs k))
    · exact hone (hstart ▸ h) (hlisten _ hdirection (hs k))
  | configured k which w hstopped h => exact hone h (hconfig _ which w hstopped (hs k))

/-- A STOPPED stream has nothing in flight, so that its direction may change. -/
theorem Stream.Bounded.configure {st : Stream} (h : st.Bounded) (which : ConfigWord) (w : Word)
    (hstopped : st.state = .stopped) : (st.configure which w).Bounded := by
  have hoff : st.walker.mode = .off := h.stoppedOff hstopped
  exact .off (le_trans (Nat.le_add_right _ _) h.room) hoff (h.offIdle hoff)
    (h.aheadWalking (.inr (.inl hoff))) fun _ _ => .inl hstopped

/-! ### The wanted counts (R122) -/

/-- What a stream adds to the sum of the wanted counts: its own, while it is a Talk Stream and not
STOPPED. -/
def Stream.commitment (st : Stream) : Nat :=
  if st.isTalk && st.state != .stopped then st.cfg.wanted.toNat else 0

theorem sum_map_filter_eq {α : Type} (p : α → Bool) (f : α → Nat) (l : List α) :
    ((l.filter p).map f).sum = (l.map fun a => if p a then f a else 0).sum := by
  induction l with
  | nil => rfl
  | cons a l ih => cases hp : p a <;> simp [hp, ih]

theorem commitWithinLimit_iff (s : State) :
    CommitWithinLimit s ↔ ∑ k : StreamNo, s.streams[k].commitment ≤ 16 := by
  unfold CommitWithinLimit
  rw [sum_map_filter_eq, Fin.sum_univ_def]
  rfl

/-- A kept stream is not begun, so it adds no more than before. -/
theorem Stream.Kept.commitment {a b : Stream} (h : a.Kept b) : b.commitment ≤ a.commitment := by
  have htalk : b.isTalk = a.isTalk := Stream.isTalk_congr h.steady.cfg
  unfold Stream.commitment
  rw [htalk, h.steady.cfg]
  by_cases hstopped : a.state = .stopped
  · simp [h.steady.stopped hstopped]
  · have hon : (a.state != .stopped) = true := by simpa using hstopped
    rw [hon, Bool.and_true]
    split <;> split <;> simp_all

theorem State.onStream_commitment_others {s t : State} {k : StreamNo} {f : Stream → Stream}
    (h : t.streams = (s.onStream k f).streams) (j : StreamNo) (hj : j ≠ k) :
    t.streams[j].commitment = s.streams[j].commitment := by
  rw [h, s.onStream_others k f j hj]

/-- The sum of check 5 is what the other streams add, and the wanted count of the stream itself. -/
theorem State.committed_eq (k : StreamNo) (s : State) : s.committed k =
    ∑ j ∈ Finset.univ.erase k, s.streams[j].commitment + s.streams[k].cfg.wanted.toNat := by
  unfold State.committed State.otherTalks allStreams
  rw [sum_map_filter_eq, ← Fin.sum_univ_def, ← Finset.sum_erase (a := k) _ (by simp)]
  congr 1
  refine Finset.sum_congr rfl fun j hj => ?_
  have hne : (j != k) = true := by simpa using Finset.ne_of_mem_erase hj
  simp [hne, Stream.commitment]

theorem State.startTalkCheck_committed {k : StreamNo} {s : State} (h : s.startTalkCheck k = .ok) :
    s.committed k ≤ 16 := by
  unfold State.startTalkCheck at h
  dsimp only at h
  split_ifs at h with h₁ h₂ h₃ h₄ h₅
  exact Nat.le_of_not_lt h₅

theorem Stream.commitment_listen {st : Stream} (h : st.isTalk = false) : st.commitment = 0 := by
  simp [Stream.commitment, h]

theorem Stream.commitment_stopped {st : Stream} (h : st.state = .stopped) : st.commitment = 0 := by
  simp [Stream.commitment, h]

theorem State.StreamsGo.commitWithinLimit {s t : State} (h : s.StreamsGo t)
    (hs : CommitWithinLimit s) : CommitWithinLimit t := by
  rw [commitWithinLimit_iff] at hs ⊢
  have hone {k : StreamNo} {f : Stream → Stream} (ht : t.streams = (s.onStream k f).streams) :
      ∑ j : StreamNo, t.streams[j].commitment =
        ∑ j ∈ Finset.univ.erase k, s.streams[j].commitment + (f s.streams[k]).commitment := by
    rw [← Finset.sum_erase_add _ _ (Finset.mem_univ k)]
    congr 1
    · exact Finset.sum_congr rfl fun j hj =>
        State.onStream_commitment_others ht j (Finset.ne_of_mem_erase hj)
    · rw [ht]
      show ((s.onStream k f).streams[k.val]).commitment = _
      rw [State.onStream_get, if_pos rfl]
      rfl
  have hothers (k : StreamNo) : ∑ j ∈ Finset.univ.erase k, s.streams[j].commitment ≤ 16 :=
    le_trans (Finset.sum_le_sum_of_subset (Finset.erase_subset k _)) hs
  cases h with
  | kept h => exact le_trans (Finset.sum_le_sum fun k _ => (h k).commitment) hs
  | begun k hok h =>
    obtain ⟨htalk, hcheck, hstart⟩ | ⟨hlisten, -, hstart⟩ := State.commandStart_ok hok
    · rw [hone (hstart ▸ h)]
      have hwanted : s.streams[k].startTalk.commitment ≤ s.streams[k].cfg.wanted.toNat := by
        unfold Stream.commitment
        split <;> simp
      have := State.startTalkCheck_committed hcheck
      rw [State.committed_eq] at this
      omega
    · rw [hone (hstart ▸ h), Stream.commitment_listen
        ((Stream.isTalk_congr (b := s.streams[k]) (by simp)).trans hlisten)]
      exact hothers k
  | configured k which w hstopped h =>
    rw [hone h, Stream.commitment_stopped (st := s.streams[k].configure which w) hstopped]
    exact hothers k

/-! ### The statements -/

theorem fetchNearCurrent_depends : DependsOn [.streams] FetchNearCurrent := by
  intro s t hsame h
  have hstreams : t.streams = s.streams := hsame .streams (by decide)
  unfold FetchNearCurrent
  rw [hstreams]
  exact h

theorem commitWithinLimit_depends : DependsOn [.streams] CommitWithinLimit := by
  intro s t hsame h
  have hstreams : t.streams = s.streams := hsame .streams (by decide)
  unfold CommitWithinLimit
  rw [hstreams]
  exact h

theorem fifosWithinLimit_depends : DependsOn [.streams] FifosWithinLimit := by
  intro s t hsame h
  have hstreams : t.streams = s.streams := hsame .streams (by decide)
  unfold FifosWithinLimit
  rw [hstreams]
  exact h

theorem State.StreamsGo.fetchNearCurrent {s t : State} (h : s.StreamsGo t)
    (hs : FetchNearCurrent s) : FetchNearCurrent t :=
  h.each (P := fun st => st.walker.near) hs (fun _ _ hk => hk.near)
    (fun _ => Stream.near_startTalk) (fun _ _ => Stream.near_startListen) fun _ _ _ _ => id

theorem State.StreamsGo.fifosWithinLimit {s t : State} (h : s.StreamsGo t)
    (hs : FifosWithinLimit s) : FifosWithinLimit t :=
  h.each (P := Stream.Bounded) hs (fun _ _ hk => hk.steady.bounded)
    (fun _ => Stream.bounded_startTalk) (fun _ hl hb => Stream.bounded_startListen hb hl)
    fun _ which w hstopped hb => hb.configure which w hstopped

/-- An invariant of the stream contexts that holds after reset, and passes what a command does to
them, is kept by every step. -/
theorem step_keeps_streams {P : State → Prop} (hP : DependsOn [.streams] P)
    (hreset : ∀ x, P (State.afterReset x)) (hgo : ∀ {s t : State}, s.StreamsGo t → P s → P t)
    {s t : State} (hs : P s) (h : step s = .next t) : P t := by
  refine step_keeps hP (by decide) (fun c u v hu hv => ?_) hs h
  cases hc : c.isReset
  · exact hgo (exec_streamsGo hc hv) hu
  · exact exec_reset_keeps hP (by decide) hreset hc hu hv

/-- Settles O57: a command moves F only with C, or to C + 1 at a fetch ahead. -/
theorem stepKeepsFetchNearCurrent : Obligations.StepKeepsFetchNearCurrent := by
  intro s t hs h
  refine step_keeps_streams fetchNearCurrent_depends (fun x => ?_)
    State.StreamsGo.fetchNearCurrent hs h
  obtain ⟨-, -, -, -, -, -, hnear, -⟩ := invariantsHoldAfterReset x
  exact hnear

/-- Settles O59: START checks the sum of the wanted counts, a read reserves the places it fills. -/
theorem stepKeepsStreamsWithinLimits : Obligations.StepKeepsStreamsWithinLimits := by
  intro s t h
  have hreset (x : Straps) : CommitWithinLimit (State.afterReset x) ∧
      FifosWithinLimit (State.afterReset x) := by
    obtain ⟨-, -, -, -, -, -, -, -, hcommit, hfifos⟩ := invariantsHoldAfterReset x
    exact ⟨hcommit, hfifos⟩
  constructor
  · exact fun hs => step_keeps_streams commitWithinLimit_depends (fun x => (hreset x).1)
      State.StreamsGo.commitWithinLimit hs h
  · exact fun hs => step_keeps_streams fifosWithinLimit_depends (fun x => (hreset x).2)
      State.StreamsGo.fifosWithinLimit hs h

end Sys2Proof.Machine
end

section
/-! A Ready write (O34), and a reply of local memory as a change of one stream context. -/

namespace Sys2Proof.Machine

open Sys2Proof

/-! ### A change of one stream context -/

theorem State.onStream_self (k : StreamNo) (f : Stream → Stream) (s : State) :
    (s.onStream k f).streams[k] = f s.streams[k] := by
  show (s.onStream k f).streams[k.val] = f s.streams[k.val]
  rw [State.onStream_get, if_pos rfl]

/-- A delivery to one stream context: the others and the rest of the state stand. -/
theorem event_onStream {k : StreamNo} {g : State → State} {f : Stream → Stream} {s : State}
    (hr : s.resetAsserted = false) (hg : g s = s.onStream k f) : ∃ t, event g s = .next t
      ∧ s.otherStreamsSame k t ∧ s.changesOnly [.streams] t ∧ t.streams[k] = f s.streams[k] :=
  ⟨s.onStream k f, hg ▸ event_next g hr, State.onStream_others k f s, State.onStream_changes k f s,
    State.onStream_self k f s⟩

/-! ### The engine at "resumed" (R126, R128, R148) -/

/-- Priming after "resumed": Set in DRAINED, by the FIFO in the other states that send, in a Talk
Stream. -/
def Stream.resumedPriming (st : Stream) : Bool :=
  match st.isTalk, st.state with
  | true, .drained => true
  | true, .acquiring | true, .running | true, .paused => st.fifo.isEmpty
  | _, _ => st.priming

theorem Stream.onResumed_eq (st : Stream) : st.onResumed = { st with
    state := if st.state = .drained then .running else st.state
    priming := st.resumedPriming } := by
  obtain ⟨cfg, state⟩ := st
  unfold Stream.onResumed Stream.resumedPriming Stream.primeIfEmpty Stream.isTalk
  cases cfg.direction == .talk <;> cases state <;> rfl

theorem Stream.resumedPriming_listen {st : Stream} (h : st.isTalk = false) :
    st.resumedPriming = st.priming := by
  simp [Stream.resumedPriming, h]

theorem Stream.resumedPriming_drained {st : Stream} (h : st.isTalk = true)
    (hs : st.state = .drained) : st.resumedPriming = true := by
  simp [Stream.resumedPriming, h, hs]

theorem Stream.resumedPriming_sending {st : Stream} (h : st.isTalk = true)
    (hs : st.state = .acquiring ∨ st.state = .running ∨ st.state = .paused) :
    st.resumedPriming = true ↔ st.fifo = [] := by
  rcases hs with hs | hs | hs <;> simp [Stream.resumedPriming, h, hs]

theorem Stream.resumedPriming_ended {st : Stream}
    (hs : st.state = .stopping ∨ st.state = .faulted ∨ st.state = .stopped) :
    st.resumedPriming = st.priming := by
  rcases hs with hs | hs | hs <;> cases h : st.isTalk <;> simp [Stream.resumedPriming, h, hs]

/-! ### The Ready write (R101) -/

theorem Stream.readyWrite_walking (v : RingIdx) {st : Stream} (h : st.walker.caughtUp = false) :
    st.readyWrite v = { st with walker := { st.walker with ready := v } } := by
  simp [Stream.readyWrite, h, Stream.onWalker]

theorem Stream.readyWrite_last {v : RingIdx} {st : Stream} (h : st.walker.caughtUp = true)
    (hv : v = st.walker.cur - 1) : st.readyWrite v = st := by
  simp [Stream.readyWrite, h, hv]

theorem Stream.readyWrite_resumed {v : RingIdx} {st : Stream} (h : st.walker.caughtUp = true)
    (hv : v ≠ st.walker.cur - 1) : st.readyWrite v = { st with
      walker := { st.walker with ready := v, caughtUp := false }
      state := if st.state = .drained then .running else st.state
      priming := st.resumedPriming } := by
  simp only [Stream.readyWrite, h, hv, Bool.not_true, Bool.false_eq_true, if_false,
    Stream.onResumed_eq]
  rfl

/-- Settles O34: off a caught-up ring the write moves L alone, on one it is "resumed" too. -/
theorem readyWriteHandsDescriptors : Obligations.ReadyWriteHandsDescriptors := by
  intro k value s hr
  have hstream : (s.writeReady k value).streams[k] = s.streams[k].readyWrite (value.setWidth 6) :=
    State.onStream_self k _ s
  refine ⟨_, targetWrite_next _ hr, rfl, ?_, ?_, ?_⟩
  · exact State.onStream_others k _ s
  · exact (State.answered_changes (State.onStream_changes k _ s)).mono (by decide)
  · dsimp only
    rw [hstream]
    refine ⟨fun h => Stream.readyWrite_walking _ h, fun h hv => Stream.readyWrite_last h hv,
      fun h hv => ?_⟩
    rw [Stream.readyWrite_resumed h hv]
    exact ⟨rfl, rfl, rfl, Stream.resumedPriming_listen, Stream.resumedPriming_drained,
      Stream.resumedPriming_sending, Stream.resumedPriming_ended⟩

end Sys2Proof.Machine
end

section
/-! The replies of local memory: a descriptor fetched (O36), words read (O37), a record written
(O39). -/

namespace Sys2Proof.Machine

open Sys2Proof

/-! ### A reply and the stop -/

/-- The access in flight ends (R105). -/
abbrev Walker.ended (w : Walker) : Walker := { w with access := none }

theorem Descriptor.len_eq_zero {d : Descriptor} : d.len = 0 ↔ d.length = 0 := by
  rw [Descriptor.len, ← BitVec.toNat_inj]
  rfl

/-- With nothing prefetched a completion is one completion (R106). -/
theorem Stream.completedTable_once (c : Word) (r : RecordStatus) (n : Nat) {st : Stream}
    (h : st.walker.prefetched = none) : st.completedTable c r n = st.completedOnce c r n := by
  rw [← Stream.complete_table, ← Stream.completeOnce_table,
    Stream.complete_once c r n st (fun d hd => by rw [h] at hd; cases hd)]

/-! ### A descriptor fetched (R106, R115, R116) -/

section
variable {st : Stream} {a : Access} (ha : st.walker.access = some a) (hk : a.kind = .fetch)
include ha hk

theorem Stream.fetchReply_discarded (c : Word) (d : Descriptor) (hd : a.discard = true) :
    st.fetchReply c d = ({ st with walker := st.walker.ended } : Stream).settle := by
  simp [Stream.fetchReply, Stream.inFlight_some st _ a ha hk, hd, Stream.endAccess, Stream.onWalker]

theorem Stream.fetchReply_ahead (c : Word) (d : Descriptor) (hd : a.discard = false)
    (hi : a.index ≠ st.walker.cur) : st.fetchReply c d =
      ({ st with walker := { st.walker with
        access := none, prefetched := some d } } : Stream).settle := by
  simp [Stream.fetchReply, Stream.inFlight_some st _ a ha hk, hd, hi, Stream.endAccess,
    Stream.onWalker]

/-- The descriptor of C comes in hand, unless it completes at once. -/
theorem Stream.fetchReply_current (c : Word) (d : Descriptor) (hd : a.discard = false)
    (hi : a.index = st.walker.cur) (hstays : d.len ≠ 0 ∨ st.walker.mode = .stopping) :
    st.fetchReply c d = ({ st with walker := { st.walker with
      access := none, inHand := some d, remaining := d.len } } : Stream).settle := by
  have hno : ¬ (d.len = 0 ∧ st.walker.mode ≠ .stopping) := by tauto
  simp only [Stream.fetchReply, Stream.inFlight_some st _ a ha hk, hd, hi, Stream.endAccess,
    Stream.onWalker, hno, Bool.false_eq_true, if_false, if_true]

theorem Stream.fetchReply_empty (c : Word) (d : Descriptor) (hd : a.discard = false)
    (hi : a.index = st.walker.cur) (h₀ : d.len = 0) (hm : st.walker.mode ≠ .stopping) :
    st.fetchReply c d = ({ st with walker := { st.walker with
      access := none, inHand := some d, remaining := 0 } } : Stream).completedTable c .empty 0 := by
  simp only [Stream.fetchReply, Stream.inFlight_some st _ a ha hk, hd, hi, Stream.endAccess,
    Stream.onWalker, h₀, hm, ne_eq, not_false_eq_true, and_self, Bool.false_eq_true, if_false,
    if_true]
  rw [Stream.settle_idle, Stream.complete_table]
  simpa using hm

end

/-- Settles O36: the reply by its discard mark, its index and its length. -/
theorem fetchReplyBringsDescriptor : Obligations.FetchReplyBringsDescriptor := by
  intro k w₀ w₄ a s hr ha hk
  obtain ⟨t, ht, hothers, hframe, hnew⟩ := event_onStream (k := k) hr rfl
    (f := Stream.fetchReply s.mku.count (Descriptor.ofWords w₀ w₄))
  refine ⟨t, ht, hothers, hframe, ?_⟩
  generalize s.streams[k] = old at ha hnew ⊢
  dsimp only
  rw [hnew]
  refine ⟨fun hm hx => ?_, fun hm hx hi => ?_, fun hm hx => ?_, fun hm hx hi => ?_,
    fun hm hx hi hl => ?_, fun hm hx hi hl => ?_⟩
  · rw [Stream.fetchReply_discarded ha hk _ _ hx, Stream.settle_table]
    exact hm
  · rw [Stream.fetchReply_current ha hk _ _ hx hi (.inr hm), Stream.settle_table]
    · rfl
    · exact hm
  · rw [Stream.fetchReply_discarded ha hk _ _ hx, Stream.settle_idle]
    exact hm
  · rw [Stream.fetchReply_ahead ha hk _ _ hx hi, Stream.settle_idle]
    · rfl
    · exact hm
  · rw [Stream.fetchReply_current ha hk _ _ hx hi (.inl (mt Descriptor.len_eq_zero.mp hl)),
      Stream.settle_idle]
    · rfl
    · exact hm
  · rw [Stream.fetchReply_empty ha hk _ _ hx hi (Descriptor.len_eq_zero.mpr hl) hm]
    refine ⟨rfl, fun hp => ?_⟩
    rw [Stream.completedTable_once]
    · simp [Stream.completedOnce, hp, Descriptor.ofWords]
    · exact hp

/-! ### Words read (R107, R126) -/

/-- The FIFO entries that a read brings: the first word of a BOUNDARY buffer is marked, where
`before` words of it were read already (R107). -/
def readEntries (i : RingIdx) (before : Nat) (d : Option Descriptor) (words : List Word) :
    List FifoEntry :=
  talkEntries i (before == 0 && (d.map Descriptor.boundary).getD false) words

theorem readEntries_head {i : RingIdx} {before : Nat} {d : Option Descriptor} {words : List Word}
    {e : FifoEntry} (h : (readEntries i before d words).head? = some e) :
    e.boundary = true ↔ before = 0 ∧ ∃ x, d = some x ∧ x.boundary = true := by
  cases words with
  | nil => cases h
  | cons w ws =>
    cases h
    cases d <;> simp

section
variable {st : Stream} {a : Access} {words : List Word} (ha : st.walker.access = some a)
  (hk : a.kind = .read) (hn : words.length = a.count)
include ha hk hn

theorem Stream.readReply_discarded (hd : a.discard = true) :
    st.readReply words = ({ st with walker := st.walker.ended } : Stream).settle := by
  simp [Stream.readReply, Stream.inFlight_some st _ a ha hk, hn, hd, Stream.endAccess,
    Stream.onWalker]

theorem Stream.readReply_current (hd : a.discard = false) (hi : a.index = st.walker.cur)
    (hm : st.walker.mode ≠ .stopping) : st.readReply words = { st with
      fifo := st.fifo ++ readEntries a.index st.walker.moved st.walker.inHand words
      priming := st.priming && words.isEmpty
      walker := { st.walker with access := none, moved := st.walker.moved + a.count } } := by
  simp only [Stream.readReply, Stream.inFlight_some st _ a ha hk, hn, hd, hi, Stream.endAccess,
    Stream.onWalker, ne_eq, not_true_eq_false, Bool.false_eq_true, if_false, if_true]
  exact Stream.settle_idle _ hm

theorem Stream.readReply_ahead (hd : a.discard = false) (hi : a.index ≠ st.walker.cur)
    (hm : st.walker.mode ≠ .stopping) : st.readReply words = { st with
      fifo := st.fifo ++ readEntries a.index st.walker.ahead st.walker.prefetched words
      priming := st.priming && words.isEmpty
      walker := { st.walker with access := none, ahead := st.walker.ahead + a.count } } := by
  simp only [Stream.readReply, Stream.inFlight_some st _ a ha hk, hn, hd, hi, Stream.endAccess,
    Stream.onWalker, ne_eq, not_true_eq_false, Bool.false_eq_true, if_false]
  exact Stream.settle_idle _ hm

end

/-- What the FIFO is with the words of a read at its end. -/
theorem readEntries_append (f : List FifoEntry) (i : RingIdx) (before : Nat) (d : Option Descriptor)
    (words : List Word) :
    (f ++ readEntries i before d words).map FifoEntry.word = f.map FifoEntry.word ++ words
    ∧ (f ++ readEntries i before d words).take f.length = f
    ∧ (∀ e ∈ (f ++ readEntries i before d words).drop f.length, e.index = i)
    ∧ (∀ e ∈ (f ++ readEntries i before d words).drop (f.length + 1), e.boundary = false) := by
  refine ⟨?_, List.take_left, ?_, ?_⟩
  · rw [List.map_append, readEntries, talkEntries_words]
  · rw [List.drop_left]
    exact talkEntries_index _ _ _
  · rw [List.drop_length_add_append]
    exact talkEntries_rest _ _ _

/-- Settles O37: the words of C and of F enter alike, with the count that the read moves. -/
theorem readReplyFillsFifo : Obligations.ReadReplyFillsFifo := by
  intro k words a s hr ha hk hn
  obtain ⟨t, ht, hothers, hframe, hnew⟩ := event_onStream (k := k) hr rfl
    (f := Stream.readReply words)
  refine ⟨t, ht, hothers, hframe, ?_⟩
  generalize s.streams[k] = old at ha hnew ⊢
  dsimp only
  rw [hnew]
  refine ⟨fun hd hm => ?_, fun hd hm => ?_, fun hd hm => ?_⟩
  · rw [Stream.readReply_discarded ha hk hn hd, Stream.settle_table]
    exact hm
  · rw [Stream.readReply_discarded ha hk hn hd, Stream.settle_idle]
    exact hm
  · have hpriming (hw : words ≠ []) : (old.priming && words.isEmpty) = false := by simp [hw]
    by_cases hi : a.index = old.walker.cur
    · rw [Stream.readReply_current ha hk hn hd hi hm]
      obtain ⟨hwords, htake, hindex, hrest⟩ :=
        readEntries_append old.fifo a.index old.walker.moved old.walker.inHand words
      refine ⟨hwords, htake, hindex, hrest, hpriming, fun _ => ⟨rfl, fun e he => ?_⟩,
        fun h => absurd hi h⟩
      rw [List.drop_left] at he
      exact readEntries_head he
    · rw [Stream.readReply_ahead ha hk hn hd hi hm]
      obtain ⟨hwords, htake, hindex, hrest⟩ :=
        readEntries_append old.fifo a.index old.walker.ahead old.walker.prefetched words
      refine ⟨hwords, htake, hindex, hrest, hpriming, fun h => absurd h hi,
        fun _ => ⟨rfl, fun e he => ?_⟩⟩
      rw [List.drop_left] at he
      exact readEntries_head he

/-! ### A record written (R112, R115, R116, R133, R151) -/

/-- The events that a record raises (R111, R112). -/
def Record.raised (r : Record) (flags : BitVec 8) : BitVec 8 :=
  flags ||| (if r.notify then 0x01#8 else 0) ||| (if r.ringEnd then 0x02#8 else 0)

/-- The stream with its oldest record written. -/
def Stream.recordDone (r : Record) (rs : List Record) (st : Stream) : Stream :=
  { st with flags := r.raised st.flags, walker := { st.walker with access := none, records := rs } }

theorem Stream.recordAck_eq {st : Stream} {a : Access} {r : Record} {rs : List Record}
    (ha : st.walker.access = some a) (hk : a.kind = .record) (hrs : st.walker.records = r :: rs) :
    st.recordAck = (st.recordDone r rs).settle := by
  simp only [Stream.recordAck, Stream.inFlight_some st _ a ha hk, hrs]
  congr 1
  cases hnotify : r.notify <;> cases hend : r.ringEnd <;>
    simp [Stream.recordDone, Record.raised, hnotify, hend, Stream.raise, Stream.onWalker] <;> rfl

/-- What the end of a stop is at the engine of a STOPPING stream (R133, R151). -/
theorem Stream.stopDoneTable_talk {st : Stream} (ht : st.isTalk = true)
    (hs : st.state = .stopping) :
    st.stopDoneTable = if st.entriesGone then
        { st with walkerQuiet := true, state := .stopped, flags := st.flags ||| 0x80#8 }
      else { st with walkerQuiet := true } := by
  simp only [Stream.stopDoneTable, ht, hs]

theorem Stream.stopDoneTable_listen {st : Stream} (ht : st.isTalk = false)
    (hs : st.state = .stopping) :
    st.stopDoneTable = { st with state := .stopped, flags := st.flags ||| 0x80#8 } := by
  simp only [Stream.stopDoneTable, ht, hs]

theorem Stream.discardTable_some {st : Stream} (h : st.fifo ≠ []) : st.discardTable = { st with
    fifo := []
    overruns := satAdd st.overruns st.fifo.length
    flags := st.flags ||| 0x04#8 } := if_neg h

/-- The entries left in a FIFO are gone, and counted where there are any (R151). -/
theorem Stream.discardTable_counts (st : Stream) : st.discardTable.fifo = []
    ∧ st.discardTable.overruns.toNat = min 65535 (st.overruns.toNat + st.fifo.length)
    ∧ st.discardTable.flags = st.flags ||| (if st.fifo = [] then 0 else 0x04#8) := by
  by_cases hf : st.fifo = []
  · have hbound : st.overruns.toNat ≤ 65535 := Nat.le_of_lt_succ st.overruns.isLt
    have hsame : st.discardTable = st := if_pos hf
    simp [hsame, hf, hbound]
  · rw [Stream.discardTable_some hf, if_neg hf]
    exact ⟨rfl, satAdd_toNat _ _, rfl⟩

/-- The last record of a stop has been written, and no abort record is to follow. -/
structure Stream.StopOver (st : Stream) : Prop where
  state : st.state = .stopping
  access : st.walker.access = none
  records : st.walker.records = []
  settled : st.walker.stopCaughtUp = true ∨ st.walker.abortBuilt = true

/-- The walker after a stop (R115, R116). -/
abbrev Walker.stopped (w : Walker) : Walker :=
  { w with mode := .off, stopCaughtUp := false, abortBuilt := false }

theorem Stream.StopOver.ends {st : Stream} (h : st.StopOver) : st.stopTable =
    ({ (if st.isTalk then st else st.discardTable) with walker := st.walker.stopped } :
      Stream).stopDoneTable := by
  have hidle : ¬ (st.walker.access ≠ none ∨ st.walker.records ≠ []) := by simp [h.access, h.records]
  unfold Stream.stopTable
  dsimp only
  rw [if_neg hidle, if_pos h.settled]

/-- The end of a stop of a Talk Stream (R133). -/
theorem Stream.StopOver.talk {st : Stream} (h : st.StopOver) (ht : st.isTalk = true) :
    st.stopTable.walker = st.walker.stopped ∧ st.stopTable.walkerQuiet = true
    ∧ (st.entriesGone = true →
      st.stopTable.state = .stopped ∧ st.stopTable.flags = st.flags ||| 0x80#8)
    ∧ (st.entriesGone = false →
      st.stopTable.state = .stopping ∧ st.stopTable.flags = st.flags) := by
  rw [h.ends, if_pos ht,
    Stream.stopDoneTable_talk (st := { st with walker := st.walker.stopped }) ht h.state]
  cases hg : st.entriesGone <;> simp [h.state]

/-- The end of a stop of a Listen Stream: what is left in its FIFO is lost (R151). -/
theorem Stream.StopOver.listen {st : Stream} (h : st.StopOver) (ht : st.isTalk = false) :
    st.stopTable.walker = st.walker.stopped ∧ st.stopTable.state = .stopped ∧ st.stopTable.fifo = []
    ∧ st.stopTable.overruns.toNat = min 65535 (st.overruns.toNat + st.fifo.length)
    ∧ st.stopTable.flags = st.flags ||| 0x80#8 ||| (if st.fifo = [] then 0 else 0x04#8) := by
  have hkeeps : st.discardTable.isTalk = false ∧ st.discardTable.state = .stopping := by
    rw [← Stream.discardEntries_table]
    exact ⟨(Stream.isTalk_congr (by simp)).trans ht, by simp [h.state]⟩
  obtain ⟨hfifo, hoverruns, hflags⟩ := st.discardTable_counts
  rw [h.ends, if_neg (by simp [ht]), Stream.stopDoneTable_listen
    (st := { st.discardTable with walker := st.walker.stopped }) hkeeps.1 hkeeps.2]
  refine ⟨rfl, rfl, hfifo, hoverruns, ?_⟩
  dsimp only
  rw [hflags, BitVec.or_assoc, BitVec.or_assoc, BitVec.or_comm _ 0x80#8]

/-- A stop between two accesses keeps the records owed. -/
theorem Stream.settle_owed (st : Stream) : st.settle.walker.records = st.walker.records ∧
    st.settle.walker.access = st.walker.access := by
  unfold Stream.settle
  dsimp only
  split
  · split
    · split <;> simp [Stream.onWalker]
    · split <;> simp
  · exact ⟨rfl, rfl⟩

/-- Settles O39: the record is gone with its events raised, and the stop that waited for it ends. -/
theorem recordAckRaisesEvents : Obligations.RecordAckRaisesEvents := by
  intro k a r rs s hr ha hk hrs
  obtain ⟨t, ht, hothers, hframe, hnew⟩ := event_onStream (k := k) hr rfl (f := Stream.recordAck)
  refine ⟨t, ht, hothers, hframe, ?_⟩
  generalize s.streams[k] = old at ha hrs hnew ⊢
  dsimp only
  rw [hnew, Stream.recordAck_eq ha hk hrs]
  obtain ⟨hrecords, haccess⟩ := (old.recordDone r rs).settle_owed
  refine ⟨hrecords, haccess, fun hm => Stream.settle_idle (old.recordDone r rs) hm,
    fun hm => Stream.settle_table (old.recordDone r rs) hm, fun hm hempty hsettled hstate => ?_⟩
  have hend : (old.recordDone r rs).StopOver := ⟨hstate, rfl, hempty, hsettled⟩
  rw [Stream.settle_table (old.recordDone r rs) hm]
  refine ⟨?_, fun htalk => ?_, fun hlisten => ?_⟩
  · cases htalk : old.isTalk with
    | true => rw [(hend.talk htalk).1]
    | false => rw [(hend.listen htalk).1]
  · exact (hend.talk htalk).2
  · exact (hend.listen hlisten).2

end Sys2Proof.Machine
end

section
/-! The initiator's grant (O35), and a buffer write acknowledged (O38). -/

namespace Sys2Proof.Machine

open Sys2Proof

/-! ### The grant (R104, R105) -/

/-- A stream waits for the initiator. -/
def State.waits (s : State) (k : StreamNo) : Bool := s.streams[k].choose.isSome

theorem State.waits_iff (s : State) (k : StreamNo) :
    s.waits k = true ↔ s.streams[k].accessTable ≠ none := Stream.choose_isSome _

theorem State.granted_eq (s : State) : s.granted = (grantOrder s.nextGrant).find? s.waits := rfl

theorem State.granted_none {s : State} (h : ∀ k : StreamNo, s.streams[k].accessTable = none) :
    s.granted = none := by
  rw [State.granted_eq, List.find?_eq_none]
  exact fun k _ hk => (s.waits_iff k).mp hk (h k)

/-- The stream that waits with none before it in turn is granted. -/
theorem State.granted_first {k : StreamNo} {s : State} (hk : s.streams[k].accessTable ≠ none)
    (hfirst : ∀ j : StreamNo, (j - s.nextGrant).val < (k - s.nextGrant).val →
      s.streams[j].accessTable = none) : s.granted = some k := by
  have hturn : (List.finRange 8).find? (s.waits ∘ fun i => s.nextGrant + i) =
      some (k - s.nextGrant) := by
    rw [← Fin.find?_eq_find?_finRange, Fin.find?_eq_some_iff]
    refine ⟨?_, fun j hj => ?_⟩
    · rw [Function.comp_apply, add_sub_cancel]
      exact (s.waits_iff k).mpr hk
    · rw [Function.comp_apply, Bool.eq_false_iff]
      exact fun h => (s.waits_iff _).mp h (hfirst _ (by rwa [add_sub_cancel_left]))
  rw [State.granted_eq, grantOrder, List.find?_map, hturn, Option.map_some, add_sub_cancel]

theorem State.accessIssue_idle {s : State} (h : s.granted = none) : s.accessIssue = s := by
  rw [State.accessIssue, h]

/-- The granted stream presents its choice, and the grant moves on (R105). -/
theorem State.accessIssue_granted {k : StreamNo} {c : Choice} {s : State} (h : s.granted = some k)
    (hc : s.streams[k].choose = some c) : s.accessIssue.nextGrant = k + 1 ∧ s.accessIssue.streams =
      (s.onStream k (Stream.present (Config.unfetchedNotify s.freeDraws) c)).streams := by
  unfold State.accessIssue
  rw [h]
  dsimp only
  rw [hc]
  exact ⟨rfl, rfl⟩

/-- Settles O35: the search of the grant, and the tables of the choice and the presentation. -/
theorem grantsGoRoundRobin : Obligations.GrantsGoRoundRobin := by
  intro s hr
  have hexec : exec .accessIssue s = .next s.accessIssue := event_next _ hr
  refine ⟨fun hnone => ?_, fun k a ha hfirst => ?_⟩
  · rw [hexec, State.accessIssue_idle (State.granted_none hnone)]
  · have hwaits : s.streams[k].accessTable ≠ none := by rw [ha]; simp
    obtain ⟨c, hc⟩ := Option.isSome_iff_exists.mp ((Stream.choose_isSome _).mpr hwaits)
    obtain ⟨hnext, hstreams⟩ :=
      State.accessIssue_granted (State.granted_first hwaits hfirst) hc
    have hpresent : s.streams[k].present (Config.unfetchedNotify s.freeDraws) c =
        s.streams[k].presentedTable (Config.unfetchedNotify s.freeDraws) a := by
      have hagree := Stream.choose_table s.streams[k] (Config.unfetchedNotify s.freeDraws)
      rwa [hc, ha] at hagree
    refine ⟨s.accessIssue, Config.unfetchedNotify s.freeDraws, hexec, hnext, ?_, fun j hj => ?_,
      s.accessIssue_changes⟩
    · rw [hstreams, State.onStream_self, hpresent]
    · rw [hstreams]
      exact State.onStream_others k _ s j hj

/-! ### A buffer write (R99, R102, R109, R110) -/

/-- A stream that has read no words ahead has placed none in its next buffer (R102). -/
theorem Stream.completedOnce_moved (c : Word) (r : RecordStatus) (n : Nat) {st : Stream}
    (h : st.walker.ahead = 0) : (st.completedOnce c r n).walker.moved = 0 ∧
      (st.completedOnce c r n).walker.ahead = 0 := by
  refine ⟨?_, rfl⟩
  simp only [Stream.completedOnce, h, ite_self]

theorem Stream.complete_moved (c : Word) (r : RecordStatus) (n : Nat) {st : Stream}
    (h : st.walker.ahead = 0) : (st.complete c r n).walker.moved = 0 := by
  obtain ⟨hmoved, hahead⟩ := Stream.completedOnce_moved c r n h
  rw [Stream.complete_table]
  unfold Stream.completedTable
  dsimp only
  split
  · exact (Stream.completedOnce_moved c .empty 0 hahead).1
  · exact hmoved

/-- No cut of a buffer without a word, or during a stop (R110). -/
theorem Stream.cutCheck_uncut (c : Word) {st : Stream}
    (h : st.walker.moved = 0 ∨ st.walker.mode = .stopping) : st.cutCheck c = st := by
  rcases h with h | h <;> simp [Stream.cutCheck, h]

/-- The stream after the words of a write are counted (R109). -/
def Stream.written (a : Access) (st : Stream) : Stream :=
  { st with walker := { st.walker with
    access := none, done := st.walker.done + a.count
    firstStamp := some (st.walker.firstStamp.getD a.stamp) } }

/-- A marked entry at the head cuts the buffer of a Listen Stream (R110). -/
theorem Stream.cutCheck_cuts (c : Word) {st : Stream} (ht : st.isTalk = false)
    (h : st.cuts st.fifo) :
    st.cutCheck c = st.completedTable c .cut st.walker.done := by
  obtain ⟨hm, hmoved, hwrite, e, he, hb⟩ := h
  have haccess : (st.walker.access.all fun a => a.kind != .write) = true := by
    cases hx : st.walker.access with
    | none => rfl
    | some a => simpa using hwrite a hx
  simp [Stream.cutCheck, ht, hm, hmoved, haccess, he, hb, Stream.complete_table]

theorem Stream.cutCheck_not_cuts (c : Word) {st : Stream} (h : ¬ st.cuts st.fifo) :
    st.cutCheck c = st := by
  unfold Stream.cutCheck
  refine if_neg fun hcut => h ?_
  obtain ⟨-, hm, hmoved, haccess, hhead⟩ := hcut
  refine ⟨hm, hmoved, fun a hx => ?_, ?_⟩
  · simpa [hx] using haccess
  · simpa [Option.any_eq_true] using hhead

/-- A marked entry stands at the FIFO's head, and the buffer holds a word (R110). -/
abbrev Stream.marked (st : Stream) : Prop :=
  st.walker.moved ≠ 0 ∧ ∃ e, st.fifo.head? = some e ∧ e.boundary = true

/-- With no access in flight that is all a cut needs, outside a stop. -/
theorem Stream.cuts_iff_marked {st : Stream} (hm : st.walker.mode ≠ .stopping)
    (hx : st.walker.access = none) : st.cuts st.fifo ↔ st.marked := by
  constructor
  · rintro ⟨-, hmoved, -, hhead⟩
    exact ⟨hmoved, hhead⟩
  · rintro ⟨hmoved, hhead⟩
    exact ⟨hm, hmoved, fun a h => absurd (hx.symm.trans h) (by simp), hhead⟩

theorem Stream.completedTable_mode (c : Word) (r : RecordStatus) (n : Nat) (st : Stream) :
    (st.completedTable c r n).walker.mode = st.walker.mode := by
  rw [← Stream.complete_table]
  exact (st.complete_mode c r n).1

/-- A completion leaves the FIFO of a Listen Stream, and presents no access. -/
theorem Stream.completedTable_listen (c : Word) (r : RecordStatus) (n : Nat) {st : Stream}
    (ht : st.isTalk = false) (hx : st.walker.access = none) :
    (st.completedTable c r n).fifo = st.fifo ∧ (st.completedTable c r n).walker.access = none := by
  rw [← Stream.complete_table]
  exact ⟨Stream.complete_listen c r n st ht, Stream.complete_access c r n st hx⟩

section
variable {st : Stream} {a : Access} {d : Descriptor} (ha : st.walker.access = some a)
  (hk : a.kind = .write) (hd : st.walker.inHand = some d) (c : Word)
include ha hk hd

theorem Stream.writeAck_eq : st.writeAck c =
    ((if d.length.toNat ≤ st.walker.done + a.count ∧ st.walker.mode ≠ .stopping then
      (st.written a).complete c .done (st.walker.done + a.count)
    else st.written a).cutCheck c).settle := by
  have hfull :
      ((st.written a).walker.inHand.any fun x => x.len ≤ (st.written a).walker.done) = true ↔ d.length.toNat ≤ st.walker.done + a.count := by
    show (st.walker.inHand.any fun x => x.len ≤ st.walker.done + a.count) = true ↔ _
    rw [hd, Option.any_some, decide_eq_true_eq]
    rfl
  unfold Stream.writeAck
  rw [Stream.inFlight_some st _ a ha hk]
  show ((if ((st.written a).walker.inHand.any fun x => x.len ≤ (st.written a).walker.done) = true
      ∧ st.walker.mode ≠ .stopping then (st.written a).complete c .done (st.walker.done + a.count)
    else st.written a).cutCheck c).settle = _
  simp only [hfull]

/-- The buffer is not full, or a stop keeps it from completing. -/
theorem Stream.writeAck_open
    (h : st.walker.done + a.count < d.length.toNat ∨ st.walker.mode = .stopping) :
    st.writeAck c = ((st.written a).cutCheck c).settle := by
  rw [Stream.writeAck_eq ha hk hd, if_neg]
  rintro ⟨hfull, hm⟩
  exact h.elim (Nat.not_lt.mpr hfull) hm

/-- A full buffer completes with DONE, and the next one holds no word to be cut. -/
theorem Stream.writeAck_full (hahead : st.walker.ahead = 0)
    (hfull : d.length.toNat ≤ st.walker.done + a.count) (hm : st.walker.mode ≠ .stopping) :
    st.writeAck c = (st.written a).completedTable c .done (st.walker.done + a.count) := by
  have hmoved :=
    Stream.complete_moved c .done (st.walker.done + a.count) (st := st.written a) hahead
  rw [Stream.writeAck_eq ha hk hd, if_pos ⟨hfull, hm⟩, Stream.cutCheck_uncut c (.inl hmoved),
    Stream.complete_table, Stream.settle_idle]
  rw [Stream.completedTable_mode]
  exact hm

theorem Stream.writeAck_cut (ht : st.isTalk = false)
    (hopen : st.walker.done + a.count < d.length.toNat) (hm : st.walker.mode ≠ .stopping) (h : st.marked) :
    st.writeAck c = (st.written a).completedTable c .cut (st.walker.done + a.count) := by
  rw [Stream.writeAck_open ha hk hd c (.inl hopen),
    Stream.cutCheck_cuts (st := st.written a) c ht
      ((Stream.cuts_iff_marked (st := st.written a) hm rfl).mpr h), Stream.settle_idle]
  · rfl
  · rw [Stream.completedTable_mode]
    exact hm

theorem Stream.writeAck_counted (hopen : st.walker.done + a.count < d.length.toNat)
    (hm : st.walker.mode ≠ .stopping) (h : ¬ st.marked) : st.writeAck c = st.written a := by
  rw [Stream.writeAck_open ha hk hd c (.inl hopen), Stream.cutCheck_not_cuts (st := st.written a) c
    (mt (Stream.cuts_iff_marked (st := st.written a) hm rfl).mp h)]
  exact Stream.settle_idle (st.written a) hm

/-- A stop goes on with what was written (R115). -/
theorem Stream.writeAck_stopping (hm : st.walker.mode = .stopping) :
    st.writeAck c = (st.written a).stopTable := by
  rw [Stream.writeAck_open ha hk hd c (.inr hm),
    Stream.cutCheck_uncut (st := st.written a) c (.inr hm)]
  exact Stream.settle_table (st.written a) hm

/-- A write leaves the rest of the FIFO, and no access in flight. -/
theorem Stream.writeAck_leaves (ht : st.isTalk = false) (hahead : st.walker.ahead = 0)
    (hm : st.walker.mode ≠ .stopping) :
    (st.writeAck c).fifo = st.fifo ∧ (st.writeAck c).walker.access = none := by
  have hcompleted (r : RecordStatus) :=
    Stream.completedTable_listen c r (st.walker.done + a.count) (st := st.written a) ht rfl
  by_cases hfull : d.length.toNat ≤ st.walker.done + a.count
  · rw [Stream.writeAck_full ha hk hd c hahead hfull hm]
    exact hcompleted .done
  have hopen := Nat.lt_of_not_le hfull
  by_cases h : st.marked
  · rw [Stream.writeAck_cut ha hk hd c ht hopen hm h]
    exact hcompleted .cut
  · rw [Stream.writeAck_counted ha hk hd c hopen hm h]
    exact ⟨rfl, rfl⟩

end

/-- Settles O38: the count of written words against the length, then the mark at the head. -/
theorem writeAckCountsWords : Obligations.WriteAckCountsWords := by
  intro k a d s hr ha hk htalk hd hahead
  obtain ⟨t, ht, hothers, hframe, hnew⟩ := event_onStream (k := k) hr rfl
    (f := Stream.writeAck s.mku.count)
  refine ⟨t, ht, hothers, hframe, ?_⟩
  generalize s.streams[k] = old at ha htalk hd hahead hnew ⊢
  generalize s.mku.count = c at hnew ⊢
  dsimp only
  rw [hnew]
  refine ⟨fun hm => ?_, Stream.writeAck_stopping ha hk hd c⟩
  obtain ⟨hfifo, haccess⟩ := Stream.writeAck_leaves ha hk hd c htalk hahead hm
  exact ⟨hfifo, haccess, fun hfull => Stream.writeAck_full ha hk hd c hahead hfull hm,
    fun hopen => Stream.writeAck_cut ha hk hd c htalk hopen hm,
    fun hopen => Stream.writeAck_counted ha hk hd c hopen hm⟩

end Sys2Proof.Machine
end

section
/-! A Listen Stream and a clean cell (O24): the sources, the word taken or lost, and the cut. -/

namespace Sys2Proof.Machine

open Sys2Proof

/-! ### The round sources (R144) -/

theorem Stream.raise_flag (e : StreamEvent) (n : Nat) (hn : n < 8) (st : Stream) :
    (st.raise e).flags.getLsbD n = (st.flags.getLsbD n || decide (n = e.bit)) := by
  have hbit : (1#8 <<< e.bit).getLsbD n = decide (n = e.bit) := by
    simp only [BitVec.getLsbD_shiftLeft, BitVec.getLsbD_one, hn, decide_true, Bool.true_and]
    rw [Bool.eq_iff_iff]
    simp
    omega
  rw [← hbit]
  exact BitVec.getLsbD_or

section
variable {st : Stream} {g : Tag} {x : StationNo}

theorem Stream.checkSource_first (h : ∀ p ∈ st.sources, p.1 ≠ g) :
    st.checkSource g x = { st with sources := st.sources ++ [(g, x)] } := by
  have hnone : st.sources.find? (fun p => p.1 == g) = none := by
    rw [List.find?_eq_none]
    simpa using h
  simp [Stream.checkSource, hnone]

theorem Stream.checkSource_known
    (h : st.sources.find? (fun p => p.1 == g) = some (g, x)) : st.checkSource g x = st := by
  simp [Stream.checkSource, h]

/-- A second sender raises MULTI_SOURCE, once in a Round. -/
theorem Stream.checkSource_second {y : StationNo}
    (h : st.sources.find? (fun p => p.1 == g) = some (g, y)) (hy : y ≠ x) :
    (st.checkSource g x).sources = st.sources ∧ (st.checkSource g x).multiRaised = true ∧
      (st.checkSource g x).flags.getLsbD 5 = (st.flags.getLsbD 5 || !st.multiRaised) := by
  cases hm : st.multiRaised with
  | true => simp [Stream.checkSource, h, hm]
  | false =>
    have hraised : st.checkSource g x =
        ({ st with multiRaised := true } : Stream).raise .multiSource := by
      simp [Stream.checkSource, h, hm, hy]
    rw [hraised, Stream.raise_flag _ _ (by decide)]
    simp [StreamEvent.bit]

end

/-! ### The word (R143) -/

section
variable {st : Stream} (c : Word) (b : Bool) (w : Word)

theorem Stream.takeWord_room (h : st.fifo.length < 16) : st.takeWord c b w = { st with
    fifo := st.fifo ++ [⟨w, b && st.cfg.align, 0, c.setWidth 16⟩]
    lastWord := some w, words := satAdd st.words 1 } := by
  simp [Stream.takeWord, Stream.pushEntry, Config.fifoDepth, h]

theorem Stream.takeWord_full (h : 16 ≤ st.fifo.length) : st.takeWord c b w =
    ({ st with overruns := satAdd st.overruns 1 } : Stream).raise .underOverrun := by
  simp [Stream.takeWord, Stream.pushEntry, Config.fifoDepth, Nat.not_lt.mpr h]

/-- A word taken or lost leaves MULTI_SOURCE alone. -/
theorem Stream.takeWord_multiSource : (st.takeWord c b w).flags.getLsbD 5 = st.flags.getLsbD 5 := by
  by_cases h : st.fifo.length < 16
  · rw [Stream.takeWord_room c b w h]
  · rw [Stream.takeWord_full c b w (Nat.le_of_not_lt h), Stream.raise_flag _ _ (by decide)]
    simp [StreamEvent.bit]

end

/-- What a passing cell leaves of the FIFO: DATA is taken or lost. -/
def Stream.takeCell (c : Word) (d : DataKind) (st : Stream) : Stream :=
  match d with
  | .data b w => st.takeWord c b w
  | .fill | .keep => st

theorem Stream.takeCell_keeps (c : Word) (d : DataKind) (st : Stream) :
    (st.takeCell c d).cfg = st.cfg ∧ (st.takeCell c d).state = st.state ∧
    (st.takeCell c d).walker = st.walker ∧ (st.takeCell c d).expect = st.expect ∧
    (st.takeCell c d).sources = st.sources ∧ (st.takeCell c d).multiRaised = st.multiRaised ∧
    (st.takeCell c d).flags.getLsbD 5 = st.flags.getLsbD 5 := by
  cases d with
  | data b w =>
    refine ⟨?_, ?_, ?_, ?_, ?_, ?_, Stream.takeWord_multiSource c b w⟩ <;> simp [Stream.takeCell]
  | fill | keep => exact ⟨rfl, rfl, rfl, rfl, rfl, rfl, rfl⟩

/-! ### The slot that was expected, and the cut (R110, R146) -/

/-- A report that is no gap consumes the expectation alone. -/
theorem Stream.judgeSlot_heard (c : Word) (l : Bool) {st : Stream}
    (h : l = false ∨ st.expect = false) : st.judgeSlot c l = { st with expect := false } := by
  rcases h with h | h <;> simp [Stream.judgeSlot, h]

/-- A gap leaves MULTI_SOURCE alone. -/
theorem Stream.judgeSlot_multiSource (c : Word) (l : Bool) (st : Stream) :
    (st.judgeSlot c l).flags.getLsbD 5 = st.flags.getLsbD 5 := by
  have hpush (w : Word) (p : Stamp) (u : Stream) :
      (u.pushEntry w false p).2.flags.getLsbD 5 = u.flags.getLsbD 5 := by
    unfold Stream.pushEntry
    split
    · rfl
    · rw [Stream.raise_flag _ _ (by decide)]
      simp [StreamEvent.bit]
  have hgap (u : Stream) : (u.gap c).flags.getLsbD 5 = u.flags.getLsbD 5 := by
    unfold Stream.gap
    dsimp only
    split
    · exact hpush _ _ _
    · exact hpush _ _ _
    · rfl
  unfold Stream.judgeSlot
  dsimp only
  split
  · exact hgap _
  · rfl

theorem Stream.cutCheck_listen (c : Word) {st : Stream} (h : st.isTalk = false) :
    (st.cutCheck c).fifo = st.fifo := by
  unfold Stream.cutCheck
  dsimp only
  split
  · exact Stream.complete_listen _ _ _ _ h
  · rfl

/-- What a completion makes of walker and state is decided by walker, state and direction. -/
theorem Stream.completedTable_congr (c : Word) (r : RecordStatus) (n : Nat) {a b : Stream}
    (hw : a.walker = b.walker) (hs : a.state = b.state) :
    (a.completedTable c r n).walker = (b.completedTable c r n).walker ∧
      (a.completedTable c r n).state = (b.completedTable c r n).state := by
  have honce (r : RecordStatus) (n : Nat) {a b : Stream} (hw : a.walker = b.walker)
      (hs : a.state = b.state) :
      (a.completedOnce c r n).walker = (b.completedOnce c r n).walker ∧
        (a.completedOnce c r n).state = (b.completedOnce c r n).state := by
    simp only [Stream.completedOnce, hw, hs, and_self]
  obtain ⟨hw', hs'⟩ := honce r n hw hs
  unfold Stream.completedTable
  dsimp only
  rw [hw']
  split
  · exact honce _ _ hw' hs'
  · exact ⟨hw', hs'⟩

/-- Gap and cut leave the sources alone. -/
theorem Stream.judged_sources (c : Word) (l : Bool) (st : Stream) :
    ((st.judgeSlot c l).cutCheck c).sources = st.sources ∧
    ((st.judgeSlot c l).cutCheck c).multiRaised = st.multiRaised ∧
    ((st.judgeSlot c l).cutCheck c).flags.getLsbD 5 = st.flags.getLsbD 5 := by
  have hflags : ((st.judgeSlot c l).cutCheck c).flags = (st.judgeSlot c l).flags := by simp
  rw [hflags]
  exact ⟨by simp, by simp, Stream.judgeSlot_multiSource c l st⟩

/-! ### A clean cell at a Listen Stream -/

section
variable {st : Stream} (ht : st.isTalk = false) (c : Word) (own : Bool) (g : Tag) (x : StationNo)
  (d : DataKind)
include ht

theorem Stream.hearCell_passed (h : st.accepts own g = true) : st.hearCell c own g x d =
    (((st.checkSource g x).takeCell c d).judgeSlot c (d == .fill)).cutCheck c := by
  have hsame : (st.checkSource g x).accepts own g = true := by
    rw [← h]
    simp [Stream.accepts, Stream.hears, Stream.isTalk]
  unfold Stream.hearCell
  rw [if_neg (by simp [ht]), if_pos h]
  cases d with
  | data b w =>
    dsimp only
    rw [if_pos hsame]
    rfl
  | fill | keep => rfl

theorem Stream.hearCell_blocked (h : st.accepts own g = false) :
    st.hearCell c own g x d = (st.judgeSlot c (d == .fill)).cutCheck c := by
  have hno : ¬ st.accepts own g = true := by simp [h]
  unfold Stream.hearCell
  rw [if_neg (by simp [ht]), if_neg hno]
  cases d with
  | data b w =>
    dsimp only
    rw [if_neg hno]
  | fill | keep => rfl

/-- What the FIFO and the counts are once a DATA word was judged. -/
theorem Stream.judged_data (b : Bool) (w : Word) :
    ((st.judgeSlot c (DataKind.data b w == .fill)).cutCheck c).fifo = st.fifo ∧
    ((st.judgeSlot c (DataKind.data b w == .fill)).cutCheck c).lastWord = st.lastWord ∧
    ((st.judgeSlot c (DataKind.data b w == .fill)).cutCheck c).words = st.words ∧
    ((st.judgeSlot c (DataKind.data b w == .fill)).cutCheck c).overruns = st.overruns ∧
    ((st.judgeSlot c (DataKind.data b w == .fill)).cutCheck c).flags = st.flags := by
  have hno : (DataKind.data b w == .fill) = false := by simp
  rw [hno, Stream.judgeSlot_heard c false (.inl rfl),
    Stream.cutCheck_listen (st := { st with expect := false }) c ht]
  simp

/-- A cell that passes or not, against the table (R143, R144). -/
theorem Stream.hearCell_table :
    hearTable c g x d (st.accepts own g = true) st (st.hearCell c own g x d) := by
  cases h : st.accepts own g with
  | false =>
    rw [Stream.hearCell_blocked ht c own g x d h]
    refine ⟨fun _ _ _ => nofun, fun _ _ _ => nofun, nofun, fun _ => nofun, fun _ => by simp,
      fun b w hd _ => ?_⟩
    subst hd
    exact Stream.judged_data ht c b w
  | true =>
    rw [Stream.hearCell_passed ht c own g x d h]
    have htalk : ((st.checkSource g x).takeCell c d).isTalk = false := by
      rw [Stream.isTalk_congr ((st.checkSource g x).takeCell_keeps c d).1]
      exact (Stream.isTalk_congr (by simp)).trans ht
    obtain ⟨-, -, -, -, hsources, hmulti, hflag⟩ := (st.checkSource g x).takeCell_keeps c d
    obtain ⟨hsources', hmulti', hflag'⟩ :=
      ((st.checkSource g x).takeCell c d).judged_sources c (d == .fill)
    refine ⟨fun b w hd _ hroom => ?_, fun b w hd _ hfull => ?_, fun _ hfirst => ?_,
      fun y _ hfind => ?_, fun h => absurd rfl h, fun _ _ _ h => absurd rfl h⟩
    · subst hd
      obtain ⟨hfifo, hlast, hwords, hoverruns, -⟩ := Stream.judged_data htalk c b w
      rw [hfifo, hlast, hwords, hoverruns, Stream.takeCell, Stream.takeWord_room c b w (by simpa)]
      refine ⟨by simp, rfl, ?_, by simp⟩
      simp [satAdd_toNat]
    · subst hd
      obtain ⟨hfifo, hlast, hwords, hoverruns, hflags⟩ := Stream.judged_data htalk c b w
      rw [hfifo, hlast, hwords, hoverruns, hflags, Stream.takeCell,
        Stream.takeWord_full c b w (by simpa), Stream.raise_flag _ _ (by decide)]
      refine ⟨by simp, by simp, by simp, ?_, by simp [StreamEvent.bit]⟩
      simpa using countsOne_satAdd st.overruns
    · rw [hsources', hmulti', hflag', hsources, hmulti, hflag, Stream.checkSource_first hfirst]
      exact ⟨rfl, rfl, rfl⟩
    · rw [hsources', hmulti', hflag', hsources, hmulti, hflag]
      by_cases hy : y = x
      · subst hy
        rw [Stream.checkSource_known hfind]
        exact ⟨rfl, fun _ => ⟨rfl, rfl⟩, fun h => absurd rfl h⟩
      · obtain ⟨hsame, hraised, hbit⟩ := Stream.checkSource_second hfind hy
        exact ⟨hsame, fun h => absurd h hy, fun _ => ⟨hraised, hbit⟩⟩

/-- The cut after a cell that is no gap (R102, R110, R148). -/
theorem Stream.hearCell_cut (h : d ≠ .fill ∨ st.expect = false) :
    let new := st.hearCell c own g x d
    let cut := ({ st with fifo := new.fifo } : Stream).completedTable c .cut st.walker.done
    (st.cuts new.fifo → new.walker = cut.walker ∧ new.state = cut.state) ∧
      (¬ st.cuts new.fifo → new.walker = st.walker ∧ new.state = st.state) := by
  obtain ⟨u, hu, hw, hs, hcell⟩ : ∃ u : Stream, u.isTalk = false ∧ u.walker = st.walker ∧
      u.state = st.state ∧ st.hearCell c own g x d = u.cutCheck c := by
    have hno (v : Stream) (hv : v.expect = st.expect) :
        v.judgeSlot c (d == .fill) = { v with expect := false } :=
      Stream.judgeSlot_heard c _ (h.imp (by simp) hv.trans)
    cases hpass : st.accepts own g with
    | false =>
      exact ⟨{ st with expect := false }, ht, rfl, rfl,
        by rw [Stream.hearCell_blocked ht c own g x d hpass, hno st rfl]⟩
    | true =>
      obtain ⟨hcfg, hstate, hwalker, hexpect, -⟩ := (st.checkSource g x).takeCell_keeps c d
      refine ⟨{ (st.checkSource g x).takeCell c d with expect := false },
        (Stream.isTalk_congr (hcfg.trans (by simp))).trans ht, hwalker.trans (by simp),
        hstate.trans (by simp), ?_⟩
      rw [Stream.hearCell_passed ht c own g x d hpass, hno _ (hexpect.trans (by simp))]
  dsimp only
  rw [hcell, Stream.cutCheck_listen c hu]
  have hcuts : u.cuts u.fifo ↔ st.cuts u.fifo := by
    unfold Stream.cuts
    rw [hw]
  refine ⟨fun hyes => ?_, fun hno => ?_⟩
  · rw [Stream.cutCheck_cuts c hu (hcuts.mpr hyes), hw]
    exact Stream.completedTable_congr c .cut _ hw hs
  · rw [Stream.cutCheck_not_cuts c (mt hcuts.mp hno)]
    exact ⟨hw, hs⟩

end

end Sys2Proof.Machine
end

section
/-! A passing cell reaches the Listen Streams (O24): another station's after the map has learned it,
the own one after its echo result, in either order of the two receivers. -/

namespace Sys2Proof.Machine

open Sys2Proof

/-! ### What the map reports to a Listen Stream (R35, R40) -/

/-- The same stream but for the held count and SHORT. -/
def Stream.Recounted (a b : Stream) : Prop :=
  ∃ (n : Nat) (short : Bool), b = { a with held := n, short := short }

theorem Stream.Recounted.refl (a : Stream) : a.Recounted a := ⟨a.held, a.short, rfl⟩

theorem reportMap_recounted (c : Word) (m m' : Vector SlotEntry 48) (k : StreamNo) {st : Stream}
    (h : st.isTalk = false) : st.Recounted (reportMap c m m' k st) := by
  have hheld (n : Nat) : st.onHeld c n =
      { st with held := n, short := st.short && n != st.cfg.wanted.toNat } := by
    simp [Stream.onHeld, Stream.isTalk] at h ⊢
    simp [h]
  have hnone {u : Stream} (hu : u.isTalk = false) : u.onNoneRemain = u := by
    simp [Stream.onNoneRemain, hu]
  have hcount : st.Recounted
      (if mineCount m' k = st.held then st else st.onHeld c (mineCount m' k)) := by
    split
    · exact .refl st
    · exact ⟨_, _, hheld _⟩
  unfold reportMap
  dsimp only
  split
  · obtain ⟨n, short, hu⟩ := hcount
    rw [hu, hnone (by exact h)]
    exact ⟨n, short, rfl⟩
  · exact hcount

section
variable {k : StreamNo} {s : State} (h : s.streams[k].isTalk = false)
include h

theorem State.setEntry_recounted (i : SlotNo) (e : SlotEntry) :
    s.streams[k].Recounted (s.setEntry i e).streams[k] := by
  show s.streams[k].Recounted (s.setEntry i e).streams[k.val]
  rw [State.setEntry_stream]
  exact reportMap_recounted _ _ _ k h

/-- Learning a cell is one change of the map (R27). -/
theorem State.learn_recounted (i : SlotNo) (x : StationNo) (g : Tag) :
    s.streams[k].Recounted (s.learn i x g).streams[k] := by
  unfold State.learn
  split
  · exact State.setEntry_recounted h i _
  · dsimp only
    split
    · exact State.setEntry_recounted h i _
    · exact State.setEntry_recounted h i _
  · have hstreams : (s.withdrawIfQueued i .taken).streams = s.streams :=
      s.withdrawIfQueued_changes i .taken .streams (by decide)
    have hset := State.setEntry_recounted (k := k) (s := s.withdrawIfQueued i .taken)
      (by rw [hstreams]; exact h) i (.held x g 0)
    rwa [hstreams] at hset
  · exact State.setEntry_recounted h i _
  all_goals exact .refl _

end

/-! ### The cell at its stream -/

theorem State.listenersHear_stream (own : Bool) (g : Tag) (x : StationNo) (d : DataKind)
    (k : StreamNo) (s : State) : (s.listenersHear own g x d).streams[k] =
      s.streams[k].hearCell s.mku.count own g x d :=
  State.onStreams_get k _ s

/-- A clean cell of another station is heard after the map has learned it (R13, R27). -/
theorem State.cleanSlotCell_stream (i : SlotNo) {x : StationNo} {g : Tag} (d : DataKind)
    (k : StreamNo) {s : State} (hsync : s.lnu.sync = .synced) (hx : x ≠ 0) (hg : g ≠ 0) (hown : x ≠ s.straps.stn) :
    (s.cleanSlotCell i x g d).streams[k] =
      (s.learn i x g).streams[k].hearCell s.mku.count false g x d := by
  have hsynced : s.lnu.isSynced = true := by simp [LineUnit.isSynced, hsync]
  have hheard : s.cleanSlotCell i x g d = s.heardSlotCell i x g d := by
    unfold State.cleanSlotCell
    rw [if_neg (by simp [hsynced]), if_neg (by simp only [hx, hg, or_self, not_false_eq_true]),
      if_neg hown]
  have hcount : (s.learn i x g).mku = s.mku := s.learn_changes i x g .mku (by decide)
  rw [hheard, ← hcount]
  exact State.listenersHear_stream false g x d k _

/-- The own cell is heard after its echo result, which reaches no stream but its supplier (R12,
R13). -/
theorem State.dataSlotEcho_stream {i : SlotNo} {st : Instant} {x : StationNo} {g : Tag}
    {d : DataKind} {j : Option StreamNo} {k : StreamNo} (first : Bool) {s : State} (hj : j ≠ some k)
    (htx : s.lnu.tx = some ⟨.dataSlot i, st, .inSlot x g d, j⟩) :
    (s.dataSlotEcho true first).streams[k] =
      s.streams[k].hearCell s.mku.count true g s.straps.stn d := by
  have hcell : s.lnu.ownSlotCell? = some (i, g, d, j) := by simp [LineUnit.ownSlotCell?, htx]
  have hecho (u : State) : (u.engineEcho d j).streams[k] = u.streams[k] ∧
      (u.engineEcho d j).mku = u.mku := by
    refine ⟨?_, u.engineEcho_changes d j .mku (by decide)⟩
    unfold State.engineEcho
    split
    · rename_i l
      exact State.onStream_others l _ u k fun hk => hj (by rw [hk])
    · rfl
  have hmatch (u : State) : u.slotEcho true i = u := rfl
  have hpart : s.dataSlotEcho true first =
      ((s.onLnu LineUnit.endTx).engineEcho d j).listenersHear true g s.straps.stn d := by
    unfold State.dataSlotEcho
    rw [hcell]
    dsimp only
    rw [hmatch, hmatch, ite_self, if_pos rfl,
      (s.onLnu LineUnit.endTx).engineEcho_changes d j .straps (by decide)]
    rfl
  obtain ⟨hstream, hcount⟩ := hecho (s.onLnu LineUnit.endTx)
  rw [hpart, State.listenersHear_stream, hstream, hcount]
  rfl

/-! ### The statement -/

/-- The states in which a Listen Stream takes the words of another station's tag (R143). -/
theorem Stream.accepts_other {g : Tag} {st : Stream} (ht : st.isTalk = false) :
    st.accepts false g = true ↔
      (st.state = .running ∨ st.state = .drained) ∧ st.cfg.passes g = true := by
  simp [Stream.accepts, Stream.hears, ht]

/-- Those of this station it takes under LOOP (R143). -/
theorem Stream.accepts_own {g : Tag} {st : Stream} (ht : st.isTalk = false) :
    st.accepts true g = true ↔
      ((st.state = .running ∨ st.state = .drained) ∧ st.cfg.passes g = true) ∧ st.cfg.loop = true := by
  simp [Stream.accepts, Stream.hears, ht]

/-- What the cell makes of the stream, by the tables, whatever the map has reported of the held
count. -/
theorem Stream.Recounted.heard {old mid : Stream} (h : old.Recounted mid) (ht : old.isTalk = false)
    (c : Word) (own : Bool) (g : Tag) (x : StationNo) (d : DataKind) {takes : Prop}
    (htakes : old.accepts own g = true ↔ takes) :
    let new := mid.hearCell c own g x d
    let cut := ({ old with fifo := new.fifo } : Stream).completedTable c .cut old.walker.done
    hearTable c g x d takes old new ∧ (d ≠ .fill ∨ old.expect = false →
      (old.cuts new.fifo → new.walker = cut.walker ∧ new.state = cut.state) ∧
      (¬ old.cuts new.fifo → new.walker = old.walker ∧ new.state = old.state)) := by
  obtain ⟨n, short, rfl⟩ := h
  dsimp only
  rw [← propext htakes]
  refine ⟨Stream.hearCell_table (st := { old with held := n, short := short }) ht c own g x d,
    fun hd => ?_⟩
  obtain ⟨hcut, hno⟩ :=
    Stream.hearCell_cut (st := { old with held := n, short := short }) ht c own g x d hd
  refine ⟨fun hcuts => ?_, hno⟩
  obtain ⟨hwalker, hstate⟩ := hcut hcuts
  rw [hwalker, hstate]
  exact Stream.completedTable_congr c .cut _ rfl rfl

/-- Settles O24: the cell of another station, and this station's own under LOOP. -/
theorem listenStreamTakesPassingCells : Obligations.ListenStreamTakesPassingCells := by
  intro i x g d k s hr htalk
  refine ⟨fun hsync hx hg hown => ?_, fun st j first hj htx => ?_⟩
  · refine ⟨s.cleanSlotCell i x g d, event_next _ hr, ?_⟩
    rw [State.cleanSlotCell_stream i d k hsync hx hg hown]
    exact (State.learn_recounted htalk i x g).heard htalk _ false g x d
      (Stream.accepts_other htalk)
  · refine ⟨s.dataSlotEcho true first, event_next _ hr, ?_⟩
    rw [State.dataSlotEcho_stream first hj htx]
    exact (Stream.Recounted.refl _).heard htalk _ true g _ d (Stream.accepts_own htalk)

end Sys2Proof.Machine
end

section
/-! The START command (O42): its checks in their order, and what a refused START leaves. -/

namespace Sys2Proof.Machine

open Sys2Proof

/-! ### The checks of a configuration (R122, R142) -/

theorem StreamConfig.ringAligned_iff (c : StreamConfig) :
    c.ringAligned = true ↔ c.ringBase.toNat % 1024 = 0 := by
  simp [StreamConfig.ringAligned, BitVec.toNat_eq]

theorem StreamConfig.talkOk_iff (c : StreamConfig) : c.talkOk = true ↔
    c.tag ≠ 0 ∧ 1 ≤ c.wanted.toNat ∧ c.wanted.toNat ≤ 8 ∧ c.ringBase.toNat % 1024 = 0 := by
  simp [StreamConfig.talkOk, c.ringAligned_iff, and_assoc]

/-- A 2-bit field names one of the three values in use, or the unused 3. -/
theorem twoBits_le_two (v : BitVec 2) : v.toNat ≤ 2 ↔ v ≠ 3 := by
  revert v
  decide

theorem StreamConfig.listenOk_iff (c : StreamConfig) : c.listenOk = true ↔
    c.ringBase.toNat % 1024 = 0 ∧ ¬ (c.filterMode = 0 ∧ c.tag = 0)
      ∧ c.filterMode ≠ 3 ∧ c.gapPolicy ≠ 3 := by
  simp only [StreamConfig.listenOk, Bool.and_eq_true, decide_eq_true_eq, twoBits_le_two,
    c.ringAligned_iff, Bool.not_eq_true', Bool.and_eq_false_iff, beq_eq_false_iff_ne, not_and_or,
    ne_eq, and_assoc]

/-! ### The result of START -/

theorem State.otherTalks_eq (k : StreamNo) (s : State) : s.otherTalks k =
    (List.finRange 8).filter fun j =>
      j ≠ k ∧ s.streams[j].isTalk = true ∧ s.streams[j].state ≠ .stopped := by
  unfold State.otherTalks allStreams
  exact List.filter_congr fun j _ => by simp [bne, Bool.and_assoc, beq_eq_decide]

/-- The checks of R122 in their order. -/
theorem State.startTalkCheck_eq (k : StreamNo) (s : State) : s.startTalkCheck k =
    if s.streams[k].state ≠ .stopped then .badState
    else if ¬ s.streams[k].cfg.talkOk = true then .badConfig
    else if s.rsu.membership ≠ .member then .notMember
    else if ∃ j ∈ s.otherTalks k, s.streams[j].cfg.tag = s.streams[k].cfg.tag then .tagInUse
    else if 16 < s.committed k then .overcommit
    else .ok := by
  exact if_congr .rfl rfl (if_congr (by simp) rfl (if_congr .rfl rfl (if_congr (by simp) rfl rfl)))

/-- A configured Talk Stream of a MEMBER has checks 4 and 5 left to pass (R122). -/
theorem State.startTalkCheck_member {k : StreamNo} {s : State} (hs : s.streams[k].state = .stopped)
    (hc : s.streams[k].cfg.talkOk = true) (hm : s.rsu.membership = .member) : s.startTalkCheck k =
      if ∃ j ∈ s.otherTalks k, s.streams[j].cfg.tag = s.streams[k].cfg.tag then .tagInUse
      else if 16 < s.committed k then .overcommit
      else .ok := by
  rw [State.startTalkCheck_eq, if_neg (not_not.mpr hs), if_neg (not_not.mpr hc),
    if_neg (not_not.mpr hm)]

/-- The checks of R142 in their order. -/
theorem Stream.startListenCheck_eq (st : Stream) : st.startListenCheck =
    if st.state ≠ .stopped then .badState
    else if ¬ st.cfg.listenOk = true then .badConfig
    else .ok := by
  simp [Stream.startListenCheck]

theorem State.commandStart_talk {k : StreamNo} {s : State} (h : s.streams[k].isTalk = true) :
    (s.commandStart k).2 = s.startTalkCheck k := by
  rw [State.commandStart, if_pos h]

theorem State.commandStart_listen {k : StreamNo} {s : State} (h : s.streams[k].isTalk = false) :
    (s.commandStart k).2 = s.streams[k].startListenCheck := by
  rw [State.commandStart, if_neg (by rw [h]; simp)]

theorem State.commandStart_refused {k : StreamNo} {s : State} (h : (s.commandStart k).2 ≠ .ok) :
    (s.commandStart k).1 = s := by
  cases ht : s.streams[k].isTalk with
  | true =>
    rw [State.commandStart_talk ht] at h
    rw [State.commandStart, if_pos ht]
    exact if_neg h
  | false =>
    rw [State.commandStart_listen ht] at h
    rw [State.commandStart, if_neg (by rw [ht]; simp)]
    exact if_neg h

/-- The START command posted (R122, R142, R169). -/
theorem exec_start (k : StreamNo) {s : State} (hr : s.resetAsserted = false) :
    exec (.start k) s = .next {
      s.post CommandCode.start.code (streamIndex k) (State.commandStart k) with
        targetResponse := .answered } := targetWrite_next _ hr

/-- Settles O42: each result stands where the checks before it pass. -/
theorem startChecksInOrder : Obligations.StartChecksInOrder := by
  intro k s hr
  refine ⟨_, exec_start k hr, ?_⟩
  intro st aligned others talkConfig listenConfig inUse sum
  have hothers : s.otherTalks k = others := s.otherTalks_eq k
  have htalk : st.cfg.talkOk = true ↔ talkConfig := st.cfg.talkOk_iff
  have hlisten : st.cfg.listenOk = true ↔ listenConfig := st.cfg.listenOk_iff
  have hsum : s.committed k = sum := by rw [State.committed, hothers]
  refine ⟨fun ht => ?_, fun ht => ?_, fun h => State.posted_refused (State.commandStart_refused h)⟩
  · have hresult := (State.commandStart_talk ht).trans (s.startTalkCheck_eq k)
    have hmember hs hc hm :=
      (State.commandStart_talk ht).trans (State.startTalkCheck_member hs (htalk.mpr hc) hm)
    rw [hothers, hsum] at hmember
    refine ⟨fun hs => ?_, fun hs hc => ?_, fun hs hc hm => ?_, fun hs hc hm hu => ?_,
      fun hs hc hm hu hl => ?_, fun hs hc hm hu hl => ?_⟩
    · exact hresult.trans (if_pos hs)
    · rwa [if_neg (not_not.mpr hs), if_pos (mt htalk.mp hc)] at hresult
    · rwa [if_neg (not_not.mpr hs), if_neg (not_not.mpr (htalk.mpr hc)), if_pos hm] at hresult
    · exact (hmember hs hc hm).trans (if_pos hu)
    · exact (hmember hs hc hm).trans ((if_neg hu).trans (if_pos hl))
    · exact (hmember hs hc hm).trans ((if_neg hu).trans (if_neg (Nat.not_lt.mpr hl)))
  · have hresult := (State.commandStart_listen ht).trans st.startListenCheck_eq
    refine ⟨fun hs => ?_, fun hs hc => ?_, fun hs hc => ?_⟩
    · exact hresult.trans (if_pos hs)
    · rwa [if_neg (not_not.mpr hs), if_pos (mt hlisten.mp hc)] at hresult
    · rwa [if_neg (not_not.mpr hs), if_neg (not_not.mpr (hlisten.mpr hc))] at hresult

end Sys2Proof.Machine
end

section
/-! The PAUSE and RESUME commands (O45): the states that take them, and the stream each one leaves. -/

namespace Sys2Proof.Machine

open Sys2Proof

/-! ### The walker held and walking again (R103) -/

theorem Walker.hold_eq (w : Walker) :
    w.hold = { w with mode := if w.mode = .walking then .held else w.mode } := by
  unfold Walker.hold
  split_ifs <;> rfl

theorem Walker.walk_held {w : Walker} (h : w.mode = .held) : w.walk = { w with mode := .walking } :=
  if_pos (.inr h)

/-! ### PAUSE (R131, R149) -/

/-- The stream that an accepted PAUSE leaves. -/
def Stream.pause (st : Stream) : Stream :=
  if st.isTalk then st.pauseTalk else { st with state := .paused }

/-- PAUSE moves the state and, of a Talk Stream, the walk mode. -/
theorem Stream.pause_fields {old new : Stream} (h : new = old.pause) :
    new = { old with state := .paused, walker := { old.walker with mode := new.walker.mode } }
      ∧ new.walker.mode = (if old.isTalk = true ∧ old.walker.mode = .walking then .held
          else old.walker.mode) := by
  subst h
  unfold Stream.pause
  cases ht : old.isTalk with
  | true => simp [Stream.pauseTalk, Stream.onWalker, Walker.hold_eq]
  | false => simp

theorem State.commandPause_taken {k : StreamNo} {s : State} (h : s.streams[k].state = .acquiring ∨
    s.streams[k].state = .running ∨ s.streams[k].state = .drained) :
    s.commandPause k = (s.onStream k Stream.pause, .ok) := by
  unfold State.commandPause
  dsimp only
  rcases h with h | h | h <;> rw [h] <;> rfl

theorem State.commandPause_refused {k : StreamNo} {s : State}
    (h : ¬ (s.streams[k].state = .acquiring ∨ s.streams[k].state = .running ∨
      s.streams[k].state = .drained)) :
    s.commandPause k = (s, .badState) := by
  unfold State.commandPause
  dsimp only
  cases hs : s.streams[k].state with
  | acquiring => exact absurd (.inl hs) h
  | running => exact absurd (.inr (.inl hs)) h
  | drained => exact absurd (.inr (.inr hs)) h
  | _ => rfl

/-! ### RESUME (R131, R149) -/

/-- The stream that an accepted RESUME leaves. -/
def Stream.resume (count : Word) (st : Stream) : Stream :=
  if st.isTalk then st.resumeTalk count else st.resumeListen

theorem Stream.resume_listen (count : Word) {st : Stream} (h : st.isTalk = false) :
    st.resume count = { st with
      state := if st.walker.caughtUp then .drained else .running
      sources := [], multiRaised := false } := by
  rw [Stream.resume, if_neg (by simp [h])]
  rfl

/-- With no slot held a Talk Stream acquires again (R131). -/
theorem Stream.resumeTalk_unheld (count : Word) {st : Stream} (h : st.held = 0) :
    st.resumeTalk count = { st with
      state := .acquiring, priming := st.fifo.isEmpty, walker := st.walker.walk } := by
  simp [Stream.resumeTalk, Stream.primeIfEmpty, Stream.onWalker, h]

/-- With a slot held it sends again, or is DRAINED from this count on where the ring is caught up
(R131). -/
theorem Stream.resumeTalk_held (count : Word) {st : Stream} (h : st.held ≠ 0) :
    st.resumeTalk count = { st with
      state := if st.walker.caughtUp then .drained else .running
      drainStart := if st.walker.caughtUp then count else st.drainStart
      priming := st.fifo.isEmpty, walker := st.walker.walk } := by
  have hcaught : st.walker.walk.caughtUp = st.walker.caughtUp := by
    unfold Walker.walk
    split_ifs <;> rfl
  cases hc : st.walker.caughtUp <;>
    simp [Stream.resumeTalk, Stream.primeIfEmpty, Stream.onWalker, Stream.runOrDrain, h, hcaught, hc]

/-- What RESUME makes of a Talk Stream: the state by the held count and caught-up, priming by the FIFO,
and the walker walking again. -/
theorem Stream.resume_talk (count : Word) {st : Stream} (ht : st.isTalk = true) :
    let new := st.resume count
    new.state = (if st.held = 0 then .acquiring
        else if st.walker.caughtUp then .drained else .running)
      ∧ (st.held ≠ 0 → st.walker.caughtUp = true → new.drainStart = count)
      ∧ new.priming = st.fifo.isEmpty ∧ new.walker = st.walker.walk := by
  rw [Stream.resume, if_pos ht]
  by_cases h : st.held = 0
  · rw [Stream.resumeTalk_unheld count h]
    exact ⟨(if_pos h).symm, fun hn => absurd h hn, rfl, rfl⟩
  · rw [Stream.resumeTalk_held count h]
    exact ⟨(if_neg h).symm, fun _ hc => if_pos hc, rfl, rfl⟩

theorem State.commandResume_taken {k : StreamNo} {s : State} (h : s.streams[k].state = .paused) :
    s.commandResume k = (s.onStream k (Stream.resume s.mku.count), .ok) := by
  unfold State.commandResume
  dsimp only
  rw [h]
  rfl

theorem State.commandResume_refused {k : StreamNo} {s : State} (h : s.streams[k].state ≠ .paused) :
    s.commandResume k = (s, .badState) := by
  unfold State.commandResume
  dsimp only
  cases hs : s.streams[k].state with
  | paused => exact absurd hs h
  | _ => rfl

/-! ### The statement -/

/-- A command that is refused, or changes one stream context, leaves the other contexts. -/
theorem State.otherStreamsSame_commanded {k : StreamNo} {f : Stream → Stream} {s : State}
    {r : Commanded} (h : r.1 = s ∨ r.1 = s.onStream k f) : s.otherStreamsSame k r.1 := by
  rcases h with h | h <;> rw [h]
  · exact fun _ _ => rfl
  · exact State.onStream_others k f s

theorem State.commandPause_others (k : StreamNo) (s : State) :
    s.otherStreamsSame k (s.commandPause k).1 := by
  refine State.otherStreamsSame_commanded (f := Stream.pause) ?_
  by_cases h : s.streams[k].state = .acquiring ∨ s.streams[k].state = .running ∨
      s.streams[k].state = .drained
  · exact .inr (congrArg Prod.fst (State.commandPause_taken h))
  · exact .inl (congrArg Prod.fst (State.commandPause_refused h))

theorem State.commandResume_others (k : StreamNo) (s : State) :
    s.otherStreamsSame k (s.commandResume k).1 := by
  refine State.otherStreamsSame_commanded (f := Stream.resume s.mku.count) ?_
  by_cases h : s.streams[k].state = .paused
  · exact .inr (congrArg Prod.fst (State.commandResume_taken h))
  · exact .inl (congrArg Prod.fst (State.commandResume_refused h))

/-- The PAUSE command posted (R131, R149, R169). -/
theorem exec_pause (k : StreamNo) {s : State} (hr : s.resetAsserted = false) :
    exec (.pause k) s = .next {
      s.post CommandCode.pause.code (streamIndex k) (State.commandPause k) with
        targetResponse := .answered } := targetWrite_next _ hr

/-- The RESUME command posted (R131, R149, R169). -/
theorem exec_resume (k : StreamNo) {s : State} (hr : s.resetAsserted = false) :
    exec (.resume k) s = .next {
      s.post CommandCode.resume.code (streamIndex k) (State.commandResume k) with
        targetResponse := .answered } := targetWrite_next _ hr

/-- Settles O45: a refused command keeps the stream, a taken one leaves that of `Stream.pause` or of
`Stream.resume`. -/
theorem pauseAndResumeStream : Obligations.PauseAndResumeStream := by
  intro k s hr old
  refine ⟨⟨_, exec_pause k hr, s.commandPause_others k,
    State.posted_changes (s.commandPause_changes k) (by decide) (by decide),
    fun h => ?_, fun h => ?_⟩,
    _, exec_resume k hr, s.commandResume_others k,
    State.posted_changes (s.commandResume_changes k) (by decide) (by decide),
    fun h => ?_, fun h => ?_, fun h ht => ?_, fun h ht => ?_⟩
  · have hrefused := State.commandPause_refused h
    exact ⟨congrArg Prod.snd hrefused, congrArg (·.1.streams[k]) hrefused⟩
  · have htaken := State.commandPause_taken h
    have hnew : (s.commandPause k).1.streams[k] = old.pause :=
      (congrArg (·.1.streams[k]) htaken).trans (State.onStream_self k _ s)
    exact ⟨congrArg Prod.snd htaken, Stream.pause_fields hnew⟩
  · have hrefused := State.commandResume_refused h
    exact ⟨congrArg Prod.snd hrefused, congrArg (·.1.streams[k]) hrefused⟩
  · exact congrArg Prod.snd (State.commandResume_taken h)
  · have hnew : (s.commandResume k).1.streams[k] = old.resume s.mku.count :=
      (congrArg (·.1.streams[k]) (State.commandResume_taken h)).trans (State.onStream_self k _ s)
    obtain ⟨hstate, hdrain, hpriming, hwalker⟩ := Stream.resume_talk s.mku.count ht
    rw [← hnew] at hstate hdrain hpriming hwalker
    exact ⟨hstate, hdrain, by rw [← List.isEmpty_iff, ← hpriming]; rfl,
      fun hheld => hwalker.trans (Walker.walk_held hheld)⟩
  · exact (congrArg (·.1.streams[k]) (State.commandResume_taken h)).trans
      ((State.onStream_self k _ s).trans (Stream.resume_listen _ ht))

end Sys2Proof.Machine
end

section
/-! The configuration lock (O48): a configuration word written in STOPPED reads back, and no command
changes the configuration in another state. -/

namespace Sys2Proof.Machine

open Sys2Proof

/-! ### The words of a stream context in the window (section 10.2) -/

/-- Word `n` of the context of stream `k` stands at index 64 + 8 k + n. -/
theorem State.readWord_context (k : StreamNo) {n : Nat} (hn : n < 8) (s : State) :
    s.readWord (BitVec.ofNat 8 (64 + 8 * k.val + n)) = s.streams[k].readWord n := by
  have hk := k.isLt
  have hindex : (BitVec.ofNat 8 (64 + 8 * k.val + n)).toNat = 64 + 8 * k.val + n := by
    rw [BitVec.toNat_ofNat]
    omega
  have hcontext : contextOf (64 + 8 * k.val + n) = k := by
    apply Fin.ext
    simp only [contextOf]
    omega
  have hword : (64 + 8 * k.val + n) % 8 = n := by omega
  unfold State.readWord
  dsimp only
  rw [if_neg (by omega), if_neg (by omega), if_pos (by omega)]
  simp only [hindex, hcontext, hword]

/-- The CONFIG word keeps every bit but 7 and 20 to 23, which name no field. -/
theorem StreamConfig.readConfig_writeConfig (w : Word) (c : StreamConfig) :
    (c.writeConfig w).readConfig = w &&& 0xFF0FFF7F#32 := by
  have hdirection : ((c.writeConfig w).direction == .listen) = w.getLsbD 0 := by
    unfold StreamConfig.writeConfig
    cases w.getLsbD 0 <;> rfl
  unfold StreamConfig.readConfig
  rw [hdirection]
  apply BitVec.eq_of_getLsbD_eq
  intro i hi
  simp only [StreamConfig.writeConfig, BitVec.getLsbD_append, BitVec.getLsbD_extractLsb',
    BitVec.getLsbD_ofBool, BitVec.getLsbD_zero, BitVec.getLsbD_and]
  interval_cases i <;> simp

/-- The MASK word keeps its 8 named bits. -/
theorem lowByte_eq (w : Word) : (w.setWidth 8).setWidth 32 = w &&& 0xFF#32 := by
  refine BitVec.eq_of_toNat_eq ?_
  have hmask : w.toNat &&& 255 = w.toNat % 2 ^ 8 := Nat.and_two_pow_sub_one_eq_mod w.toNat 8
  rw [BitVec.toNat_setWidth, BitVec.toNat_setWidth, BitVec.toNat_and]
  show w.toNat % 2 ^ 8 % 2 ^ 32 = w.toNat &&& 255
  omega

/-- The configuration words after one was written: it reads back in its named bits, and the others
read as before. -/
theorem Stream.readWord_configure (which : ConfigWord) (w : Word) (st : Stream) (j : Fin 3) :
    (st.configure which w).readWord j.val =
      match which, j.val with
      | .config, 0 => w &&& 0xFF0FFF7F#32
      | .mask, 1 => w &&& 0xFF#32
      | .ringBase, 2 => w
      | _, _ => st.readWord j.val := by
  match which, j with
  | .config, 0 => exact StreamConfig.readConfig_writeConfig w st.cfg
  | .mask, 1 => exact lowByte_eq w
  | .ringBase, 2 | .config, 1 | .config, 2 | .mask, 0 | .mask, 2 | .ringBase, 0 | .ringBase, 1 => rfl

/-! ### A write to a configuration word (R167) -/

theorem State.writeConfig_stopped {k : StreamNo} {s : State} (h : s.streams[k].state = .stopped)
    (which : ConfigWord) (w : Word) :
    s.writeConfig k which w = s.onStream k (Stream.configure which w) := if_pos h

theorem State.writeConfig_locked {k : StreamNo} {s : State} (h : s.streams[k].state ≠ .stopped)
    (which : ConfigWord) (w : Word) : s.writeConfig k which w = s.raise .lockedWrite := if_neg h

/-- A configuration word written (R167). -/
theorem exec_configWrite (k : StreamNo) (which : ConfigWord) (w : Word) {s : State}
    (hr : s.resetAsserted = false) :
    exec (.configWrite k which w) s = .next { s.writeConfig k which w with
      targetResponse := .answered } := targetWrite_next _ hr

/-- What a command other than a reset makes of the streams leaves the configuration of one that is not
STOPPED. -/
theorem State.StreamsGo.cfg {s t : State} (h : s.StreamsGo t) {k : StreamNo}
    (hk : s.streams[k].state ≠ .stopped) : t.streams[k].cfg = s.streams[k].cfg := by
  have hone {j : StreamNo} {f : Stream → Stream} (ht : t.streams = (s.onStream j f).streams)
      (hf : j = k → (f s.streams[j]).cfg = s.streams[j].cfg) :
      t.streams[k].cfg = s.streams[k].cfg := by
    rw [ht]
    by_cases hj : k = j
    · subst hj
      rw [State.onStream_self]
      exact hf rfl
    · rw [State.onStream_others j f s k hj]
  cases h with
  | kept h => exact (h k).steady.cfg
  | begun j hok h =>
    obtain ⟨-, -, hstart⟩ | ⟨-, -, hstart⟩ := State.commandStart_ok hok
    · exact hone (hstart ▸ h) fun _ => by simp
    · exact hone (hstart ▸ h) fun _ => by simp
  | configured j which w hstopped h => exact hone h fun hj => absurd (hj ▸ hstopped) hk

/-- Settles O48: the lock tests the state of the one stream written, and of all that a command does to a
stream context only a configuration word in STOPPED moves the configuration. -/
theorem configurationLock : Obligations.ConfigurationLock := by
  refine ⟨fun k which value s hr => ⟨_, exec_configWrite k which value hr, rfl, fun h => ?_,
    fun h => ?_⟩, fun c k s t hc h hk => (exec_streamsGo hc h).cfg hk⟩
  · rw [State.writeConfig_locked h]
    exact ⟨rfl, (State.answered_changes (State.raise_changes _ s)).mono (by decide)⟩
  · rw [State.writeConfig_stopped h]
    have hself := State.onStream_self k (Stream.configure which value) s
    refine ⟨State.onStream_others k _ s,
      (State.answered_changes (State.onStream_changes k _ s)).mono (by decide), ?_, fun j => ?_⟩
    · dsimp only
      rw [hself]
      rfl
    · have hj : j.val < 8 := by omega
      rw [State.readWord_context k hj, State.readWord_context k hj]
      dsimp only
      rw [hself]
      exact Stream.readWord_configure which value _ j

end Sys2Proof.Machine
end

section
/-! The filter of a Listen Stream (O19): the tags each mode lets through, and what becomes of tag 0. -/

namespace Sys2Proof.Machine

open Sys2Proof

/-! ### Tag 0 (R5, R140, R142) -/

/-- A cell of a Data Slot without a tag is garbled (R5). -/
theorem Cell.decode_tag_ne_zero {content : BitVec 64} {x : StationNo} {g : Tag} {d : DataKind}
    (h : Cell.decode content = some (.inSlot x g d)) : g ≠ 0 := by
  have htagged {t : Tag} {y : StationNo} {e : DataKind}
      (ht : (if t = 0 then none else some (Cell.inSlot y t e)) = some (.inSlot x g d)) : g ≠ 0 := by
    split at ht
    · cases ht
    · rename_i hne
      cases ht
      exact hne
  unfold Cell.decode at h
  dsimp only at h
  split at h
  · cases h
  · split at h
    case h_2 | h_3 | h_4 => exact htagged h
    case h_1 => split at h <;> cases h
    case h_7 | h_8 =>
      split at h
      · cases h
      · simp at h
    all_goals cases h

/-- An EXACT filter for tag 0 fails the second check of START (R142). -/
theorem Stream.startListenCheck_exact_zero {st : Stream} (hs : st.state = .stopped)
    (hmode : st.cfg.filterMode = 0) (htag : st.cfg.tag = 0) : st.startListenCheck = .badConfig := by
  have hbad : ¬ st.cfg.listenOk = true := fun hok => by
    obtain ⟨-, hfilter, -⟩ := st.cfg.listenOk_iff.mp hok
    exact hfilter ⟨hmode, htag⟩
  rw [Stream.startListenCheck_eq, if_neg (not_not.mpr hs), if_pos hbad]

/-! ### The modes (R140) -/

section
variable (c : StreamConfig) (t : Tag)

theorem StreamConfig.passes_exact (h : c.filterMode = 0) : c.passes t = true ↔ t = c.tag := by
  simp [StreamConfig.passes, h]

theorem StreamConfig.passes_masked (h : c.filterMode = 1) :
    c.passes t = true ↔ t &&& c.mask = c.tag &&& c.mask := by
  simp [StreamConfig.passes, h]

theorem StreamConfig.passes_all (h : c.filterMode = 2) : c.passes t = true := by
  simp [StreamConfig.passes, h]

end

/-- Two tags agree under a mask where they agree in each bit the mask sets. -/
theorem masked_eq_iff (t g m : BitVec 8) : t &&& m = g &&& m ↔
    ∀ b : Fin 8, (t.getLsbD b && m.getLsbD b) = (g.getLsbD b && m.getLsbD b) := by
  refine ⟨fun h b => ?_, fun h => BitVec.eq_of_getLsbD_eq fun b hb => ?_⟩
  · rw [← BitVec.getLsbD_and, h, BitVec.getLsbD_and]
  · rw [BitVec.getLsbD_and, BitVec.getLsbD_and]
    exact h ⟨b, hb⟩

/-- The mask F0h keeps the high half of a tag. -/
theorem highHalf_eq_two_iff (t : BitVec 8) :
    t &&& 0xF0 = 0x28 &&& 0xF0 ↔ 0x20 ≤ t.toNat ∧ t.toNat ≤ 0x2F := by
  revert t
  decide

/-- Settles O19: each mode is one comparison of tags, and the masks FFh and 00h make MASKED the
comparison of EXACT and none. -/
theorem filterPassesByMode : Obligations.FilterPassesByMode := by
  refine ⟨fun content x d h => Cell.decode_tag_ne_zero h rfl, fun k s hr ht hs hmode htag => ?_,
    fun c t h0 => ⟨c.passes_exact t, fun hmode => ?_, c.passes_all t, fun hmode hmask => ?_,
      fun hmode hmask => ?_, fun hmode htag hmask => ?_, fun hmode htag => ?_⟩⟩
  · exact ⟨_, exec_start k hr, (State.commandStart_listen ht).trans
      (Stream.startListenCheck_exact_zero hs hmode htag)⟩
  · rw [c.passes_masked t hmode, masked_eq_iff]
  · have hones : (0xFF : BitVec 8) = BitVec.allOnes 8 := rfl
    rw [c.passes_masked t hmode, hmask, hones, BitVec.and_allOnes, BitVec.and_allOnes]
  · rw [c.passes_masked t hmode, hmask]
    exact BitVec.and_zero.trans BitVec.and_zero.symm
  · rw [c.passes_masked t hmode, htag, hmask]
    exact highHalf_eq_two_iff t
  · rw [← Bool.not_eq_true, c.passes_exact t hmode, htag]
    exact h0

end Sys2Proof.Machine
end

section
/-! The gaps of a Listen Stream (O25): what an expected Data Slot without a word makes of it, under each
gap policy, whether the slot was missed or carried a clean FILL. -/

namespace Sys2Proof.Machine

open Sys2Proof

/-! ### An entry at the tail (R143, R147) -/

section
variable {st : Stream} (w : Word) (b : Bool) (p : Stamp)

theorem Stream.pushEntry_room (h : st.fifo.length < 16) :
    (st.pushEntry w b p).2 = { st with fifo := st.fifo ++ [⟨w, b, 0, p⟩] } := by
  simp [Stream.pushEntry, Config.fifoDepth, h]

theorem Stream.pushEntry_full (h : 16 ≤ st.fifo.length) : (st.pushEntry w b p).2 =
    ({ st with overruns := satAdd st.overruns 1 } : Stream).raise .underOverrun := by
  simp [Stream.pushEntry, Config.fifoDepth, Nat.not_lt.mpr h]

end

/-! ### The tally of C (R109) -/

theorem Walker.addTally_open {w : Walker} (h : w.caughtUp = false) :
    countsOne w.tally w.addTally.tally := by
  simp only [Walker.addTally, h]
  exact countsOne_satAdd w.tally

theorem Walker.addTally_caughtUp {w : Walker} (h : w.caughtUp = true) : w.addTally = w := by
  simp [Walker.addTally, h]

/-! ### The gap and its policy (R146, R147) -/

/-- The policies ZERO and REPEAT make an entry of a gap. -/
abbrev Stream.fillsGaps (st : Stream) : Prop := st.cfg.gapPolicy = 1 ∨ st.cfg.gapPolicy = 2

/-- The word of that entry: the last word taken under REPEAT, 0 under ZERO. -/
def Stream.gapWord (st : Stream) : Word :=
  if st.cfg.gapPolicy = 2 then st.lastWord.getD 0 else 0

/-- A gap counted in GAPS and in the tally of C. -/
def Stream.gapCounted (st : Stream) : Stream :=
  { st with fills := satAdd st.fills 1, walker := st.walker.addTally }

section
variable {st : Stream} (c : Word)

theorem Stream.gap_eq : st.gap c =
    if st.fillsGaps then (st.gapCounted.pushEntry st.gapWord false (c.setWidth 16)).2
    else st.gapCounted := by
  unfold Stream.gap
  dsimp only
  split
  · rename_i hp
    have hzero : st.cfg.gapPolicy = 1 := BitVec.eq_of_toNat_eq hp
    have hword : st.gapWord = 0 := by simp [Stream.gapWord, hzero]
    rw [if_pos (.inl hzero), hword]
    rfl
  · rename_i hp
    have hrepeat : st.cfg.gapPolicy = 2 := BitVec.eq_of_toNat_eq hp
    rw [if_pos (.inr hrepeat), Stream.gapWord, if_pos hrepeat]
    rfl
  · rename_i hzero hrepeat
    have hskip : ¬ st.fillsGaps := fun h =>
      h.elim (hzero <| congrArg BitVec.toNat ·) (hrepeat <| congrArg BitVec.toNat ·)
    exact (if_neg hskip).symm

theorem Stream.gap_skip (h : ¬ st.fillsGaps) : st.gap c = st.gapCounted :=
  (Stream.gap_eq c).trans (if_neg h)

theorem Stream.gap_fill (h : st.fillsGaps) :
    st.gap c = (st.gapCounted.pushEntry st.gapWord false (c.setWidth 16)).2 :=
  (Stream.gap_eq c).trans (if_pos h)

theorem Stream.gap_room (h : st.fillsGaps) (hroom : st.fifo.length < 16) :
    st.gap c = { st.gapCounted with
      fifo := st.fifo ++ [⟨st.gapWord, false, 0, c.setWidth 16⟩] } :=
  (Stream.gap_fill c h).trans (Stream.pushEntry_room (st := st.gapCounted) _ _ _ hroom)

theorem Stream.gap_full (h : st.fillsGaps) (hfull : 16 ≤ st.fifo.length) :
    st.gap c = ({ st.gapCounted with
      overruns := satAdd st.overruns 1 } : Stream).raise .underOverrun :=
  (Stream.gap_fill c h).trans (Stream.pushEntry_full (st := st.gapCounted) _ _ _ hfull)

/-- A gap is counted under every policy. -/
theorem Stream.gap_counted :
    (st.gap c).fills = satAdd st.fills 1 ∧ (st.gap c).walker = st.walker.addTally := by
  by_cases h : st.fillsGaps
  · rw [Stream.gap_fill c h]
    simp [Stream.gapCounted]
  · rw [Stream.gap_skip c h]
    exact ⟨rfl, rfl⟩

/-- The entry of a gap has no boundary mark, so a gap puts none at the head. -/
theorem Stream.gap_head (h : ∀ e, st.fifo.head? = some e → e.boundary = false) :
    ∀ e, (st.gap c).fifo.head? = some e → e.boundary = false := by
  by_cases hf : st.fillsGaps
  · by_cases hroom : st.fifo.length < 16
    · rw [Stream.gap_room c hf hroom]
      cases hq : st.fifo with
      | nil => simp
      | cons e es => simpa [hq] using h
    · rw [Stream.gap_full c hf (Nat.le_of_not_lt hroom)]
      exact h
  · rw [Stream.gap_skip c hf]
    exact h

end

/-! ### A slot that carried no word (R110, R146) -/

/-- The check of the sources moves nothing that a gap looks at (R144). -/
theorem Stream.checkSource_eq (st : Stream) (g : Tag) (x : StationNo) :
    ∃ sources multi flags, st.checkSource g x =
      { st with sources := sources, multiRaised := multi, flags := flags } := by
  unfold Stream.checkSource
  split
  · exact ⟨_, _, _, rfl⟩
  · split
    · exact ⟨_, _, _, rfl⟩
    · exact ⟨_, _, _, rfl⟩

section
variable {st : Stream} (ht : st.isTalk = false) (c : Word)
include ht

/-- A Listen Stream judges gaps in RUNNING and DRAINED (R146). -/
theorem Stream.hears_iff : st.hears = true ↔ st.state = .running ∨ st.state = .drained := by
  simp [Stream.hears, ht]

theorem Stream.judgeSlot_gap (h : st.expect = true ∧ (st.state = .running ∨ st.state = .drained)) :
    st.judgeSlot c true = ({ st with expect := false } : Stream).gap c := by
  obtain ⟨hexpect, hstate⟩ := h
  exact if_pos ⟨hexpect, rfl, (Stream.hears_iff ht).mpr hstate⟩

theorem Stream.judgeSlot_no_gap
    (h : ¬ (st.expect = true ∧ (st.state = .running ∨ st.state = .drained))) :
    st.judgeSlot c true = { st with expect := false } :=
  if_neg fun ⟨hexpect, _, hhears⟩ => h ⟨hexpect, (Stream.hears_iff ht).mp hhears⟩

/-- A lost slot against the table: what the gap makes of the stream stands after the cut, which is not
made behind a head without a mark. -/
theorem Stream.lostSlot_table : gapTable c st ((st.judgeSlot c true).cutCheck c) := by
  have hfifo := Stream.cutCheck_listen c (st := st.judgeSlot c true)
    ((Stream.isTalk_congr (by simp)).trans ht)
  by_cases hgap : st.expect = true ∧ (st.state = .running ∨ st.state = .drained)
  · rw [Stream.judgeSlot_gap ht c hgap] at hfifo ⊢
    obtain ⟨hcount, hwalker⟩ := Stream.gap_counted (st := { st with expect := false }) c
    refine ⟨by simp, by simp, by simp, fun h => absurd hgap h, fun _ => ?_, fun _ hskip => ?_,
      fun _ hfill hroom => ?_, fun _ hfill hfull => ?_, fun _ hhead => ?_⟩
    · simp only [Stream.cutCheck_keeps, hcount]
      exact countsOne_satAdd st.fills
    · rw [hfifo]
      simp only [Stream.cutCheck_keeps,
        Stream.gap_skip (st := { st with expect := false }) c hskip]
      exact ⟨rfl, rfl⟩
    · rw [hfifo]
      simp only [Stream.cutCheck_keeps,
        Stream.gap_room (st := { st with expect := false }) c hfill hroom]
      exact ⟨rfl, rfl⟩
    · rw [hfifo]
      simp only [Stream.cutCheck_keeps,
        Stream.gap_full (st := { st with expect := false }) c hfill hfull]
      exact ⟨rfl, countsOne_satAdd _, by
        rw [Stream.raise_flag _ _ (by decide)]
        simp [StreamEvent.bit]⟩
    · rw [Stream.cutCheck_none c _ (Stream.gap_head (st := { st with expect := false }) c hhead),
        hwalker]
      exact ⟨Walker.addTally_open, fun h => congrArg Walker.tally (Walker.addTally_caughtUp h)⟩
  · rw [Stream.judgeSlot_no_gap ht c hgap] at hfifo ⊢
    refine ⟨by simp, by simp, by simp, fun _ => ⟨by simp, hfifo, by simp⟩, ?_⟩
    exact ⟨fun h => absurd h hgap, fun h => absurd h hgap, fun h => absurd h hgap,
      fun h => absurd h hgap, fun h => absurd h hgap⟩

/-- A Listen Stream that hears nothing has lost the slot. -/
theorem Stream.hearNothing_table : gapTable c st (st.hearNothing c) := by
  unfold Stream.hearNothing
  rw [if_neg (by simp [ht])]
  exact Stream.lostSlot_table ht c

/-- A clean FILL has lost the slot whether its tag passes or not. -/
theorem Stream.hearFill_table (own : Bool) (g : Tag) (x : StationNo) :
    gapTable c st (st.hearCell c own g x .fill) := by
  cases h : st.accepts own g with
  | false =>
    rw [Stream.hearCell_blocked ht c own g x .fill h]
    exact Stream.lostSlot_table ht c
  | true =>
    rw [Stream.hearCell_passed ht c own g x .fill h]
    obtain ⟨sources, multi, flags, hcheck⟩ := st.checkSource_eq g x
    have hlost := Stream.lostSlot_table (st :=
      { st with sources := sources, multiRaised := multi, flags := flags }) ht c
    rw [hcheck]
    exact hlost

/-- A clean DATA or KEEP consumes the expectation and counts no gap. -/
theorem Stream.hearCell_no_gap (own : Bool) (g : Tag) (x : StationNo) {d : DataKind}
    (hd : d ≠ .fill) : (st.hearCell c own g x d).expect = false ∧
      (st.hearCell c own g x d).fills = st.fills := by
  have hlost : (d == .fill) = false := by simpa using hd
  cases h : st.accepts own g with
  | false =>
    rw [Stream.hearCell_blocked ht c own g x d h, hlost, Stream.judgeSlot_heard c false (.inl rfl)]
    simp
  | true =>
    rw [Stream.hearCell_passed ht c own g x d h, hlost, Stream.judgeSlot_heard c false (.inl rfl)]
    cases d with
    | data b w => simp [Stream.takeCell]
    | fill | keep => simp [Stream.takeCell]

end

/-! ### The slot at the map and at its streams (R13, R29) -/

section
variable {k : StreamNo} {s : State} (h : s.streams[k].isTalk = false) (i : SlotNo)
include h

theorem State.ageOut_recounted : s.streams[k].Recounted (s.ageOut i).streams[k] := by
  unfold State.ageOut
  split
  · split
    · exact State.setEntry_recounted h i .free
    · exact .refl _
  · exact .refl _

/-- A missed slot ages a HELD entry at most. -/
theorem State.missSlot_recounted (garbled : Bool) :
    s.streams[k].Recounted (s.missSlot i garbled).streams[k] := by
  have hsilent {u : State} (hu : u.streams[k].isTalk = false) :
      u.streams[k].Recounted (u.missSlot i false).streams[k] := by
    unfold State.missSlot
    dsimp only
    split
    · split
      · exact State.ageOut_recounted hu i
      · exact State.setEntry_recounted hu i _
    · exact .refl _
  cases garbled with
  | false => exact hsilent h
  | true => exact hsilent (u := s.onCounters StationCounters.addCheckErr) h

end

theorem State.missedSlot_stream (i : SlotNo) (garbled : Bool) (k : StreamNo) (s : State) :
    (s.missedSlot i garbled).streams[k] =
      (s.missSlot i garbled).streams[k].hearNothing s.mku.count :=
  State.onStreams_get k _ _

/-- What a slot without a word makes of a stream, whatever the map has reported of the held count. -/
theorem Stream.Recounted.gapTable_of {old mid new : Stream} {c : Word} (h : old.Recounted mid)
    (htable : gapTable c mid new) : gapTable c old new := by
  obtain ⟨n, short, rfl⟩ := h
  exact htable

theorem Stream.Recounted.isTalk {old mid : Stream} (h : old.Recounted mid)
    (ht : old.isTalk = false) : mid.isTalk = false := by
  obtain ⟨n, short, rfl⟩ := h
  exact ht

/-! ### The statement -/

/-- A Data Slot reported garbled or silent to a synced station (R13, R29, R146). -/
theorem exec_missedSlot (i : SlotNo) (garbled : Bool) {s : State} (hr : s.resetAsserted = false)
    (hsync : s.lnu.sync = .synced) :
    exec (.garbledOrSilentDataSlot i garbled) s = .next (s.missedSlot i garbled) := by
  have hsynced : s.lnu.isSynced = true := by simp [LineUnit.isSynced, hsync]
  exact (event_next _ hr).trans (congrArg _ (if_pos hsynced))

/-- Settles O25: a missed slot and a clean FILL are lost at the stream as the map has left it, a clean
DATA or KEEP is not. -/
theorem gapFollowsPolicy : Obligations.GapFollowsPolicy := by
  intro i k s hr hsync ht
  refine ⟨fun garbled => ?_, fun x g hx hg hown => ⟨?_, fun d hd => ?_⟩⟩
  · refine ⟨_, exec_missedSlot i garbled hr hsync, ?_⟩
    have hmiss := State.missSlot_recounted ht i garbled
    rw [State.missedSlot_stream]
    exact hmiss.gapTable_of (Stream.hearNothing_table (hmiss.isTalk ht) _)
  · refine ⟨s.cleanSlotCell i x g .fill, event_next _ hr, ?_⟩
    have hlearn := State.learn_recounted ht i x g
    rw [State.cleanSlotCell_stream i .fill k hsync hx hg hown]
    exact hlearn.gapTable_of (Stream.hearFill_table (hlearn.isTalk ht) _ false g x)
  · refine ⟨s.cleanSlotCell i x g d, event_next _ hr, ?_⟩
    obtain ⟨n, short, hlearn⟩ := State.learn_recounted ht i x g
    rw [State.cleanSlotCell_stream i d k hsync hx hg hown, hlearn]
    exact Stream.hearCell_no_gap (st := { s.streams[k] with held := n, short := short }) ht _ false
      g x hd

end Sys2Proof.Machine
end

section
/-! CLEAR_COUNTERS, and a COMMAND word that names no command (O47). -/

namespace Sys2Proof.Machine

open Sys2Proof

/-! ### CLEAR_COUNTERS (R162) -/

theorem State.commandClearCounters_stream (k : StreamNo) (s : State) :
    s.commandClearCounters.1.streams[k] = s.streams[k].clearCounters :=
  State.onStreams_get k _ _

/-- The CLEAR_COUNTERS command posted (R162, R169). -/
theorem exec_clearCounters (index : BitVec 4) {s : State} (hr : s.resetAsserted = false) :
    exec (.clearCounters index) s = .next {
      s.post CommandCode.clearCounters.code index State.commandClearCounters with
        targetResponse := .answered } := targetWrite_next _ hr

/-! ### A COMMAND word that names nothing (R169) -/

theorem commandNamesNothing_iff (code index : BitVec 4) :
    commandNamesNothing code index = true ↔
      (code = 0 ∨ 9 ≤ code.toNat) ∨ (3 ≤ code.toNat ∧ code.toNat ≤ 7) ∧ 8 ≤ index.toNat := by
  simp [commandNamesNothing]

theorem CommandCode.ofCode_eq_none {code : BitVec 4} (h : code = 0 ∨ 9 ≤ code.toNat) :
    CommandCode.ofCode code = none := by
  obtain rfl | h := h
  · rfl
  · unfold CommandCode.ofCode
    split
    case h_9 => rfl
    all_goals omega

/-- The codes 3 to 7 are those of the commands to a stream. -/
theorem CommandCode.ofCode_stream {code : BitVec 4} (h3 : 3 ≤ code.toNat) (h7 : code.toNat ≤ 7) :
    ∃ c ∈ [CommandCode.start, .stop, .pause, .resume, .resetStream],
      CommandCode.ofCode code = some c := by
  unfold CommandCode.ofCode
  generalize code.toNat = n at h3 h7
  interval_cases n <;> exact ⟨_, by decide, rfl⟩

theorem State.streamCommand_badStream {index : BitVec 4} (h : 8 ≤ index.toNat)
    (run : StreamNo → State → Commanded) (s : State) :
    s.streamCommand index run = (s, .badStream) := dif_neg (Nat.not_lt.mpr h)

/-- What names nothing reaches no block: a wrong code is found before a wrong index. -/
theorem State.decodeCommand_nothing {code index : BitVec 4}
    (h : commandNamesNothing code index = true) (s : State) :
    s.decodeCommand code index =
      (s, if code = 0 ∨ 9 ≤ code.toNat then .badCommand else .badStream) := by
  unfold State.decodeCommand
  by_cases hcode : code = 0 ∨ 9 ≤ code.toNat
  · rw [CommandCode.ofCode_eq_none hcode, if_pos hcode]
  · obtain ⟨⟨h3, h7⟩, hindex⟩ := ((commandNamesNothing_iff code index).mp h).resolve_left hcode
    obtain ⟨c, hc, hof⟩ := CommandCode.ofCode_stream h3 h7
    rw [hof, if_neg hcode]
    fin_cases hc <;> exact State.streamCommand_badStream hindex _ s

/-- The BAD_COMMAND write posted (R169). -/
theorem exec_badCommand (code index : BitVec 4) {s : State} (hr : s.resetAsserted = false) :
    exec (.badCommand code index) s = .next {
      s.post code index (State.decodeCommand code index) with
        targetResponse := .answered } := targetWrite_next _ hr

/-- Settles O47: the accepted command by the parts it writes, and the refused word by how it is
decoded. -/
theorem clearCountersAndBadCommands : Obligations.ClearCountersAndBadCommands := by
  intro s hr
  refine ⟨fun index => ⟨_, exec_clearCounters index hr, rfl, rfl, s.commandClearCounters_stream,
    State.posted_changes s.commandClearCounters_changes (by decide) (by decide)⟩,
    fun code index h => ?_⟩
  rw [exec_badCommand code index hr, ← commandWord_eq, State.post, State.decodeCommand_nothing h]

end Sys2Proof.Machine
end

section
/-! Flag words, enable words, the summary and LINT# (O49). -/

namespace Sys2Proof.Machine

open Sys2Proof

/-! ### Writes to the event words (R157, R158) -/

/-- A word with the bits written as 1 Cleared (R157). -/
theorem getLsbD_writeOneToClear {w b : Nat} (flags : BitVec w) (value : Word) (hb : b < w) :
    (flags &&& ~~~(value.setWidth w)).getLsbD b = (flags.getLsbD b && !value.getLsbD b) := by
  simp [hb]

/-- An access that reaches one stream context: the others and the rest of the state stand. -/
theorem targetWrite_onStream {k : StreamNo} {g : State → State} {f : Stream → Stream} {s : State}
    (hg : g s = s.onStream k f) (hr : s.resetAsserted = false) :
    ∃ t, targetWrite g s = .next t ∧ t.streams[k] = f s.streams[k] ∧ s.otherStreamsSame k t
      ∧ s.changesOnly [.streams, .targetResponse] t :=
  ⟨{ s.onStream k f with targetResponse := .answered }, hg ▸ targetWrite_next g hr,
    State.onStream_self k f s, State.onStream_others k f s,
    (State.answered_changes (State.onStream_changes k f s)).mono (by decide)⟩

theorem exec_flagWrite_stream (k : StreamNo) (value : Word) {s : State}
    (hr : s.resetAsserted = false) :
    ∃ t, exec (.flagWrite (.stream k) value) s = .next t
      ∧ t.streams[k] =
          { s.streams[k] with flags := s.streams[k].flags &&& ~~~(value.setWidth 8) }
      ∧ s.otherStreamsSame k t ∧ s.changesOnly [.streams, .targetResponse] t :=
  targetWrite_onStream (g := State.clearFlags (.stream k) value)
    (f := fun st => { st with flags := st.flags &&& ~~~(value.setWidth 8) }) rfl hr

theorem exec_enableWrite_stream (k : StreamNo) (value : Word) {s : State}
    (hr : s.resetAsserted = false) :
    ∃ t, exec (.enableWrite (.stream k) value) s = .next t
      ∧ t.streams[k] = { s.streams[k] with enables := value.setWidth 8 }
      ∧ s.otherStreamsSame k t ∧ s.changesOnly [.streams, .targetResponse] t :=
  targetWrite_onStream (g := State.writeEnables (.stream k) value)
    (f := fun st => { st with enables := value.setWidth 8 }) rfl hr

theorem State.clearFlags_station_changes (value : Word) (s : State) :
    s.changesOnly [.stationFlags] (s.clearFlags .station value) := by
  intro p hp; cases p <;> first | rfl | exact absurd (by decide) hp

theorem State.writeEnables_station_changes (value : Word) (s : State) :
    s.changesOnly [.stationEnables] (s.writeEnables .station value) := by
  intro p hp; cases p <;> first | rfl | exact absurd (by decide) hp

/-! ### The summary (R159) -/

theorem bitVec_ne_zero_iff {w : Nat} (x : BitVec w) : x ≠ 0 ↔ ∃ b, x.getLsbD b = true := by
  constructor
  · intro hx
    by_contra hnone
    simp only [not_exists, Bool.not_eq_true] at hnone
    exact hx (BitVec.eq_of_getLsbD_eq fun b _ => (hnone b).trans BitVec.getLsbD_zero.symm)
  · rintro ⟨b, hb⟩ rfl
    simp at hb

/-- A summary bit: some flag of the word both Set and enabled. -/
theorem flags_and_enables_iff {w : Nat} (flags enables : BitVec w) :
    (flags &&& enables != 0) = true ↔
      ∃ b, flags.getLsbD b = true ∧ enables.getLsbD b = true := by
  simp only [bne_iff_ne, bitVec_ne_zero_iff, BitVec.getLsbD_and, Bool.and_eq_true]

theorem getLsbD_one_shiftLeft {n : Nat} (hn : n < 9) (b : Nat) :
    (1#9 <<< n).getLsbD b = true ↔ n = b := by
  simp only [BitVec.getLsbD_shiftLeft, BitVec.getLsbD_one, Bool.and_eq_true, Bool.not_eq_true',
    decide_eq_true_eq, decide_eq_false_iff_not]
  omega

/-- A bit of a word into which the bits of some streams were put. -/
theorem getLsbD_orStreams (p : StreamNo → Bool) (l : List StreamNo) (acc : BitVec 9) (b : Nat) :
    (l.foldl (fun acc k => if p k then acc ||| (1#9 <<< k.val) else acc) acc).getLsbD b = true ↔
      acc.getLsbD b = true ∨ ∃ k ∈ l, p k = true ∧ k.val = b := by
  induction l generalizing acc with
  | nil => simp
  | cons k l ih =>
    rw [List.foldl_cons, ih]
    cases hp : p k with
    | false => simp [hp]
    | true =>
      have hbit := getLsbD_one_shiftLeft (show k.val < 9 by omega) b
      simp only [if_true, BitVec.getLsbD_or, Bool.or_eq_true, hbit, List.exists_mem_cons_iff, hp,
        true_and, or_assoc]

/-- The station's own bit is bit 8 alone. -/
theorem getLsbD_stationBit (c : Bool) (b : Nat) :
    (if c then 0x100#9 else 0).getLsbD b = true ↔ c = true ∧ b = 8 := by
  cases c with
  | false => simp
  | true =>
    have hbit : (0x100#9).getLsbD b = true ↔ 8 = b := getLsbD_one_shiftLeft (n := 8) (by decide) b
    simp only [if_true, hbit, true_and, eq_comm]

theorem State.summary_getLsbD (s : State) (b : Nat) :
    s.summary.getLsbD b = true ↔
      (s.stationSummaryBit = true ∧ b = 8) ∨
        ∃ k : StreamNo, s.streams[k].summaryBit = true ∧ k.val = b := by
  unfold State.summary
  rw [getLsbD_orStreams (fun k => s.streams[k].summaryBit), getLsbD_stationBit]
  simp only [allStreams, List.mem_finRange, true_and]

theorem State.summary_stream (k : StreamNo) (s : State) :
    s.summary.getLsbD k.val = true ↔ s.streams[k].summaryBit = true := by
  rw [State.summary_getLsbD]
  constructor
  · rintro (⟨-, h8⟩ | ⟨j, hj, hjk⟩)
    · exact absurd h8 (Nat.ne_of_lt k.isLt)
    · exact Fin.ext hjk ▸ hj
  · exact fun h => .inr ⟨k, h, rfl⟩

theorem State.summary_station (s : State) :
    s.summary.getLsbD 8 = true ↔ s.stationSummaryBit = true := by
  rw [State.summary_getLsbD]
  constructor
  · rintro (⟨h, -⟩ | ⟨j, -, hj8⟩)
    · exact h
    · exact absurd hj8 (Nat.ne_of_lt j.isLt)
  · exact fun h => .inl ⟨h, rfl⟩

theorem State.lintAsserted_iff (s : State) :
    s.lintAsserted = true ↔ s.resetAsserted = false ∧ s.summary ≠ 0 := by
  simp [State.lintAsserted]

/-! ### The statement -/

/-- Settles O49: the two kinds of event word as written, then each summary bit and LINT#. -/
theorem eventWordsDecideInterrupt : Obligations.EventWordsDecideInterrupt := by
  refine ⟨fun value s hr => ⟨⟨_, targetWrite_next _ hr, fun b hb => ?_, ?_⟩, fun k => ?_⟩,
    fun value s hr => ⟨⟨_, targetWrite_next _ hr, rfl, ?_⟩, fun k => ?_⟩,
    fun s => ⟨fun k => ?_, ?_, ?_⟩⟩
  · exact getLsbD_writeOneToClear _ value hb
  · exact (State.answered_changes (s.clearFlags_station_changes value)).mono (by decide)
  · obtain ⟨t, hexec, hself, hothers, hframe⟩ := exec_flagWrite_stream k value hr
    refine ⟨t, hexec, fun b hb => ?_, ?_, hothers, hframe⟩
    · rw [hself]
      exact getLsbD_writeOneToClear _ value hb
    · rw [hself]
  · exact (State.answered_changes (s.writeEnables_station_changes value)).mono (by decide)
  · exact exec_enableWrite_stream k value hr
  · exact (s.summary_stream k).trans (flags_and_enables_iff _ _)
  · exact s.summary_station.trans (flags_and_enables_iff _ _)
  · exact s.lintAsserted_iff.trans (and_congr_right fun _ => bitVec_ne_zero_iff _)

end Sys2Proof.Machine
end

section
/-! Every command answers a next state, with the waiting commands and the sampled straps left alone (R171,
"What each step holds"). -/

namespace Sys2Proof.Machine

open Sys2Proof

/-! ### A next state for every command -/

theorem event_answers (f : State → State) (s : State) : ∃ t, event f s = .next t := ⟨_, rfl⟩

theorem targetWrite_answers (f : State → State) (s : State) : ∃ t, targetWrite f s = .next t := ⟨_, rfl⟩

/-- A meaning is a reset, a write to the window, or an event, and each of the three answers a next state. -/
theorem exec_answers (c : Instr) (s : State) : ∃ t, exec c s = .next t := by
  cases c with
  | hardwareReset | resetRelease _ | targetAccessDuringReset _ _ => exact ⟨_, rfl⟩
  | readyWrite _ _ | join _ | leave _ | start _ | stop _ | pause _ | resume _ | resetStream _
  | clearCounters _ | badCommand _ _ | configWrite _ _ _ | flagWrite _ _ | enableWrite _ _
  | registerWrite _ _ => exact targetWrite_answers _ s
  | cleanClaim _ _ _ _ | cleanRelease _ _ _ _ | backoffExpiry _ =>
    simp only [exec, execCleanClaim, execCleanRelease, execBackoffExpiry]
    exact event_answers _ s
  | _ => exact event_answers _ s

/-! ### The two fields that stay -/

/-- No command has the waiting commands among its parts, a hardware reset included (log 17). -/
theorem pending_notMem_changedParts (c : Instr) : StatePart.pending ∉ changedParts c := by
  cases c <;> simp [changedParts]

/-- RESET_RELEASE alone has the straps among its parts (R171). -/
theorem straps_mem_changedParts (c : Instr) :
    StatePart.straps ∈ changedParts c ↔ ∃ x, c = .resetRelease x := by
  cases c <;> simp [changedParts]

theorem exec_pending {c : Instr} {s t : State} (h : exec c s = .next t) : t.pending = s.pending :=
  exec_changes c h .pending (pending_notMem_changedParts c)

/-- The straps stay at HARDWARE_RESET too, beside `exec_straps` for the commands of no reset. -/
theorem exec_straps_of_ne_release {c : Instr} {s t : State} (hc : ∀ x, c ≠ .resetRelease x)
    (h : exec c s = .next t) : t.straps = s.straps :=
  exec_changes c h .straps fun hm =>
    have ⟨x, hx⟩ := (straps_mem_changedParts c).mp hm
    hc x hx

/-! ### The statement -/

/-- Settles O2: the answer, then its frame from the table of the parts that each command changes. -/
theorem everyCommandAnswersNext : Obligations.EveryCommandAnswersNext := by
  intro c s
  obtain ⟨t, ht⟩ := exec_answers c s
  exact ⟨t, ht, exec_pending ht, fun hc => exec_straps_of_ne_release hc ht⟩

end Sys2Proof.Machine
end

section
/-! A step runs the command at the front of the queue on the state with the queue's rest, and idles on an
empty queue (log 2, "What each step holds"). -/

namespace Sys2Proof.Machine

open Sys2Proof

theorem step_of_pending_cons {c : Instr} {cs : List Instr} {s : State} (h : s.pending = c :: cs) :
    step s = exec c { s with pending := cs } := by
  simp only [step, h]

theorem step_of_pending_nil {s : State} (h : s.pending = []) : step s = .next s := by
  simp only [step, h]

/-- Settles O1: the step's two cases, by the queue. -/
theorem stepTakesFrontCommand : Obligations.StepTakesFrontCommand :=
  ⟨fun _ _ _ h => step_of_pending_cons h, fun _ h => step_of_pending_nil h⟩

end Sys2Proof.Machine
end

section
/-! The Control Cell Queue stays in step with the queued marks of the map (O56): what the operations of
each block keep is put together for every command. -/

namespace Sys2Proof.Machine

open Sys2Proof

/-! ### The statement about two parts of the state -/

theorem fits_depends : DependsOn [.slotMap, .ccq] State.fits := fun s t hsame h => by
  have hmap : t.slotMap = s.slotMap := hsame .slotMap (by decide)
  have hqueue : t.ccq = s.ccq := hsame .ccq (by decide)
  exact State.fits_same hmap hqueue h

theorem afterReset_fits (x : Straps) : (State.afterReset x).fits := by
  obtain ⟨-, -, -, -, hqueue, hagree, -⟩ := invariantsHoldAfterReset x
  exact (queueFits_iff _).mpr ⟨hqueue, hagree⟩

/-! ### What is heard -/

theorem State.fits_cleanSlotCell {s : State} (h : s.fits) (i : SlotNo) (x : StationNo) (t : Tag)
    (d : DataKind) : (s.cleanSlotCell i x t d).fits := by
  unfold State.cleanSlotCell
  split
  · exact h
  split
  · exact State.fits_missedSlot i true h
  split
  · exact State.fits_sighting _ (fun _ => State.fits_missedSlot i true) h
  · exact State.fits_onLnu _ (State.fits_onStreams _ (State.fits_onRsu _ (State.fits_learn h i x t)))

theorem State.fits_taggedControl {s : State} (h : s.fits) (w : OpenSlot) (x : StationNo) (t : Tag)
    {f : State → State} (hf : ∀ s : State, s.fits → (f s).fits) :
    (if t = 0 then s.onLnu (LineUnit.reported (.openSlot w)) else s.cleanControl w x f).fits := by
  split
  · exact State.fits_onLnu _ h
  · exact State.fits_cleanControl w x f hf h

theorem State.fits_garbledAt {s : State} (h : s.fits) (ended : Instant) (p : Position) :
    (s.garbledAt ended p).fits := by
  cases p with
  | markField => exact State.fits_garbledMark ended h
  | dataSlot i => exact State.fits_missedSlot i true h
  | openSlot w => exact State.fits_onLnu _ h
  | outside => exact State.fits_onLnu _ h

theorem State.fits_sightingAt {s : State} (h : s.fits) (p : Position) (c : CellKind)
    (ended : Instant) : (s.sightingAt p c ended).fits := by
  unfold State.sightingAt
  split
  · exact h
  split
  · exact State.fits_sighting _ (fun _ hs => State.fits_garbledAt hs ended p) h
  · exact State.fits_garbledAt h ended p

/-! ### Marks -/

theorem State.fits_cleanMark {s : State} (h : s.fits) (heard : MarkHeard) (o : Fin 24) :
    (s.cleanMark heard o).fits := by
  cases heard with
  | own =>
    show (s.ownMarkHeard o).fits
    unfold State.ownMarkHeard
    split
    · exact h
    have hended := State.fits_onMku (fun m => { m with ownMark := .none })
      (State.fits_onLnu LineUnit.endTx h)
    dsimp only
    split
    · exact State.fits_anchorMark _ _ _ _ _ hended
    · exact hended
  | other onset x f =>
    show (s.otherMarkHeard onset x f o).fits
    unfold State.otherMarkHeard
    dsimp only
    split
    · exact h
    split
    · exact State.fits_garbledMark _ h
    split
    · exact State.fits_sighting _ (fun _ => State.fits_garbledMark _) h
    · exact State.fits_anchorMark _ _ _ _ _ h

theorem State.fits_isolate (m : Membership) (e : StationEvent) (s : State) : (s.isolate m e).fits := by
  unfold State.isolate
  exact State.fits_wipeAll _

theorem State.fits_rosterSyncLoss {s : State} (h : s.fits) : s.rosterSyncLoss.fits := by
  unfold State.rosterSyncLoss
  split
  · exact State.fits_isolate _ _ s
  · exact State.fits_isolate _ _ s
  · exact State.fits_isolate _ _ s
  · exact State.fits_isolate _ _ s
  · exact h
  · exact h

theorem State.fits_syncLoss {s : State} (h : s.fits) : s.syncLoss.fits := by
  have hmark : s.markSyncLoss.fits := State.fits_onMku _ (State.fits_onLnu _ h)
  unfold State.syncLoss
  split
  · exact h
  · exact State.fits_rosterSyncLoss hmark

/-! ### The local bus and the COMMAND word -/

theorem State.fits_accessError {s : State} (h : s.fits) (k : StreamNo) : (s.accessError k).fits := by
  unfold State.accessError
  dsimp only
  split
  · exact h
  split
  · exact State.fits_releaseTrigger (State.fits_onStream _ _ h) k
  · exact State.fits_onStream _ _ h

theorem State.fits_commandJoin {s : State} (h : s.fits) : s.commandJoin.1.fits := by
  unfold State.commandJoin
  split
  · exact h
  split
  · exact State.fits_setMembership _ (State.fits_onRsu _ h)
  all_goals exact h

theorem State.fits_commandLeave {s : State} (h : s.fits) : s.commandLeave.1.fits := by
  by_cases hok : s.commandLeave.2 = .ok
  · have hbusy := (State.commandLeave_accepted hok).2.2
    by_cases hmember : s.rsu.membership = .member
    · rw [State.commandLeave_member hbusy hmember]
      exact State.fits_offerLeave (State.fits_setMembership _ h)
    by_cases hjoining : s.rsu.membership = .joining
    · rw [State.commandLeave_joining hbusy hjoining]
      exact State.fits_raise _ (State.fits_setMembership _
        (State.fits_onRsu _ (State.fits_withdrawJoin h)))
    · obtain ⟨u, hu, hframe, hqueue⟩ := State.commandLeave_departs hok hmember
      rw [hu]
      exact State.fits_raise _ (State.fits_setMembership _
        (State.fits_same (hframe .slotMap (by decide)) (hqueue hjoining) h))
  · rw [State.commandLeave_refused hok]
    exact h

theorem State.fits_commandStop {s : State} (h : s.fits) (k : StreamNo) : (s.commandStop k).1.fits := by
  have hstop : (if s.streams[k].isTalk then s.stopTalk k .command
      else s.onStream k Stream.stopListen).fits := by
    split
    · exact State.fits_stopTalk k _ h
    · exact State.fits_onStream _ _ h
  unfold State.commandStop
  dsimp only
  split
  all_goals first
    | exact h
    | exact hstop

theorem State.fits_post {s : State} (code index : BitVec 4) {run : State → Commanded}
    (h : (run s).1.fits) : (s.post code index run).fits :=
  State.fits_same (s := (run s).1) rfl rfl h

theorem State.fits_writeCommand {s : State} (h : s.fits) (code index : BitVec 4) :
    (s.writeCommand code index).fits := by
  refine State.fits_post code index ?_
  obtain he | he | ⟨k, he⟩ | hframe := s.decodeCommand_cases code index
  · exact he ▸ State.fits_commandJoin h
  · exact he ▸ State.fits_commandLeave h
  · exact he ▸ State.fits_commandStop h k
  · exact State.fits_frame hframe (by decide) (by decide) h

theorem State.fits_writeWord {s : State} (h : s.fits) (index : BitVec 8) (w : Word) :
    (s.writeWord index w).fits := by
  obtain ⟨code, i, he⟩ | hframe := s.writeWord_cases index w
  · exact he ▸ State.fits_writeCommand h code i
  · exact State.fits_frame hframe (by decide) (by decide) h

/-! ### The statement -/

theorem exec_keeps_fits (c : Instr) (s t : State) (hs : s.fits) (h : exec c s = .next t) : t.fits := by
  have hwrite {f : State → State} (hf : (f s).fits) (h : targetWrite f s = .next t) : t.fits :=
    targetWrite_keeps fits_depends (by decide) hs hf h
  cases c with
  | hardwareReset | resetRelease _ =>
    exact exec_reset_keeps fits_depends (by decide) afterReset_fits rfl hs h
  | dataSlotStart i => exact event_keeps hs (State.fits_dataSlotStart i hs) h
  | graceExpiry k =>
    refine event_keeps hs ?_ h
    split
    · exact State.fits_stopTalk k _ hs
    · exact hs
  | dataSlotEcho matched first => exact event_keeps hs (State.fits_dataSlotEcho matched first hs) h
  | cleanDataCell i x t d => exact event_keeps hs (State.fits_cleanSlotCell hs i x t d) h
  | garbledOrSilentDataSlot i g =>
    refine event_keeps hs ?_ h
    split
    · exact State.fits_missedSlot i g hs
    · exact hs
  | aging i => exact event_keeps hs (State.fits_ageOut hs i) h
  | openSlotStart w => exact event_keeps hs (State.fits_openSlotStart w hs) h
  | openSlotEcho matched => exact event_keeps hs (State.fits_openSlotEcho matched hs) h
  | cleanClaim w x i t =>
    unfold exec execCleanClaim at h
    refine event_keeps hs ?_ h
    exact State.fits_taggedControl hs w x t fun u hu =>
      State.fits_onRsu _ (State.fits_hearClaim hu i x t)
  | cleanRelease w x i t =>
    unfold exec execCleanRelease at h
    refine event_keeps hs ?_ h
    exact State.fits_taggedControl hs w x t fun u hu =>
      State.fits_onRsu _ (State.fits_hearRelease hu i x)
  | cleanLeave w x =>
    refine event_keeps hs ?_ h
    exact State.fits_cleanControl w x _ (fun u hu => State.fits_onRsu _ (State.fits_leave hu x)) hs
  | cleanJoin w x =>
    refine event_keeps hs ?_ h
    exact State.fits_cleanControl w x _ (fun u hu => State.fits_onRsu _ hu) hs
  | duplicateAddressSighting p d ended =>
    exact event_keeps hs (State.fits_sightingAt hs p d ended) h
  | cleanMark heard o => exact event_keeps hs (State.fits_cleanMark hs heard o) h
  | learnCountDone =>
    refine event_keeps hs ?_ h
    split
    · exact State.fits_learnDone hs
    · exact hs
  | joinTimerExpiry =>
    refine event_keeps hs ?_ h
    split
    · exact State.fits_joinTimerDone hs
    · exact hs
  | backoffExpiry i =>
    unfold exec execBackoffExpiry at h
    refine event_keeps hs ?_ h
    split
    · rename_i t k b hentry
      split
      · exact State.fits_setEntry hs i .free
          (by rw [show s.slotMap[i.val] = .collided t k b from hentry]; rfl) rfl
      · exact hs
    · exact hs
  | headWaitExpiry =>
    refine event_keeps hs ?_ h
    split
    · exact QueueFits.onMark hs
    · exact hs
  | syncLoss => exact event_keeps hs (State.fits_syncLoss hs) h
  | accessError k => exact event_keeps hs (State.fits_accessError hs k) h
  | join index =>
    exact hwrite (f := State.post _ index State.commandJoin)
      (State.fits_post _ _ (State.fits_commandJoin hs)) h
  | leave index =>
    exact hwrite (f := State.post _ index State.commandLeave)
      (State.fits_post _ _ (State.fits_commandLeave hs)) h
  | stop k =>
    exact hwrite (f := State.post _ _ (State.commandStop k))
      (State.fits_post _ _ (State.fits_commandStop hs k)) h
  | badCommand code index => exact hwrite (State.fits_writeCommand hs code index) h
  | registerWrite index w => exact hwrite (State.fits_writeWord hs index w) h
  | _ => exact fits_depends.frame hs (exec_changes _ h) (by simp [changedParts])

/-- Settles O56: every command keeps map and queue in step, by what each block's operations keep. -/
theorem stepKeepsQueueInStep : Obligations.StepKeepsQueueInStep := by
  intro s t hs h
  rw [← queueFits_iff] at hs ⊢
  exact step_keeps fits_depends (by decide) exec_keeps_fits hs h

end Sys2Proof.Machine
end

section
/-! The Slot Map stays sound (O54): each held count is that of the map, at most 16 entries are own, and a
HELD entry is another station's. What a change of the map must meet is said once, for any change that makes
no own entry; auto-claim alone makes one, and counts the own entries first (R22, R34). -/

namespace Sys2Proof.Machine

open Sys2Proof

/-! ### Counting entries -/

theorem countEntries_finRange (p : SlotEntry → Bool) (m : Vector SlotEntry 48) :
    countEntries p m = (List.finRange 48).countP fun i => p m[i.val] := by
  have hlist : m.toList = (List.finRange 48).map fun i => m[i.val] := by
    apply List.ext_getElem <;> simp
  rw [countEntries, hlist, List.countP_map]
  rfl

theorem countEntries_mono {p : SlotEntry → Bool} {m m' : Vector SlotEntry 48}
    (h : ∀ i : SlotNo, p m'[i.val] = true → p m[i.val] = true) :
    countEntries p m' ≤ countEntries p m := by
  rw [countEntries_finRange, countEntries_finRange]
  exact List.countP_mono_left fun i _ => h i

theorem countEntries_congr {p : SlotEntry → Bool} {m m' : Vector SlotEntry 48}
    (h : ∀ i : SlotNo, p m'[i.val] = p m[i.val]) : countEntries p m' = countEntries p m :=
  le_antisymm (countEntries_mono fun i hi => h i ▸ hi) (countEntries_mono fun i hi => (h i).symm ▸ hi)

/-! ### The invariant -/

/-- A HELD entry is another station's, with a tag (R21). -/
def SlotEntry.Foreign (stn : StationNo) : SlotEntry → Prop
  | .held x t _ => x ≠ 0 ∧ x ≠ stn ∧ t ≠ 0
  | _ => True

theorem heldEntriesForeign_iff (s : State) :
    HeldEntriesForeign s ↔ ∀ i : SlotNo, s.slotMap[i.val].Foreign s.straps.stn := by
  constructor
  · intro h i
    unfold SlotEntry.Foreign
    split
    · rename_i x t n hentry
      exact h i x t n hentry
    · trivial
  · intro h i x t n hentry
    have hi := h i
    rw [show s.slotMap[i.val] = .held x t n from hentry] at hi
    exact hi

/-- The three invariants of the Slot Map (R21, R22, R23). -/
structure State.MapSound (s : State) : Prop where
  counts : HeldCountsMatch s
  limit : OwnWithinLimit s
  foreign : ∀ i : SlotNo, s.slotMap[i.val].Foreign s.straps.stn

theorem mapSound_iff (s : State) :
    s.MapSound ↔ HeldCountsMatch s ∧ OwnWithinLimit s ∧ HeldEntriesForeign s :=
  ⟨fun h => ⟨h.counts, h.limit, (heldEntriesForeign_iff s).mpr h.foreign⟩,
    fun ⟨hcounts, hlimit, hforeign⟩ => ⟨hcounts, hlimit, (heldEntriesForeign_iff s).mp hforeign⟩⟩

theorem State.MapSound.same {s t : State} (h : s.MapSound) (hstraps : t.straps = s.straps)
    (hmap : t.slotMap = s.slotMap) (hheld : ∀ k : StreamNo, t.streams[k].held = s.streams[k].held) :
    t.MapSound where
  counts k := by rw [hheld, hmap]; exact h.counts k
  limit := by unfold OwnWithinLimit; rw [hmap]; exact h.limit
  foreign := by rw [hmap, hstraps]; exact h.foreign

theorem mapSound_depends : DependsOn [.straps, .slotMap, .streams] State.MapSound :=
  fun s t hsame h => by
    have hstreams : t.streams = s.streams := hsame .streams (by decide)
    exact h.same (hsame .straps (by decide)) (hsame .slotMap (by decide)) fun k => by rw [hstreams]

theorem afterReset_mapSound (x : Straps) : (State.afterReset x).MapSound := by
  obtain ⟨hcounts, hlimit, hforeign, -⟩ := invariantsHoldAfterReset x
  exact (mapSound_iff _).mpr ⟨hcounts, hlimit, hforeign⟩

theorem SlotEntry.setQueued_isMineFor (k : StreamNo) (e : SlotEntry) :
    e.setQueued.isMineFor k = e.isMineFor k := by
  cases e <;> rfl

theorem SlotEntry.setQueued_isOwn (e : SlotEntry) : e.setQueued.isOwn = e.isOwn := by
  cases e <;> rfl

theorem SlotEntry.setQueued_foreign {stn : StationNo} {e : SlotEntry} (h : e.Foreign stn) :
    e.setQueued.Foreign stn := by
  cases e <;> exact h

theorem SlotEntry.trigger_isOwn {k : StreamNo} {e : SlotEntry} (h : (e.trigger k).isOwn = true) :
    e.isOwn = true := by
  cases e with
  | free | held _ _ _ => exact h
  | claiming _ _ _ | mine _ _ | releasing _ _ _ | collided _ _ _ => rfl

theorem SlotEntry.trigger_held {stn : StationNo} {k : StreamNo} {e : SlotEntry}
    (h : e.Foreign stn) : (e.trigger k).Foreign stn := by
  cases e with
  | mine _ j | claiming _ j _ | collided _ j _ =>
    simp only [SlotEntry.trigger]
    split <;> trivial
  | free | held _ _ _ | releasing _ _ _ => exact h

theorem Stream.answer_held (st : Stream) : st.answer.2.held = st.held := by
  have htable := st.answer_table
  split at htable
  · rw [htable]
  · rw [htable]
  · obtain ⟨-, -, hfill⟩ := htable
    rw [hfill]

namespace State.MapSound

section
variable {s : State}

/-! ### The named updates -/

theorem frame {ps : List StatePart} {t : State} (h : s.MapSound) (hc : s.changesOnly ps t)
    (hd : ∀ p ∈ [StatePart.straps, .slotMap, .streams], p ∉ ps) : t.MapSound :=
  mapSound_depends.frame h hc hd

theorem onLnu (h : s.MapSound) (f : LineUnit → LineUnit) : (s.onLnu f).MapSound :=
  h.frame (State.onLnu_changes f s) (by decide)

theorem onRsu (h : s.MapSound) (f : RosterUnit → RosterUnit) : (s.onRsu f).MapSound :=
  h.frame (State.onRsu_changes f s) (by decide)

theorem onCcq (h : s.MapSound) (f : CellQueue → CellQueue) : (s.onCcq f).MapSound :=
  h.frame (State.onCcq_changes f s) (by decide)

theorem onCounters (h : s.MapSound) (f : StationCounters → StationCounters) :
    (s.onCounters f).MapSound :=
  h.frame (State.onCounters_changes f s) (by decide)

theorem onStream (h : s.MapSound) (k : StreamNo) {f : Stream → Stream}
    (hf : ∀ st, (f st).held = st.held) : (s.onStream k f).MapSound := by
  refine h.same rfl rfl fun j => ?_
  simp only [Fin.getElem_fin, State.onStream_get]
  split
  · rename_i hj
    rw [hj, hf]
  · rfl

theorem onStreams (h : s.MapSound) {f : StreamNo → Stream → Stream}
    (hf : ∀ k st, (f k st).held = st.held) : (s.onStreams f).MapSound := by
  refine h.same rfl rfl fun j => ?_
  simp only [Fin.getElem_fin, State.onStreams_get, hf]

/-- A change of the whole map reports the held counts in the same change (R23). -/
theorem installMap (h : s.MapSound) {m : Vector SlotEntry 48}
    (hown : ∀ i : SlotNo, m[i.val].isOwn = true → s.slotMap[i.val].isOwn = true)
    (hforeign : ∀ i : SlotNo, m[i.val].Foreign s.straps.stn) : (s.installMap m).MapSound where
  counts k := by
    simp only [Fin.getElem_fin, State.installMap_get, reportMap_held, State.installMap_slotMap]
  limit := le_trans (countEntries_mono hown) h.limit
  foreign := hforeign

theorem setEntry (h : s.MapSound) (i : SlotNo) {e : SlotEntry}
    (hown : e.isOwn = true → s.slotMap[i.val].isOwn = true) (he : e.Foreign s.straps.stn) :
    (s.setEntry i e).MapSound := by
  refine h.installMap (fun j hj => ?_) fun j => ?_
  · rw [slotMap_set_get] at hj
    split at hj
    · rename_i hji
      rw [hji]
      exact hown hj
    · exact hj
  · rw [slotMap_set_get]
    split
    · exact he
    · exact h.foreign j

theorem free (h : s.MapSound) (i : SlotNo) : (s.setEntry i .free).MapSound :=
  h.setEntry i (fun he => Bool.noConfusion he) trivial

theorem mapEntries (h : s.MapSound) {f : SlotEntry → SlotEntry}
    (hown : ∀ e, (f e).isOwn = true → e.isOwn = true)
    (hf : ∀ e, e.Foreign s.straps.stn → (f e).Foreign s.straps.stn) : (s.mapEntries f).MapSound := by
  refine h.installMap (fun j hj => ?_) fun j => ?_
  · rw [Vector.getElem_ofFn] at hj
    exact hown _ hj
  · rw [Vector.getElem_ofFn]
    exact hf _ (h.foreign j)

theorem withdrawIfQueued (h : s.MapSound) (i : SlotNo) (why : Withdrawal) :
    (s.withdrawIfQueued i why).MapSound :=
  h.frame (s.withdrawIfQueued_changes i why) (by decide)

/-- An entry that is another station's from now on; its withdrawal leaves map and straps alone. -/
theorem held (h : s.MapSound) (i : SlotNo) {x : StationNo} {t : Tag} (n : Fin 8)
    (hx : x ≠ 0 ∧ x ≠ s.straps.stn ∧ t ≠ 0) : (s.setEntry i (.held x t n)).MapSound :=
  h.setEntry i (fun he => Bool.noConfusion he) hx

theorem withdrawHeld (h : s.MapSound) (i : SlotNo) (why : Withdrawal) {x : StationNo} {t : Tag}
    (n : Fin 8) (hx : x ≠ 0 ∧ x ≠ s.straps.stn ∧ t ≠ 0) :
    ((s.withdrawIfQueued i why).setEntry i (.held x t n)).MapSound := by
  have hstraps : (s.withdrawIfQueued i why).straps = s.straps :=
    s.withdrawIfQueued_changes i why .straps (by decide)
  exact (h.withdrawIfQueued i why).held i n (hstraps ▸ hx)

/-! ### What is heard -/

theorem collide (h : s.MapSound) (i : SlotNo) : (s.collide i).MapSound := by
  have hcounted := h.onCounters StationCounters.addCollide
  unfold State.collide
  dsimp only
  split
  · rename_i t k hentry
    have hown : s.slotMap[i.val].isOwn = true := by
      rw [show s.slotMap[i.val] = .mine t k from hentry]
      rfl
    exact hcounted.setEntry i (fun _ => hown) trivial
  · exact (hcounted.withdrawIfQueued i .gone).free i
  all_goals exact hcounted

theorem learn (h : s.MapSound) (i : SlotNo) {x : StationNo} {t : Tag}
    (hx : x ≠ 0 ∧ x ≠ s.straps.stn ∧ t ≠ 0) : (s.learn i x t).MapSound := by
  unfold State.learn
  split
  · exact h.held i 0 hx
  · dsimp only
    split
    · exact h.held i 0 hx
    · exact (h.held i 0 hx).onCounters _
  · exact h.withdrawHeld i .taken 0 hx
  · exact h.held i 0 hx
  · exact h
  · exact h

theorem ageOut (h : s.MapSound) (i : SlotNo) : (s.ageOut i).MapSound := by
  unfold State.ageOut
  split
  · split
    · exact (h.free i).onCounters _
    · exact h
  · exact h

theorem missSlot (h : s.MapSound) (i : SlotNo) (g : Bool) : (s.missSlot i g).MapSound := by
  have hcounted : (if g then s.onCounters StationCounters.addCheckErr else s).MapSound := by
    split
    · exact h.onCounters _
    · exact h
  unfold State.missSlot
  dsimp only
  split
  · rename_i x t n hentry
    split
    · exact hcounted.ageOut i
    · refine hcounted.held i _ ?_
      have hforeign := hcounted.foreign i
      rw [Fin.getElem_fin] at hentry
      rw [hentry] at hforeign
      exact hforeign
  · exact hcounted

theorem hearClaim (h : s.MapSound) (i : SlotNo) {x : StationNo} {t : Tag}
    (hx : x ≠ 0 ∧ x ≠ s.straps.stn ∧ t ≠ 0) : (s.hearClaim i x t).MapSound := by
  unfold State.hearClaim
  split
  · exact h.held i 0 hx
  · exact h.withdrawHeld i .taken 0 hx
  all_goals exact h

theorem hearRelease (h : s.MapSound) (i : SlotNo) (x : StationNo) : (s.hearRelease i x).MapSound := by
  unfold State.hearRelease
  split
  · split
    · exact h.free i
    · exact h
  · exact h

theorem leave (h : s.MapSound) (x : StationNo) : (s.mapEntries (SlotEntry.leave x)).MapSound := by
  refine h.mapEntries (fun e he => ?_) fun e he => ?_
  · cases e with
    | held y t n =>
      simp only [SlotEntry.leave] at he
      split at he <;> exact Bool.noConfusion he
    | _ => exact he
  · cases e with
    | held y t n =>
      simp only [SlotEntry.leave]
      split
      · trivial
      · exact he
    | _ => exact he

/-! ### The work at a Mark -/

/-- A FREE entry claimed while the station holds fewer than 16 (R22, R34). -/
theorem claim (h : s.MapSound) {i : SlotNo} (hfree : s.slotMap[i.val] = .free)
    (hroom : ownTotal s.slotMap < 16) (t : Tag) (k : StreamNo) :
    (s.putEntry i (.claiming t k false)).MapSound where
  counts j := by
    have hset := countEntries_set (·.isMineFor j) s.slotMap i (.claiming t k false)
    have hheld : s.streams[j].held = mineCount s.slotMap j := h.counts j
    have hmine : (SlotEntry.claiming t k false).isMineFor j = SlotEntry.free.isMineFor j := rfl
    rw [hfree, hmine] at hset
    exact hheld.trans (Nat.add_right_cancel hset).symm
  limit := by
    have hset := countEntries_set SlotEntry.isOwn s.slotMap i (.claiming t k false)
    simp only [hfree, SlotEntry.isOwn, SlotEntry.stream?] at hset
    show countEntries SlotEntry.isOwn (s.slotMap.set i.val _) ≤ 16
    have : countEntries SlotEntry.isOwn s.slotMap < 16 := hroom
    simp at hset
    omega
  foreign j := by
    rw [State.putEntry_get]
    split
    · trivial
    · exact h.foreign j

theorem autoClaim (h : s.MapSound) (k : StreamNo) : (s.autoClaim k).MapSound := by
  unfold State.autoClaim
  split
  · rename_i hmay
    split
    · rename_i i hi
      have hroom : ownTotal s.slotMap < 16 := by
        simp only [State.mayClaim, Bool.and_eq_true, decide_eq_true_eq] at hmay
        exact hmay.2
      exact h.claim (firstFree_some hi) hroom _ k
    · exact h.onStream k fun st => by simp
  · exact h

theorem offerAll (h : s.MapSound) (is : List SlotNo) : (s.offerAll is).MapSound where
  counts k := by
    refine (h.counts k).trans (countEntries_congr fun i => ?_).symm
    obtain he | ⟨-, he⟩ := State.offerAll_get is s i
    · rw [he]
    · rw [he, SlotEntry.setQueued_isMineFor]
  limit := by
    refine le_trans (countEntries_mono fun i hi => ?_) h.limit
    obtain he | ⟨-, he⟩ := State.offerAll_get is s i
    · rwa [he] at hi
    · rwa [he, SlotEntry.setQueued_isOwn] at hi
  foreign i := by
    show (s.offerAll is).slotMap[i.val].Foreign s.straps.stn
    obtain he | ⟨-, he⟩ := State.offerAll_get is s i
    · exact he ▸ h.foreign i
    · exact he ▸ SlotEntry.setQueued_foreign (h.foreign i)

theorem tickBackoff (h : s.MapSound) : (s.mapEntries SlotEntry.tickBackoff).MapSound := by
  refine h.mapEntries (fun e he => ?_) fun e he => ?_
  · cases e with
    | collided _ _ _ => rfl
    | _ => exact he
  · cases e with
    | collided t k b =>
      simp only [SlotEntry.tickBackoff]
      split <;> trivial
    | _ => exact he

theorem foldl {α : Type} {f : State → α → State} (hf : ∀ u a, u.MapSound → (f u a).MapSound)
    (l : List α) (h : s.MapSound) : (l.foldl f s).MapSound := by
  induction l generalizing s with
  | nil => exact h
  | cons a l ih => exact ih (hf s a h)

theorem slotAgentMark (h : s.MapSound) : s.slotAgentMark.MapSound := by
  have hticked : ((s.mapEntries SlotEntry.tickBackoff).onStreams
      fun _ => Stream.tickPause).MapSound := h.tickBackoff.onStreams fun _ _ => rfl
  unfold State.slotAgentMark
  exact (foldl (fun _ k hu => hu.autoClaim k) allStreams hticked).offerAll allSlots

/-! ### Outcomes, releases and wipes -/

theorem claimOutcome (h : s.MapSound) (i : SlotNo) (o : CellOutcome) :
    (s.claimOutcome i o).MapSound := by
  unfold State.claimOutcome
  split
  · rename_i t k q hentry
    have hown : s.slotMap[i.val].isOwn = true := by
      rw [show s.slotMap[i.val] = .claiming t k q from hentry]
      rfl
    exact h.setEntry i (fun _ => hown) trivial
  · exact (h.free i).onStream _ fun _ => rfl
  · exact h

theorem releaseOutcome (h : s.MapSound) (i : SlotNo) (o : CellOutcome) :
    (s.releaseOutcome i o).MapSound := by
  unfold State.releaseOutcome
  split
  · exact h.free i
  · exact h.free i
  · exact h

theorem takeOutcome (h : s.MapSound) (c : QueueCell) (o : CellOutcome) :
    (s.takeOutcome c o).MapSound := by
  cases c with
  | join => exact h.frame (s.joinOutcome_changes o) (by decide)
  | leave => exact h.frame (s.leaveOutcome_changes o) (by decide)
  | claim i _ _ => exact h.claimOutcome i o
  | release i _ => exact h.releaseOutcome i o

theorem releaseTrigger (h : s.MapSound) (k : StreamNo) : (s.releaseTrigger k).MapSound := by
  have hmap (l : List SlotNo) : ((l.foldl (fun s i => s.withdrawIfQueued i .gone) s).mapEntries
      (SlotEntry.trigger k)).MapSound :=
    (foldl (fun _ i hu => hu.withdrawIfQueued i .gone) l h).mapEntries
      (fun _ => SlotEntry.trigger_isOwn) fun _ => SlotEntry.trigger_held
  have hshort (l is : List SlotNo) : ((((l.foldl (fun s i => s.withdrawIfQueued i .gone) s).mapEntries
      (SlotEntry.trigger k)).onStream k fun st => { st with short := false }).offerAll is).MapSound :=
    ((hmap l).onStream k (f := fun st => { st with short := false }) fun _ => rfl).offerAll is
  unfold State.releaseTrigger
  dsimp only
  split
  · exact (hshort _ _).onStream k fun st => by simp
  · exact hshort _ _

theorem stopTalk (h : s.MapSound) (k : StreamNo) (c : StopCause) : (s.stopTalk k c).MapSound :=
  (h.onStream k fun st => by simp).releaseTrigger k

theorem wipeAll (h : s.MapSound) : s.wipeAll.MapSound :=
  (h.mapEntries (f := fun _ => .free) (fun _ he => Bool.noConfusion he) fun _ _ => trivial).onCcq _

theorem wipeOwn (h : s.MapSound) : s.wipeOwn.MapSound := by
  refine (h.mapEntries (fun e he => ?_) fun e he => ?_).onCcq _
  · cases e with
    | free | held _ _ _ => exact he
    | claiming _ _ _ | mine _ _ | releasing _ _ _ | collided _ _ _ => rfl
  · cases e with
    | free | held _ _ _ => exact he
    | claiming _ _ _ | mine _ _ | releasing _ _ _ | collided _ _ _ => trivial

theorem faultDuplicate (h : s.MapSound) (k : StreamNo) : (s.faultDuplicate k).MapSound := by
  unfold State.faultDuplicate
  dsimp only
  split
  · exact (h.onStream k fun st => by simp).releaseTrigger k
  · exact h

theorem duplicateSeen (h : s.MapSound) : s.duplicateSeen.MapSound := by
  have hdormant : (((s.onRsu RosterUnit.rest).setMembership .dormant).raise .duplicate).MapSound :=
    ((h.onRsu _).onRsu _).frame (State.raise_changes _ _) (by decide)
  unfold State.duplicateSeen
  exact foldl (fun _ k hu => hu.faultDuplicate k) allStreams hdormant.wipeOwn

theorem sighting (h : s.MapSound) {g : State → State} (hg : (g s).MapSound) :
    (s.sighting g).MapSound := by
  unfold State.sighting
  split
  · exact h
  · exact hg.duplicateSeen

/-! ### Data Slots -/

theorem dataSlotStart (h : s.MapSound) (i : SlotNo) : (s.dataSlotStart i).MapSound := by
  unfold State.dataSlotStart
  split
  swap
  · exact h
  refine onStreams (f := fun _ => Stream.setExpect s.slotMap[i]) ?_ fun _ st => by simp
  unfold State.handSlotCell
  split
  · unfold State.askEngine
    dsimp only
    split
    · exact (h.onLnu _).stopTalk _ _
    · exact (h.onLnu _).onStream _ (f := fun st => st.answer.2) Stream.answer_held
  · exact h.onLnu _
  all_goals exact h

theorem engineEcho (h : s.MapSound) (d : DataKind) (k : Option StreamNo) :
    (s.engineEcho d k).MapSound := by
  unfold State.engineEcho
  split
  · exact h.onStream _ fun st => by simp
  · exact h

theorem slotEcho (h : s.MapSound) (matched : Bool) (i : SlotNo) :
    (s.slotEcho matched i).MapSound := by
  unfold State.slotEcho
  split
  · exact h
  · exact h.collide i

theorem listenersHear (h : s.MapSound) (own : Bool) (t : Tag) (x : StationNo) (d : DataKind) :
    (s.listenersHear own t x d).MapSound :=
  h.onStreams fun _ st => by simp

theorem dataSlotEcho (h : s.MapSound) (matched first : Bool) :
    (s.dataSlotEcho matched first).MapSound := by
  unfold State.dataSlotEcho
  split
  · exact h
  · rename_i i t d k _
    have hechoes : (if first then ((s.onLnu LineUnit.endTx).slotEcho matched i).engineEcho d k
        else ((s.onLnu LineUnit.endTx).engineEcho d k).slotEcho matched i).MapSound := by
      split
      · exact ((h.onLnu _).slotEcho matched i).engineEcho d k
      · exact ((h.onLnu _).engineEcho d k).slotEcho matched i
    dsimp only
    split
    · exact hechoes.listenersHear _ _ _ _
    · exact hechoes

theorem missedSlot (h : s.MapSound) (i : SlotNo) (g : Bool) : (s.missedSlot i g).MapSound :=
  ((h.missSlot i g).onStreams fun _ st => by simp).onLnu _

theorem cleanSlotCell (h : s.MapSound) (i : SlotNo) (x : StationNo) (t : Tag) (d : DataKind) :
    (s.cleanSlotCell i x t d).MapSound := by
  unfold State.cleanSlotCell
  split
  · exact h
  split
  · exact h.missedSlot i true
  rename_i hnumbers
  split
  · exact h.sighting (h.missedSlot i true)
  · rename_i hstn
    rw [not_or] at hnumbers
    exact (((h.learn i ⟨hnumbers.1, hstn, hnumbers.2⟩).onRsu _).listenersHear _ _ _ _).onLnu _

/-! ### Open Slots -/

theorem handHead (h : s.MapSound) (w : OpenSlot) (a : Instant) (c : QueueCell) :
    (s.handHead w a c).MapSound := by
  have hsend (c : Cell) : (s.sendControl w a c).MapSound := (h.onLnu _).onCcq _
  unfold State.handHead
  dsimp only
  split
  · exact hsend _
  · exact hsend _
  · split
    · exact hsend _
    · exact (h.onCcq _).claimOutcome _ _
  · split
    · split
      · exact hsend _
      · exact (h.onCcq _).releaseOutcome _ _
    · exact (h.onCcq _).releaseOutcome _ _

theorem openSlotStart (h : s.MapSound) (w : SlotStart) : (s.openSlotStart w).MapSound := by
  unfold State.openSlotStart
  split
  · split
    · exact h.onCcq _
    · unfold State.contend
      split
      · exact (h.onCcq _).handHead _ _ _
      · exact h.onCcq _
  · exact h

theorem openSlotEcho (h : s.MapSound) (matched : Bool) : (s.openSlotEcho matched).MapSound := by
  unfold State.openSlotEcho
  split
  · have hcounted : (if matched then s.onLnu LineUnit.endTx
        else (s.onLnu LineUnit.endTx).onCounters StationCounters.addContend).MapSound := by
      split
      · exact h.onLnu _
      · exact (h.onLnu _).onCounters _
    dsimp only
    split
    · exact (hcounted.onCcq _).takeOutcome _ _
    · exact hcounted.onCcq _
  · exact h

/-- A clean control cell acts only where its sender is another station (R5, R14). -/
theorem cleanControl (h : s.MapSound) (w : OpenSlot) (x : StationNo) {f : State → State}
    (hf : x ≠ 0 → x ≠ s.straps.stn → (f s).MapSound) : (s.cleanControl w x f).MapSound := by
  unfold State.cleanControl
  split
  · exact h
  split
  · exact h.onLnu _
  rename_i hx
  split
  · exact h.sighting (h.onLnu _)
  · rename_i hstn
    exact (hf hx hstn).onLnu _

theorem sightingAt (h : s.MapSound) (p : Position) (c : CellKind) (ended : Instant) :
    (s.sightingAt p c ended).MapSound := by
  have hgarbled : (s.garbledAt ended p).MapSound := by
    cases p with
    | markField => exact h.frame (s.garbledMark_changes ended) (by decide)
    | dataSlot i => exact h.missedSlot i true
    | openSlot w => exact h.onLnu _
    | outside => exact h.onLnu _
  unfold State.sightingAt
  split
  · exact h
  split
  · exact h.sighting hgarbled
  · exact hgarbled

/-! ### Marks -/

theorem markTask (h : s.MapSound) (own : Bool) (x : StationNo) (b : Word) (y : Option StationNo)
    (t : MarkTask) : (s.markTask own x b y t).MapSound := by
  cases t with
  | miss =>
    simp only [State.markTask]
    split
    · exact h.onRsu _
    · exact h
  | roster =>
    simp only [State.markTask]
    split
    · exact h.frame s.rosterOwnMark_changes (by decide)
    · exact h.frame (s.rosterMark_changes x b) (by decide)
  | slotAgent => exact h.slotAgentMark
  | queue => exact h.onCcq _

theorem anchorMark (h : s.MapSound) (own : Bool) (a : Instant) (x : StationNo) (f : MarkFields)
    (o : Fin 24) : (s.anchorMark own a x f o).MapSound := by
  have hcounted : ((s.onLnu (LineUnit.anchorAt a)).countMark f).MapSound :=
    (h.onLnu _).frame (State.countMark_changes f _) (by decide)
  exact (foldl (fun _ t hu => hu.markTask _ _ _ _ t) (markOrder o) hcounted).onStreams
    fun _ st => by simp

theorem cleanMark (h : s.MapSound) (heard : MarkHeard) (o : Fin 24) :
    (s.cleanMark heard o).MapSound := by
  cases heard with
  | own =>
    show (s.ownMarkHeard o).MapSound
    unfold State.ownMarkHeard
    split
    · exact h
    have hended : ((s.onLnu LineUnit.endTx).onMku fun m => { m with ownMark := .none }).MapSound :=
      (h.onLnu _).frame (State.onMku_changes _ _) (by decide)
    dsimp only
    split
    · exact hended.anchorMark _ _ _ _ _
    · exact hended
  | other onset x f =>
    have hgarbled : (s.garbledMark (onset + Config.cellTime)).MapSound :=
      h.frame (s.garbledMark_changes _) (by decide)
    show (s.otherMarkHeard onset x f o).MapSound
    unfold State.otherMarkHeard
    dsimp only
    split
    · exact h
    split
    · exact hgarbled
    split
    · exact h.sighting hgarbled
    · exact h.anchorMark _ _ _ _ _

theorem isolate (h : s.MapSound) (m : Membership) (e : StationEvent) : (s.isolate m e).MapSound :=
  (((h.onRsu _).onRsu _).frame (State.raise_changes e _) (by decide)).wipeAll

theorem rosterSyncLoss (h : s.MapSound) : s.rosterSyncLoss.MapSound := by
  unfold State.rosterSyncLoss
  split
  · exact h.isolate _ _
  · exact h.isolate _ _
  · exact h.isolate _ _
  · exact h.isolate _ _
  · exact h
  · exact h

theorem syncLoss (h : s.MapSound) : s.syncLoss.MapSound := by
  have hmark : s.markSyncLoss.MapSound := (h.onLnu _).frame (State.onMku_changes _ _) (by decide)
  unfold State.syncLoss
  split
  · exact h
  · exact hmark.rosterSyncLoss

/-! ### The local bus and the register window -/

theorem accessIssue (h : s.MapSound) : s.accessIssue.MapSound := by
  unfold State.accessIssue
  split
  · exact h
  split
  · exact h
  · rename_i k _ _ c _
    have hpresented : (s.onStream k (Stream.present (Config.unfetchedNotify s.freeDraws) c)).MapSound :=
      h.onStream k fun st => by simp
    exact hpresented.same rfl rfl fun _ => rfl

theorem accessError (h : s.MapSound) (k : StreamNo) : (s.accessError k).MapSound := by
  have hfault : (s.onStream k fun st => if st.isTalk then st.walkerFault.memoryFaultTalk
      else st.walkerFault.memoryFaultListen).MapSound :=
    h.onStream k fun st => by split <;> simp
  unfold State.accessError
  dsimp only
  split
  · exact h
  split
  · exact hfault.releaseTrigger k
  · exact hfault

theorem commandStart (h : s.MapSound) (k : StreamNo) : (s.commandStart k).1.MapSound := by
  unfold State.commandStart
  dsimp only
  split
  · split
    · exact h.onStream k fun st => by simp
    · exact h
  · split
    · exact h.onStream k fun st => by simp
    · exact h

theorem commandStop (h : s.MapSound) (k : StreamNo) : (s.commandStop k).1.MapSound := by
  have hstop : (if s.streams[k].isTalk then s.stopTalk k .command
      else s.onStream k Stream.stopListen).MapSound := by
    split
    · exact h.stopTalk k _
    · exact h.onStream k fun st => by simp
  unfold State.commandStop
  dsimp only
  split
  all_goals first
    | exact h
    | exact hstop

theorem commandPause (h : s.MapSound) (k : StreamNo) : (s.commandPause k).1.MapSound := by
  have hpause : (s.onStream k fun st =>
      if st.isTalk then st.pauseTalk else { st with state := .paused }).MapSound :=
    h.onStream k fun st => by split <;> simp
  unfold State.commandPause
  dsimp only
  split
  all_goals first
    | exact h
    | exact hpause

theorem commandResume (h : s.MapSound) (k : StreamNo) : (s.commandResume k).1.MapSound := by
  have hresume : (s.onStream k fun st =>
      if st.isTalk then st.resumeTalk s.mku.count else st.resumeListen).MapSound :=
    h.onStream k fun st => by split <;> simp
  unfold State.commandResume
  dsimp only
  split
  all_goals first
    | exact h
    | exact hresume

theorem commandResetStream (h : s.MapSound) (k : StreamNo) :
    (s.commandResetStream k).1.MapSound := by
  unfold State.commandResetStream
  split
  · exact h.onStream k fun st => by simp
  · exact h

theorem commandClearCounters (h : s.MapSound) : s.commandClearCounters.1.MapSound :=
  (h.onCounters _).onStreams fun _ st => by simp

theorem streamCommand (h : s.MapSound) (index : BitVec 4) {run : StreamNo → State → Commanded}
    (hrun : ∀ k, (run k s).1.MapSound) : (s.streamCommand index run).1.MapSound := by
  unfold State.streamCommand
  split
  · exact hrun _
  · exact h

theorem decodeCommand (h : s.MapSound) (code index : BitVec 4) :
    (s.decodeCommand code index).1.MapSound := by
  unfold State.decodeCommand
  split
  · exact h
  · exact h.frame s.commandJoin_changes (by decide)
  · exact h.frame s.commandLeave_changes (by decide)
  · exact h.streamCommand index h.commandStart
  · exact h.streamCommand index h.commandStop
  · exact h.streamCommand index h.commandPause
  · exact h.streamCommand index h.commandResume
  · exact h.streamCommand index h.commandResetStream
  · exact h.commandClearCounters

theorem post (code index : BitVec 4) {run : State → Commanded} (h : (run s).1.MapSound) :
    (s.post code index run).MapSound :=
  h.same rfl rfl fun _ => rfl

theorem clearFlags (h : s.MapSound) (e : EventScope) (w : Word) : (s.clearFlags e w).MapSound := by
  cases e with
  | station => exact h.same rfl rfl fun _ => rfl
  | stream k =>
    exact h.onStream k (f := fun st => { st with flags := st.flags &&& ~~~(w.setWidth 8) }) fun _ => rfl

theorem writeEnables (h : s.MapSound) (e : EventScope) (w : Word) :
    (s.writeEnables e w).MapSound := by
  cases e with
  | station => exact h.same rfl rfl fun _ => rfl
  | stream k => exact h.onStream k (f := fun st => { st with enables := w.setWidth 8 }) fun _ => rfl

theorem writeConfig (h : s.MapSound) (k : StreamNo) (which : ConfigWord) (w : Word) :
    (s.writeConfig k which w).MapSound := by
  unfold State.writeConfig
  split
  · exact h.onStream k fun _ => rfl
  · exact h.frame (State.raise_changes _ s) (by decide)

theorem writeReady (h : s.MapSound) (k : StreamNo) (w : Word) : (s.writeReady k w).MapSound :=
  h.onStream k fun st => by simp

theorem writeWord (h : s.MapSound) (index : BitVec 8) (w : Word) :
    (s.writeWord index w).MapSound := by
  unfold State.writeWord
  dsimp only
  split
  · exact post _ _ (h.decodeCommand _ _)
  split
  · exact h.clearFlags _ w
  split
  · exact h.writeEnables _ w
  split
  · exact h.clearFlags _ w
  split
  · exact h.writeEnables _ w
  split
  · split
    · exact h.writeConfig _ _ w
    · exact h.writeConfig _ _ w
    · exact h.writeConfig _ _ w
    · exact h.writeReady _ w
    · exact h
  · exact h

end

end State.MapSound

/-! ### The statement -/

theorem exec_keeps_mapSound (c : Instr) (s t : State) (hs : s.MapSound) (h : exec c s = .next t) :
    t.MapSound := by
  have hwrite {f : State → State} (hf : (f s).MapSound) (h : targetWrite f s = .next t) :
      t.MapSound := targetWrite_keeps mapSound_depends (by decide) hs hf h
  have hcommand {code index : BitVec 4} {run : State → Commanded} (hrun : (run s).1.MapSound)
      (h : targetWrite (State.post code index run) s = .next t) : t.MapSound :=
    hwrite (State.MapSound.post code index hrun) h
  cases c with
  | hardwareReset | resetRelease _ =>
    exact exec_reset_keeps mapSound_depends (by decide) afterReset_mapSound rfl hs h
  | dataSlotStart i => exact event_keeps hs (hs.dataSlotStart i) h
  | graceExpiry k =>
    refine event_keeps hs ?_ h
    split
    · exact hs.stopTalk k _
    · exact hs
  | dataSlotEcho matched first => exact event_keeps hs (hs.dataSlotEcho matched first) h
  | cleanDataCell i x t d => exact event_keeps hs (hs.cleanSlotCell i x t d) h
  | garbledOrSilentDataSlot i g =>
    refine event_keeps hs ?_ h
    split
    · exact hs.missedSlot i g
    · exact hs
  | aging i => exact event_keeps hs (hs.ageOut i) h
  | openSlotStart w => exact event_keeps hs (hs.openSlotStart w) h
  | openSlotEcho matched => exact event_keeps hs (hs.openSlotEcho matched) h
  | cleanClaim w x i g =>
    unfold exec execCleanClaim at h
    refine event_keeps hs ?_ h
    split
    · exact hs.onLnu _
    · rename_i hg
      exact hs.cleanControl w x fun hx hstn => (hs.hearClaim i ⟨hx, hstn, hg⟩).onRsu _
  | cleanRelease w x i g =>
    unfold exec execCleanRelease at h
    refine event_keeps hs ?_ h
    split
    · exact hs.onLnu _
    · exact hs.cleanControl w x fun _ _ => (hs.hearRelease i x).onRsu _
  | cleanLeave w x =>
    refine event_keeps hs ?_ h
    exact hs.cleanControl w x fun _ _ => (hs.leave x).onRsu _
  | cleanJoin w x =>
    refine event_keeps hs ?_ h
    exact hs.cleanControl w x fun _ _ => hs.onRsu _
  | duplicateAddressSighting p d ended => exact event_keeps hs (hs.sightingAt p d ended) h
  | cleanMark heard o => exact event_keeps hs (hs.cleanMark heard o) h
  | backoffExpiry i =>
    unfold exec execBackoffExpiry at h
    refine event_keeps hs ?_ h
    split
    · split
      · exact hs.free i
      · exact hs
    · exact hs
  | pauseTimerExpiry k =>
    refine event_keeps hs ?_ h
    split
    · exact hs.onStream k fun _ => rfl
    · exact hs
  | syncLoss => exact event_keeps hs hs.syncLoss h
  | readyWrite k w => exact hwrite (hs.writeReady k w) h
  | accessIssue => exact event_keeps hs hs.accessIssue h
  | descriptorFetchReply k _ _ | bufferReadReply k _ | bufferWriteAck k | recordWriteAck k =>
    exact event_keeps hs (hs.onStream k fun st => by simp) h
  | accessError k => exact event_keeps hs (hs.accessError k) h
  | start k => exact hcommand (hs.commandStart k) h
  | stop k => exact hcommand (hs.commandStop k) h
  | pause k => exact hcommand (hs.commandPause k) h
  | resume k => exact hcommand (hs.commandResume k) h
  | resetStream k => exact hcommand (hs.commandResetStream k) h
  | clearCounters _ => exact hcommand hs.commandClearCounters h
  | badCommand code index => exact hcommand (hs.decodeCommand code index) h
  | configWrite k which w => exact hwrite (hs.writeConfig k which w) h
  | flagWrite e w => exact hwrite (hs.clearFlags e w) h
  | enableWrite e w => exact hwrite (hs.writeEnables e w) h
  | registerWrite index w => exact hwrite (hs.writeWord index w) h
  | _ => exact hs.frame (exec_changes _ h) (by simp [changedParts])

/-- Settles O54: every command keeps the map sound, and the waiting commands are no part of it. -/
theorem stepKeepsSlotMapSound : Obligations.StepKeepsSlotMapSound := by
  intro s t hs h
  rw [← mapSound_iff] at hs ⊢
  exact step_keeps mapSound_depends (by decide) exec_keeps_mapSound hs h

end Sys2Proof.Machine
end

section
/-! A clean control cell of another station (O30 to O32): what it makes of its entry, of the queue and of its
sender's roster entry. -/

namespace Sys2Proof.Machine

open Sys2Proof

/-! ### The sender at the roster, and the report of its position (R83) -/

/-- Evidence on another station changes its entry alone (R82). -/
theorem RosterUnit.onOther_table {stn x : StationNo} (hx : x ≠ 0) (hstn : x ≠ stn)
    (f : RosterEntry → RosterEntry) (u : RosterUnit) :
    (u.onOther stn x f).entry x = f (u.entry x) ∧
      ∀ n : StationNo, n ≠ x → (u.onOther stn x f).entry n = u.entry n := by
  refine ⟨?_, fun n hn => ?_⟩
  · rw [RosterUnit.onOther_entry, if_pos ⟨rfl, hx, hstn⟩]
  · rw [RosterUnit.onOther_entry, if_neg fun h => hn h.1]

/-- Evidence on a cell's sender and the report of its position, after a change that leaves the Roster Unit,
the Line Unit and the straps alone. -/
theorem State.evidence_table {x : StationNo} {s u : State} (hx : x ≠ 0) (hstn : x ≠ s.straps.stn)
    {ps : List StatePart} (hu : s.changesOnly ps u)
    (hps : StatePart.rsu ∉ ps ∧ StatePart.lnu ∉ ps ∧ StatePart.straps ∉ ps)
    (f : RosterEntry → RosterEntry) (p : Position) :
    let t := (u.onRsu (RosterUnit.onOther u.straps.stn x f)).onLnu (LineUnit.reported p)
    t.rsu.entry x = f (s.rsu.entry x) ∧ (∀ n : StationNo, n ≠ x → t.rsu.entry n = s.rsu.entry n) ∧
      t.rsu = { s.rsu with roster := t.rsu.roster } ∧
      t.lnu = { s.lnu with candidates := s.candidatesBut p } := by
  have hrsu : u.rsu = s.rsu := hu .rsu hps.1
  have hlnu : u.lnu = s.lnu := hu .lnu hps.2.1
  have hstraps : u.straps = s.straps := hu .straps hps.2.2
  obtain ⟨hsender, hothers⟩ := RosterUnit.onOther_table hx hstn f s.rsu
  simp only [State.onLnu_rsu, State.onLnu_lnu, State.onRsu_rsu, State.onRsu_lnu, hrsu, hlnu, hstraps]
  exact ⟨hsender, hothers, RosterUnit.onOther_keeps _ _ _ _, rfl⟩

/-- A clean control cell of another station while SYNCED (R13). -/
theorem event_cleanControl {w : OpenSlot} {x : StationNo} {f : State → State} {s : State}
    (hr : s.resetAsserted = false) (hsync : s.lnu.sync = .synced) (hx : x ≠ 0)
    (hstn : x ≠ s.straps.stn) : event (State.cleanControl w x f) s =
      .next ((f s).onLnu (LineUnit.reported (.openSlot w))) := by
  have hsynced : s.lnu.isSynced = true := (LineUnit.isSynced_iff _).mpr hsync
  rw [event_next _ hr, State.cleanControl, if_neg (by simp [hsynced]), if_neg hx, if_neg hstn]

/-- One that has a tag, which is clean with a tag other than 0 (R5). -/
theorem event_taggedControl {w : OpenSlot} {x : StationNo} {g : Tag} {f : State → State} {s : State}
    (hr : s.resetAsserted = false) (hsync : s.lnu.sync = .synced) (hx : x ≠ 0) (hg : g ≠ 0)
    (hstn : x ≠ s.straps.stn) :
    event (fun s => if g = 0 then s.onLnu (LineUnit.reported (.openSlot w))
      else s.cleanControl w x f) s = .next ((f s).onLnu (LineUnit.reported (.openSlot w))) := by
  simp only [hg, if_false]
  exact event_cleanControl hr hsync hx hstn

/-! ### One entry, with its queue entry (R28) -/

theorem State.withdrawIfQueued_slotMap (i : SlotNo) (why : Withdrawal) (s : State) :
    (s.withdrawIfQueued i why).slotMap = s.slotMap :=
  s.withdrawIfQueued_changes i why .slotMap (by decide)

theorem State.withdrawIfQueued_queued {i : SlotNo} {s : State} (why : Withdrawal)
    (h : s.slotMap[i].isQueued = true) :
    s.withdrawIfQueued i why = s.onCcq (CellQueue.withdraw (some i) why) :=
  if_pos h

theorem State.withdrawIfQueued_idle {i : SlotNo} {s : State} (why : Withdrawal)
    (h : s.slotMap[i].isQueued = false) : s.withdrawIfQueued i why = s :=
  if_neg (by simpa using h)

/-- An entry set after its withdrawal: the entry, the others and the queue. -/
theorem State.withdrawSet_table (i : SlotNo) (why : Withdrawal) (e : SlotEntry) (s : State) :
    let t := (s.withdrawIfQueued i why).setEntry i e
    t.slotMap[i] = e ∧ s.otherEntriesSame i t ∧
      (s.slotMap[i].isQueued = true → t.ccq = s.ccq.withdraw (some i) why) ∧
      (s.slotMap[i].isQueued = false → t.ccq = s.ccq) := by
  refine ⟨?_, fun j hj => ?_, fun hq => ?_, fun hq => ?_⟩
  · rw [Fin.getElem_fin, State.setEntry_get, if_pos rfl]
  · rw [Fin.getElem_fin, State.setEntry_get, if_neg hj, State.withdrawIfQueued_slotMap]
    rfl
  · rw [State.setEntry_ccq, State.withdrawIfQueued_queued why hq, State.onCcq_ccq]
  · rw [State.setEntry_ccq, State.withdrawIfQueued_idle why hq]

/-! ### CLAIM (R30) -/

theorem State.hearClaim_free {i : SlotNo} {s : State} (x : StationNo) (g : Tag)
    (h : s.slotMap[i] = .free) :
    s.hearClaim i x g = (s.withdrawIfQueued i .taken).setEntry i (.held x g 0) := by
  rw [State.withdrawIfQueued_idle .taken (by rw [h]; rfl)]
  simp only [State.hearClaim, h]

theorem State.hearClaim_claiming {i : SlotNo} {s : State} (x : StationNo) (g : Tag) {g' : Tag}
    {k : StreamNo} {q : Bool} (h : s.slotMap[i] = .claiming g' k q) :
    s.hearClaim i x g = (s.withdrawIfQueued i .taken).setEntry i (.held x g 0) := by
  simp only [State.hearClaim, h]

/-- What a heard CLAIM makes of map and queue: it takes a FREE or CLAIMING entry, and no other. -/
theorem State.hearClaim_table (i : SlotNo) (x : StationNo) (g : Tag) (s : State) :
    ((s.hearClaim i x g).slotMap[i] = match s.slotMap[i] with
      | .free => .held x g 0
      | .claiming _ _ _ => .held x g 0
      | e => e) ∧
    s.otherEntriesSame i (s.hearClaim i x g) ∧
    (∀ g' k, s.slotMap[i] = .claiming g' k true →
      (s.hearClaim i x g).ccq = s.ccq.withdraw (some i) .taken) ∧
    ((∀ g' k, s.slotMap[i] ≠ .claiming g' k true) → (s.hearClaim i x g).ccq = s.ccq) := by
  obtain ⟨hset, hmap, hqueued, hidle⟩ := s.withdrawSet_table i .taken (.held x g 0)
  cases he : s.slotMap[i] with
  | free =>
    rw [he] at hidle
    rw [State.hearClaim_free x g he]
    exact ⟨hset, hmap, by simp, fun _ => hidle rfl⟩
  | claiming g' k q =>
    rw [he] at hqueued hidle
    rw [State.hearClaim_claiming x g he]
    refine ⟨hset, hmap, fun g'' k' hq => hqueued ?_, fun hq => hidle ?_⟩
    · rw [hq]
      rfl
    · cases q with
      | true => exact absurd rfl (hq g' k)
      | false => rfl
  | held _ _ _ | mine _ _ | releasing _ _ _ | collided _ _ _ =>
    have hsame : s.hearClaim i x g = s := by simp only [State.hearClaim, he]
    rw [hsame]
    exact ⟨he, fun _ _ => rfl, by simp, fun _ => rfl⟩

/-- Settles O30: the entry and the queue by the table of a heard CLAIM, the sender by the roster. -/
theorem heardClaimTakesFreeSlot : Obligations.HeardClaimTakesFreeSlot := by
  intro w x i g s hr hsync hx hg hstn
  have hframe := s.hearClaim_changes i x g
  obtain ⟨hsender, hothers, hrsu, hlnu⟩ := State.evidence_table (s := s) hx hstn hframe (by decide)
    (fun _ => .present) (.openSlot w)
  obtain ⟨hentry, hmap, hqueued, hidle⟩ := s.hearClaim_table i x g
  exact ⟨_, event_taggedControl hr hsync hx hg hstn, hentry, hmap, hqueued, hidle, hsender, hothers,
    hrsu, hlnu, (hframe.seq (State.onRsu_changes _ _) (by decide) (by decide)).trans
      ((State.onLnu_changes _ _).mono (by decide))⟩

/-! ### RELEASE (R31) -/

theorem State.hearRelease_owner {i : SlotNo} {x : StationNo} {g : Tag} {n : Fin 8} {s : State}
    (h : s.slotMap[i] = .held x g n) : s.hearRelease i x = s.setEntry i .free := by
  simp only [State.hearRelease, h, if_true]

theorem State.hearRelease_other {i : SlotNo} {x : StationNo} {s : State}
    (h : ∀ g n, s.slotMap[i] ≠ .held x g n) : s.hearRelease i x = s := by
  unfold State.hearRelease
  split
  · rename_i y g n hheld
    exact if_neg fun hy : y = x => h g n (hy ▸ hheld)
  · rfl

/-- Settles O31: the sender's entry is freed, every other entry stays. -/
theorem heardReleaseFreesOwnersSlot : Obligations.HeardReleaseFreesOwnersSlot := by
  intro w x i g s hr hsync hx hg hstn
  have hframe := s.hearRelease_changes i x
  obtain ⟨hsender, hothers, hrsu, hlnu⟩ := State.evidence_table (s := s) hx hstn hframe (by decide)
    (fun _ => .present) (.openSlot w)
  refine ⟨_, event_taggedControl hr hsync hx hg hstn, fun g' n hheld => ?_, fun hheld => ?_,
    fun j hj => ?_, hframe .counters (by decide), hsender, hothers, hrsu, hlnu,
    (hframe.seq (State.onRsu_changes _ _) (by decide) (by decide)).trans
      ((State.onLnu_changes _ _).mono (by decide))⟩
  · show (s.hearRelease i x).slotMap[i.val] = .free
    rw [State.hearRelease_owner hheld, State.setEntry_get, if_pos rfl]
  · show (s.hearRelease i x).slotMap[i] = s.slotMap[i]
    rw [State.hearRelease_other hheld]
  · show (s.hearRelease i x).slotMap[j] = s.slotMap[j]
    by_cases hheld : ∃ g' n, s.slotMap[i] = .held x g' n
    · obtain ⟨g', n, hheld⟩ := hheld
      rw [State.hearRelease_owner hheld]
      exact State.setEntry_others i .free s j hj
    · rw [State.hearRelease_other fun g' n h => hheld ⟨g', n, h⟩]

/-! ### LEAVE and JOIN (R32, R83) -/

theorem SlotEntry.leave_owner (x : StationNo) (g : Tag) (n : Fin 8) :
    (SlotEntry.held x g n).leave x = .free := if_pos rfl

theorem SlotEntry.leave_other {x : StationNo} {e : SlotEntry} (h : ∀ g n, e ≠ .held x g n) :
    e.leave x = e := by
  cases e with
  | held y g n => exact if_neg fun hy : y = x => h g n (hy ▸ rfl)
  | _ => rfl

/-- Settles O32: a LEAVE frees its sender's entries in one change, a JOIN reaches the roster alone. -/
theorem heardLeaveAndJoin : Obligations.HeardLeaveAndJoin := by
  intro w x s hr hsync hx hstn
  constructor
  · have hframe := State.mapEntries_changes (SlotEntry.leave x) s
    obtain ⟨hsender, hothers, hrsu, hlnu⟩ := State.evidence_table (s := s) hx hstn hframe (by decide)
      (fun _ => .absent) (.openSlot w)
    refine ⟨_, event_cleanControl hr hsync hx hstn, fun i g n hheld => ?_, fun i hheld => ?_,
      hsender, hothers, hrsu, hlnu, (hframe.seq (State.onRsu_changes _ _) (by decide) (by decide)).trans
        ((State.onLnu_changes _ _).mono (by decide))⟩
    · show (s.mapEntries (SlotEntry.leave x)).slotMap[i.val] = .free
      rw [State.mapEntries_get, show s.slotMap[i.val] = .held x g n from hheld, SlotEntry.leave_owner]
    · show (s.mapEntries (SlotEntry.leave x)).slotMap[i.val] = s.slotMap[i.val]
      rw [State.mapEntries_get]
      exact SlotEntry.leave_other hheld
  · obtain ⟨hsender, hothers, hrsu, hlnu⟩ := State.evidence_table hx hstn (.refl [] s) (by decide)
      (fun _ => .present) (.openSlot w)
    exact ⟨_, event_cleanControl hr hsync hx hstn, hsender, hothers, hrsu, hlnu,
      (State.onRsu_changes _ s).seq (State.onLnu_changes _ _) (by decide) (by decide)⟩

end Sys2Proof.Machine
end

section
/-! A Data Slot in which this station did not send (O23, O26): a clean cell teaches the map, a garbled or
silent slot ages its HELD entry. -/

namespace Sys2Proof.Machine

open Sys2Proof

/-! ### A clean cell (R27) -/

/-- CORRECT counts a HELD entry whose owner or tag the cell corrects. -/
def correctedBy (x : StationNo) (g : Tag) (e : SlotEntry) (c : StationCounters) : StationCounters :=
  match e with
  | .held y u _ => if y = x ∧ u = g then c else c.addCorrect
  | _ => c

theorem correctedBy_correct {x : StationNo} {g : Tag} {e : SlotEntry} (c : StationCounters)
    (h : ∃ y u n, e = .held y u n ∧ (y ≠ x ∨ u ≠ g)) : correctedBy x g e c = c.addCorrect := by
  obtain ⟨y, u, n, rfl, hne⟩ := h
  exact if_neg fun hsame => hne.elim (absurd hsame.1) (absurd hsame.2)

theorem correctedBy_same {x : StationNo} {g : Tag} {e : SlotEntry} (c : StationCounters)
    (h : ∀ y u n, e = .held y u n → y = x ∧ u = g) : correctedBy x g e c = c := by
  cases e with
  | held y u n => exact if_pos (h y u n rfl)
  | _ => rfl

/-- A clean cell makes an entry that is not MINE or RELEASING its sender's, after the withdrawal of a
queued CLAIM, and counts a correction. -/
theorem State.learn_eq {i : SlotNo} {s : State} (x : StationNo) (g : Tag)
    (hmine : ∀ g' k, s.slotMap[i] ≠ .mine g' k)
    (hreleasing : ∀ g' k q, s.slotMap[i] ≠ .releasing g' k q) :
    s.learn i x g = ((s.withdrawIfQueued i .taken).setEntry i (.held x g 0)).onCounters
      (correctedBy x g s.slotMap[i]) := by
  cases he : s.slotMap[i] with
  | mine g' k => exact absurd he (hmine g' k)
  | releasing g' k q => exact absurd he (hreleasing g' k q)
  | held y u n =>
    rw [State.withdrawIfQueued_idle .taken (by rw [he]; rfl)]
    simp only [State.learn, he]
    split
    · rename_i hsame
      rw [State.onCounters, correctedBy_same _ fun _ _ _ h => ?_]
      cases h
      exact hsame
    · rename_i hsame
      rw [State.onCounters, State.onCounters, correctedBy_correct _ ⟨y, u, n, rfl, by tauto⟩]
  | claiming g' k q =>
    simp only [State.learn, he]
    rfl
  | free | collided _ _ _ =>
    rw [State.withdrawIfQueued_idle .taken (by rw [he]; rfl)]
    simp only [State.learn, he]
    rfl

/-- A clean Data Slot cell of another station while SYNCED (R13, R27). -/
theorem exec_cleanDataCell (i : SlotNo) {x : StationNo} {g : Tag} (d : DataKind) {s : State}
    (hr : s.resetAsserted = false) (hsync : s.lnu.sync = .synced) (hx : x ≠ 0) (hg : g ≠ 0)
    (hstn : x ≠ s.straps.stn) :
    exec (.cleanDataCell i x g d) s = .next (s.heardSlotCell i x g d) := by
  have hsynced : s.lnu.isSynced = true := (LineUnit.isSynced_iff _).mpr hsync
  refine (event_next _ hr).trans (congrArg _ ?_)
  rw [State.cleanSlotCell, if_neg (by simp [hsynced]),
    if_neg (by simp only [hx, hg, or_self, not_false_eq_true]), if_neg hstn]

/-- Settles O23: the entry, the queue and CORRECT by what learning is, the sender by the roster. -/
theorem cleanDataCellTeachesMap : Obligations.CleanDataCellTeachesMap := by
  intro i x g d s hr hsync hx hg hstn hmine hreleasing
  have hlearn := State.learn_eq x g hmine hreleasing
  have hframe := s.learn_changes i x g
  obtain ⟨hsender, hothers⟩ := RosterUnit.onOther_table hx hstn (fun _ => .present) s.rsu
  have hrsu : (s.heardSlotCell i x g d).rsu = s.rsu.heard s.straps.stn x :=
    congrArg (RosterUnit.heard s.straps.stn x) (show _ = s.rsu from hframe .rsu (by decide))
  have hlnu : (s.heardSlotCell i x g d).lnu = s.lnu.reported (.dataSlot i) :=
    congrArg (LineUnit.reported (.dataSlot i)) (show _ = s.lnu from hframe .lnu (by decide))
  obtain ⟨hset, hmap, hqueued, hidle⟩ := s.withdrawSet_table i .taken (.held x g 0)
  have hcounters : (s.learn i x g).counters = correctedBy x g s.slotMap[i] s.counters := by
    rw [hlearn]
    exact congrArg (correctedBy x g s.slotMap[i])
      (show _ = s.counters from s.withdrawSet_changes i .taken _ .counters (by decide))
  have hccq : (s.learn i x g).ccq =
      if s.slotMap[i].isQueued then s.ccq.withdraw (some i) .taken else s.ccq := by
    rw [hlearn]
    split
    · rename_i hq
      exact hqueued hq
    · rename_i hq
      exact hidle (by simpa using hq)
  refine ⟨_, exec_cleanDataCell i d hr hsync hx hg hstn, ?_, ?_, fun hne => ?_, fun hsame => ?_, hccq,
    hrsu ▸ hsender, hrsu ▸ hothers, hrsu ▸ RosterUnit.onOther_keeps _ _ _ _, hlnu, ?_⟩
  · show (s.learn i x g).slotMap[i] = _
    rw [hlearn]
    exact hset
  · show s.otherEntriesSame i (s.learn i x g)
    rw [hlearn]
    exact hmap
  · show countsOne _ (s.learn i x g).counters.correct ∧ (s.learn i x g).counters =
      { s.counters with correct := (s.learn i x g).counters.correct }
    rw [hcounters, correctedBy_correct _ hne]
    exact ⟨countsOne_satAdd _, rfl⟩
  · exact hcounters.trans (correctedBy_same _ hsame)
  · exact ((hframe.mono (by decide)).trans ((State.onRsu_changes _ _).mono (by decide))).trans
      (((State.onStreams_changes _ _).mono (by decide)).trans
        ((State.onLnu_changes _ _).mono (by decide)))

/-! ### A garbled or silent slot (R29) -/

/-- A HELD entry after a slot in which it was not heard. -/
def SlotEntry.aged : SlotEntry → SlotEntry
  | .held x g n => if n = 7 then .free else .held x g (n + 1)
  | e => e

/-- AGED counts the entry whose silence is its eighth. -/
def agedBy (e : SlotEntry) (c : StationCounters) : StationCounters :=
  match e with
  | .held _ _ n => if n = 7 then c.addAged else c
  | _ => c

theorem agedBy_eighth {e : SlotEntry} (c : StationCounters) (h : ∃ x g, e = .held x g 7) :
    agedBy e c = c.addAged := by
  obtain ⟨x, g, rfl⟩ := h
  rfl

theorem agedBy_other {e : SlotEntry} (c : StationCounters) (h : ∀ x g, e ≠ .held x g 7) :
    agedBy e c = c := by
  cases e with
  | held x g n => exact if_neg fun hn : n = 7 => h x g (hn ▸ rfl)
  | _ => rfl

theorem agedBy_keeps (e : SlotEntry) (c : StationCounters) :
    agedBy e c = { c with aged := (agedBy e c).aged } := by
  unfold agedBy
  split
  · split <;> rfl
  · rfl

theorem agedBy_aged_congr (e : SlotEntry) {c d : StationCounters} (h : c.aged = d.aged) :
    (agedBy e c).aged = (agedBy e d).aged := by
  unfold agedBy
  split
  · split
    · exact congrArg (satAdd · 1) h
    · exact h
  · exact h

/-- An entry set, and a count: nothing but the map, the streams and the counters. -/
theorem State.setCounted_table (i : SlotNo) (e : SlotEntry) (f : StationCounters → StationCounters)
    (s : State) :
    let t := (s.setEntry i e).onCounters f
    t.slotMap[i] = e ∧ s.otherEntriesSame i t ∧ t.counters = f s.counters ∧
      s.changesOnly [.slotMap, .streams, .counters] t := by
  refine ⟨?_, s.setEntry_others i e, congrArg f (show _ = s.counters from ?_), ?_⟩
  · show (s.setEntry i e).slotMap[i.val] = e
    rw [State.setEntry_get, if_pos rfl]
  · exact s.setEntry_changes i e .counters (by decide)
  · exact (s.setEntry_changes i e).seq (State.onCounters_changes f _) (by decide) (by decide)

theorem State.ageOut_eighth {i : SlotNo} {x : StationNo} {g : Tag} {s : State}
    (h : s.slotMap[i] = .held x g 7) :
    s.ageOut i = (s.setEntry i .free).onCounters StationCounters.addAged := by
  simp only [State.ageOut, h, if_true]

/-- A silence at the map and the counters; it does not reach the queue. -/
theorem State.silence_table (i : SlotNo) (s : State) :
    let t := s.missSlot i false
    t.slotMap[i] = s.slotMap[i].aged ∧ s.otherEntriesSame i t ∧
      t.counters = agedBy s.slotMap[i] s.counters ∧
      s.changesOnly [.slotMap, .streams, .counters] t := by
  cases he : s.slotMap[i] with
  | held x g n =>
    by_cases hn : n = 7
    · subst hn
      have haged : s.missSlot i false = (s.setEntry i .free).onCounters StationCounters.addAged := by
        rw [← State.ageOut_eighth he]
        simp [State.missSlot, he]
      rw [haged]
      exact s.setCounted_table i .free _
    · have holder : s.missSlot i false = (s.setEntry i (.held x g (n + 1))).onCounters id := by
        simp only [State.missSlot, he, hn, if_false, Bool.false_eq_true]
        rfl
      rw [holder, SlotEntry.aged, if_neg hn, agedBy, if_neg hn]
      exact s.setCounted_table i _ id
  | free | claiming _ _ _ | mine _ _ | releasing _ _ _ | collided _ _ _ =>
    have hsame : s.missSlot i false = s := by simp [State.missSlot, he]
    rw [hsame]
    exact ⟨he, fun _ _ => rfl, rfl, State.changesOnly.refl _ s⟩

/-- Settles O26: a garble is a silence that CHECKERR has counted; AGING is the eighth one. -/
theorem silenceAgesHeldEntries : Obligations.SilenceAgesHeldEntries := by
  intro i s hr
  refine ⟨fun garbled hsync => ?_, fun x g he => ?_⟩
  · obtain ⟨hentry, hothers, hcounters, hframe⟩ := State.silence_table i
      (s.onCounters fun c => if garbled then c.addCheckErr else c)
    have hmiss : s.missSlot i garbled =
        (s.onCounters fun c => if garbled then c.addCheckErr else c).missSlot i false := by
      cases garbled <;> rfl
    rw [← hmiss] at hentry hothers hcounters hframe
    have hcount : (s.missedSlot i garbled).counters =
      agedBy s.slotMap[i] (if garbled then s.counters.addCheckErr else s.counters) := hcounters
    have haged : (s.missedSlot i garbled).counters.aged =
        (agedBy s.slotMap[i] s.counters).aged := by
      rw [hcount]
      cases garbled <;> exact agedBy_aged_congr _ rfl
    have hcheck : (s.missedSlot i garbled).counters.checkErr =
        (if garbled then s.counters.addCheckErr else s.counters).checkErr := by
      rw [hcount, agedBy_keeps]
    refine ⟨_, exec_missedSlot i garbled hr hsync, hentry, hothers, fun hg => ?_, fun hg => ?_,
      fun he => ?_, fun he => ?_, ?_, ?_⟩
    · rw [hcheck, hg]
      exact countsOne_satAdd _
    · rw [hcheck, hg]
      rfl
    · rw [haged, agedBy_eighth _ he]
      exact countsOne_satAdd _
    · rw [haged, agedBy_other _ he]
    · rw [hcount, agedBy_keeps]
      cases garbled <;> rfl
    · have hmissed : s.changesOnly [.slotMap, .streams, .counters] (s.missSlot i garbled) :=
        ((State.onCounters_changes _ s).mono (by decide)).trans hframe
      exact (hmissed.seq (State.onStreams_changes _ _) (rs := [.slotMap, .streams, .counters])
        (by decide) (by decide)).seq (State.onLnu_changes _ _) (by decide) (by decide)
  · obtain ⟨hentry, hothers, hcounters, hframe⟩ :=
      s.setCounted_table i .free StationCounters.addAged
    refine ⟨_, event_next _ hr, ?_⟩
    rw [State.ageOut_eighth he]
    exact ⟨hentry, hothers, hcounters ▸ countsOne_satAdd _, hcounters.trans rfl, hframe⟩

end Sys2Proof.Machine
end

section
/-! One turn of auto-claim (O13): its five conditions, and the lowest FREE entry. -/

namespace Sys2Proof.Machine

open Sys2Proof

/-- The five conditions of auto-claim (R34). -/
theorem State.mayClaim_iff (k : StreamNo) (s : State) :
    s.mayClaim k = true ↔
      let st := s.streams[k]
      st.isTalk = true
        ∧ (st.state = .acquiring ∨ st.state = .running ∨ st.state = .drained ∨ st.state = .paused)
        ∧ s.rsu.membership = .member
        ∧ st.held + countEntries (·.isClaimingFor k) s.slotMap < st.cfg.wanted.toNat
        ∧ st.pauseTimer = 0 ∧ ownTotal s.slotMap < 16 := by
  simp only [State.mayClaim, Bool.and_eq_true, Bool.or_eq_true, beq_iff_eq, decide_eq_true_eq,
    and_assoc, or_assoc]
  rfl

/-- The lowest FREE entry is the one found. -/
theorem firstFree_lowest {m : Vector SlotEntry 48} {i : SlotNo} (hfree : m[i] = .free)
    (hlowest : ∀ j : SlotNo, j < i → m[j] ≠ .free) : firstFree m = some i := by
  refine List.find?_eq_some_iff_getElem.mpr ⟨by simpa using hfree, i.val, by simp [allSlots],
    List.getElem_finRange _, fun j hj => ?_⟩
  have hbefore := hlowest ⟨j, hj.trans i.isLt⟩ hj
  simpa [allSlots] using hbefore

theorem firstFree_none {m : Vector SlotEntry 48} (h : ∀ i : SlotNo, m[i] ≠ .free) :
    firstFree m = none :=
  List.find?_eq_none.mpr fun i _ => by simpa using h i

theorem State.autoClaim_idle {k : StreamNo} {s : State} (h : s.mayClaim k = false) :
    s.autoClaim k = s := by
  simp [State.autoClaim, h]

theorem State.autoClaim_takes {k : StreamNo} {s : State} {i : SlotNo} (h : s.mayClaim k = true)
    (hi : firstFree s.slotMap = some i) :
    s.autoClaim k = s.putEntry i (.claiming s.streams[k].cfg.tag k false) := by
  simp only [State.autoClaim, h, hi, if_true]

theorem State.autoClaim_full {k : StreamNo} {s : State} (h : s.mayClaim k = true)
    (hi : firstFree s.slotMap = none) : s.autoClaim k = s.onStream k Stream.setShort := by
  simp only [State.autoClaim, h, hi, if_true]

theorem Stream.setShort_eq (st : Stream) : st.setShort = { st with
    short := true
    flags := if st.short then st.flags else st.flags ||| 0x08#8 } := by
  unfold Stream.setShort
  by_cases h : st.short = true
  · rw [if_pos h, if_pos h, ← h]
  · rw [if_neg h, if_neg h]
    rfl

/-- Settles O13: the claim takes the entry found first, or Sets SHORT where none is. -/
theorem autoClaimTakesLowestFree : Obligations.AutoClaimTakesLowestFree := by
  intro k s
  refine ⟨fun hmay => State.autoClaim_idle ?_, fun hmay i hfree hlowest => ?_, fun hmay hfull => ?_⟩
  · exact Bool.eq_false_iff.mpr fun h => hmay ((s.mayClaim_iff k).mp h)
  · rw [State.autoClaim_takes ((s.mayClaim_iff k).mpr hmay) (firstFree_lowest hfree hlowest)]
    refine ⟨?_, fun j hj => ?_, State.putEntry_changes _ _ s⟩
    · rw [Fin.getElem_fin, State.putEntry_get, if_pos rfl]
    · rw [Fin.getElem_fin, State.putEntry_get, if_neg hj]
      rfl
  · rw [State.autoClaim_full ((s.mayClaim_iff k).mpr hmay) (firstFree_none hfull)]
    exact ⟨(State.onStream_self k _ s).trans (Stream.setShort_eq _),
      State.onStream_others k _ s, State.onStream_changes _ _ s⟩

end Sys2Proof.Machine
end

section
/-! The expiries that a clean Mark brings (O17), and the end of a join attempt. -/

namespace Sys2Proof.Machine

open Sys2Proof

/-! ### The end of a join attempt (R90) -/

theorem State.attemptEnds_again {s : State} (h : s.rsu.attempt < 4) :
    s.attemptEnds = (s.onRsu fun u => { u with attempt := u.attempt + 1 }).offerJoin :=
  if_pos h

theorem State.attemptEnds_last {s : State} (h : 4 ≤ s.rsu.attempt) :
    s.attemptEnds =
      ((s.onRsu fun u => { u with attempt := 0 }).setMembership .dormant).raise .joinFailed :=
  if_neg (Nat.not_lt.mpr h)

/-- The end of a join attempt: the next one and its JOIN, or the end of JOINING. -/
theorem State.attemptEnds_table (s : State) :
    s.attemptEnds.rsu.joinTimer = s.rsu.joinTimer ∧
      (s.rsu.attempt < 4 → s.attemptEnds.rsu.membership = s.rsu.membership ∧
        s.attemptEnds.rsu.attempt = s.rsu.attempt + 1 ∧ s.attemptEnds.rsu.intent = .join ∧
        s.attemptEnds.stationFlags = s.stationFlags) ∧
      (4 ≤ s.rsu.attempt → s.attemptEnds.rsu.membership = .dormant ∧ s.attemptEnds.rsu.attempt = 0 ∧
        s.attemptEnds.stationFlags = s.stationFlags ||| 0x04#9 ∧ s.attemptEnds.ccq = s.ccq) := by
  rcases Nat.lt_or_ge s.rsu.attempt 4 with h | h
  · obtain ⟨-, hflags, hmember, hattempt, hintent, htimer, -, -⟩ :=
      State.offerControl_keeps .join .join (s.onRsu fun u => { u with attempt := u.attempt + 1 })
    rw [State.attemptEnds_again h]
    exact ⟨htimer, fun _ => ⟨hmember, hattempt, hintent, hflags⟩, fun h' => absurd h' (by omega)⟩
  · rw [State.attemptEnds_last h]
    refine ⟨RosterUnit.setMembership_joinTimer _ _ _, fun h' => absurd h' (by omega), fun _ =>
      ⟨RosterUnit.setMembership_membership _ _ _, RosterUnit.setMembership_attempt _ _ _, rfl, rfl⟩⟩

/-! ### The expiries -/

/-- An offer that the queue takes stands last in it (R46). -/
theorem State.offerControl_enters {i : ControlIntent} {c : QueueCell} {s : State}
    (hl : s.ccq.entries.length < 8) (hs : ∀ e ∈ s.ccq.entries, e.cell.slot? ≠ c.slot?) :
    (s.offerControl i c).rsu.queued = true ∧
      (s.offerControl i c).ccq.entries = s.ccq.entries ++ [⟨c, 0, 0, none⟩] := by
  rw [State.offerControl_taken (CellQueue.offer_taken hl hs)]
  exact ⟨rfl, rfl⟩

/-- The second Mark counted in LISTENING: the first attempt and its JOIN (R88). -/
theorem State.learnDone_table (s : State) :
    s.learnDone.rsu.membership = .joining ∧ s.learnDone.rsu.attempt = 1 ∧
      s.learnDone.rsu.intent = .join ∧
      (s.ccq.entries.length < 8 → (∀ e ∈ s.ccq.entries, e.cell.slot? ≠ none) →
        s.learnDone.rsu.queued = true ∧
          s.learnDone.ccq.entries = s.ccq.entries ++ [⟨.join, 0, 0, none⟩]) ∧
      s.changesOnly [.rsu, .ccq] s.learnDone := by
  have hjoining : s.changesOnly [.rsu]
      ((s.onRsu fun u => { u with learnCount := 2, attempt := 1 }).setMembership .joining) :=
    (State.onRsu_changes _ s).trans (State.setMembership_changes _ _)
  obtain ⟨-, -, hmember, hattempt, hintent, -, -, -⟩ := State.offerControl_keeps .join .join
    ((s.onRsu fun u => { u with learnCount := 2, attempt := 1 }).setMembership .joining)
  refine ⟨hmember.trans (RosterUnit.setMembership_membership _ _ _),
    hattempt.trans (RosterUnit.setMembership_attempt _ _ _), hintent, fun hlen hnone => ?_,
    hjoining.seq (State.offerControl_changes _ _ _) (by decide) (by decide)⟩
  exact State.offerControl_enters
    (s := (s.onRsu fun u => { u with learnCount := 2, attempt := 1 }).setMembership .joining) hlen hnone

/-- The last Mark of the head's wait closes the turn (R49). -/
theorem CellQueue.onMark_waiting {q : CellQueue} {e : QueueEntry} {es : List QueueEntry}
    (he : q.entries = e :: es) (hw : e.wait = 1) : q.onMark = { q with
      entries := { e with wait := 0 } :: es, passedOver := [], turnOpen := false } := by
  simp [CellQueue.onMark, CellQueue.forgetPassed, he, hw]

/-- Settles O17: each expiry is the step that its count brings at a clean Mark. -/
theorem markExpiriesTakeEffect : Obligations.MarkExpiriesTakeEffect := by
  intro s hr
  refine ⟨fun hm hl => ?_, fun hm hj => ?_, fun i g k b he hb => ?_, fun k hk => ?_,
    fun e es he hw => ?_⟩
  · refine ⟨_, event_next _ hr, ?_⟩
    rw [if_pos ⟨hm, hl⟩]
    exact s.learnDone_table
  · refine ⟨_, event_next _ hr, ?_⟩
    rw [if_pos ⟨hm, hj⟩]
    obtain ⟨htimer, hagain, hlast⟩ :=
      State.attemptEnds_table (s.onRsu fun u => { u with joinTimer := none })
    refine ⟨htimer, fun h => ?_, hlast, ?_⟩
    · obtain ⟨hmember, hattempt, hintent, hflags⟩ := hagain h
      exact ⟨hmember.trans hm, hattempt, hintent, hflags⟩
    · exact s.joinTimerDone_changes
  · have hexec : exec (.backoffExpiry i) s = .next (s.setEntry i .free) := by
      show execBackoffExpiry i s = _
      rw [execBackoffExpiry, event_next _ hr]
      simp only [he, if_pos hb]
    refine ⟨_, hexec, ?_, s.setEntry_others i .free, s.setEntry_changes i .free⟩
    rw [Fin.getElem_fin, State.setEntry_get, if_pos rfl]
  · refine ⟨_, event_next _ hr, ?_⟩
    rw [if_pos hk]
    refine ⟨?_, State.onStream_others k _ s, State.onStream_changes k _ s⟩
    rw [State.onStream_self, Stream.tickPause, hk]
  · refine (event_next _ hr).trans (congrArg _ ?_)
    rw [if_pos (by simp [he, hw]), State.onCcq, CellQueue.onMark_waiting he hw]

end Sys2Proof.Machine
end

section
/-! START that is accepted (O43) and RESET_STREAM (O46). -/

namespace Sys2Proof.Machine

open Sys2Proof

/-- The index that a stream command's word carries. -/
theorem commandWord_stream (code : CommandCode) (k : StreamNo) :
    commandWord code.code (streamIndex k) = BitVec.ofNat 32 (k.val * 256 + code.code.toNat) := by
  rw [commandWord_eq, streamIndex, BitVec.toNat_ofNat, Nat.mod_eq_of_lt (k.isLt.trans (by decide))]

/-! ### START (R123, R142) -/

theorem Walker.walk_fields (w : Walker) :
    w.walk = { w with mode := w.walk.mode } ∧ (w.mode = .off → w.walk.mode = .walking) := by
  constructor
  · unfold Walker.walk
    split <;> rfl
  · exact fun h => congrArg Walker.mode (if_pos (.inl h))

/-- The stream that an accepted START leaves. -/
def Stream.start (st : Stream) : Stream := if st.isTalk then st.startTalk else st.startListen

theorem Stream.start_talk {st : Stream} (h : st.isTalk = true) : st.start = { st with
    state := .acquiring, priming := true, walkerQuiet := false, pauseTimer := 0
    walker := st.walker.walk } :=
  if_pos h

theorem Stream.start_listen {st : Stream} (h : st.isTalk = false) : st.start = { st with
    state := if st.walker.caughtUp then .drained else .running
    lastWord := none, sources := [], multiRaised := false, expect := false
    walker := st.walker.walk } :=
  if_neg (by simp [h])

theorem State.commandStart_taken {k : StreamNo} {s : State}
    (htalk : s.streams[k].isTalk = true → s.startTalkCheck k = .ok)
    (hlisten : s.streams[k].isTalk = false → s.streams[k].startListenCheck = .ok) :
    s.commandStart k = (s.onStream k Stream.start, .ok) := by
  have hstart (f : Stream → Stream) (h : f s.streams[k] = s.streams[k].start) :
      s.onStream k f = s.onStream k Stream.start := by
    rw [State.onStream, State.onStream, h]
  unfold State.commandStart
  cases ht : s.streams[k].isTalk with
  | true =>
    simp only [htalk ht, if_true, hstart Stream.startTalk (if_pos ht).symm]
  | false =>
    simp only [hlisten ht, if_true, Bool.false_eq_true, if_false,
      hstart Stream.startListen (if_neg (Bool.eq_false_iff.mp ht)).symm]

/-- What an accepted START leaves, whatever the direction. -/
theorem exec_start_taken {k : StreamNo} {s : State} (hr : s.resetAsserted = false)
    (h : s.commandStart k = (s.onStream k Stream.start, .ok)) :
    ∃ t, exec (.start k) s = .next t ∧ t.result = .ok
      ∧ t.command = BitVec.ofNat 32 (k.val * 256 + 3)
      ∧ t.streams[k] = s.streams[k].start ∧ s.otherStreamsSame k t
      ∧ s.changesOnly [.streams, .command, .result, .targetResponse] t := by
  have hfirst : (s.commandStart k).1 = s.onStream k Stream.start := congrArg Prod.fst h
  refine ⟨_, exec_start k hr, congrArg Prod.snd h, commandWord_stream .start k, ?_, ?_,
    State.posted_changes (s.commandStart_changes k) (by decide) (by decide)⟩
  · exact (congrArg (·.streams[k]) hfirst).trans (State.onStream_self k _ s)
  · exact State.otherStreamsSame_commanded (.inr hfirst)

/-- Settles O43: what START makes of the stream, by its direction, and of nothing else. -/
theorem startBeginsStream : Obligations.StartBeginsStream := by
  intro k s hr
  obtain ⟨hwalk, hmode⟩ := s.streams[k].walker.walk_fields
  refine ⟨fun ht hok => ?_, fun ht hok => ?_⟩
  · obtain ⟨t, hexec, hresult, hcommand, hnew, hothers, hframe⟩ := exec_start_taken hr
      (State.commandStart_taken (fun _ => hok) fun h => absurd (ht.symm.trans h) (by decide))
    rw [Stream.start_talk ht] at hnew
    have hwalker : t.streams[k].walker = s.streams[k].walker.walk := congrArg Stream.walker hnew
    refine ⟨t, hexec, hresult, hcommand, ?_, ?_, hothers, hframe⟩
    · rw [hwalker, ← hwalk]
      exact hnew
    · rw [hwalker]
      exact hmode
  · obtain ⟨t, hexec, hresult, hcommand, hnew, hothers, hframe⟩ := exec_start_taken hr
      (State.commandStart_taken (fun h => absurd (ht.symm.trans h) (by decide)) fun _ => hok)
    rw [Stream.start_listen ht] at hnew
    have hwalker : t.streams[k].walker = s.streams[k].walker.walk := congrArg Stream.walker hnew
    refine ⟨t, hexec, hresult, hcommand, ?_, ?_, hothers, hframe⟩
    · rw [hwalker, ← hwalk]
      exact hnew
    · rw [hwalker]
      exact hmode

/-! ### RESET_STREAM (R137, R154) -/

/-- STOPPED, or FAULTED with, of a Talk Stream, a quiet walker and no own entry. -/
theorem State.resetReady_iff (k : StreamNo) (s : State) :
    s.resetReady k = true ↔ s.streams[k].state = .stopped ∨ (s.streams[k].state = .faulted ∧
      (s.streams[k].isTalk = false ∨ (s.streams[k].walkerQuiet = true ∧
        ∀ i : SlotNo, s.slotMap[i].stream? ≠ some k))) := by
  unfold State.resetReady
  cases hs : s.streams[k].state with
  | faulted =>
    simp only [hs]
    simp [ownCount_zero]
  | _ =>
    simp only [hs]
    simp

theorem State.commandResetStream_taken {k : StreamNo} {s : State} (h : s.resetReady k = true) :
    s.commandResetStream k = (s.onStream k Stream.resetStream, .ok) :=
  if_pos h

theorem State.commandResetStream_refused {k : StreamNo} {s : State} (h : ¬ s.resetReady k = true) :
    s.commandResetStream k = (s, .busy) :=
  if_neg h

/-- The RESET_STREAM command posted (R137, R154, R169). -/
theorem exec_resetStream (k : StreamNo) {s : State} (hr : s.resetAsserted = false) :
    exec (.resetStream k) s = .next {
      s.post CommandCode.resetStream.code (streamIndex k) (State.commandResetStream k) with
        targetResponse := .answered } := targetWrite_next _ hr

theorem Stream.resetStream_common (st : Stream) :
    let new := st.resetStream
    new.state = .stopped ∧ new.cause = .none ∧ new.fifo = []
      ∧ new.words = 0 ∧ new.fills = 0 ∧ new.overruns = 0 ∧ new.flags = 0
      ∧ new.pauseTimer = 0 ∧ new.short = false ∧ new.walker = .reset
      ∧ new.cfg = st.cfg ∧ new.enables = st.enables := by
  unfold Stream.resetStream
  split <;> exact ⟨rfl, rfl, rfl, rfl, rfl, rfl, rfl, rfl, rfl, rfl, rfl, rfl⟩

theorem Stream.resetStream_talk {st : Stream} (h : st.isTalk = true) : st.resetStream =
    { st.resetCommon with
      priming := false, wordOnLine := false, drainStart := 0, walkerQuiet := true
      entriesGone := false } :=
  if_pos h

theorem Stream.resetStream_listen {st : Stream} (h : st.isTalk = false) : st.resetStream =
    { st.resetCommon with lastWord := none, sources := [], multiRaised := false, expect := false } :=
  if_neg (by simp [h])

/-- Settles O46: BUSY keeps the stream, a taken command leaves that of `Stream.resetStream`. -/
theorem resetStreamClearsStream : Obligations.ResetStreamClearsStream := by
  intro k s hr
  refine ⟨_, exec_resetStream k hr, ?_⟩
  intro old new ready
  have hready : s.resetReady k = true ↔ ready := s.resetReady_iff k
  refine ⟨State.otherStreamsSame_commanded (f := Stream.resetStream) ?_,
    State.posted_changes (s.commandResetStream_changes k) (by decide) (by decide),
    fun h => ?_, fun h => ?_⟩
  · by_cases h : s.resetReady k = true
    · exact .inr (congrArg Prod.fst (State.commandResetStream_taken h))
    · exact .inl (congrArg Prod.fst (State.commandResetStream_refused h))
  · have hrefused := State.commandResetStream_refused (mt hready.mp h)
    exact ⟨congrArg Prod.snd hrefused, congrArg (·.1.streams[k]) hrefused⟩
  · have htaken := State.commandResetStream_taken (hready.mpr h)
    have hnew : new = old.resetStream :=
      (congrArg (·.1.streams[k]) htaken).trans (State.onStream_self k _ s)
    obtain ⟨hstate, hcause, hfifo, hwords, hfills, hoverruns, hflags, hpause, hshort, hwalker, hcfg,
      henables⟩ := old.resetStream_common
    rw [← hnew] at hstate hcause hfifo hwords hfills hoverruns hflags hpause hshort hwalker hcfg henables
    refine ⟨congrArg Prod.snd htaken, hstate, hcause, hfifo, hwords, hfills, hoverruns, hflags, hpause,
      hshort, ?_⟩
    rw [hwalker]
    refine ⟨rfl, rfl, rfl, rfl, rfl, rfl, rfl, hcfg, henables, fun ht => ?_, fun ht => ?_⟩
    · rw [hnew, Stream.resetStream_talk ht]
      exact ⟨rfl, rfl, rfl, rfl, rfl⟩
    · rw [hnew, Stream.resetStream_listen ht]
      exact ⟨rfl, rfl, rfl, rfl⟩

end Sys2Proof.Machine
end

section
/-! The echo result of the own control cell (O28, O29): what it makes of the queue, and what the outcome it
reports makes of the block that offered the cell. -/

namespace Sys2Proof.Machine

open Sys2Proof

/-! ### The queue (R48, R53 to R55) -/

theorem CellQueue.removeHead_cons {q : CellQueue} {e : QueueEntry} {es : List QueueEntry}
    (h : q.entries = e :: es) : q.removeHead = { q with entries := es, onLine := false } := by
  rw [CellQueue.removeHead, h, List.tail_cons]

theorem CellQueue.onEcho_withdrawn {stn : StationNo} {m : Bool} {q : CellQueue} {e : QueueEntry}
    {es : List QueueEntry} {why : Withdrawal} (h : q.entries = e :: es) (hw : e.withdrawn = some why) :
    q.onEcho stn m = ({ q with entries := es, onLine := false }, some (e.cell, why.outcome)) := by
  rw [← CellQueue.removeHead_cons h]
  simp only [CellQueue.onEcho, h, hw]

theorem CellQueue.onEcho_matched {stn : StationNo} {q : CellQueue} {e : QueueEntry}
    {es : List QueueEntry} (h : q.entries = e :: es) (hw : e.withdrawn = none) :
    q.onEcho stn true = ({ q with entries := es, onLine := false }, some (e.cell, .matched)) := by
  rw [← CellQueue.removeHead_cons h]
  simp only [CellQueue.onEcho, h, hw, if_true]

theorem CellQueue.onEcho_again {stn : StationNo} {q : CellQueue} {e : QueueEntry}
    {es : List QueueEntry} (h : q.entries = e :: es) (hw : e.withdrawn = none) (ha : e.attempt < 6) :
    q.onEcho stn false = ({ q with
      entries := { e with attempt := e.attempt + 1, wait := stn.toNat % 2 ^ (e.attempt + 1) } :: es
      onLine := false }, none) := by
  have ha' : e.attempt < Config.lastAttempt := ha
  simp only [CellQueue.onEcho, h, hw, ha', if_true, Bool.false_eq_true, if_false]
  rfl

theorem CellQueue.onEcho_contention {stn : StationNo} {q : CellQueue} {e : QueueEntry}
    {es : List QueueEntry} (h : q.entries = e :: es) (hw : e.withdrawn = none) (ha : 6 ≤ e.attempt) :
    q.onEcho stn false = ({ q with entries := es, onLine := false }, some (e.cell, .contention)) := by
  have ha' : ¬ e.attempt < Config.lastAttempt := Nat.not_lt.mpr ha
  rw [← CellQueue.removeHead_cons h]
  simp only [CellQueue.onEcho, h, hw, ha', Bool.false_eq_true, if_false]

/-! ### The state at the echo result, before its outcome reaches a block -/

/-- The own cell ended, a mismatch counted, and the queue `q`. -/
def State.echoed (matched : Bool) (q : CellQueue) (s : State) : State :=
  ((s.onLnu LineUnit.endTx).onCounters (if matched then id else StationCounters.addContend)).onCcq
    fun _ => q

theorem State.echoed_lnu {s : State} {w : OpenSlot} {st : Instant} {c : Cell} {k : Option StreamNo}
    (htx : s.lnu.tx = some ⟨.openSlot w, st, c, k⟩) (matched : Bool) (q : CellQueue) :
    (s.echoed matched q).lnu =
      { s.lnu with tx := none, driving := false, candidates := s.candidatesBut (.openSlot w) } :=
  LineUnit.endTx_eq htx

theorem State.echoed_match_changes (q : CellQueue) (s : State) :
    s.changesOnly [.lnu, .ccq] (s.echoed true q) :=
  (State.onLnu_changes LineUnit.endTx s).seq (State.onCcq_changes _ _) (by decide) (by decide)

theorem State.echoed_mismatch_changes (q : CellQueue) (s : State) :
    s.changesOnly [.lnu, .ccq, .counters] (s.echoed false q) :=
  ((State.onLnu_changes LineUnit.endTx s).seq (State.onCounters_changes _ _)
    (rs := [.lnu, .ccq, .counters]) (by decide) (by decide)).trans
      ((State.onCcq_changes _ _).mono (by decide))

/-- An echo result that removes the head and reports its outcome (R53, R56). -/
theorem exec_openSlotEcho {s : State} {w : OpenSlot} {st : Instant} {c : Cell} {k : Option StreamNo}
    (hr : s.resetAsserted = false) (htx : s.lnu.tx = some ⟨.openSlot w, st, c, k⟩)
    (hl : s.ccq.onLine = true) {matched : Bool} {q : CellQueue} {x : QueueCell} {o : CellOutcome}
    (hq : s.ccq.onEcho s.straps.stn matched = (q, some (x, o))) :
    exec (.openSlotEcho matched) s = .next ((s.echoed matched q).takeOutcome x o) := by
  refine (event_next _ hr).trans (congrArg _ ?_)
  have hown : (s.lnu.ownControlCell && s.ccq.onLine) = true := by
    simp [LineUnit.ownControlCell, htx, hl]
  rw [State.openSlotEcho, if_pos hown]
  cases matched <;>
    simp only [State.onLnu_ccq, State.onLnu_straps, State.onCounters_ccq, State.onCounters_straps,
      if_true, Bool.false_eq_true, if_false, hq] <;> rfl

/-- An echo result that leaves the head for another attempt (R54). -/
theorem exec_openSlotEcho_again {s : State} {w : OpenSlot} {st : Instant} {c : Cell}
    {k : Option StreamNo} (hr : s.resetAsserted = false)
    (htx : s.lnu.tx = some ⟨.openSlot w, st, c, k⟩) (hl : s.ccq.onLine = true) {q : CellQueue}
    (hq : s.ccq.onEcho s.straps.stn false = (q, none)) :
    exec (.openSlotEcho false) s = .next (s.echoed false q) := by
  refine (event_next _ hr).trans (congrArg _ ?_)
  have hown : (s.lnu.ownControlCell && s.ccq.onLine) = true := by
    simp [LineUnit.ownControlCell, htx, hl]
  rw [State.openSlotEcho, if_pos hown]
  simp only [State.onLnu_ccq, State.onLnu_straps, State.onCounters_ccq, State.onCounters_straps,
    Bool.false_eq_true, if_false, hq]
  rfl

/-! ### The outcome at the block that offered the cell (R37, R38, R90, R93) -/

/-- The outcome of a withdrawal changes nothing. -/
theorem State.takeOutcome_withdrawn (c : QueueCell) (why : Withdrawal) (s : State) :
    s.takeOutcome c why.outcome = s := by
  cases why <;> cases c <;> simp [State.takeOutcome, Withdrawal.outcome, State.joinOutcome,
    State.leaveOutcome, State.claimOutcome, State.releaseOutcome]

theorem State.claimOutcome_other {i : SlotNo} {s : State} (o : CellOutcome)
    (h : ∀ g k q, s.slotMap[i] ≠ .claiming g k q) : s.claimOutcome i o = s := by
  unfold State.claimOutcome
  split
  · rename_i he
    exact absurd he (h _ _ _)
  · rename_i he
    exact absurd he (h _ _ _)
  · rfl

theorem State.claimOutcome_matched {i : SlotNo} {g : Tag} {k : StreamNo} {q : Bool} {s : State}
    (h : s.slotMap[i] = .claiming g k q) : s.claimOutcome i .matched = s.setEntry i (.mine g k) := by
  simp only [State.claimOutcome, h]

theorem State.claimOutcome_contention {i : SlotNo} {g : Tag} {k : StreamNo} {q : Bool} {s : State}
    (h : s.slotMap[i] = .claiming g k q) : s.claimOutcome i .contention =
      (s.setEntry i .free).onStream k fun st => ({ st with pauseTimer := 16 }).raise .claimFailed := by
  simp only [State.claimOutcome, h]
  rfl

theorem State.releaseOutcome_other {i : SlotNo} {s : State} (o : CellOutcome)
    (h : ∀ g k q, s.slotMap[i] ≠ .releasing g k q) : s.releaseOutcome i o = s := by
  unfold State.releaseOutcome
  split
  · rename_i he
    exact absurd he (h _ _ _)
  · rename_i he
    exact absurd he (h _ _ _)
  · rfl

theorem State.releaseOutcome_freed {i : SlotNo} {g : Tag} {k : StreamNo} {q : Bool} {s : State}
    {o : CellOutcome} (h : s.slotMap[i] = .releasing g k q) (ho : o = .matched ∨ o = .contention) :
    s.releaseOutcome i o = s.setEntry i .free := by
  rcases ho with rfl | rfl <;> simp only [State.releaseOutcome, h]

theorem State.leaveOutcome_left {s : State} {o : CellOutcome} (h : s.rsu.membership = .leaving)
    (ho : o = .matched ∨ o = .contention) : s.leaveOutcome o =
      ((s.onRsu RosterUnit.dropIntent).setMembership .dormant).raise .left := by
  rcases ho with rfl | rfl <;> simp only [State.leaveOutcome, h]

theorem State.leaveOutcome_other {s : State} (o : CellOutcome) (h : s.rsu.membership ≠ .leaving) :
    s.leaveOutcome o = s := by
  unfold State.leaveOutcome
  split
  · rename_i hm
    exact absurd hm h
  · rename_i hm
    exact absurd hm h
  · rfl

theorem State.joinOutcome_matched {s : State} (h : s.rsu.membership = .joining) :
    s.joinOutcome .matched = s.onRsu fun u =>
      { u with joinTimer := some 16, intent := .none, queued := false } := by
  simp only [State.joinOutcome, h]
  rfl

theorem State.joinOutcome_contention {s : State} (h : s.rsu.membership = .joining) :
    s.joinOutcome .contention = (s.onRsu RosterUnit.dropIntent).attemptEnds := by
  simp only [State.joinOutcome, h]

theorem State.joinOutcome_other {s : State} (o : CellOutcome) (h : s.rsu.membership ≠ .joining) :
    s.joinOutcome o = s := by
  unfold State.joinOutcome
  split
  · rename_i hm
    exact absurd hm h
  · rename_i hm
    exact absurd hm h
  · rfl

/-- What a change of one entry reports to a stream (R23, R40). -/
theorem State.setEntry_reported (i : SlotNo) (e : SlotEntry) (s : State) (k : StreamNo) :
    (s.setEntry i e).streams[k] =
      s.streams[k].mapReported s.mku.count s.slotMap (s.setEntry i e).slotMap k := by
  rw [← reportMap_table]
  exact s.setEntry_stream i e k

theorem State.setEntry_held (i : SlotNo) (e : SlotEntry) (s : State) (k : StreamNo) :
    (s.setEntry i e).streams[k].held = mineCount (s.setEntry i e).slotMap k := by
  rw [State.setEntry_reported, ← reportMap_table, reportMap_held]

theorem State.setEntry_self (i : SlotNo) (e : SlotEntry) (s : State) :
    (s.setEntry i e).slotMap[i] = e := by
  rw [Fin.getElem_fin, State.setEntry_get, if_pos rfl]

/-- A match does not reach the queue by the block that offered the cell. -/
theorem State.takeOutcome_matched_changes (c : QueueCell) (s : State) :
    s.changesOnly [.slotMap, .streams, .rsu, .stationFlags] (s.takeOutcome c .matched) := by
  cases c with
  | claim i _ _ => exact (State.claimOutcome_changes i _ s).mono (by decide)
  | release i _ => exact (State.releaseOutcome_changes i _ s).mono (by decide)
  | join =>
    by_cases h : s.rsu.membership = .joining
    · rw [State.takeOutcome, State.joinOutcome_matched h]
      exact (State.onRsu_changes _ s).mono (by decide)
    · rw [State.takeOutcome, State.joinOutcome_other _ h]
      exact .refl _ s
  | leave =>
    by_cases h : s.rsu.membership = .leaving
    · rw [State.takeOutcome, State.leaveOutcome_left h (.inl rfl)]
      exact ((State.onRsu_changes _ s).trans (State.setMembership_changes _ _)).seq
        (State.raise_changes _ _) (by decide) (by decide)
    · rw [State.takeOutcome, State.leaveOutcome_other _ h]
      exact .refl _ s

/-- No outcome reaches the Line Unit or the counters. -/
theorem State.takeOutcome_blocks (c : QueueCell) (o : CellOutcome) (s : State) :
    s.changesOnly [.slotMap, .streams, .rsu, .ccq, .stationFlags] (s.takeOutcome c o) := by
  cases c with
  | join => exact (State.joinOutcome_changes o s).mono (by decide)
  | leave => exact (State.leaveOutcome_changes o s).mono (by decide)
  | claim i _ _ => exact (State.claimOutcome_changes i o s).mono (by decide)
  | release i _ => exact (State.releaseOutcome_changes i o s).mono (by decide)

/-- A CLAIM matched, at the map and the streams (R37). -/
theorem State.claimOutcome_matched_table (i : SlotNo) (s : State) :
    let t := s.claimOutcome i .matched
    s.otherEntriesSame i t ∧ t.rsu = s.rsu
      ∧ (∀ g j q, s.slotMap[i] = .claiming g j q → t.slotMap[i] = .mine g j
          ∧ t.streams[j].held = mineCount t.slotMap j ∧ ∀ k : StreamNo,
            t.streams[k] = s.streams[k].mapReported s.mku.count s.slotMap t.slotMap k)
      ∧ ((∀ g j q, s.slotMap[i] ≠ .claiming g j q) →
          t.slotMap = s.slotMap ∧ t.streams = s.streams) := by
  refine ⟨fun j hj => State.claimOutcome_get i _ j hj, State.claimOutcome_changes i _ s .rsu (by decide),
    fun g j q he => ?_, fun he => ?_⟩
  · rw [State.claimOutcome_matched he]
    exact ⟨State.setEntry_self _ _ _, State.setEntry_held _ _ _ _, State.setEntry_reported _ _ _⟩
  · rw [State.claimOutcome_other _ he]
    exact ⟨rfl, rfl⟩

/-- A RELEASE matched or given up, at the map and the streams (R38). -/
theorem State.releaseOutcome_table (i : SlotNo) (s : State) {o : CellOutcome}
    (ho : o = .matched ∨ o = .contention) :
    let t := s.releaseOutcome i o
    s.otherEntriesSame i t ∧ t.rsu = s.rsu
      ∧ (∀ g j q, s.slotMap[i] = .releasing g j q → t.slotMap[i] = .free ∧ ∀ k : StreamNo,
            t.streams[k] = s.streams[k].mapReported s.mku.count s.slotMap t.slotMap k)
      ∧ ((∀ g j q, s.slotMap[i] ≠ .releasing g j q) →
          t.slotMap = s.slotMap ∧ t.streams = s.streams) := by
  refine ⟨fun j hj => State.releaseOutcome_get i _ j hj,
    State.releaseOutcome_changes i _ s .rsu (by decide), fun g j q he => ?_, fun he => ?_⟩
  · rw [State.releaseOutcome_freed he ho]
    exact ⟨State.setEntry_self _ _ _, State.setEntry_reported _ _ _⟩
  · rw [State.releaseOutcome_other _ he]
    exact ⟨rfl, rfl⟩

/-- A CLAIM given up: its entry is freed and its stream's claims rest (R37). -/
theorem State.claimOutcome_contention_table (i : SlotNo) (s : State) :
    let t := s.claimOutcome i .contention
    s.otherEntriesSame i t ∧ (∀ g j q, s.slotMap[i] = .claiming g j q → t.slotMap[i] = .free
      ∧ t.streams[j].pauseTimer = 16 ∧ t.streams[j].flags.getLsbD 4 = true
      ∧ ∀ k : StreamNo, k ≠ j →
          t.streams[k] = s.streams[k].mapReported s.mku.count s.slotMap t.slotMap k) := by
  refine ⟨fun j hj => State.claimOutcome_get i _ j hj, fun g j q he => ?_⟩
  rw [State.claimOutcome_contention he]
  have hstream := State.onStream_self j
    (fun st => ({ st with pauseTimer := 16 } : Stream).raise .claimFailed) (s.setEntry i .free)
  refine ⟨State.setEntry_self _ _ _, ?_, ?_, fun k hk => ?_⟩
  · rw [hstream]
    rfl
  · rw [hstream, Stream.raise_flag _ _ (by decide)]
    simp [StreamEvent.bit]
  · exact (State.onStream_others j _ _ k hk).trans (State.setEntry_reported _ _ _ _)

/-- A LEAVE matched or given up ends LEAVING (R93). -/
theorem State.leaveOutcome_table (s : State) {o : CellOutcome}
    (ho : o = .matched ∨ o = .contention) :
    let t := s.leaveOutcome o
    t.slotMap = s.slotMap ∧ t.streams = s.streams ∧ t.ccq = s.ccq
      ∧ (s.rsu.membership = .leaving → t.rsu.membership = .dormant ∧ t.rsu.intent = .none
          ∧ t.stationFlags = s.stationFlags ||| 0x08#9)
      ∧ (s.rsu.membership ≠ .leaving → t.rsu = s.rsu ∧ t.stationFlags = s.stationFlags) := by
  by_cases h : s.rsu.membership = .leaving
  · rw [State.leaveOutcome_left h ho]
    refine ⟨rfl, rfl, rfl, fun _ => ⟨RosterUnit.setMembership_membership _ _ _, ?_, rfl⟩,
      fun hne => absurd h hne⟩
    rw [State.raise_rsu, State.setMembership_rsu, RosterUnit.setMembership_keeps]
    rfl
  · rw [State.leaveOutcome_other _ h]
    exact ⟨rfl, rfl, rfl, fun hl => absurd hl h, fun _ => ⟨rfl, rfl⟩⟩

/-- A JOIN matched starts the join timer (R90). -/
theorem State.joinOutcome_matched_table (s : State) :
    let t := s.joinOutcome .matched
    t.slotMap = s.slotMap ∧ t.streams = s.streams
      ∧ (s.rsu.membership = .joining →
          t.rsu = { s.rsu with joinTimer := some 16, intent := .none, queued := false })
      ∧ (s.rsu.membership ≠ .joining → t.rsu = s.rsu) := by
  by_cases h : s.rsu.membership = .joining
  · rw [State.joinOutcome_matched h]
    exact ⟨rfl, rfl, fun _ => rfl, fun hne => absurd h hne⟩
  · rw [State.joinOutcome_other _ h]
    exact ⟨rfl, rfl, fun hj => absurd hj h, fun _ => rfl⟩

/-- A JOIN given up ends the attempt (R90). -/
theorem State.joinOutcome_contention_table (s : State) (hjoining : s.rsu.membership = .joining) :
    let t := s.joinOutcome .contention
    (s.rsu.attempt < 4 → t.rsu.membership = .joining ∧ t.rsu.attempt = s.rsu.attempt + 1
        ∧ t.rsu.intent = .join) ∧
      (4 ≤ s.rsu.attempt → t.rsu.membership = .dormant
        ∧ t.stationFlags = s.stationFlags ||| 0x04#9) := by
  obtain ⟨-, hagain, hend⟩ := (s.onRsu RosterUnit.dropIntent).attemptEnds_table
  rw [State.joinOutcome_contention hjoining]
  refine ⟨fun h => ?_, fun h => ?_⟩
  · obtain ⟨hmember, hattempt, hintent, -⟩ := hagain h
    exact ⟨hmember.trans hjoining, hattempt, hintent⟩
  · obtain ⟨hdormant, -, hflags, -⟩ := hend h
    exact ⟨hdormant, hflags⟩

/-! ### The statements -/

/-- Settles O28: the queue by `CellQueue.onEcho`, the rest by the outcome at the cell's block. -/
theorem controlEchoMatchSettles : Obligations.ControlEchoMatchSettles := by
  intro w st c k e es s hr htx hl hq
  refine ⟨fun hw => ?_, fun hw => ?_⟩
  · obtain ⟨why, hwhy⟩ := Option.ne_none_iff_exists'.mp hw
    refine ⟨_, exec_openSlotEcho hr htx hl (CellQueue.onEcho_withdrawn hq hwhy), ?_⟩
    rw [State.takeOutcome_withdrawn]
    exact ⟨State.echoed_lnu htx _ _, rfl, State.echoed_match_changes _ s⟩
  · have hhead := CellQueue.onEcho_matched (stn := s.straps.stn) hq hw
    have hframe := State.takeOutcome_matched_changes e.cell
      (s.echoed true { s.ccq with entries := es, onLine := false })
    refine ⟨_, exec_openSlotEcho hr htx hl hhead, (hframe .lnu (by decide)).trans
      (State.echoed_lnu htx _ _), hframe .ccq (by decide), hframe .counters (by decide),
      ((State.echoed_match_changes _ s).seq hframe (by decide) (by decide)), ?_⟩
    set u := s.echoed true { s.ccq with entries := es, onLine := false } with hu
    cases hc : e.cell with
    | claim i _ _ => exact u.claimOutcome_matched_table i
    | release i _ => exact u.releaseOutcome_table i (.inl rfl)
    | join => exact u.joinOutcome_matched_table
    | leave =>
      obtain ⟨hmap, hstreams, -, hleft, hstays⟩ := u.leaveOutcome_table (o := .matched) (.inl rfl)
      exact ⟨hmap, hstreams, hleft, hstays⟩

/-- Settles O29: another attempt leaves the head in the queue, the last one ends at its block. -/
theorem controlEchoMismatchBacksOff : Obligations.ControlEchoMismatchBacksOff := by
  intro w st c k e es s hr htx hl hq
  have hcount : countsOne s.counters.contend s.counters.addContend.contend := countsOne_satAdd _
  refine ⟨fun hw => ?_, fun hw => ?_⟩
  · obtain ⟨why, hwhy⟩ := Option.ne_none_iff_exists'.mp hw
    refine ⟨_, exec_openSlotEcho hr htx hl (CellQueue.onEcho_withdrawn hq hwhy), ?_⟩
    rw [State.takeOutcome_withdrawn]
    exact ⟨State.echoed_lnu htx _ _, rfl, hcount, rfl, State.echoed_mismatch_changes _ s⟩
  · rcases Nat.lt_or_ge e.attempt 6 with ha | ha
    · have hagain := CellQueue.onEcho_again (stn := s.straps.stn) hq hw ha
      exact ⟨_, exec_openSlotEcho_again hr htx hl hagain, State.echoed_lnu htx _ _, hcount, rfl,
        fun _ => ⟨rfl, State.echoed_mismatch_changes _ s⟩, fun h => absurd ha (Nat.not_lt.mpr h)⟩
    · have hlast := CellQueue.onEcho_contention (stn := s.straps.stn) hq hw ha
      set u := s.echoed false { s.ccq with entries := es, onLine := false } with hu
      have hframe := State.takeOutcome_blocks e.cell .contention u
      have hcounters : (u.takeOutcome e.cell .contention).counters = s.counters.addContend :=
        hframe .counters (by decide)
      refine ⟨_, exec_openSlotEcho hr htx hl hlast, (hframe .lnu (by decide)).trans
        (State.echoed_lnu htx _ _), hcounters ▸ hcount, hcounters.trans (by rw [hcounters]; rfl),
        fun h => absurd h (Nat.not_lt.mpr ha), fun _ => ?_⟩
      cases hc : e.cell with
      | claim i _ _ =>
        exact ⟨congrArg CellQueue.entries (State.claimOutcome_changes i _ u .ccq (by decide)),
          u.claimOutcome_contention_table i⟩
      | release i _ =>
        obtain ⟨hothers, -, hfreed, -⟩ := u.releaseOutcome_table i (o := .contention) (.inr rfl)
        exact ⟨congrArg CellQueue.entries (State.releaseOutcome_changes i _ u .ccq (by decide)),
          hothers, hfreed⟩
      | join => exact u.joinOutcome_contention_table
      | leave =>
        obtain ⟨-, -, hccq, hleft, -⟩ := u.leaveOutcome_table (o := .contention) (.inr rfl)
        refine ⟨congrArg CellQueue.entries hccq, fun h => ?_⟩
        obtain ⟨hdormant, -, hflags⟩ := hleft h
        exact ⟨hdormant, hflags⟩

end Sys2Proof.Machine
end

section
/-! How a stop begins and how a walker fault ends a stream (O20, O40, O44): the release trigger at a stream
that is STOPPING or FAULTED, and the walker's share. -/

namespace Sys2Proof.Machine

open Sys2Proof

/-! ### What a release trigger leaves of its own stream (R39, R40) -/

/-- A release trigger does not reach the walker, the FIFO or the word on the line. -/
theorem State.releaseTrigger_engine (k : StreamNo) (s : State) :
    let st := (s.releaseTrigger k).streams[k]
    st.cause = s.streams[k].cause ∧ st.fifo = s.streams[k].fifo ∧ st.priming = s.streams[k].priming
      ∧ st.wordOnLine = s.streams[k].wordOnLine ∧ st.walker = s.streams[k].walker := by
  intro st
  have hst : st = _ := s.releaseTrigger_get k k
  rw [hst]
  simp only [if_true]
  split <;> simp

/-- A FAULTED stream takes a report of the map as its held count and SHORT alone. -/
theorem reportMap_faulted (c : Word) (m m' : Vector SlotEntry 48) (k : StreamNo) {st : Stream}
    (h : st.state = .faulted) : st.Recounted (reportMap c m m' k st) := by
  have hheld (n : Nat) : st.heldTable c n = { st with
      held := n, short := st.short && (n == st.held || n != st.cfg.wanted.toNat) } := by
    simp [Stream.heldTable, h]
  have hnone (x : Stream) (hx : x.state = .faulted) : x.noneRemainTable = x :=
    if_neg fun hs => by simp [hx] at hs
  rw [reportMap_table, Stream.mapReported, hheld]
  rw [hnone, ite_self]
  · exact ⟨_, _, rfl⟩
  · exact h

/-- A FAULTED stream keeps its state and its flags through a release trigger. -/
theorem State.releaseTrigger_faulted {k : StreamNo} {s : State} (h : s.streams[k].state = .faulted) :
    s.streams[k].Recounted (s.releaseTrigger k).streams[k] := by
  obtain ⟨n, short, hreport⟩ := reportMap_faulted s.mku.count s.slotMap
    (s.mapEntries (SlotEntry.trigger k)).slotMap k (st := s.streams[k.val]) h
  have hnone : ({ s.streams[k.val] with held := n, short := false } : Stream).onNoneRemain =
      { s.streams[k.val] with held := n, short := false } :=
    if_neg fun hs => absurd (h.symm.trans hs.2) (by decide)
  refine ⟨n, false, (s.releaseTrigger_get k k).trans ?_⟩
  simp only [if_true, hreport]
  split
  · exact hnone
  · rfl

/-- A stop releases the slots of its stream, by the map before it (R39). -/
theorem State.stopTalk_released (k : StreamNo) (c : StopCause) (s : State) :
    s.releasedFor k (s.stopTalk k c) :=
  State.releasedFor_congr (s' := s.onStream k (Stream.beginStop c)) rfl
    (State.releaseTrigger_released k _)

/-! ### Grace (R129) -/

/-- Settles O20: the row is a stop with cause DRAIN, taken when the grace has run out. -/
theorem graceExpiryStopsStream : Obligations.GraceExpiryStopsStream := by
  intro k s hr
  refine ⟨fun h => ⟨s.stopTalk k .drain, ?_, ?_⟩, fun h => ?_⟩
  · exact (event_next _ hr).trans (congrArg _ (if_pos ((s.graceExpired_iff k).mpr h)))
  · obtain ⟨hcause, hfifo, hpriming⟩ := s.stopTalk_stream k .drain h.1
    exact ⟨hcause, s.stopTalk_begun k .drain h.1, hfifo, hpriming, s.stopTalk_released k .drain,
      s.stopTalk_changes k .drain⟩
  · exact (event_next _ hr).trans (congrArg _ (if_neg fun hg => h ((s.graceExpired_iff k).mp hg)))

/-! ### An error response (R117, R134, R152) -/

/-- The stream after an error response, before its release trigger. -/
def Stream.memoryFault (st : Stream) : Stream :=
  if st.isTalk then st.walkerFault.memoryFaultTalk else st.walkerFault.memoryFaultListen

/-- The walker after an error response: off, with C back at the oldest descriptor without an
acknowledged record, and FAULT raised. -/
theorem Stream.walkerFault_table (st : Stream) :
    let new := st.walkerFault
    let cur := (st.walker.records.head?.map Record.index).getD st.walker.cur
    new.walker.mode = .off ∧ new.walker.records = [] ∧ new.walker.access = none
      ∧ new.walker.cur = cur ∧ new.walker.fetch = cur ∧ new.walker.ready = st.walker.ready
      ∧ new.walker.inHand = none ∧ new.walker.prefetched = none ∧ new.walker.done = 0
      ∧ new.walker.caughtUp = (st.walker.caughtUp && st.walker.records.isEmpty)
      ∧ new.flags.getLsbD 6 = true :=
  ⟨rfl, rfl, rfl, rfl, rfl, rfl, rfl, rfl, rfl, rfl, Stream.raise_fault _⟩

/-- The engine's part of a fault leaves the walker, which is off, and the flags as they are. -/
theorem Stream.memoryFault_walker (st : Stream) :
    st.memoryFault.walker = st.walkerFault.walker ∧ st.memoryFault.flags = st.walkerFault.flags := by
  unfold Stream.memoryFault
  split
  · unfold Stream.memoryFaultTalk
    split <;> exact ⟨rfl, rfl⟩
  · unfold Stream.memoryFaultListen
    split <;> exact ⟨rfl, rfl⟩

/-- A started stream faults; a Listen Stream is never ACQUIRING. -/
theorem Stream.memoryFault_started {st : Stream} (h0 : st.state ≠ .stopped) (hf : st.state ≠ .faulted)
    (ha : st.isTalk = false → st.state ≠ .acquiring) :
    st.memoryFault.state = .faulted ∧ st.memoryFault.cause = .memory ∧ st.memoryFault.fifo = [] := by
  have hstate : st.walkerFault.state = st.state := rfl
  unfold Stream.memoryFault
  split
  · unfold Stream.memoryFaultTalk
    split <;> simp_all
  · unfold Stream.memoryFaultListen
    split <;> simp_all

theorem Stream.memoryFault_rest {st : Stream} (h : st.state = .stopped ∨ st.state = .faulted) :
    st.memoryFault.state = st.state := by
  have hstate : st.walkerFault.state = st.state := rfl
  unfold Stream.memoryFault
  split
  · unfold Stream.memoryFaultTalk
    split <;> simp_all
  · unfold Stream.memoryFaultListen
    split <;> simp_all

/-- The streams that send the release trigger at a memory fault. -/
theorem Stream.faultTriggers_iff (st : Stream) : st.faultTriggers = true ↔
    st.isTalk = true ∧ st.state ≠ .faulted ∧ st.state ≠ .stopped := by
  simp [Stream.faultTriggers, and_assoc]

theorem State.accessError_eq {k : StreamNo} {a : Access} {s : State}
    (h : s.streams[k].walker.access = some a) : s.accessError k =
      if s.streams[k].faultTriggers then (s.onStream k Stream.memoryFault).releaseTrigger k
      else s.onStream k Stream.memoryFault := by
  have hsome : ¬ s.streams[k].walker.access.isNone = true := by
    rw [h]
    exact Bool.false_ne_true
  unfold State.accessError
  exact if_neg hsome

/-- After the fault the stream is that of `Stream.memoryFault`, up to the held count and SHORT. -/
theorem State.accessError_stream {k : StreamNo} {a : Access} {s : State}
    (h : s.streams[k].walker.access = some a) :
    s.streams[k].memoryFault.Recounted (s.accessError k).streams[k] := by
  have hself := State.onStream_self k Stream.memoryFault s
  rw [State.accessError_eq h]
  split
  · rename_i hsend
    obtain ⟨htalk, hf, h0⟩ := (Stream.faultTriggers_iff _).mp hsend
    obtain ⟨hfaulted, -, -⟩ := Stream.memoryFault_started h0 hf fun hl => absurd (htalk.symm.trans hl)
      (by decide)
    rw [← hself] at hfaulted ⊢
    exact State.releaseTrigger_faulted hfaulted
  · rw [hself]
    exact .refl _

/-- Settles O40: the walker by its fault, the state by the engine's, the slots by the trigger. -/
theorem accessErrorFaultsStream : Obligations.AccessErrorFaultsStream := by
  intro k a s hr ha
  refine ⟨s.accessError k, event_next _ hr, s.accessError_changes k, ?_⟩
  intro old new cur
  obtain ⟨n, short, hnew⟩ := State.accessError_stream ha
  have hnew : new = { old.memoryFault with held := n, short := short } := hnew
  obtain ⟨hwalker, hflags⟩ := old.memoryFault_walker
  obtain ⟨hmode, hrecords, haccess, hcur, hfetch, hready, hin, hpre, hdone, hcaught, hfault⟩ :=
    old.walkerFault_table
  have hw : new.walker = old.walkerFault.walker := by rw [hnew, ← hwalker]
  have hfl : new.flags = old.walkerFault.flags := by rw [hnew, ← hflags]
  have hstate : new.state = old.memoryFault.state := by rw [hnew]
  rw [hw, hfl, hstate]
  refine ⟨hmode, hrecords, haccess, hcur, hfetch, hready, hin, hpre, hdone, hcaught, hfault,
    fun h0 hf hl => ?_, Stream.memoryFault_rest, fun ht h0 hf => ?_, fun ht => ?_⟩
  · obtain ⟨hs, hcause, hfifo⟩ := Stream.memoryFault_started h0 hf hl
    exact ⟨hs, by rw [hnew, ← hcause], by rw [hnew, ← hfifo]⟩
  · rw [State.accessError_eq ha, if_pos ((Stream.faultTriggers_iff _).mpr ⟨ht, hf, h0⟩)]
    exact State.releasedFor_congr (s' := s.onStream k Stream.memoryFault) rfl
      (State.releaseTrigger_released k _)
  · have hquiet : ¬ s.streams[k].faultTriggers = true := fun h =>
      absurd (ht.symm.trans ((Stream.faultTriggers_iff _).mp h).1) (by decide)
    rw [State.accessError_eq ha, if_neg hquiet]
    exact ⟨State.onStream_changes k _ s, State.onStream_others k _ s⟩

end Sys2Proof.Machine
end

section
/-! The STOP command (O44): its results, and the stop it begins in a Talk and in a Listen Stream. -/

namespace Sys2Proof.Machine

open Sys2Proof

/-! ### The stop of the walker (R113, R115) -/

theorem Stream.stopDoneTable_walker (st : Stream) : st.stopDoneTable.walker = st.walker := by
  rw [← Stream.onStopDone_table]
  simp

/-- The walker of a Talk Stream stops the same way whatever its engine holds. -/
theorem Stream.stopTable_walker {a b : Stream} (ha : a.isTalk = true) (hb : b.isTalk = true)
    (h : a.walker = b.walker) : a.stopTable.walker = b.stopTable.walker := by
  simp only [Stream.stopTable, ha, hb, h, if_true, Bool.true_eq_false, false_and, if_false]
  split
  · exact h
  · split
    · rw [Stream.stopDoneTable_walker, Stream.stopDoneTable_walker]
    · exact h

/-- Emptying the FIFO discards the read that the stop request would discard. -/
theorem Walker.stopNoted_discarded (w : Walker) :
    ({ w with access := w.access.map Access.discardRead } : Walker).stopNoted true =
      w.stopNoted true := by
  unfold Walker.stopNoted Access.discardRead
  cases w.access with
  | none => rfl
  | some a => by_cases h : a.kind = .read <;> simp [h]

/-- The walker after the stop of a Talk Stream at work. -/
theorem Stream.beginStop_walker (c : StopCause) {st : Stream} (ht : st.isTalk = true)
    (hw : st.walker.mode = .walking ∨ st.walker.mode = .held) : (st.beginStop c).walker =
      ({ st with walker := st.walker.stopNoted true } : Stream).stopTable.walker := by
  refine (congrArg Stream.walker (Stream.stopRequest_table { st.emptyFifo with
    state := .stopping, cause := c, priming := false, entriesGone := false
    walkerQuiet := false } true ht hw)).trans ?_
  exact Stream.stopTable_walker ht ht (Walker.stopNoted_discarded st.walker)

/-! ### The stop of a Listen Stream (R150, R151) -/

/-- A stop between two accesses leaves STOPPING or ends it. -/
theorem Stream.stopTable_state {st : Stream} (hs : st.state = .stopping) :
    st.stopTable.state = .stopping ∨ st.stopTable.state = .stopped := by
  have hdiscard (x : Stream) : x.discardTable.state = x.state := by
    unfold Stream.discardTable
    split <;> rfl
  have hdone (x : Stream) (hx : x.state = .stopping) :
      x.stopDoneTable.state = .stopping ∨ x.stopDoneTable.state = .stopped := by
    cases ht : x.isTalk with
    | true =>
      rw [Stream.stopDoneTable_talk ht hx]
      split
      · exact .inr rfl
      · exact .inl hx
    | false =>
      rw [Stream.stopDoneTable_listen ht hx]
      exact .inr rfl
  unfold Stream.stopTable
  dsimp only
  split
  · exact .inl hs
  · split
    · refine hdone _ ?_
      show (if st.isTalk then st else st.discardTable).state = .stopping
      split
      · exact hs
      · exact (hdiscard st).trans hs
    · split
      · exact .inl ((hdiscard st).trans hs)
      · exact .inl hs

theorem Stream.stopListen_cause (st : Stream) : st.stopListen.cause = .command := by
  rw [Stream.stopListen]
  simp

theorem Stream.stopListen_working {st : Stream} (ht : st.isTalk = false)
    (hw : st.walker.mode = .walking ∨ st.walker.mode = .held) :
    st.stopListen = ({ st with
      state := .stopping, cause := .command, walker := st.walker.stopNoted false } : Stream).stopTable :=
  Stream.stopRequest_table _ false ht hw

theorem Stream.stopListen_off {st : Stream} (ht : st.isTalk = false) (hw : st.walker.mode = .off) :
    st.stopListen =
      { st with state := .stopped, cause := .command, flags := st.flags ||| 0x80#8 } := by
  have hdone : st.stopListen =
      ({ st with state := .stopping, cause := .command } : Stream).onStopDone := by
    simp only [Stream.stopListen, Stream.stopRequest, hw]
  exact hdone.trans ((Stream.onStopDone_table _).trans (Stream.stopDoneTable_listen ht rfl))

theorem Stream.stopListen_state {st : Stream} (ht : st.isTalk = false) :
    st.stopListen.state = .stopping ∨ st.stopListen.state = .stopped := by
  cases hm : st.walker.mode with
  | off =>
    rw [Stream.stopListen_off ht hm]
    exact .inr rfl
  | walking =>
    rw [Stream.stopListen_working ht (.inl hm)]
    exact Stream.stopTable_state rfl
  | held =>
    rw [Stream.stopListen_working ht (.inr hm)]
    exact Stream.stopTable_state rfl
  | stopping =>
    refine .inl ?_
    simp only [Stream.stopListen, Stream.stopRequest, hm]

/-! ### The command -/

theorem State.commandStop_refused {k : StreamNo} {s : State}
    (h : s.streams[k].state = .stopped ∨ s.streams[k].state = .faulted) :
    s.commandStop k = (s, .badState) := by
  rcases h with h | h <;> simp only [State.commandStop, h]

theorem State.commandStop_stopping {k : StreamNo} {s : State} (h : s.streams[k].state = .stopping) :
    s.commandStop k = (s, .ok) := by
  simp only [State.commandStop, h]

theorem State.commandStop_taken {k : StreamNo} {s : State} (h0 : s.streams[k].state ≠ .stopped)
    (hf : s.streams[k].state ≠ .faulted) (hs : s.streams[k].state ≠ .stopping) :
    s.commandStop k = (if s.streams[k].isTalk then s.stopTalk k .command
      else s.onStream k Stream.stopListen, .ok) := by
  unfold State.commandStop
  dsimp only
  cases he : s.streams[k].state with
  | stopped => exact absurd he h0
  | faulted => exact absurd he hf
  | stopping => exact absurd he hs
  | _ => rfl

/-- The STOP command posted (R132, R150, R169). -/
theorem exec_stop (k : StreamNo) {s : State} (hr : s.resetAsserted = false) :
    exec (.stop k) s = .next {
      s.post CommandCode.stop.code (streamIndex k) (State.commandStop k) with
        targetResponse := .answered } := targetWrite_next _ hr

/-- The stream of a stop that has begun is STOPPING or STOPPED. -/
theorem Stream.stopBegun.state {k : StreamNo} {old new : Stream} {m : Vector SlotEntry 48}
    (h : old.stopBegun k new m) : new.state = .stopping ∨ new.state = .stopped := by
  obtain ⟨-, -, hover, hgoes⟩ := h
  by_cases hend : new.walker.mode = .off ∧ ∀ i : SlotNo, m[i].stream? ≠ some k
  · exact .inr (hover hend).1
  · exact .inl (hgoes hend).1

/-- The engine and the walker of a Talk Stream after its stop began. -/
theorem State.stopTalk_engine {k : StreamNo} (c : StopCause) {s : State}
    (ht : s.streams[k].isTalk = true) :
    let new := (s.stopTalk k c).streams[k]
    new.wordOnLine = false ∧ (s.streams[k].walker.mode = .walking ∨ s.streams[k].walker.mode = .held →
      new.walker = ({ s.streams[k] with
        walker := s.streams[k].walker.stopNoted true } : Stream).stopTable.walker) := by
  obtain ⟨-, -, -, hword, hwalker⟩ :=
    State.releaseTrigger_engine k (s.onStream k (Stream.beginStop c))
  rw [State.onStream_self] at hword hwalker
  refine ⟨hword.trans ?_, fun hw => hwalker.trans (Stream.beginStop_walker c ht hw)⟩
  rw [Stream.beginStop]
  simp [Stream.emptyFifo]

/-- A posted command whose block answered `r` and left `u`. -/
theorem State.post_eq {code index : BitVec 4} {run : State → Commanded} {s u : State}
    {r : CommandResult} (h : run s = (u, r)) :
    s.post code index run = { u with command := commandWord code index, result := r } := by
  rw [State.post, h]

/-- A stop that is taken of a Talk Stream, and one of a Listen Stream. -/
theorem exec_stop_taken {k : StreamNo} {s : State} (hr : s.resetAsserted = false)
    (h0 : s.streams[k].state ≠ .stopped) (hf : s.streams[k].state ≠ .faulted)
    (hs : s.streams[k].state ≠ .stopping) {u : State}
    (hu : (if s.streams[k].isTalk then s.stopTalk k .command
      else s.onStream k Stream.stopListen) = u) :
    exec (.stop k) s = .next { u with
      command := BitVec.ofNat 32 (k.val * 256 + 4), result := .ok, targetResponse := .answered } := by
  have htaken := State.commandStop_taken h0 hf hs
  rw [hu] at htaken
  rw [exec_stop k hr, State.post_eq htaken, commandWord_stream]
  rfl

/-- Settles O44: by the state of the stream, and for a stop taken by its direction. -/
theorem stopBeginsStopping : Obligations.StopBeginsStopping := by
  intro k s hr
  by_cases hstays : s.streams[k].state = .stopped ∨ s.streams[k].state = .faulted ∨
      s.streams[k].state = .stopping
  · refine ⟨_, exec_stop k hr, rfl, commandWord_stream .stop k, fun h => ?_, fun h => ?_,
      fun h0 hf hs => absurd hstays (by tauto)⟩
    · have hrefused := State.commandStop_refused h
      exact ⟨congrArg Prod.snd hrefused, State.posted_refused (congrArg Prod.fst hrefused)⟩
    · have hsame := State.commandStop_stopping h
      exact ⟨congrArg Prod.snd hsame, State.posted_refused (congrArg Prod.fst hsame)⟩
  · obtain ⟨h0, hf, hs⟩ := not_or.mp hstays |>.imp id not_or.mp
    have hposted {ps qs : List StatePart} {u : State} (hu : s.changesOnly ps u) (hps : ps ⊆ qs)
        (hqs : [.command, .result, .targetResponse] ⊆ qs) : s.changesOnly qs { u with
          command := BitVec.ofNat 32 (k.val * 256 + 4), result := .ok, targetResponse := .answered } :=
      hu.seq (qs := [.command, .result, .targetResponse]) (fun p hp => by
        cases p <;> first | rfl | exact absurd (by decide) hp) hps hqs
    cases ht : s.streams[k].isTalk with
    | true =>
      obtain ⟨hcause, hfifo, hpriming⟩ := s.stopTalk_stream k .command ht
      obtain ⟨hword, hwalker⟩ := State.stopTalk_engine .command ht
      have hbegun := s.stopTalk_begun k .command ht
      exact ⟨_, exec_stop_taken hr h0 hf hs (if_pos ht), rfl, rfl,
        fun h => absurd h (by tauto), fun h => absurd h hs, fun _ _ _ => ⟨rfl, hcause, hbegun.state,
        fun _ => ⟨hbegun, hfifo, hpriming, hword, s.stopTalk_released k .command, hwalker,
          hposted (s.stopTalk_changes k .command) (by decide) (by decide)⟩,
        fun hl => absurd (ht.symm.trans hl) (by decide)⟩⟩
    | false =>
      have hnew := State.onStream_self k Stream.stopListen s
      refine ⟨_, exec_stop_taken hr h0 hf hs (if_neg (Bool.eq_false_iff.mp ht)), rfl, rfl,
        fun h => absurd h (by tauto), fun h => absurd h hs, fun _ _ _ => ⟨rfl,
        (congrArg Stream.cause hnew).trans (Stream.stopListen_cause _), ?_,
        fun hl => absurd (ht.symm.trans hl) (by decide), fun _ => ⟨State.onStream_others k _ s,
          fun hw => hnew.trans (Stream.stopListen_working ht hw),
          fun hoff => hnew.trans (Stream.stopListen_off ht hoff),
          hposted (State.onStream_changes k _ s) (by decide) (by decide)⟩⟩⟩
      exact (congrArg Stream.state hnew) ▸ Stream.stopListen_state ht

end Sys2Proof.Machine
end

section
/-! The echo result of the own Data Slot cell (O21, O22): the collision at the Slot Agent, and the word that
departs at its engine. -/

namespace Sys2Proof.Machine

open Sys2Proof

/-! ### The two receivers (R12, R25, R26, R124) -/

/-- The echo result with its cell named: the record ends, the two receivers take it in either order, and
the listeners hear a match. -/
theorem exec_dataSlotEcho {i : SlotNo} {st : Instant} {x : StationNo} {g : Tag} {d : DataKind}
    {k : Option StreamNo} {s : State} (hr : s.resetAsserted = false)
    (htx : s.lnu.tx = some ⟨.dataSlot i, st, .inSlot x g d, k⟩) (matched first : Bool) :
    exec (.dataSlotEcho matched first) s = .next (
      let u := s.onLnu LineUnit.endTx
      let v := if first then (u.slotEcho matched i).engineEcho d k
        else (u.engineEcho d k).slotEcho matched i
      if matched then v.listenersHear true g v.straps.stn d else v) := by
  have hcell : s.lnu.ownSlotCell? = some (i, g, d, k) := by simp [LineUnit.ownSlotCell?, htx]
  refine (event_next _ hr).trans ?_
  rw [State.dataSlotEcho, hcell]

theorem State.engineEcho_only (d : DataKind) (k : Option StreamNo) (s : State) :
    s.changesOnly [.streams] (s.engineEcho d k) := by
  unfold State.engineEcho
  split
  · exact State.onStream_changes _ _ s
  · exact .refl _ s

/-- The echo result at the engines: the supplier of DATA takes it. -/
theorem State.engineEcho_stream (d : DataKind) (k : Option StreamNo) (j : StreamNo) (s : State) :
    (s.engineEcho d k).streams[j] = s.streams[j].echoTable s.mku.count d k j := by
  unfold State.engineEcho Stream.echoTable
  cases d with
  | data b w =>
    cases k with
    | none => rfl
    | some l =>
      rw [← Stream.dataEcho_table]
      by_cases hj : j = l
      · subst hj
        rw [if_pos rfl]
        exact State.onStream_self j _ s
      · rw [if_neg fun h => hj (Option.some.inj h).symm]
        exact State.onStream_others l _ s j hj
  | fill | keep => rfl

theorem Stream.echoTable_held (c : Word) (d : DataKind) (k : Option StreamNo) (j : StreamNo)
    (st : Stream) : (st.echoTable c d k j).held = st.held := by
  unfold Stream.echoTable
  split
  · rw [← Stream.dataEcho_table]
    split <;> simp
  · rfl
  · rfl

theorem Stream.echoTable_cfg (c : Word) (d : DataKind) (k : Option StreamNo) (j : StreamNo)
    (st : Stream) : (st.echoTable c d k j).cfg = st.cfg := by
  unfold Stream.echoTable
  split
  · rw [← Stream.dataEcho_table]
    split <;> simp
  · rfl
  · rfl

/-! ### A collision at the Slot Agent (R26) -/

/-- An entry after an echo mismatch in its slot. -/
def SlotEntry.collidedAt (stn : StationNo) : SlotEntry → SlotEntry
  | .mine g j => .collided g j stn
  | .releasing _ _ _ => .free
  | e => e

/-- What the Slot Agent reports to stream `j` of a collision in a slot that had entry `e`. -/
def Stream.collisionReport (c : Word) (e : SlotEntry) (m m' : Vector SlotEntry 48) (j : StreamNo)
    (st : Stream) : Stream :=
  match e with
  | .mine _ _ | .releasing _ _ _ => st.mapReported c m m' j
  | _ => st

theorem State.collide_mine {i : SlotNo} {g : Tag} {k : StreamNo} {s : State}
    (h : s.slotMap[i] = .mine g k) : s.collide i =
      (s.onCounters StationCounters.addCollide).setEntry i (.collided g k s.straps.stn) := by
  simp only [State.collide, State.onCounters_slotMap, h]
  rfl

theorem State.collide_releasing {i : SlotNo} {g : Tag} {k : StreamNo} {q : Bool} {s : State}
    (h : s.slotMap[i] = .releasing g k q) : s.collide i =
      ((s.onCounters StationCounters.addCollide).withdrawIfQueued i .gone).setEntry i .free := by
  simp only [State.collide, State.onCounters_slotMap, h]

theorem State.collide_other {i : SlotNo} {s : State} (hm : ∀ g k, s.slotMap[i] ≠ .mine g k)
    (hr : ∀ g k q, s.slotMap[i] ≠ .releasing g k q) :
    s.collide i = s.onCounters StationCounters.addCollide := by
  cases h : s.slotMap[i] with
  | mine g k => exact absurd h (hm g k)
  | releasing g k q => exact absurd h (hr g k q)
  | _ => simp only [State.collide, State.onCounters_slotMap, h]

/-- An entry set after its withdrawal reports the change of the map to the streams. -/
theorem State.withdrawSet_reported (i : SlotNo) (why : Withdrawal) (e : SlotEntry) (s : State)
    (j : StreamNo) :
    let t := (s.withdrawIfQueued i why).setEntry i e
    t.streams[j] = s.streams[j].mapReported s.mku.count s.slotMap t.slotMap j := by
  have hframe := s.withdrawIfQueued_changes i why
  have hstreams : (s.withdrawIfQueued i why).streams = s.streams := hframe .streams (by decide)
  have hmku : (s.withdrawIfQueued i why).mku = s.mku := hframe .mku (by decide)
  intro t
  have hreport := (s.withdrawIfQueued i why).setEntry_reported i e j
  rw [hstreams, hmku, State.withdrawIfQueued_slotMap] at hreport
  exact hreport

/-- A collision counts, and moves its own entry. -/
theorem State.collide_table (i : SlotNo) (s : State) :
    let t := s.collide i
    t.counters = s.counters.addCollide ∧ t.slotMap[i] = s.slotMap[i].collidedAt s.straps.stn
      ∧ s.otherEntriesSame i t
      ∧ (∀ g j, s.slotMap[i] = .releasing g j true → t.ccq = s.ccq.withdraw (some i) .gone)
      ∧ ((∀ g j, s.slotMap[i] ≠ .releasing g j true) → t.ccq = s.ccq)
      ∧ ∀ j : StreamNo, t.streams[j] =
        s.streams[j].collisionReport s.mku.count s.slotMap[i] s.slotMap t.slotMap j := by
  intro t
  cases he : s.slotMap[i] with
  | mine g k =>
    have ht : t = _ := State.collide_mine he
    rw [ht]
    refine ⟨State.setEntry_changes i _ _ .counters (by decide), State.setEntry_self _ _ _,
      State.setEntry_others i _ (s.onCounters StationCounters.addCollide), by simp,
      fun _ => State.setEntry_ccq _ _ _,
      State.setEntry_reported i _ (s.onCounters StationCounters.addCollide)⟩
  | releasing g k q =>
    have ht : t = _ := State.collide_releasing he
    obtain ⟨hset, hmap, hqueued, hidle⟩ :=
      (s.onCounters StationCounters.addCollide).withdrawSet_table i .gone .free
    rw [State.onCounters_slotMap, he] at hqueued hidle
    rw [ht]
    refine ⟨State.withdrawSet_changes i .gone .free _ .counters (by decide), hset, hmap,
      fun g' k' h => hqueued ?_, fun h => hidle ?_,
      (s.onCounters StationCounters.addCollide).withdrawSet_reported i .gone .free⟩
    · rw [h]
      rfl
    · cases q with
      | true => exact absurd rfl (h g k)
      | false => rfl
  | free | held _ _ _ | claiming _ _ _ | collided _ _ _ =>
    have ht : t = _ := State.collide_other (by simp [he]) (by simp [he])
    rw [ht]
    exact ⟨rfl, he, fun _ _ => rfl, by simp, fun _ => rfl, fun _ => rfl⟩

/-- The held count of the stream of a MINE entry falls by 1. -/
theorem State.collide_held {i : SlotNo} {g : Tag} {k : StreamNo} {s : State}
    (h : s.slotMap[i] = .mine g k) : (s.collide i).streams[k].held = mineCount (s.collide i).slotMap k
      ∧ mineCount (s.collide i).slotMap k + 1 = mineCount s.slotMap k := by
  have hcount := countEntries_set (·.isMineFor k) s.slotMap i (.collided g k s.straps.stn)
  rw [State.collide_mine h]
  rw [Fin.getElem_fin] at h
  simp only [h, SlotEntry.isMineFor, beq_self_eq_true, if_true, Bool.false_eq_true, if_false] at hcount
  exact ⟨State.setEntry_held _ _ _ _, hcount⟩

/-- A mismatch at its two receivers, in either order. -/
def State.mismatched (i : SlotNo) (d : DataKind) (k : Option StreamNo) (first : Bool) (s : State) :
    State :=
  if first then (s.collide i).engineEcho d k else (s.engineEcho d k).collide i

/-- Both receivers' parts of a mismatch. -/
theorem State.mismatched_table (i : SlotNo) (d : DataKind) (k : Option StreamNo) (first : Bool)
    (s : State) :
    let t := s.mismatched i d k first
    t.counters = s.counters.addCollide ∧ t.slotMap[i] = s.slotMap[i].collidedAt s.straps.stn
      ∧ s.otherEntriesSame i t
      ∧ (∀ g j, s.slotMap[i] = .mine g j → t.streams[j].held = mineCount t.slotMap j
          ∧ mineCount t.slotMap j + 1 = mineCount s.slotMap j)
      ∧ (∀ g j, s.slotMap[i] = .releasing g j true → t.ccq = s.ccq.withdraw (some i) .gone)
      ∧ ((∀ g j, s.slotMap[i] ≠ .releasing g j true) → t.ccq = s.ccq)
      ∧ (∀ j : StreamNo,
          let report := Stream.collisionReport s.mku.count s.slotMap[i] s.slotMap t.slotMap j
          let echo := Stream.echoTable s.mku.count d k j
          t.streams[j] = if first then echo (report s.streams[j]) else report (echo s.streams[j]))
      ∧ s.changesOnly agentParts t := by
  cases first with
  | true =>
    obtain ⟨hcounters, hentry, hothers, hqueued, hidle, hstreams⟩ := s.collide_table i
    have hechoed := (s.collide i).engineEcho_stream d k
    have hmku : (s.collide i).mku = s.mku := s.collide_changes i .mku (by decide)
    have hframe := (s.collide i).engineEcho_only d k
    have hmap : ((s.collide i).engineEcho d k).slotMap = (s.collide i).slotMap :=
      hframe .slotMap (by decide)
    have hccq : ((s.collide i).engineEcho d k).ccq = (s.collide i).ccq := hframe .ccq (by decide)
    have hheld (j : StreamNo) : ((s.collide i).engineEcho d k).streams[j].held =
        (s.collide i).streams[j].held := by
      rw [hechoed]
      exact Stream.echoTable_held _ _ _ _ _
    simp only [State.mismatched, State.otherEntriesSame, if_true, hmap, hccq]
    refine ⟨(hframe .counters (by decide)).trans hcounters, hentry, hothers, fun g j he => ?_, hqueued,
      hidle, fun j => ?_, (s.collide_changes i).trans (hframe.mono (by decide))⟩
    · rw [hheld]
      exact State.collide_held he
    · rw [hechoed, hmku, hstreams]
  | false =>
    have hframe := s.engineEcho_only d k
    have hmap : (s.engineEcho d k).slotMap = s.slotMap := hframe .slotMap (by decide)
    have hccq : (s.engineEcho d k).ccq = s.ccq := hframe .ccq (by decide)
    have hcount : (s.engineEcho d k).counters = s.counters := hframe .counters (by decide)
    have hstraps : (s.engineEcho d k).straps = s.straps := hframe .straps (by decide)
    have hmku : (s.engineEcho d k).mku = s.mku := hframe .mku (by decide)
    obtain ⟨hcounters, hentry, hothers, hqueued, hidle, hstreams⟩ := (s.engineEcho d k).collide_table i
    have hheld := @State.collide_held i (s := s.engineEcho d k)
    simp only [State.otherEntriesSame, hmap, hccq, hcount, hstraps, hmku, s.engineEcho_stream] at *
    refine ⟨hcounters, hentry, hothers, fun g j he => hheld g j he, hqueued, hidle, hstreams,
      (hframe.mono (by decide)).trans ((s.engineEcho d k).collide_changes i)⟩

theorem exec_dataSlotEcho_mismatch {i : SlotNo} {st : Instant} {x : StationNo} {g : Tag}
    {d : DataKind} {k : Option StreamNo} {s : State} (hr : s.resetAsserted = false)
    (htx : s.lnu.tx = some ⟨.dataSlot i, st, .inSlot x g d, k⟩) (first : Bool) :
    exec (.dataSlotEcho false first) s = .next ((s.onLnu LineUnit.endTx).mismatched i d k first) :=
  exec_dataSlotEcho hr htx false first

/-- Settles O21: the record ends, and the two receivers take the mismatch. -/
theorem collisionStandsBack : Obligations.CollisionStandsBack := by
  intro i st x g d k first s hr htx
  obtain ⟨hcounters, hentry, hothers, hheld, hqueued, hidle, hstreams, hframe⟩ :=
    State.mismatched_table i d k first (s.onLnu LineUnit.endTx)
  have hlnu : ((s.onLnu LineUnit.endTx).mismatched i d k first).lnu = s.lnu.endTx :=
    hframe .lnu (by decide)
  refine ⟨_, exec_dataSlotEcho_mismatch hr htx first, hlnu.trans (LineUnit.endTx_eq htx), ?_, ?_, hentry,
    hothers, hheld, hqueued, hidle, hstreams,
    (State.onLnu_changes _ s).seq hframe (by decide) (by decide)⟩
  · exact hcounters ▸ countsOne_satAdd _
  · exact hcounters.trans (by rw [hcounters]; rfl)

end Sys2Proof.Machine
end

section
/-! The DATA word that departs at its echo result (O22). -/

namespace Sys2Proof.Machine

open Sys2Proof

/-! ### Reports of the map and the word that departs -/

/-- Two streams with the same words counted, the same FIFO and the same walker. -/
structure Stream.SameRing (a b : Stream) : Prop where
  words : b.words = a.words
  wordOnLine : b.wordOnLine = a.wordOnLine
  fifo : b.fifo = a.fifo
  walker : b.walker = a.walker

theorem Stream.SameRing.refl (a : Stream) : a.SameRing a := ⟨rfl, rfl, rfl, rfl⟩

/-- What the Slot Agent reports of a collision does not reach the ring. -/
theorem Stream.collisionReport_ring (c : Word) (e : SlotEntry) (m m' : Vector SlotEntry 48)
    (j : StreamNo) (st : Stream) : st.SameRing (st.collisionReport c e m m' j) := by
  have hreport : st.SameRing (st.mapReported c m m' j) := by
    rw [← reportMap_table]
    constructor <;> simp
  cases e with
  | mine _ _ | releasing _ _ _ => exact hreport
  | _ => exact .refl st

theorem State.collide_ring (i : SlotNo) (j : StreamNo) (s : State) :
    s.streams[j].SameRing (s.collide i).streams[j] := by
  obtain ⟨-, -, -, -, -, hstreams⟩ := s.collide_table i
  rw [hstreams j]
  exact Stream.collisionReport_ring _ _ _ _ _ _

/-! ### The departure (R108, R124) -/

/-- The completion that a departed word brings, where no descriptor of length 0 stands prefetched. -/
theorem Stream.completedTable_done {c : Word} {n : Nat} {st : Stream}
    (hp : ∀ d, st.walker.prefetched = some d → d.length ≠ 0) :
    let w := st.walker
    let after := (st.completedTable c .done n).walker
    after.cur = w.cur + 1 ∧ after.fetch = w.cur + 1
      ∧ (after.caughtUp = true ↔ w.cur = w.ready ∨ w.caughtUp = true)
      ∧ after.records = w.records ++ [⟨w.cur, .done, BitVec.ofNat 16 n, w.firstStamp.getD 0, w.tally,
          (w.inHand.map Descriptor.notify).getD false, w.cur == w.ready⟩] := by
  have honce : st.completedTable c .done n = st.completedOnce c .done n := by
    rw [← Stream.complete_table, ← Stream.completeOnce_table]
    exact Stream.complete_once c .done n st fun d hd hl => hp d hd (Descriptor.len_eq_zero.mp hl)
  intro w after
  have hafter : after = (st.completedOnce c .done n).walker := congrArg Stream.walker honce
  rw [hafter]
  refine ⟨rfl, rfl, ?_, rfl⟩
  simp only [Stream.completedOnce, Bool.or_eq_true, beq_iff_eq]
  exact or_comm

/-- A stream whose DATA word was on the line, after its echo result. -/
theorem Stream.departTable_fields {st : Stream} (c : Word) (hw : st.wordOnLine = true) :
    let before := st.walker
    let new := st.departTable c
    let stamp : Stamp := before.firstStamp.getD (c.setWidth 16)
    new.words.toNat = min (2 ^ 32 - 1) (st.words.toNat + 1) ∧ new.wordOnLine = false
      ∧ (2 ≤ before.remaining → new.fifo = st.fifo.tail ∧ new.walker = { before with
          firstStamp := some stamp, done := before.done + 1, remaining := before.remaining - 1 })
      ∧ (before.remaining = 1 → (∀ d, before.prefetched = some d → d.length ≠ 0) →
          new.walker.cur = before.cur + 1 ∧ new.walker.fetch = before.cur + 1
          ∧ (new.walker.caughtUp = true ↔ before.cur = before.ready ∨ before.caughtUp = true)
          ∧ new.walker.records = before.records ++ [⟨before.cur, .done,
              BitVec.ofNat 16 (before.done + 1), stamp, before.tally,
              (before.inHand.map Descriptor.notify).getD false, before.cur == before.ready⟩]) := by
  have hsat : (satAdd st.words 1).toNat = min (2 ^ 32 - 1) (st.words.toNat + 1) := satAdd_toNat _ _
  by_cases h1 : st.walker.remaining = 1
  · have hgone : st.departTable c = ({ st with
        fifo := st.fifo.tail, wordOnLine := false, words := satAdd st.words 1
        walker := { st.walker with
          firstStamp := some (st.walker.firstStamp.getD (c.setWidth 16))
          done := st.walker.done + 1
          remaining := st.walker.remaining - 1 } } : Stream).completedTable c .done
            (st.walker.done + 1) := by
      simp only [Stream.departTable, hw, h1, Bool.true_eq_false, if_false, if_true]
      rfl
    rw [hgone]
    refine ⟨?_, ?_, fun h => absurd h (by omega), fun _ hp => Stream.completedTable_done hp⟩
    · rw [← Stream.complete_table]
      simpa using hsat
    · rw [← Stream.complete_table]
      simp
  · have hgone : st.departTable c = { st with
        fifo := st.fifo.tail, wordOnLine := false, words := satAdd st.words 1
        walker := { st.walker with
          firstStamp := some (st.walker.firstStamp.getD (c.setWidth 16))
          done := st.walker.done + 1
          remaining := st.walker.remaining - 1 } } := by
      simp only [Stream.departTable, hw, h1, Bool.true_eq_false, if_false]
      rfl
    rw [hgone]
    exact ⟨hsat, rfl, fun _ => ⟨rfl, rfl⟩, fun h => absurd h h1⟩

/-! ### The two echo results -/

/-- The match of a cell at its receivers: the supplier's engine, then the listeners (R12, R13). -/
theorem exec_dataSlotEcho_match {i : SlotNo} {st : Instant} {x : StationNo} {g : Tag}
    {d : DataKind} {k : Option StreamNo} {s : State} (hr : s.resetAsserted = false)
    (htx : s.lnu.tx = some ⟨.dataSlot i, st, .inSlot x g d, k⟩) (first : Bool) :
    exec (.dataSlotEcho true first) s = .next (((s.onLnu LineUnit.endTx).engineEcho d k).listenersHear
      true g ((s.onLnu LineUnit.endTx).engineEcho d k).straps.stn d) := by
  refine (exec_dataSlotEcho hr htx true first).trans ?_
  cases first <;> rfl

/-- A Talk Stream hears no cell. -/
theorem Stream.hearCell_talk {st : Stream} (ht : st.isTalk = true) (c : Word) (own : Bool) (g : Tag)
    (x : StationNo) (d : DataKind) : st.hearCell c own g x d = st :=
  if_pos ht

/-- The supplier of a DATA cell after the echo result of either kind and order: a departure, up to what
the Slot Agent reports of the map. -/
theorem exec_dataSlotEcho_supplier {i : SlotNo} {st : Instant} {x : StationNo} {g : Tag} {b : Bool}
    {w : Word} {k : StreamNo} {s : State} (hr : s.resetAsserted = false)
    (htx : s.lnu.tx = some ⟨.dataSlot i, st, .inSlot x g (.data b w), some k⟩)
    (ht : s.streams[k].isTalk = true) (matched first : Bool) :
    ∃ (t : State) (a : Stream), exec (.dataSlotEcho matched first) s = .next t
      ∧ s.streams[k].SameRing a ∧ (a.departTable s.mku.count).SameRing t.streams[k] := by
  set u := s.onLnu LineUnit.endTx with hu
  have hdepart (v : State) : (v.engineEcho (.data b w) (some k)).streams[k] =
      v.streams[k].departTable v.mku.count :=
    (v.engineEcho_stream _ _ _).trans (if_pos rfl)
  cases matched with
  | true =>
    refine ⟨_, s.streams[k], exec_dataSlotEcho_match hr htx first, .refl _, ?_⟩
    have htalk : (s.streams[k].departTable s.mku.count).isTalk = true :=
      (Stream.isTalk_congr (by rw [← Stream.dataEcho_table]; simp)).trans ht
    have hsupplier : (u.engineEcho (.data b w) (some k)).streams[k] =
        s.streams[k].departTable s.mku.count := hdepart u
    rw [State.listenersHear_stream, hsupplier, Stream.hearCell_talk htalk]
    exact .refl _
  | false =>
    refine ⟨_, if first then (u.collide i).streams[k] else s.streams[k],
      exec_dataSlotEcho_mismatch hr htx first, ?_, ?_⟩
    · cases first with
      | true => exact u.collide_ring i k
      | false => exact .refl _
    · cases first with
      | true =>
        have hmku : (u.collide i).mku = s.mku := u.collide_changes i .mku (by decide)
        have hsupplier := hdepart (u.collide i)
        rw [hmku] at hsupplier
        exact hsupplier ▸ .refl _
      | false =>
        have hring := (u.engineEcho (.data b w) (some k)).collide_ring i k
        rw [hdepart] at hring
        exact hring

/-- Settles O22: the departure at the supplier, and what a match leaves of everything else. -/
theorem dataWordDeparts : Obligations.DataWordDeparts := by
  refine ⟨fun i st x g b w k matched first s hr htx ht hw => ?_,
    fun i st x g d k first s hr htx => ?_⟩
  · obtain ⟨t, a, hexec, hring, hnew⟩ := exec_dataSlotEcho_supplier hr htx ht matched first
    refine ⟨t, hexec, ?_⟩
    have hfields := Stream.departTable_fields s.mku.count (hring.wordOnLine.trans hw)
    dsimp only at hfields
    rw [← hnew.words, ← hnew.wordOnLine, ← hnew.fifo, ← hnew.walker, hring.words, hring.fifo,
      hring.walker] at hfields
    exact hfields
  · refine ⟨_, exec_dataSlotEcho_match hr htx first, ?_, fun j ht => ?_, ?_⟩
    · have hlnu : ((s.onLnu LineUnit.endTx).engineEcho d k).lnu = s.lnu.endTx :=
        (s.onLnu LineUnit.endTx).engineEcho_only d k .lnu (by decide)
      exact hlnu.trans (LineUnit.endTx_eq htx)
    · have htalk : (s.streams[j].echoTable s.mku.count d k j).isTalk = true :=
        (Stream.isTalk_congr (Stream.echoTable_cfg _ _ _ _ _)).trans ht
      have hstream : ((s.onLnu LineUnit.endTx).engineEcho d k).streams[j] =
        s.streams[j].echoTable s.mku.count d k j := State.engineEcho_stream d k j _
      rw [State.listenersHear_stream, hstream, Stream.hearCell_talk htalk]
    · exact ((State.onLnu_changes _ s).seq ((s.onLnu LineUnit.endTx).engineEcho_only d k)
        (rs := [.lnu, .streams]) (by decide) (by decide)).trans
          ((State.onStreams_changes _ _).mono (by decide))

end Sys2Proof.Machine
end

section
/-! The register window (O50): the word at each index, laid out as section 10.2 says, and the writes that
reach no block. -/

namespace Sys2Proof.Machine

open Sys2Proof

/-! ### Fields side by side -/

theorem append_toNat {v w : Nat} (x : BitVec v) (y : BitVec w) :
    (x ++ y).toNat = y.toNat + 2 ^ w * x.toNat := by
  rw [BitVec.toNat_append, Nat.shiftLeft_eq, Nat.mul_comm, ← Nat.two_pow_add_eq_or_of_lt y.isLt,
    Nat.add_comm]

theorem ofBool_toNat (b : Bool) : (BitVec.ofBool b).toNat = b.toNat := by cases b <;> rfl

/-! ### The areas of the window (section 10.2) -/

theorem State.readWord_station {index : BitVec 8} (h : index.toNat < 16) (s : State) :
    s.readWord index = s.readStation index.toNat :=
  if_pos h

theorem State.readWord_events {index : BitVec 8} (h : 16 ≤ index.toNat) (h' : index.toNat < 64)
    (s : State) : s.readWord index = s.readEvents index.toNat := by
  unfold State.readWord
  dsimp only
  rw [if_neg (by omega), if_pos h']

/-- The word of map entry `i` stands at index 128 + i. -/
theorem State.readWord_map (i : SlotNo) (s : State) :
    s.readWord (BitVec.ofNat 8 (128 + i.val)) = s.slotMap[i].view s.straps.stn := by
  have hi := i.isLt
  have hindex : (BitVec.ofNat 8 (128 + i.val)).toNat = 128 + i.val := by
    rw [BitVec.toNat_ofNat]
    omega
  have hentry : 128 + i.val - 128 = i.val := by omega
  unfold State.readWord
  dsimp only
  rw [if_neg (by omega), if_neg (by omega), if_neg (by omega), dif_pos (by omega)]
  simp only [hindex, hentry]
  rfl

/-- The word of station `n` stands at index 176 + n; station number 0 names none. -/
theorem State.readWord_roster (n : StationNo) (s : State) :
    s.readWord (BitVec.ofNat 8 (176 + n.toNat)) = if n = 0 then 0 else (s.rsu.entry n).view := by
  have hn := n.isLt
  have hindex : (BitVec.ofNat 8 (176 + n.toNat)).toNat = 176 + n.toNat := by
    rw [BitVec.toNat_ofNat]
    omega
  have hentry : 176 + n.toNat - 176 = n.toNat := by omega
  have hzero : 176 + n.toNat = 176 ↔ n = 0 := by
    rw [← BitVec.toNat_inj]
    simp
  unfold State.readWord
  dsimp only
  rw [if_neg (by omega), if_neg (by omega), if_neg (by omega), dif_neg (by omega)]
  simp only [hindex, hentry, hzero]
  split
  · rfl
  · rfl

/-- The flag and enable words of stream `k` stand at 24 + k and 32 + k. -/
theorem State.readWord_flags (k : StreamNo) (s : State) :
    s.readWord (BitVec.ofNat 8 (24 + k.val)) = s.streams[k].flags.setWidth 32 := by
  have hk := k.isLt
  have hindex : (BitVec.ofNat 8 (24 + k.val)).toNat = 24 + k.val := by
    rw [BitVec.toNat_ofNat]
    omega
  have hstream : flagStreamOf (24 + k.val) = k := by
    apply Fin.ext
    simp only [flagStreamOf]
    omega
  rw [State.readWord_events (by omega) (by omega), hindex]
  unfold State.readEvents
  rw [if_neg (by omega), if_neg (by omega), if_neg (by omega), if_neg (by omega), if_neg (by omega),
    if_neg (by omega), if_pos (by omega)]
  simp only [hstream]

theorem State.readWord_enables (k : StreamNo) (s : State) :
    s.readWord (BitVec.ofNat 8 (32 + k.val)) = s.streams[k].enables.setWidth 32 := by
  have hk := k.isLt
  have hindex : (BitVec.ofNat 8 (32 + k.val)).toNat = 32 + k.val := by
    rw [BitVec.toNat_ofNat]
    omega
  have hstream : flagStreamOf (32 + k.val) = k := by
    apply Fin.ext
    simp only [flagStreamOf]
    omega
  rw [State.readWord_events (by omega) (by omega), hindex]
  unfold State.readEvents
  rw [if_neg (by omega), if_neg (by omega), if_neg (by omega), if_neg (by omega), if_neg (by omega),
    if_neg (by omega), if_neg (by omega), if_pos (by omega)]
  simp only [hstream]

/-- Every other word reads 0. -/
theorem State.readWord_unnamed {index : BitVec 8} (h : (6 ≤ index.toNat ∧ index.toNat < 16)
    ∨ index.toNat = 19 ∨ index.toNat = 23 ∨ (40 ≤ index.toNat ∧ index.toNat < 64)
    ∨ 208 ≤ index.toNat) (s : State) : s.readWord index = 0 := by
  have hevents (n : Nat) (hn : n = 19 ∨ n = 23 ∨ 40 ≤ n) : s.readEvents n = 0 := by
    unfold State.readEvents
    rw [if_neg (by omega), if_neg (by omega), if_neg (by omega), if_neg (by omega), if_neg (by omega),
      if_neg (by omega), if_neg (by omega), if_neg (by omega)]
  rcases h with ⟨h6, h16⟩ | h | h | ⟨h40, h64⟩ | h
  · rw [State.readWord_station h16]
    unfold State.readStation
    split <;> first | omega | rfl
  · rw [State.readWord_events (by omega) (by omega)]
    exact hevents _ (.inl h)
  · rw [State.readWord_events (by omega) (by omega)]
    exact hevents _ (.inr (.inl h))
  · rw [State.readWord_events (by omega) h64]
    exact hevents _ (.inr (.inr h40))
  · unfold State.readWord
    dsimp only
    rw [if_neg (by omega), if_neg (by omega), if_neg (by omega), dif_neg (by omega),
      if_neg (by omega), dif_neg (by omega)]

/-! ### The words as numbers -/

/-- The roster word shows the entries that are not ABSENT (R82). -/
theorem RosterUnit.bitmap_bit (u : RosterUnit) (n : StationNo) :
    u.bitmap.getLsbD n.toNat = true ↔ n ≠ 0 ∧ u.entry n ≠ .absent := by
  refine (foldl_setBits _ n.toFin (List.finRange 32) 0).trans ?_
  have hzero : (n.toFin : Fin 32).val ≠ 0 ↔ n ≠ 0 := (stationNo_ne_zero n).symm
  rw [hzero]
  simp [RosterUnit.entry]

theorem SlotEntry.view_toNat (stn : StationNo) (e : SlotEntry) : (e.view stn).toNat =
    match e with
    | .free => 0
    | .held x g n => 1 + 256 * x.toNat + 65536 * g.toNat + 16777216 * n.val
    | .claiming g k _ => 2 + 256 * stn.toNat + 65536 * g.toNat + 536870912 * k.val
    | .mine g k => 3 + 256 * stn.toNat + 65536 * g.toNat + 536870912 * k.val
    | .releasing g k _ => 4 + 256 * stn.toNat + 65536 * g.toNat + 536870912 * k.val
    | .collided g k b => 5 + 256 * stn.toNat + 65536 * g.toNat + 16777216 * b.toNat
        + 536870912 * k.val := by
  have hk (k : StreamNo) : k.val % 2 ^ 3 = k.val := Nat.mod_eq_of_lt k.isLt
  have hn (n : Fin 8) : n.val % 2 ^ 5 = n.val := Nat.mod_eq_of_lt (by omega)
  cases e <;> simp only [SlotEntry.view, append_toNat, BitVec.ofNat_eq_ofNat, BitVec.toNat_ofNat, hk, hn] <;> omega

theorem StreamConfig.readConfig_toNat (c : StreamConfig) : c.readConfig.toNat =
    (c.direction == .listen).toNat + 2 * c.filterMode.toNat + 8 * c.gapPolicy.toNat
      + 32 * c.loop.toNat + 64 * c.align.toNat + 256 * c.tag.toNat + 65536 * c.wanted.toNat
      + 16777216 * c.grace.toNat := by
  simp only [StreamConfig.readConfig, append_toNat, ofBool_toNat, BitVec.toNat_ofNat]
  omega

/-- The direction bit is Set in a Listen context. -/
theorem Stream.direction_bit (st : Stream) :
    (st.cfg.direction == .listen).toNat = if st.isTalk then 0 else 1 := by
  unfold Stream.isTalk
  cases st.cfg.direction <;> rfl

theorem Stream.status_toNat (st : Stream) (h : st.held < 16) : st.status.toNat =
    st.walker.cur.toNat + 256 * st.walker.caughtUp.toNat + 4096 * st.state.code.toNat
      + 65536 * st.cause.code.toNat
      + (if st.isTalk then 1048576 * st.held + 16777216 * st.short.toNat else 0) := by
  cases ht : st.isTalk <;>
    simp only [Stream.status, ht, append_toNat, ofBool_toNat, BitVec.toNat_ofNat, Bool.false_and,
      Bool.true_and, if_true, Bool.false_eq_true, if_false, Bool.toNat_false, Nat.zero_mod]
  · ring
  · rw [Nat.mod_eq_of_lt h]
    ring

/-- A counter pair as one word (R159). -/
theorem counterPair_toNat (high low : BitVec 16) :
    (high ++ low).toNat = low.toNat + 65536 * high.toNat :=
  append_toNat high low

/-- A field alone in its word. -/
theorem field_toNat {v : Nat} (hv : v ≤ 32) (x : BitVec v) : (x.setWidth 32).toNat = x.toNat :=
  BitVec.toNat_setWidth_of_le hv

theorem State.readWord_identity (s : State) : (s.readWord 0).toNat =
    s.straps.stn.toNat + 256 * s.straps.rate.toNat + 4096 * s.straps.autojoin.toNat := by
  show (s.readStation 0).toNat = _
  simp only [State.readStation, append_toNat, ofBool_toNat, BitVec.toNat_ofNat]
  omega

theorem State.readWord_standing (s : State) : (s.readWord 1).toNat =
    s.rsu.membership.code.toNat + (if s.lnu.sync = .synced then 256 else 0) := by
  have hsync : (s.lnu.sync == .synced).toNat = if s.lnu.sync = .synced then 1 else 0 := by
    cases s.lnu.sync <;> rfl
  show (s.readStation 1).toNat = _
  simp only [State.readStation, append_toNat, ofBool_toNat, BitVec.toNat_ofNat, hsync]
  split <;> rfl

/-! ### A write that reaches no block (R165) -/

theorem State.writeWord_other {index : BitVec 8} (h : writableIndex index = false) (w : Word)
    (s : State) : s.writeWord index w = s := by
  simp only [writableIndex, Bool.or_eq_false_iff, Bool.and_eq_false_iff, beq_eq_false_iff_ne,
    decide_eq_false_iff_not] at h
  obtain ⟨⟨⟨⟨h4, h16⟩, h17⟩, hstreams⟩, hcontexts⟩ := h
  unfold State.writeWord
  dsimp only
  rw [if_neg h4, if_neg h16, if_neg h17, if_neg (by omega), if_neg (by omega)]
  split
  · split <;> first | omega | rfl
  · rfl

/-- A word as it reads does not show the answer to an access. -/
theorem State.readWord_answered (s : State) (i : BitVec 8) :
    State.readWord { s with targetResponse := .answered } i = s.readWord i := rfl

/-- Settles O50: the areas of the window, word by word. -/
theorem registerWindowReads : Obligations.RegisterWindowReads := by
  refine ⟨fun s => ?_, fun k s => ?_, fun i s => ?_, fun n s => ?_, fun index s h => ?_,
    fun index value s hr h => ⟨?_, s.readWord_answered⟩⟩
  · refine ⟨s.readWord_identity, s.readWord_standing.trans ?_, rfl, s.rsu.bitmap_bit, rfl, ?_,
      field_toNat (by decide) s.stationFlags, field_toNat (by decide) s.stationEnables,
      field_toNat (by decide) s.summary, counterPair_toNat _ _, counterPair_toNat _ _, counterPair_toNat _ _⟩
    · cases s.rsu.membership <;> rfl
    · refine (field_toNat (by decide) s.result.code).trans ?_
      cases s.result <;> rfl
  · have hword (n : Nat) (hn : n < 8) := s.readWord_context k hn
    dsimp only
    rw [State.readWord_flags, State.readWord_enables, hword 0 (by decide), hword 1 (by decide),
      hword 2 (by decide), hword 3 (by decide), hword 4 (by decide), hword 5 (by decide),
      hword 6 (by decide), hword 7 (by decide)]
    refine ⟨field_toNat (by decide) _, field_toNat (by decide) _, ?_, field_toNat (by decide) _, rfl,
      field_toNat (by decide) _, fun h => ?_, rfl, counterPair_toNat _ _, rfl⟩
    · rw [← Stream.direction_bit]
      exact StreamConfig.readConfig_toNat _
    · refine (Stream.status_toNat _ h).trans ?_
      cases s.streams[k].state <;> cases s.streams[k].cause <;> rfl
  · rw [State.readWord_map]
    exact SlotEntry.view_toNat _ _
  · rw [State.readWord_roster]
    split
    · rfl
    · cases s.rsu.entry n <;> rfl
  · refine State.readWord_unnamed ?_ s
    rcases h with h | rfl | rfl | h | h
    · exact .inl h
    · exact .inr (.inl rfl)
    · exact .inr (.inr (.inl rfl))
    · exact .inr (.inr (.inr (.inl h)))
    · exact .inr (.inr (.inr (.inr h)))
  · refine (targetWrite_next _ hr).trans ?_
    rw [State.writeWord_other h]

end Sys2Proof.Machine
end

section
/-! The queue at a clean Mark (O14, R49): what the four blocks that take it, in any order, leave of the turn,
of the head's wait and of the entries. -/

namespace Sys2Proof.Machine

open Sys2Proof

/-! ### The queue while `n` Marks pass it -/

/-- A queue from `q` to `r` with `n` Marks taken between them. A JOIN or LEAVE may leave it only where
`joins` holds. -/
structure CellQueue.Passed (joins : Prop) (n : Nat) (q r : CellQueue) : Prop where
  onLine : r.onLine = q.onLine
  steady : n = 0 → r.turnOpen = q.turnOpen
  ready : (∀ x ∈ q.entries, x.wait = 0) →
    (∀ x ∈ r.entries, x.wait = 0) ∧ (n ≠ 0 → r.turnOpen = true)
  head : ∀ e es, q.entries = e :: es → e.cell.slot? ≠ none ∨ ¬ joins →
    ∃ es', r.entries = { e with wait := e.wait - n } :: es'
      ∧ (∀ x ∈ es, x.cell.slot? ≠ none → x ∈ es') ∧ (n ≠ 0 → (r.turnOpen = true ↔ e.wait = 0))

theorem CellQueue.Passed.refl (joins : Prop) (q : CellQueue) : q.Passed joins 0 q :=
  ⟨rfl, fun _ => rfl, fun h => ⟨h, fun h0 => absurd rfl h0⟩,
    fun _ es h _ => ⟨es, h, fun _ hx _ => hx, fun h0 => absurd rfl h0⟩⟩

/-- One Mark at most passes the queue. -/
theorem CellQueue.Passed.trans {joins : Prop} {n m : Nat} {q r t : CellQueue} (hn : n + m ≤ 1)
    (h₁ : q.Passed joins n r) (h₂ : r.Passed joins m t) : q.Passed joins (n + m) t := by
  refine ⟨h₂.onLine.trans h₁.onLine, fun h => ?_, fun h => ?_, fun e es he hj => ?_⟩
  · exact (h₂.steady (by omega)).trans (h₁.steady (by omega))
  · obtain ⟨hr, hopen⟩ := h₁.ready h
    obtain ⟨ht, hopen'⟩ := h₂.ready hr
    refine ⟨ht, fun h0 => ?_⟩
    by_cases hm : m = 0
    · rw [h₂.steady hm]
      exact hopen (by omega)
    · exact hopen' hm
  · obtain ⟨es', hr, hkept, hopen⟩ := h₁.head e es he hj
    obtain ⟨es'', ht, hkept', hopen'⟩ := h₂.head _ es' hr hj
    refine ⟨es'', by rw [ht, Nat.sub_sub], fun x hx hs => hkept' x (hkept x hx hs) hs, fun h0 => ?_⟩
    by_cases hm : m = 0
    · rw [h₂.steady hm]
      exact hopen (by omega)
    · have hn0 : n = 0 := by omega
      subst hn0
      exact hopen' hm

/-- An offer joins the tail, with no wait (R46). -/
theorem CellQueue.passed_offer (joins : Prop) {q r : CellQueue} {c : QueueCell}
    (h : q.offer c = some r) : q.Passed joins 0 r := by
  obtain ⟨rfl, -, -⟩ := CellQueue.offer_some h
  refine ⟨rfl, fun _ => rfl, fun hwait => ⟨fun x hx => ?_, fun h0 => absurd rfl h0⟩,
    fun e es he _ => ⟨es ++ [⟨c, 0, 0, none⟩], by rw [he]; rfl,
      fun x hx _ => List.mem_append_left _ hx, fun h0 => absurd rfl h0⟩⟩
  rcases List.mem_append.mp hx with hx | hx
  · exact hwait x hx
  · rw [List.mem_singleton.mp hx]

/-- The withdrawal of the JOIN keeps every entry that has a slot, and every wait (R47, R48). -/
theorem CellQueue.passed_withdraw {joins : Prop} (hj : joins) (why : Withdrawal) (q : CellQueue) :
    q.Passed joins 0 (q.withdraw none why) := by
  unfold CellQueue.withdraw
  split
  · exact .refl _ _
  · rename_i e es he
    by_cases hs : e.cell.slot? = none
    · rw [if_pos hs]
      have hhead (r : CellQueue) : ∀ d ds, q.entries = d :: ds → d.cell.slot? ≠ none ∨ ¬ joins →
          ∃ es', r.entries = { d with wait := d.wait - 0 } :: es'
            ∧ (∀ x ∈ ds, x.cell.slot? ≠ none → x ∈ es')
            ∧ ((0 : Nat) ≠ 0 → (r.turnOpen = true ↔ d.wait = 0)) := fun d ds hd hslot => by
        rw [he, List.cons.injEq] at hd
        exact (hslot.resolve_right (not_not.mpr hj) (hd.1 ▸ hs)).elim
      split
      · refine ⟨rfl, fun _ => rfl, fun hwait => ⟨fun x hx => ?_, fun h0 => absurd rfl h0⟩, hhead _⟩
        rw [he] at hwait
        rcases List.mem_cons.mp hx with rfl | hx
        · exact hwait e (List.mem_cons_self ..)
        · exact hwait x (List.mem_cons_of_mem _ hx)
      · refine ⟨rfl, fun _ => rfl, fun hwait => ⟨fun x hx => ?_, fun h0 => absurd rfl h0⟩, hhead _⟩
        exact hwait x (he ▸ List.mem_cons_of_mem _ hx)
    · rw [if_neg hs]
      refine ⟨rfl, fun _ => rfl, fun hwait => ⟨fun x hx => ?_, fun h0 => absurd rfl h0⟩,
        fun d ds hd _ => ⟨es.eraseP fun e => e.cell.slot? == none, ?_, fun x hx hslot => ?_,
          fun h0 => absurd rfl h0⟩⟩
      · rw [he] at hwait
        rcases List.mem_cons.mp hx with rfl | hx
        · exact hwait x (List.mem_cons_self ..)
        · exact hwait x (List.mem_cons_of_mem _ (List.mem_of_mem_eraseP hx))
      · rw [he, List.cons.injEq] at hd
        rw [← hd.1]
        rfl
      · rw [he, List.cons.injEq] at hd
        rw [hd.2]
        exact (List.mem_eraseP_of_neg (by simpa using hslot)).mpr hx

/-- The Mark itself at the queue (R49). -/
theorem CellQueue.passed_onMark (joins : Prop) (q : CellQueue) : q.Passed joins 1 q.onMark := by
  refine ⟨q.onMark_onLine, fun h => absurd h (by decide), fun hwait => ?_, fun e es he _ => ⟨es, ?_⟩⟩
  · unfold CellQueue.onMark
    split
    · exact ⟨hwait, fun _ => rfl⟩
    · rename_i e es he
      rw [if_pos (hwait e (he ▸ List.mem_cons_self ..))]
      exact ⟨hwait, fun _ => rfl⟩
  · simp only [CellQueue.onMark, he]
    split
    · rename_i h0
      refine ⟨?_, fun x hx _ => hx, fun _ => iff_of_true rfl h0⟩
      show q.entries = _
      rw [he]
      obtain ⟨cell, attempt, wait, withdrawn⟩ := e
      cases h0
      rfl
    · rename_i h0
      exact ⟨rfl, fun x hx _ => hx, fun _ => iff_of_false (by simp) h0⟩

/-! ### The Roster Unit at the queue (R89, R92) -/

/-- What the Roster Unit does to the queue at a MARK: nothing, the offer of a JOIN or LEAVE, or, where the
station was JOINING, the withdrawal of its JOIN. -/
def CellQueue.RosterServed (joins : Prop) (q r : CellQueue) : Prop :=
  r = q ∨ (∃ c, c.slot? = none ∧ q.offer c = some r) ∨ (joins ∧ r = q.withdraw none .gone)

theorem State.offerControl_served {i : ControlIntent} {c : QueueCell} (hc : c.slot? = none)
    (joins : Prop) (s : State) : s.ccq.RosterServed joins (s.offerControl i c).ccq := by
  unfold State.offerControl
  split
  · rename_i q hq
    exact .inr (.inl ⟨c, hc, hq⟩)
  · exact .inl rfl

theorem State.reoffer_served (joins : Prop) (s : State) :
    s.ccq.RosterServed joins s.reoffer.ccq := by
  unfold State.reoffer
  split
  · exact .inl rfl
  · split
    · exact .inl rfl
    · exact State.offerControl_served rfl joins s
    · exact State.offerControl_served rfl joins s

theorem State.learnMark_served (joins : Prop) (s : State) :
    s.ccq.RosterServed joins s.learnMark.ccq := by
  unfold State.learnMark
  split
  · exact .inl rfl
  · exact State.offerControl_served (c := .join) rfl joins
      ((s.onRsu fun u => { u with learnCount := 2, attempt := 1 }).setMembership .joining)

theorem State.attemptEnds_served (joins : Prop) (s : State) :
    s.ccq.RosterServed joins s.attemptEnds.ccq := by
  unfold State.attemptEnds
  split
  · exact State.offerControl_served (c := .join) rfl joins
      (s.onRsu fun u => { u with attempt := u.attempt + 1 })
  · exact .inl rfl

theorem State.joinWait_served (joins : Prop) (s : State) :
    s.ccq.RosterServed joins s.joinWait.ccq := by
  unfold State.joinWait
  split
  · exact s.reoffer_served joins
  · split
    · exact State.attemptEnds_served joins (s.onRsu fun u => { u with joinTimer := none })
    · exact .inl rfl

theorem State.membershipMark_served (b : Bool) (s : State) :
    s.ccq.RosterServed (s.rsu.membership = .joining) (s.membershipMark b).ccq := by
  unfold State.membershipMark
  split
  · exact .inl rfl
  · exact s.learnMark_served _
  · rename_i hm
    split
    · rw [State.joined_ccq]
      split
      · exact .inr (.inr ⟨hm, rfl⟩)
      · exact .inl rfl
    · exact s.joinWait_served _
  · split
    · exact .inl rfl
    · exact State.offerControl_served (c := .join) rfl _
        ((s.onRsu fun u => { u with attempt := 1 }).setMembership .joining)
  · exact s.reoffer_served _
  · split <;> exact .inl rfl

theorem State.rosterOwnMark_served (joins : Prop) (s : State) :
    s.ccq.RosterServed joins s.rosterOwnMark.ccq := by
  unfold State.rosterOwnMark
  split
  · exact .inl rfl
  · exact .inl rfl
  · exact s.learnMark_served _
  · exact s.reoffer_served _
  · exact s.reoffer_served _
  · exact .inl rfl

theorem State.rosterTask_served (own : Bool) (x : StationNo) (b : Word) (y : Option StationNo)
    (s : State) :
    s.ccq.RosterServed (s.rsu.membership = .joining) (s.markTask own x b y .roster).ccq := by
  cases own with
  | true => exact s.rosterOwnMark_served _
  | false =>
    have hkeeps := s.refresh_rosterWaits x b
    have hserved := State.membershipMark_served (b.getLsbD s.straps.stn.toNat)
      (s.onRsu fun u => (u.heard s.straps.stn x).adoptBitmap s.straps.stn b)
    rw [hkeeps.membership] at hserved
    exact hserved

theorem CellQueue.RosterServed.passed {joins : Prop} {q r : CellQueue} (h : q.RosterServed joins r) :
    q.Passed joins 0 r := by
  rcases h with rfl | ⟨c, -, hc⟩ | ⟨hj, rfl⟩
  · exact .refl _ _
  · exact CellQueue.passed_offer _ hc
  · exact CellQueue.passed_withdraw hj _ q

/-! ### The four at the queue -/

/-- One of the four, by the Mark it is or is not at the queue. -/
theorem State.markTask_passed (own : Bool) (x : StationNo) (b : Word) (y : Option StationNo)
    {joins : Prop} (t : MarkTask) (s : State) (hj : t = .roster → s.rsu.membership = .joining → joins) :
    s.ccq.Passed joins (if t = .queue then 1 else 0) (s.markTask own x b y t).ccq := by
  cases t with
  | miss =>
    cases y with
    | none => exact .refl _ _
    | some y => exact .refl _ _
  | roster =>
    rcases s.rosterTask_served own x b y with h | h | ⟨hm, h⟩
    · exact CellQueue.RosterServed.passed (.inl h)
    · exact CellQueue.RosterServed.passed (.inr (.inl h))
    · exact CellQueue.RosterServed.passed (.inr (.inr ⟨hj rfl hm, h⟩))
  | slotAgent =>
    obtain ⟨m, hm⟩ := s.slotAgentMark_ccq
    rw [State.markTask_slotAgent, hm]
    exact offerSlots_keeps (s.ccq.Passed joins 0 ·)
      (fun q q' c _ ho h => CellQueue.Passed.trans (by decide) h (CellQueue.passed_offer joins ho))
      allSlots m s.ccq (.refl _ _)
  | queue => exact s.ccq.passed_onMark joins

/-- The four in any order: one Mark passes, and the Roster Unit's turn finds the membership as it was. -/
theorem State.markTasks_passed (own : Bool) (x : StationNo) (b : Word) (y : Option StationNo)
    {joins : Prop} (l : List MarkTask) (s : State) (hroster : l.count .roster ≤ 1)
    (hqueue : l.count .queue ≤ 1) (hj : .roster ∈ l → s.rsu.membership = .joining → joins) :
    s.ccq.Passed joins (l.count .queue) (l.foldl (State.markTask own x b y) s).ccq := by
  induction l generalizing s with
  | nil => exact .refl _ _
  | cons t l ih =>
    have hstep := s.markTask_passed own x b y (joins := joins) t fun ht => hj (by simp [ht])
    have hcount : (t :: l).count .queue = (if t = .queue then 1 else 0) + l.count .queue := by
      rw [List.count_cons, Nat.add_comm]
      simp
    have hrest := ih (s.markTask own x b y t)
      (Nat.le_trans (List.count_le_count_cons ..) hroster)
      (Nat.le_trans (List.count_le_count_cons ..) hqueue) fun hmem hm => ?_
    · rw [hcount] at hqueue ⊢
      exact hstep.trans hqueue hrest
    · have ht : t ≠ .roster := by
        rintro rfl
        rw [List.count_cons_self] at hroster
        exact List.count_eq_zero.mp (by omega) hmem
      exact hj (List.mem_cons_of_mem _ hmem)
        ((State.markTask_rosterWaits own x b y s ht).membership.symm.trans hm)

/-- The queue after the clean Mark (R49). -/
theorem State.markOrder_passed (own : Bool) (x : StationNo) (b : Word) (y : Option StationNo)
    (o : Fin 24) (s : State) : s.ccq.Passed (s.rsu.membership = .joining) 1
      ((markOrder o).foldl (State.markTask own x b y) s).ccq := by
  have hpassed := State.markTasks_passed own x b y (markOrder o) s
    (joins := s.rsu.membership = .joining) (by rw [markOrder_count]) (by rw [markOrder_count])
    fun _ h => h
  rwa [markOrder_count] at hpassed

end Sys2Proof.Machine
end

section
/-! The offers of the Slot Agent at a clean Mark (O14, R36, R46): which entries the queue takes, and what the
other blocks leave of the cells it holds. -/

namespace Sys2Proof.Machine

open Sys2Proof

/-! ### The offers of a list of slots -/

theorem SlotEntry.offer_table (i : SlotNo) (e : SlotEntry) : e.offer i = unqueuedTable i e := by
  cases e with
  | claiming _ _ q | releasing _ _ q => cases q <;> rfl
  | _ => rfl

theorem SlotEntry.setQueued_table (e : SlotEntry) : e.setQueued = queuedTable e := by cases e <;> rfl

theorem unqueuedTable_slot {i : SlotNo} {e : SlotEntry} {c : QueueCell}
    (h : unqueuedTable i e = some c) : c.slot? = some i := by
  unfold unqueuedTable at h
  split at h <;> cases h <;> rfl

/-- The slots of a list whose entries offer a cell. -/
def unqueuedSlots (is : List SlotNo) (m : Vector SlotEntry 48) : List SlotNo :=
  is.filter fun i => (unqueuedTable i m[i]).isSome

/-- The cells that these slots offer. -/
def offeredCells (is : List SlotNo) (m : Vector SlotEntry 48) : List QueueCell :=
  is.filterMap fun i => unqueuedTable i m[i]

theorem unqueuedSlots_congr {is : List SlotNo} {m m' : Vector SlotEntry 48}
    (h : ∀ j ∈ is, m'[j] = m[j]) : unqueuedSlots is m' = unqueuedSlots is m :=
  List.filter_congr fun j hj => by rw [h j hj]

theorem offeredCells_congr {is : List SlotNo} {m m' : Vector SlotEntry 48}
    (h : ∀ j ∈ is, m'[j] = m[j]) : offeredCells is m' = offeredCells is m :=
  List.filterMap_congr fun j hj => by rw [h j hj]

theorem offeredCells_cons {i : SlotNo} {is : List SlotNo} {m : Vector SlotEntry 48} {c : QueueCell}
    (h : unqueuedTable i m[i] = some c) : offeredCells (i :: is) m = c :: offeredCells is m :=
  List.filterMap_cons_some (f := fun i : SlotNo => unqueuedTable i m[i]) h

theorem offeredCells_slots {is : List SlotNo} {m : Vector SlotEntry 48} {c : QueueCell}
    (h : c ∈ offeredCells is m) : ∃ i ∈ is, c.slot? = some i := by
  obtain ⟨i, hi, hc⟩ := List.mem_filterMap.mp h
  exact ⟨i, hi, unqueuedTable_slot hc⟩

/-- Every one of the slots that offer a cell offers one. -/
theorem offeredCells_length (is : List SlotNo) (m : Vector SlotEntry 48) (n : Nat) :
    (offeredCells ((unqueuedSlots is m).take n) m).length = ((unqueuedSlots is m).take n).length :=
  List.filterMap_length_eq_length.mpr fun _ hi => (List.mem_filter.mp (List.mem_of_mem_take hi)).2

/-- What the offers of a list of slots come to when the first `n` of those that offer a cell are taken. -/
structure Offered (is : List SlotNo) (m : Vector SlotEntry 48) (q : CellQueue) (n : Nat)
    (m' : Vector SlotEntry 48) (q' : CellQueue) : Prop where
  among : n ≤ (unqueuedSlots is m).length
  entries : ∀ j : SlotNo, m'[j] = if j ∈ (unqueuedSlots is m).take n then queuedTable m[j] else m[j]
  cells : q'.entries =
    q.entries ++ (offeredCells ((unqueuedSlots is m).take n) m).map fun c => ⟨c, 0, 0, none⟩
  refused : ∀ i, (unqueuedSlots is m)[n]? = some i →
    8 ≤ q.entries.length + n ∨ ∃ e ∈ q.entries, e.cell.slot? = some i

theorem CellQueue.offer_none {c : QueueCell} {q : CellQueue} (h : q.offer c = none) :
    8 ≤ q.entries.length ∨ ∃ e ∈ q.entries, e.cell.slot? = c.slot? := by
  by_contra hno
  obtain ⟨hlen, hfree⟩ := not_or.mp hno
  rw [CellQueue.offer_taken (c := c) (by omega) fun e he hs => hfree ⟨e, he, hs⟩] at h
  cases h

theorem offerSlots_offered (is : List SlotNo) (his : is.Nodup) (m : Vector SlotEntry 48)
    (q : CellQueue) :
    ∃ n, Offered is m q n (offerSlots is (m, q)).1 (offerSlots is (m, q)).2 := by
  induction is generalizing m q with
  | nil =>
    exact ⟨0, Nat.le_refl _, fun _ => rfl, by simp [offerSlots, offeredCells],
      by simp [unqueuedSlots]⟩
  | cons i is ih =>
    obtain ⟨hi, hnodup⟩ := List.nodup_cons.mp his
    cases ho : unqueuedTable i m[i] with
    | none =>
      have hskip : unqueuedSlots (i :: is) m = unqueuedSlots is m :=
        List.filter_cons_of_neg (by rw [ho]; exact Bool.false_ne_true)
      have hoffers : offerSlots (i :: is) (m, q) = offerSlots is (m, q) := by
        simp only [offerSlots, SlotEntry.offer_table, ho]
      obtain ⟨n, h⟩ := ih hnodup m q
      rw [hoffers]
      exact ⟨n, hskip ▸ h.among, hskip ▸ h.entries, hskip ▸ h.cells, hskip ▸ h.refused⟩
    | some c =>
      have hfirst : unqueuedSlots (i :: is) m = i :: unqueuedSlots is m :=
        List.filter_cons_of_pos (by rw [ho]; rfl)
      have hslot := unqueuedTable_slot ho
      cases hq : q.offer c with
      | none =>
        have hoffers : offerSlots (i :: is) (m, q) = (m, q) := by
          simp only [offerSlots, SlotEntry.offer_table, ho, hq]
        rw [hoffers]
        refine ⟨0, Nat.zero_le _, fun _ => rfl, by simp [offeredCells], fun j hj => ?_⟩
        rw [hfirst, List.getElem?_cons_zero, Option.some.injEq] at hj
        rw [← hj, ← hslot]
        exact CellQueue.offer_none hq
      | some q' =>
        have hoffers : offerSlots (i :: is) (m, q) = offerSlots is (m.set i m[i].setQueued, q') := by
          simp only [offerSlots, SlotEntry.offer_table, ho, hq]
        have hother (j : SlotNo) (hj : j ≠ i) : (m.set i m[i].setQueued)[j] = m[j] := by
          rw [Fin.getElem_fin, slotMap_set_get, if_neg hj]
          rfl
        have hrest : ∀ j ∈ is, (m.set i m[i].setQueued)[j] = m[j] := fun j hj =>
          hother j fun he => hi (he ▸ hj)
        have hslots := unqueuedSlots_congr hrest
        obtain ⟨n, h⟩ := ih hnodup (m.set i m[i].setQueued) q'
        obtain ⟨rfl, -, -⟩ := CellQueue.offer_some hq
        have htake (j : SlotNo) (hj : j ∈ (unqueuedSlots is m).take n) : j ∈ is :=
          (List.mem_filter.mp (List.mem_of_mem_take hj)).1
        rw [hoffers]
        refine ⟨n + 1, ?_, fun j => ?_, ?_, fun j hj => ?_⟩
        · rw [hfirst, List.length_cons]
          exact Nat.succ_le_succ (hslots ▸ h.among)
        · rw [h.entries, hslots, hfirst, List.take_succ_cons]
          by_cases hj : j = i
          · subst hj
            rw [if_neg fun hmem => hi (htake j hmem), if_pos (List.mem_cons_self ..), Fin.getElem_fin,
              slotMap_set_get, if_pos rfl, SlotEntry.setQueued_table]
          · simp only [hother j hj, List.mem_cons, hj, false_or]
        · rw [h.cells, hslots, hfirst, List.take_succ_cons,
            offeredCells_congr fun j hj => hrest j (htake j hj), offeredCells_cons ho, List.map_cons,
            List.append_assoc, List.singleton_append]
        · rw [hfirst, List.getElem?_cons_succ] at hj
          have hmem : j ∈ is := (List.mem_filter.mp (List.mem_of_getElem? hj)).1
          rcases h.refused j (hslots ▸ hj) with hlen | ⟨e, he, hs⟩
          · rw [List.length_append, List.length_singleton] at hlen
            exact .inl (by omega)
          · rcases List.mem_append.mp he with he | he
            · exact .inr ⟨e, he, hs⟩
            · rw [List.mem_singleton.mp he] at hs
              exact absurd (Option.some.inj (hslot.symm.trans hs)) fun h => hi (h ▸ hmem)

/-! ### The cells that the other blocks leave in the queue -/

/-- The CLAIM and RELEASE cells of the queue, in its order. -/
def CellQueue.slotCells (q : CellQueue) : List QueueCell :=
  (q.entries.map QueueEntry.cell).filter fun c => c.slot?.isSome

theorem CellQueue.slotCells_withdraw (why : Withdrawal) (q : CellQueue) :
    (q.withdraw none why).slotCells = q.slotCells := by
  have herase (es : List QueueEntry) :
      ((es.eraseP fun e => e.cell.slot? == none).map QueueEntry.cell).filter
        (fun c => c.slot?.isSome) = (es.map QueueEntry.cell).filter fun c => c.slot?.isSome := by
    induction es with
    | nil => rfl
    | cons e es ih =>
      cases hs : e.cell.slot? with
      | none => simp [hs]
      | some i =>
        rw [List.eraseP_cons_of_neg (by simp [hs])]
        simp only [List.map_cons, List.filter_cons, ih]
  unfold CellQueue.withdraw CellQueue.slotCells
  split
  · rfl
  · rename_i e es he
    rw [he]
    split
    · rename_i hs
      split <;> simp [hs]
    · rename_i hs
      simp only [List.map_cons, List.filter_cons, herase]

theorem CellQueue.RosterServed.slotCells {joins : Prop} {q r : CellQueue}
    (h : q.RosterServed joins r) : r.slotCells = q.slotCells := by
  rcases h with rfl | ⟨c, hc, ho⟩ | ⟨-, rfl⟩
  · rfl
  · obtain ⟨rfl, -, -⟩ := CellQueue.offer_some ho
    simp [CellQueue.slotCells, hc]
  · exact CellQueue.slotCells_withdraw .gone q

theorem CellQueue.onMark_cells (q : CellQueue) :
    q.onMark.entries.map QueueEntry.cell = q.entries.map QueueEntry.cell := by
  unfold CellQueue.onMark
  split
  · rfl
  · rename_i e es he
    split
    · rfl
    · rw [he]
      rfl

theorem State.markTask_slotCells (own : Bool) (x : StationNo) (b : Word) (y : Option StationNo)
    (s : State) {t : MarkTask} (ht : t ≠ .slotAgent) :
    (s.markTask own x b y t).ccq.slotCells = s.ccq.slotCells := by
  cases t with
  | miss => cases y <;> rfl
  | roster => exact (s.rosterTask_served own x b y).slotCells
  | slotAgent => exact absurd rfl ht
  | queue => exact congrArg (List.filter _) s.ccq.onMark_cells

theorem State.markTasks_slotCells (own : Bool) (x : StationNo) (b : Word) (y : Option StationNo)
    {l : List MarkTask} (hl : .slotAgent ∉ l) (s : State) :
    (l.foldl (State.markTask own x b y) s).ccq.slotCells = s.ccq.slotCells :=
  List.foldlRecOn (motive := fun u : State => u.ccq.slotCells = s.ccq.slotCells) l _ rfl
    fun u h _ ht => (State.markTask_slotCells own x b y u fun he => hl (he ▸ ht)).trans h

/-- The miss and the Mark at the queue leave the cells of every entry. -/
theorem State.markTasks_cells (own : Bool) (x : StationNo) (b : Word) (y : Option StationNo)
    {l : List MarkTask} (hagent : .slotAgent ∉ l) (hroster : .roster ∉ l) (s : State) :
    (l.foldl (State.markTask own x b y) s).ccq.entries.map QueueEntry.cell =
      s.ccq.entries.map QueueEntry.cell := by
  refine List.foldlRecOn (motive := fun u : State => u.ccq.entries.map QueueEntry.cell =
    s.ccq.entries.map QueueEntry.cell) l _ rfl fun u h t ht => ?_
  refine Eq.trans ?_ h
  cases t with
  | miss => cases y <;> rfl
  | roster => exact absurd ht hroster
  | slotAgent => exact absurd ht hagent
  | queue => exact u.ccq.onMark_cells

end Sys2Proof.Machine
end

section
/-! Backoff, pause timers and the claims of a clean Mark at the Slot Agent (O14, R33 to R35). -/

namespace Sys2Proof.Machine

open Sys2Proof

/-! ### Backoff and pause (R33, steps 1 and 2) -/

theorem SlotEntry.tickBackoff_table (e : SlotEntry) : e.tickBackoff = backoffTable e := by
  cases e <;> rfl

theorem SlotEntry.tickBackoff_mine (k : StreamNo) (e : SlotEntry) :
    e.tickBackoff.isMineFor k = e.isMineFor k := by
  cases e with
  | collided g j b =>
    simp only [SlotEntry.tickBackoff]
    split_ifs <;> rfl
  | _ => rfl

/-- The states in which a Talk Stream claims (R34). -/
abbrev StreamState.claims (s : StreamState) : Prop :=
  s = .acquiring ∨ s = .running ∨ s = .drained ∨ s = .paused

/-- A stream after backoff and pause: what its claim is decided by. -/
structure Stream.Ticked (a b : Stream) : Prop where
  cfg : b.cfg = a.cfg
  held : b.held = a.held
  short : b.short = a.short
  pause : b.pauseTimer = a.pauseTimer - 1
  state : b.state.claims ↔ a.state.claims

/-- The report that none remain reaches STOPPING alone, and leaves it no state that claims. -/
theorem Stream.onNoneRemain_claims (st : Stream) : st.onNoneRemain.state.claims ↔ st.state.claims := by
  rw [Stream.noneRemain_table]
  unfold Stream.noneRemainTable
  split
  · rename_i h
    split <;> simp [h.2, StreamState.claims]
  · rfl

/-- The state of the Slot Agent at a MARK before its claims. -/
def State.ticked (s : State) : State :=
  (s.mapEntries SlotEntry.tickBackoff).onStreams fun _ => Stream.tickPause

theorem State.ticked_changes (s : State) : s.changesOnly [.slotMap, .streams] s.ticked :=
  (State.mapEntries_changes _ s).trans ((State.onStreams_changes _ _).mono (by decide))

theorem State.ticked_entry (s : State) (i : SlotNo) : s.ticked.slotMap[i] = backoffTable s.slotMap[i] :=
  (State.mapEntries_get SlotEntry.tickBackoff i s).trans (SlotEntry.tickBackoff_table _)

/-- Backoff changes no held count, so each stream has at most the report that none remain. -/
theorem State.ticked_stream {s : State} (h : HeldCountsMatch s) (k : StreamNo) :
    s.streams[k].Ticked s.ticked.streams[k] := by
  have hmine : mineCount (s.mapEntries SlotEntry.tickBackoff).slotMap k = s.streams[k].held := by
    rw [h k]
    refine countEntries_congr fun i => ?_
    rw [State.mapEntries_get]
    exact SlotEntry.tickBackoff_mine k _
  have hstream : s.ticked.streams[k] = (reportMap s.mku.count s.slotMap
      (s.mapEntries SlotEntry.tickBackoff).slotMap k s.streams[k]).tickPause :=
    (State.onStreams_get k _ _).trans (congrArg Stream.tickPause (State.mapEntries_stream _ k s))
  rw [hstream, reportMap, if_pos hmine]
  split
  · exact ⟨by simp [Stream.tickPause], by simp [Stream.tickPause], by simp [Stream.tickPause],
      by simp [Stream.tickPause], Stream.onNoneRemain_claims _⟩
  · exact ⟨rfl, rfl, rfl, rfl, .rfl⟩

/-! ### The claims of streams 0 to 7 (R33, step 3) -/

/-- The state before the claim of stream `k`. -/
def State.afterClaims (s : State) (k : Nat) : State :=
  (allStreams.take k).foldl State.autoClaim s.ticked

theorem State.slotAgentMark_eq (s : State) :
    s.slotAgentMark = (s.afterClaims 8).offerAll allSlots := rfl

theorem State.afterClaims_changes (s : State) (n : Nat) :
    s.changesOnly [.slotMap, .streams] (s.afterClaims n) :=
  s.ticked_changes.trans (State.changesOnly.foldl State.autoClaim State.autoClaim_changes _ _)

/-- The streams in index order, split at stream `k`. -/
theorem allStreams_split (k : StreamNo) :
    allStreams.take (k.val + 1) = allStreams.take k.val ++ [k] ∧
      allStreams.take 8 = allStreams.take (k.val + 1) ++ allStreams.drop (k.val + 1) ∧
      k ∉ allStreams.take k.val ∧ k ∉ allStreams.drop (k.val + 1) := by
  revert k
  decide

theorem State.afterClaims_succ (s : State) (k : StreamNo) :
    s.afterClaims (k.val + 1) = (s.afterClaims k.val).autoClaim k := by
  rw [State.afterClaims, (allStreams_split k).1, List.foldl_append]
  rfl

/-- A claim reaches the context of its own stream alone. -/
theorem State.autoClaim_others {j k : StreamNo} (h : k ≠ j) (s : State) :
    (s.autoClaim j).streams[k] = s.streams[k] := by
  unfold State.autoClaim
  split
  · split
    · rfl
    · exact State.onStream_others j _ s k h
  · rfl

theorem State.claims_others {k : StreamNo} {l : List StreamNo} (h : k ∉ l) (s : State) :
    (l.foldl State.autoClaim s).streams[k] = s.streams[k] :=
  List.foldlRecOn (motive := fun u : State => u.streams[k] = s.streams[k]) l _ rfl
    fun u hu _ hj => (State.autoClaim_others (by rintro rfl; exact h hj) u).trans hu

/-- Stream `k` before its claim, and after the last one. -/
theorem State.afterClaims_stream (s : State) (k : StreamNo) :
    (s.afterClaims k.val).streams[k] = s.ticked.streams[k] ∧
      (s.afterClaims 8).streams[k] = (s.afterClaims (k.val + 1)).streams[k] := by
  obtain ⟨-, hall, hbefore, hafter⟩ := allStreams_split k
  refine ⟨State.claims_others hbefore _, ?_⟩
  rw [State.afterClaims, hall, List.foldl_append]
  exact State.claims_others hafter _

/-- A claim moves no pause timer, and Sets SHORT where it is due and no entry is FREE. -/
theorem State.autoClaim_stream (k : StreamNo) (s : State) :
    (s.autoClaim k).streams[k].pauseTimer = s.streams[k].pauseTimer ∧
      ((s.autoClaim k).streams[k].short = true ↔ s.streams[k].short = true ∨
        (s.mayClaim k = true ∧ ∀ i : SlotNo, s.slotMap[i] ≠ .free)) := by
  cases hmay : s.mayClaim k with
  | false =>
    rw [State.autoClaim_idle hmay]
    simp
  | true =>
    cases hfree : firstFree s.slotMap with
    | some i =>
      rw [State.autoClaim_takes hmay hfree]
      have hi : s.slotMap[i] = .free := firstFree_some hfree
      exact ⟨rfl, (or_iff_left fun h => h.2 i hi).symm⟩
    | none =>
      have hfull (i : SlotNo) : s.slotMap[i] ≠ .free := by
        simpa using List.find?_eq_none.mp hfree i (List.mem_finRange i)
      rw [State.autoClaim_full hmay hfree, State.onStream_self, Stream.setShort_eq]
      exact ⟨rfl, iff_of_true rfl (.inr ⟨rfl, hfull⟩)⟩

/-- The conditions of the claim of stream `k`, from the state before the MARK reached the Slot Agent. -/
theorem State.mayClaim_afterClaims {s : State} (h : HeldCountsMatch s) (k : StreamNo) :
    (s.afterClaims k.val).mayClaim k = true ↔
      let st := s.streams[k]
      let m := (s.afterClaims k.val).slotMap
      st.isTalk = true
        ∧ (st.state = .acquiring ∨ st.state = .running ∨ st.state = .drained ∨ st.state = .paused)
        ∧ s.rsu.membership = .member ∧ st.pauseTimer ≤ 1
        ∧ st.held + countEntries (·.isClaimingFor k) m < st.cfg.wanted.toNat
        ∧ ownTotal m < 16 := by
  have hticked := s.ticked_stream h k
  have hpause : s.ticked.streams[k].pauseTimer = 0 ↔ s.streams[k].pauseTimer ≤ 1 := by
    rw [hticked.pause]
    omega
  have hstate := hticked.state
  simp only [StreamState.claims] at hstate
  have hrsu : (s.afterClaims k.val).rsu = s.rsu := s.afterClaims_changes _ .rsu (by decide)
  rw [State.mayClaim_iff]
  dsimp only
  rw [(s.afterClaims_stream k).1, hrsu, hpause, hstate, hticked.held, hticked.cfg,
    Stream.isTalk_congr hticked.cfg]
  exact and_congr_right fun _ => and_congr_right fun _ => and_congr_right fun _ => and_left_comm

end Sys2Proof.Machine
end

section
/-! The clean Mark at the Slot Agent and the queue (O14): which state the Slot Agent meets in each order of
the four, and what the others leave of its work. -/

namespace Sys2Proof.Machine

open Sys2Proof

/-! ### A stream at the claims -/

/-- What the claims of streams 0 to 7 come to for stream `k` (R33 to R35). -/
theorem State.slotAgentMark_claim {s : State} (h : HeldCountsMatch s) (k : StreamNo) :
    let m := fun n => (s.afterClaims n).slotMap
    let may := (s.afterClaims k.val).mayClaim k = true
    let full := ∀ i : SlotNo, (m k.val)[i] ≠ .free
    (may → ∀ i : SlotNo, (m k.val)[i] = .free → (∀ j : SlotNo, j < i → (m k.val)[j] ≠ .free) →
      m (k.val + 1) = (m k.val).set i (.claiming s.streams[k].cfg.tag k false)) ∧
    (¬ may ∨ full → m (k.val + 1) = m k.val) ∧
    (s.slotAgentMark.streams[k].short = true ↔ s.streams[k].short = true ∨ (may ∧ full)) ∧
    s.slotAgentMark.streams[k].pauseTimer = s.streams[k].pauseTimer - 1 := by
  intro m may full
  let a := s.afterClaims k.val
  have hticked := s.ticked_stream h k
  obtain ⟨hbefore, hafter⟩ := s.afterClaims_stream k
  have hsucc : s.afterClaims (k.val + 1) = a.autoClaim k := s.afterClaims_succ k
  have hlast : s.slotAgentMark.streams[k] = (a.autoClaim k).streams[k] := by
    rw [State.slotAgentMark_eq, State.offerAll_streams, hafter, hsucc]
  obtain ⟨hpause, hshort⟩ := a.autoClaim_stream k
  refine ⟨fun hmay i hfree hlowest => ?_, fun hnot => ?_, ?_, ?_⟩
  · show (s.afterClaims (k.val + 1)).slotMap = _
    rw [hsucc, State.autoClaim_takes hmay (firstFree_lowest hfree hlowest), State.putEntry_slotMap,
      hbefore, hticked.cfg]
  · show (s.afterClaims (k.val + 1)).slotMap = _
    rw [hsucc]
    cases hmay : a.mayClaim k with
    | false => rw [State.autoClaim_idle hmay]
    | true =>
      have hfull := hnot.resolve_left (not_not.mpr hmay)
      rw [State.autoClaim_full hmay (firstFree_none hfull)]
      rfl
  · rw [hlast, hshort, hbefore, hticked.short]
  · rw [hlast, hpause, hbefore, hticked.pause]

theorem State.offerAll_slotMap (is : List SlotNo) (s : State) :
    (s.offerAll is).slotMap = (offerSlots is (s.slotMap, s.ccq)).1 := rfl

/-- The Slot Agent ends with its offers, from the map that the claims left (R36). -/
theorem State.slotAgentMark_offered (s : State) : ∃ n,
    Offered allSlots (s.afterClaims 8).slotMap s.ccq n s.slotAgentMark.slotMap s.slotAgentMark.ccq := by
  have hccq : (s.afterClaims 8).ccq = s.ccq := s.afterClaims_changes 8 .ccq (by decide)
  rw [State.slotAgentMark_eq, State.offerAll_slotMap, State.offerAll_ccq, hccq]
  exact offerSlots_offered allSlots (List.nodup_finRange 48) _ _

/-! ### The four without the Slot Agent -/

/-- The miss, the Roster Unit and the queue leave the streams and the map alone. -/
theorem State.markTasks_changes (own : Bool) (x : StationNo) (b : Word) (y : Option StationNo)
    {l : List MarkTask} (hl : .slotAgent ∉ l) (s : State) :
    s.changesOnly rosterParts (l.foldl (State.markTask own x b y) s) := by
  refine List.foldlRecOn (motive := s.changesOnly rosterParts) l _ (.refl _ s) fun u h t ht => ?_
  refine h.trans ?_
  cases t with
  | miss =>
    cases y with
    | none => exact .refl _ u
    | some y => exact (State.onRsu_changes _ u).mono (by decide)
  | roster =>
    cases own with
    | true => exact u.rosterOwnMark_changes
    | false => exact u.rosterMark_changes x b
  | slotAgent => exact absurd ht hl
  | queue => exact (State.onCcq_changes _ u).mono (by decide)

/-- In this order the Slot Agent has its turn before the Roster Unit. -/
abbrev agentFirst (o : Fin 24) : Prop :=
  (markOrder o).idxOf .slotAgent < (markOrder o).idxOf .roster

/-- The Slot Agent has its turn once in every order, and the Roster Unit not on both sides of it. -/
theorem markOrder_agent (o : Fin 24) : ∃ before after,
    markOrder o = before ++ .slotAgent :: after ∧ .slotAgent ∉ before ∧ .slotAgent ∉ after ∧
      (agentFirst o → .roster ∉ before) ∧ (¬ agentFirst o → .roster ∉ after) := by
  refine ⟨(markOrder o).take ((markOrder o).idxOf .slotAgent),
    (markOrder o).drop ((markOrder o).idxOf .slotAgent + 1), ?_⟩
  revert o
  decide

/-- The clean Mark around the Slot Agent's turn: `p` is the state it meets, `t` the one after the four. -/
structure State.AgentTurn (o : Fin 24) (s p t : State) : Prop where
  streams : p.streams = s.streams
  slotMap : p.slotMap = s.slotMap
  streamsAfter : t.streams = p.slotAgentMark.streams
  slotMapAfter : t.slotMap = p.slotAgentMark.slotMap
  membership : (if agentFirst o then s.rsu.membership else t.rsu.membership) = p.rsu.membership
  slotCells : t.ccq.slotCells = p.slotAgentMark.ccq.slotCells
  cellsFirst : agentFirst o → p.ccq.entries.map QueueEntry.cell = s.ccq.entries.map QueueEntry.cell
  cellsLast : ¬ agentFirst o →
    t.ccq.entries.map QueueEntry.cell = p.slotAgentMark.ccq.entries.map QueueEntry.cell

theorem State.markOrder_agentTurn (own : Bool) (x : StationNo) (b : Word) (y : Option StationNo)
    (o : Fin 24) (s : State) :
    ∃ p, s.AgentTurn o p ((markOrder o).foldl (State.markTask own x b y) s) := by
  obtain ⟨before, after, hsplit, hbefore, hafter, hfirst, hlast⟩ := markOrder_agent o
  have hp := State.markTasks_changes own x b y hbefore s
  have hcells := fun h => State.markTasks_cells own x b y hbefore (hfirst h) s
  have hwaits := fun h => State.markTasks_rosterWaits own x b y (hfirst h) s
  refine ⟨before.foldl (State.markTask own x b y) s, ?_⟩
  rw [hsplit, List.foldl_append, List.foldl_cons, State.markTask_slotAgent]
  generalize before.foldl (State.markTask own x b y) s = p at *
  have ht := State.markTasks_changes own x b y hafter p.slotAgentMark
  refine ⟨hp .streams (by decide), hp .slotMap (by decide), ht .streams (by decide),
    ht .slotMap (by decide), ?_, State.markTasks_slotCells own x b y hafter _, hcells,
    fun h => State.markTasks_cells own x b y hafter (hlast h) _⟩
  by_cases h : agentFirst o
  · rw [if_pos h]
    exact (hwaits h).membership.symm
  · rw [if_neg h]
    refine (State.markTasks_rosterWaits own x b y (hlast h) p.slotAgentMark).membership.trans ?_
    exact congrArg RosterUnit.membership (p.slotAgentMark_changes .rsu (by decide))

/-! ### The queue that the offers meet -/

/-- The cells that the Slot Agent's offers put into the queue are there after the four. -/
theorem State.AgentTurn.offered {o : Fin 24} {s p t : State} (h : s.AgentTurn o p t) {n : Nat}
    {m m' : Vector SlotEntry 48}
    (ho : Offered allSlots m p.ccq n m' p.slotAgentMark.ccq) :
    (offeredCells ((unqueuedSlots allSlots m).take n) m).Sublist
      (t.ccq.entries.map QueueEntry.cell) := by
  have hslots : (offeredCells ((unqueuedSlots allSlots m).take n) m).filter
      (fun c => c.slot?.isSome) = offeredCells ((unqueuedSlots allSlots m).take n) m := by
    refine List.filter_eq_self.mpr fun c hc => ?_
    obtain ⟨i, -, hi⟩ := offeredCells_slots hc
    rw [hi]
    rfl
  have hcells : p.slotAgentMark.ccq.entries.map QueueEntry.cell =
      p.ccq.entries.map QueueEntry.cell ++ offeredCells ((unqueuedSlots allSlots m).take n) m := by
    rw [ho.cells, List.map_append, List.map_map]
    exact congrArg (_ ++ ·) (List.map_id _)
  have hheld : (offeredCells ((unqueuedSlots allSlots m).take n) m).Sublist
      p.slotAgentMark.ccq.slotCells := by
    rw [← hslots, CellQueue.slotCells, hcells]
    exact (List.sublist_append_right _ _).filter _
  rw [← h.slotCells] at hheld
  exact hheld.trans List.filter_sublist

/-- Queues that hold the same cells are equally long and hold cells of the same slots. -/
theorem CellQueue.cells_congr {q r : CellQueue}
    (h : q.entries.map QueueEntry.cell = r.entries.map QueueEntry.cell) (i : SlotNo) :
    q.entries.length = r.entries.length ∧
      ((∃ e ∈ q.entries, e.cell.slot? = some i) ↔ ∃ e ∈ r.entries, e.cell.slot? = some i) := by
  have hmem (q : CellQueue) : (∃ e ∈ q.entries, e.cell.slot? = some i) ↔
      ∃ c ∈ q.entries.map QueueEntry.cell, c.slot? = some i := by simp
  refine ⟨?_, by rw [hmem, hmem, h]⟩
  simpa using congrArg List.length h

/-- The first offer that the queue refuses finds it full, or with a cell of this slot (R36, R46). -/
theorem State.AgentTurn.refused {o : Fin 24} {s p t : State} (h : s.AgentTurn o p t) {n : Nat}
    {m m' : Vector SlotEntry 48} (ho : Offered allSlots m p.ccq n m' p.slotAgentMark.ccq)
    {i : SlotNo} (hi : (unqueuedSlots allSlots m)[n]? = some i) :
    let q := if agentFirst o then s.ccq.entries else t.ccq.entries
    8 ≤ (if agentFirst o then q.length + n else q.length) ∨ ∃ e ∈ q, e.cell.slot? = some i := by
  by_cases hfirst : agentFirst o
  · obtain ⟨hlength, hslot⟩ := CellQueue.cells_congr (h.cellsFirst hfirst) i
    simp only [if_pos hfirst, ← hlength, ← hslot]
    exact ho.refused i hi
  · obtain ⟨hlength, hslot⟩ := CellQueue.cells_congr (h.cellsLast hfirst) i
    have hn : ((unqueuedSlots allSlots m).take n).length = n :=
      List.length_take_of_le ho.among
    have hadded : p.slotAgentMark.ccq.entries.length = p.ccq.entries.length + n := by
      rw [ho.cells, List.length_append, List.length_map, offeredCells_length, hn]
    simp only [if_neg hfirst, hlength, hslot, hadded]
    refine (ho.refused i hi).imp_right fun ⟨e, he, hs⟩ => ⟨e, ?_, hs⟩
    rw [ho.cells]
    exact List.mem_append_left _ he

/-! ### The clean Mark -/

/-- A MARK that anchors reaches the four with the Line Unit and the Mark Unit moved on (R13, R17). -/
theorem State.cleanMark_tasks {heard : MarkHeard} {s : State} (o : Fin 24)
    (hr : s.resetAsserted = false) (h : s.hearsAnchor heard) :
    ∃ own x b y u, s.changesOnly [.lnu, .mku, .stationFlags] u ∧
      exec (.cleanMark heard o) s =
        .next (((markOrder o).foldl (State.markTask own x b y) u).onStreams
          fun _ => Stream.newRound) := by
  have hround (onset : Instant) (f : MarkFields) (s : State) : s.changesOnly
      [.lnu, .mku, .stationFlags] ((s.onLnu (LineUnit.anchorAt onset)).countMark f) :=
    (State.onLnu_changes _ s).seq (State.countMark_changes f _) (by decide) (by decide)
  cases heard with
  | own =>
    obtain ⟨p, start, x, f, k, htx, hanchor⟩ := h
    let u := (s.onLnu LineUnit.endTx).onMku fun m => { m with ownMark := .none }
    have hu : s.changesOnly [.lnu, .mku, .stationFlags] u :=
      (State.onLnu_changes _ s).seq (State.onMku_changes _ _) (by decide) (by decide)
    have hheard : s.ownMarkHeard o = u.anchorMark true start u.straps.stn f o := by
      rw [State.ownMarkHeard, LineUnit.ownMark_eq htx]
      exact if_pos ((State.anchors_iff s start).mpr hanchor)
    refine ⟨true, u.straps.stn, f.bitmap, u.mku.missedBy u.straps.stn u.straps.stn f.takeover, _,
      hu.trans (hround start f u), (event_next _ hr).trans ?_⟩
    exact congrArg Host.Outcome.next hheard
  | other onset x f =>
    obtain ⟨hx, hstn, hnext, hanchor⟩ := h
    refine ⟨false, x, f.bitmap, s.mku.missedBy s.straps.stn x f.takeover, _, hround onset f s,
      (event_next _ hr).trans ?_⟩
    exact congrArg Host.Outcome.next (State.otherMarkHeard_anchors o hx hstn hnext hanchor)

/-- Settles O14: the Slot Agent acts on the state it meets in the order of the four, and the others leave
its map, its streams and the cells it offered. -/
theorem cleanMarkDrivesSlotAgentAndQueue : Obligations.CleanMarkDrivesSlotAgentAndQueue := by
  intro heard o s hr hheard hheld
  obtain ⟨own, x, b, y, u, hu, hexec⟩ := State.cleanMark_tasks o hr hheard
  let v := (markOrder o).foldl (State.markTask own x b y) u
  let t := v.onStreams fun _ => Stream.newRound
  obtain ⟨p, hturn⟩ : ∃ p, u.AgentTurn o p v := State.markOrder_agentTurn own x b y o u
  have hpassed : u.ccq.Passed (u.rsu.membership = .joining) 1 v.ccq :=
    State.markOrder_passed own x b y o u
  have hrsu : u.rsu = s.rsu := hu .rsu (by decide)
  have hccq : u.ccq = s.ccq := hu .ccq (by decide)
  have hstreams : p.streams = s.streams := hturn.streams.trans (hu .streams (by decide))
  have hmap : p.slotMap = s.slotMap := hturn.slotMap.trans (hu .slotMap (by decide))
  have hcounts : HeldCountsMatch p := fun k => by rw [hstreams, hmap]; exact hheld k
  have hstream (k : StreamNo) : t.streams[k].pauseTimer = p.slotAgentMark.streams[k].pauseTimer ∧
      t.streams[k].short = p.slotAgentMark.streams[k].short := by
    have hround : t.streams[k] = v.streams[k].newRound := State.onStreams_get k _ v
    rw [hround, hturn.streamsAfter]
    simp
  obtain ⟨n, hagent⟩ := p.slotAgentMark_offered
  refine ⟨t, fun k => (p.afterClaims k).slotMap, n, hexec, fun k => ?_, fun i => ?_, fun k => ?_,
    hagent.among, fun i => ?_, hturn.offered hagent, fun i hi => ?_, fun hnil => ?_,
    fun e es he hjoin => ?_, ?_⟩
  · obtain ⟨-, -, -, hpause⟩ := State.slotAgentMark_claim hcounts k
    rw [(hstream k).1, hpause, hstreams]
  · exact (p.ticked_entry i).trans (by rw [hmap])
  · obtain ⟨htakes, hidle, hshort, -⟩ := State.slotAgentMark_claim hcounts k
    have hmay := State.mayClaim_afterClaims hcounts k
    have hmember := hturn.membership
    rw [hrsu] at hmember
    rw [← hmember] at hmay
    rw [hstreams] at hmay htakes hshort
    rw [hmay] at htakes hidle hshort
    exact ⟨htakes, hidle, (iff_of_eq (congrArg (· = true) (hstream k).2)).trans hshort⟩
  · exact (congrArg (·[i]) hturn.slotMapAfter).trans (hagent.entries i)
  · have hrefused := hturn.refused hagent hi
    rw [hccq] at hrefused
    exact hrefused
  · refine (hpassed.ready ?_).2 (by decide)
    rw [hccq, hnil]
    exact fun x hx => absurd hx (List.not_mem_nil)
  · rw [← hccq] at he
    rw [← hrsu] at hjoin
    obtain ⟨es', hhead, hkept, hopen⟩ := hpassed.head e es he hjoin
    refine ⟨?_, hopen (by decide), fun x hx hs => ?_⟩
    · show v.ccq.entries.head? = _
      rw [hhead]
      rfl
    · show x ∈ v.ccq.entries
      rw [hhead]
      exact List.mem_cons_of_mem _ (hkept x hx hs)
  · exact hpassed.onLine.trans (by rw [hccq])

end Sys2Proof.Machine
end
